-- ==== Sys2Proof/Word.lean ====
section
/-! DEFINITION. The word types of the engine (00_scope.md R12) and nothing else. -/

namespace Sys2Proof

/-- `u8`, R12. -/
abbrev Byte := BitVec 8

/-- `u32`, R12. An `s32` is held in the same 32 bits and read with `BitVec.toInt`. -/
abbrev Word := BitVec 32

/-- `f32`, R12: the 32 bits of an IEEE-754 binary32 number. -/
abbrev F32 := BitVec 32

/-- A command word of the one format `C64`, R90. -/
abbrev Command := BitVec 64

end Sys2Proof
end

