-- ==== Sys2Proof/Syntax.lean ====
section
/-! DEFINITION. The 34 operations of 30_encoding.md R92 as syntax, with their operands named (10_state.md R42, 30_encoding.md R97). -/

namespace Sys2Proof

/-- The component operand of `JHUF` and `JPDU`, and the index of `DC`: 0 Y, 1 U, 2 V (00_scope.md R19). -/
inductive Comp where
  | y | u | v
  deriving DecidableEq, Repr

/-- The block selector of `FDCT` (R97, R141): the four 8×8 luma blocks of `YP` in raster order, `UC`, `VC`. -/
inductive BlockSel where
  | y0 | y1 | y2 | y3 | uc | vc
  deriving DecidableEq, Repr

/-- The table selector of `QZZ` (R150): 0 luma, 1 chroma. -/
inductive QSel where
  | luma | chroma
  deriving DecidableEq, Repr

/-- The input selector of `ZBEGIN`, `ZCOMP` and `ADLER`, and the content of `ZSRC` (R35, R65): 0 FBUF, 3 the SRC range. -/
inductive ZSel where
  | fbuf | src
  deriving DecidableEq, Repr

/-- The message selector of `CRC32` (R261): 0 tag only, 1 tag and IHDR payload, 2 tag and ZBUF, 3 the SRC range. -/
inductive MsgSel where
  | tag | ihdr | zbuf | src
  deriving DecidableEq, Repr

/-- The payload selector of `PCHUNK` (R264): 0 empty, 1 IHDR payload, 2 ZBUF. -/
inductive PaySel where
  | empty | ihdr | zbuf
  deriving DecidableEq, Repr

/-- The host-writable registers, marked "rw" in R42. -/
inductive WReg where
  | width | height | pixfmt | filetype | quality | yuvtype | srckind
  | src0Base | src0Stride | src1Base | src1Stride | src2Base | src2Stride
  | cbase | clen | ctype
  deriving DecidableEq, Repr

/-- The read-only scalar registers of R42. -/
inductive ROReg where
  | status | fail | outlen | crcreg | adlreg | mbx | mby | row | zi | bbn | fblen | zblen | token
  | dc (c : Comp)
  | jcfg | awidth | finfo | zlen
  deriving DecidableEq, Repr

/-- The read-only array registers of R42, ids 0x40 to 0x45. -/
inductive ArrReg where
  | uy | uuv | fy | fuv | du | cdu
  deriving DecidableEq, Repr

/-- A register `RDREG` can name (R42, R281). -/
inductive RReg where
  | rw (r : WReg)
  | ro (r : ROReg)
  | arr (r : ArrReg)
  deriving DecidableEq, Repr

/-- The opcodes of R92. -/
inductive Opcode where
  | wrreg | rdreg | validate | sreset
  | jqinit | jinit | jhdr | rgb2yuv | gray2y | yuvload | csub | fdct | qzz | jhuf | jpdu | jgrayuv
  | bpush | bflush | jwblk | jrow | jfin | jenc
  | pfilt | zbegin | lzstep | zemit | zend | zcomp | adler
  | crc32 | crcchk | psig | pchunk | penc
  deriving DecidableEq, Repr

/-- One constructor per row of spec/opcode_table.json, in the table's order; operands in the order a, b, imm (R95). -/
inductive Instr where
  | wrreg (r : WReg) (imm : Word)
  | rdreg (r : RReg) (b : BitVec 16)
  | validate
  | sreset
  | jqinit
  | jinit
  | jhdr
  | rgb2yuv
  | gray2y
  | yuvload
  | csub
  | fdct (a : BlockSel)
  | qzz (a : QSel)
  | jhuf (a : Comp)
  | jpdu (a : Comp)
  | jgrayuv
  | bpush (b : BitVec 16) (value : BitVec 16)
  | bflush
  | jwblk
  | jrow
  | jfin
  | jenc
  | pfilt
  | zbegin (a : ZSel)
  | lzstep
  | zemit
  | zend
  | zcomp (a : ZSel)
  | adler (a : ZSel)
  | crc32 (a : MsgSel)
  | crcchk (imm : Word)
  | psig
  | pchunk (a : PaySel)
  | penc
  deriving DecidableEq, Repr

end Sys2Proof
end

