-- ==== Sys2Proof/WellFormed.lean ====
section
/-! DEFINITION. The operand ranges of 30_encoding.md R93 that the types of the syntax do not already say. -/

namespace Sys2Proof

/-- `RDREG`'s index is below 64 for an array register and zero for any other (R93, R281). -/
def RReg.indexOk : RReg → BitVec 16 → Bool
  | .rw _, b => b == 0
  | .ro _, b => b == 0
  | .arr _, b => b.toNat < 64

/-- The operands lie in the ranges R92 and R93 give. -/
def Instr.wf : Instr → Bool
  | .wrreg _ _ => true
  | .rdreg r b => r.indexOk b
  | .validate => true
  | .sreset => true
  | .jqinit => true
  | .jinit => true
  | .jhdr => true
  | .rgb2yuv => true
  | .gray2y => true
  | .yuvload => true
  | .csub => true
  | .fdct _ => true
  | .qzz _ => true
  | .jhuf _ => true
  | .jpdu _ => true
  | .jgrayuv => true
  | .bpush b _ => b.toNat ≤ 16
  | .bflush => true
  | .jwblk => true
  | .jrow => true
  | .jfin => true
  | .jenc => true
  | .pfilt => true
  | .zbegin _ => true
  | .lzstep => true
  | .zemit => true
  | .zend => true
  | .zcomp _ => true
  | .adler _ => true
  | .crc32 _ => true
  | .crcchk _ => true
  | .psig => true
  | .pchunk _ => true
  | .penc => true

end Sys2Proof
end

