-- ==== Sys2Proof/Decode.lean ====
section
/-! DEFINITION. The command decoder and encoder: 30_encoding.md R90 to R97 and the register ids of 10_state.md R42. -/

namespace Sys2Proof

/-- Why a command word is refused by the decoder; each of them is `IllegalOp` to the engine (R93). -/
inductive DecodeError where
  /-- the opcode byte is not in R92 -/
  | undefinedOpcode
  /-- a field the operation does not use is not zero (R91) -/
  | unusedField
  /-- a register id, selector, index or length outside the range R92 gives (R93) -/
  | operandRange
  deriving DecidableEq, Repr

/-- The opcode numbers of R92. -/
def Opcode.byte : Opcode → Byte
  | .wrreg => 0x01 | .rdreg => 0x02 | .validate => 0x03 | .sreset => 0x04
  | .jqinit => 0x10 | .jinit => 0x11 | .jhdr => 0x12 | .rgb2yuv => 0x13 | .gray2y => 0x14 | .yuvload => 0x15
  | .csub => 0x16 | .fdct => 0x17 | .qzz => 0x18 | .jhuf => 0x19 | .jpdu => 0x1A | .jgrayuv => 0x1B
  | .bpush => 0x1C | .bflush => 0x1D | .jwblk => 0x1E | .jrow => 0x1F | .jfin => 0x20 | .jenc => 0x21
  | .pfilt => 0x30 | .zbegin => 0x31 | .lzstep => 0x32 | .zemit => 0x33 | .zend => 0x34 | .zcomp => 0x35 | .adler => 0x36
  | .crc32 => 0x40 | .crcchk => 0x41 | .psig => 0x42 | .pchunk => 0x43 | .penc => 0x44

/-- The rows of R92. -/
def Opcode.all : List Opcode :=
  [.wrreg, .rdreg, .validate, .sreset,
   .jqinit, .jinit, .jhdr, .rgb2yuv, .gray2y, .yuvload, .csub, .fdct, .qzz, .jhuf, .jpdu, .jgrayuv,
   .bpush, .bflush, .jwblk, .jrow, .jfin, .jenc,
   .pfilt, .zbegin, .lzstep, .zemit, .zend, .zcomp, .adler,
   .crc32, .crcchk, .psig, .pchunk, .penc]

/-- The opcode an opcode byte names, if R92 has it. -/
def Opcode.ofByte (b : Byte) : Option Opcode := Opcode.all.find? fun o => o.byte == b

/-- The register ids of R42 marked "rw". -/
def WReg.id : WReg → Byte
  | .width => 0x00 | .height => 0x01 | .pixfmt => 0x02 | .filetype => 0x03
  | .quality => 0x04 | .yuvtype => 0x05 | .srckind => 0x06
  | .src0Base => 0x08 | .src0Stride => 0x09 | .src1Base => 0x0A | .src1Stride => 0x0B
  | .src2Base => 0x0C | .src2Stride => 0x0D
  | .cbase => 0x0E | .clen => 0x0F | .ctype => 0x10

/-- The host-writable registers in the order of R42. -/
def WReg.all : List WReg :=
  [.width, .height, .pixfmt, .filetype, .quality, .yuvtype, .srckind,
   .src0Base, .src0Stride, .src1Base, .src1Stride, .src2Base, .src2Stride,
   .cbase, .clen, .ctype]

/-- The register ids of R42 marked "ro". -/
def ROReg.id : ROReg → Byte
  | .status => 0x20 | .fail => 0x21 | .outlen => 0x22 | .crcreg => 0x23 | .adlreg => 0x24
  | .mbx => 0x25 | .mby => 0x26 | .row => 0x27 | .zi => 0x28
  | .bbn => 0x29 | .fblen => 0x2A | .zblen => 0x2B | .token => 0x2C
  | .dc .y => 0x2D | .dc .u => 0x2E | .dc .v => 0x2F
  | .jcfg => 0x30 | .awidth => 0x31 | .finfo => 0x32 | .zlen => 0x33

/-- The read-only scalar registers in the order of R42. -/
def ROReg.all : List ROReg :=
  [.status, .fail, .outlen, .crcreg, .adlreg, .mbx, .mby, .row, .zi, .bbn, .fblen, .zblen, .token,
   .dc .y, .dc .u, .dc .v, .jcfg, .awidth, .finfo, .zlen]

/-- The ids 0x40 + k of R42. -/
def ArrReg.id : ArrReg → Byte
  | .uy => 0x40 | .uuv => 0x41 | .fy => 0x42 | .fuv => 0x43 | .du => 0x44 | .cdu => 0x45

/-- The array registers in the order of R42. -/
def ArrReg.all : List ArrReg := [.uy, .uuv, .fy, .fuv, .du, .cdu]

/-- The id of any register of R42. -/
def RReg.id : RReg → Byte
  | .rw r => r.id
  | .ro r => r.id
  | .arr r => r.id

/-- Every register of R42. -/
def RReg.all : List RReg := WReg.all.map RReg.rw ++ ROReg.all.map RReg.ro ++ ArrReg.all.map RReg.arr

/-- The writable register an id names. -/
def WReg.ofId (a : Byte) : Option WReg := WReg.all.find? fun r => r.id == a

/-- The register an id names. -/
def RReg.ofId (a : Byte) : Option RReg := RReg.all.find? fun r => r.id == a

/-- Component numbers, R19. -/
def Comp.num : Comp → Byte
  | .y => 0 | .u => 1 | .v => 2

def Comp.ofNum (a : Byte) : Option Comp := [Comp.y, .u, .v].find? fun c => c.num == a

/-- Block selectors, R97. -/
def BlockSel.num : BlockSel → Byte
  | .y0 => 0 | .y1 => 1 | .y2 => 2 | .y3 => 3 | .uc => 4 | .vc => 5

def BlockSel.ofNum (a : Byte) : Option BlockSel :=
  [BlockSel.y0, .y1, .y2, .y3, .uc, .vc].find? fun c => c.num == a

/-- Table selectors, R150. -/
def QSel.num : QSel → Byte
  | .luma => 0 | .chroma => 1

def QSel.ofNum (a : Byte) : Option QSel := [QSel.luma, .chroma].find? fun c => c.num == a

/-- Input selectors, R97, R232. -/
def ZSel.num : ZSel → Byte
  | .fbuf => 0 | .src => 3

def ZSel.ofNum (a : Byte) : Option ZSel := [ZSel.fbuf, .src].find? fun c => c.num == a

/-- Message selectors, R97, R261. -/
def MsgSel.num : MsgSel → Byte
  | .tag => 0 | .ihdr => 1 | .zbuf => 2 | .src => 3

def MsgSel.ofNum (a : Byte) : Option MsgSel :=
  [MsgSel.tag, .ihdr, .zbuf, .src].find? fun c => c.num == a

/-- Payload selectors, R97, R264. -/
def PaySel.num : PaySel → Byte
  | .empty => 0 | .ihdr => 1 | .zbuf => 2

def PaySel.ofNum (a : Byte) : Option PaySel := [PaySel.empty, .ihdr, .zbuf].find? fun c => c.num == a

/-- The field `op` = bits [7:0], R90. -/
def Command.op (w : Command) : Byte := w.extractLsb' 0 8

/-- The field `a` = bits [15:8], R90. -/
def Command.a (w : Command) : Byte := w.extractLsb' 8 8

/-- The field `b` = bits [31:16], R90. -/
def Command.b (w : Command) : BitVec 16 := w.extractLsb' 16 16

/-- The field `imm` = bits [63:32], R90. -/
def Command.imm (w : Command) : Word := w.extractLsb' 32 32

/-- An operation with no operand field: `a`, `b` and `imm` must be zero (R91). -/
def decodePlain (i : Instr) (a : Byte) (b : BitVec 16) (imm : Word) : Except DecodeError Instr :=
  if a = 0 ∧ b = 0 ∧ imm = 0 then .ok i else .error .unusedField

/-- An operation whose one operand is the field `a`; `b` and `imm` must be zero (R91). -/
def decodeSel (i : Option Instr) (b : BitVec 16) (imm : Word) : Except DecodeError Instr :=
  if b = 0 ∧ imm = 0 then
    match i with
    | some i => .ok i
    | none => .error .operandRange
  else .error .unusedField

/-- The operands of `WRREG` (R280). -/
def decodeWrreg (a : Byte) (b : BitVec 16) (imm : Word) : Except DecodeError Instr :=
  if b = 0 then
    match WReg.ofId a with
    | some r => .ok (.wrreg r imm)
    | none => .error .operandRange
  else .error .unusedField

/-- The operands of `RDREG` (R281). -/
def decodeRdreg (a : Byte) (b : BitVec 16) (imm : Word) : Except DecodeError Instr :=
  if imm = 0 then
    match RReg.ofId a with
    | some r => if r.indexOk b then .ok (.rdreg r b) else .error .operandRange
    | none => .error .operandRange
  else .error .unusedField

/-- The operands of `BPUSH` (R161): `a` and `imm[31:16]` zero, the length at most 16. -/
def decodeBpush (a : Byte) (b : BitVec 16) (imm : Word) : Except DecodeError Instr :=
  if a = 0 ∧ imm.extractLsb' 16 16 = 0 then
    if b.toNat ≤ 16 then .ok (.bpush b (imm.extractLsb' 0 16)) else .error .operandRange
  else .error .unusedField

/-- The operands of `CRCCHK` (R262). -/
def decodeCrcchk (a : Byte) (b : BitVec 16) (imm : Word) : Except DecodeError Instr :=
  if a = 0 ∧ b = 0 then .ok (.crcchk imm) else .error .unusedField

/-- The operand fields of each row of R92. -/
def decodeOperands (o : Opcode) (a : Byte) (b : BitVec 16) (imm : Word) : Except DecodeError Instr :=
  match o with
  | .wrreg => decodeWrreg a b imm
  | .rdreg => decodeRdreg a b imm
  | .validate => decodePlain .validate a b imm
  | .sreset => decodePlain .sreset a b imm
  | .jqinit => decodePlain .jqinit a b imm
  | .jinit => decodePlain .jinit a b imm
  | .jhdr => decodePlain .jhdr a b imm
  | .rgb2yuv => decodePlain .rgb2yuv a b imm
  | .gray2y => decodePlain .gray2y a b imm
  | .yuvload => decodePlain .yuvload a b imm
  | .csub => decodePlain .csub a b imm
  | .fdct => decodeSel ((BlockSel.ofNum a).map .fdct) b imm
  | .qzz => decodeSel ((QSel.ofNum a).map .qzz) b imm
  | .jhuf => decodeSel ((Comp.ofNum a).map .jhuf) b imm
  | .jpdu => decodeSel ((Comp.ofNum a).map .jpdu) b imm
  | .jgrayuv => decodePlain .jgrayuv a b imm
  | .bpush => decodeBpush a b imm
  | .bflush => decodePlain .bflush a b imm
  | .jwblk => decodePlain .jwblk a b imm
  | .jrow => decodePlain .jrow a b imm
  | .jfin => decodePlain .jfin a b imm
  | .jenc => decodePlain .jenc a b imm
  | .pfilt => decodePlain .pfilt a b imm
  | .zbegin => decodeSel ((ZSel.ofNum a).map .zbegin) b imm
  | .lzstep => decodePlain .lzstep a b imm
  | .zemit => decodePlain .zemit a b imm
  | .zend => decodePlain .zend a b imm
  | .zcomp => decodeSel ((ZSel.ofNum a).map .zcomp) b imm
  | .adler => decodeSel ((ZSel.ofNum a).map .adler) b imm
  | .crc32 => decodeSel ((MsgSel.ofNum a).map .crc32) b imm
  | .crcchk => decodeCrcchk a b imm
  | .psig => decodePlain .psig a b imm
  | .pchunk => decodeSel ((PaySel.ofNum a).map .pchunk) b imm
  | .penc => decodePlain .penc a b imm

/-- The instruction a command word stands for, or why it stands for none: total on all 2^64 words (R90 to R93). -/
def decode (w : Command) : Except DecodeError Instr :=
  match Opcode.ofByte (Command.op w) with
  | some o => decodeOperands o (Command.a w) (Command.b w) (Command.imm w)
  | none => .error .undefinedOpcode

/-- The row of R92 an instruction belongs to. -/
def Instr.opcode : Instr → Opcode
  | .wrreg _ _ => .wrreg
  | .rdreg _ _ => .rdreg
  | .validate => .validate
  | .sreset => .sreset
  | .jqinit => .jqinit
  | .jinit => .jinit
  | .jhdr => .jhdr
  | .rgb2yuv => .rgb2yuv
  | .gray2y => .gray2y
  | .yuvload => .yuvload
  | .csub => .csub
  | .fdct _ => .fdct
  | .qzz _ => .qzz
  | .jhuf _ => .jhuf
  | .jpdu _ => .jpdu
  | .jgrayuv => .jgrayuv
  | .bpush _ _ => .bpush
  | .bflush => .bflush
  | .jwblk => .jwblk
  | .jrow => .jrow
  | .jfin => .jfin
  | .jenc => .jenc
  | .pfilt => .pfilt
  | .zbegin _ => .zbegin
  | .lzstep => .lzstep
  | .zemit => .zemit
  | .zend => .zend
  | .zcomp _ => .zcomp
  | .adler _ => .adler
  | .crc32 _ => .crc32
  | .crcchk _ => .crcchk
  | .psig => .psig
  | .pchunk _ => .pchunk
  | .penc => .penc

/-- The word `imm << 32 | b << 16 | a << 8 | op` of R95. -/
def packCommand (o : Opcode) (a : Byte) (b : BitVec 16) (imm : Word) : Command :=
  (imm ++ b ++ a ++ o.byte : BitVec 64)

/-- The command word of an instruction, from the fields R92 gives each row. -/
def encode : Instr → Command
  | .wrreg r imm => packCommand .wrreg r.id 0 imm
  | .rdreg r b => packCommand .rdreg r.id b 0
  | .validate => packCommand .validate 0 0 0
  | .sreset => packCommand .sreset 0 0 0
  | .jqinit => packCommand .jqinit 0 0 0
  | .jinit => packCommand .jinit 0 0 0
  | .jhdr => packCommand .jhdr 0 0 0
  | .rgb2yuv => packCommand .rgb2yuv 0 0 0
  | .gray2y => packCommand .gray2y 0 0 0
  | .yuvload => packCommand .yuvload 0 0 0
  | .csub => packCommand .csub 0 0 0
  | .fdct a => packCommand .fdct a.num 0 0
  | .qzz a => packCommand .qzz a.num 0 0
  | .jhuf a => packCommand .jhuf a.num 0 0
  | .jpdu a => packCommand .jpdu a.num 0 0
  | .jgrayuv => packCommand .jgrayuv 0 0 0
  | .bpush b v => packCommand .bpush 0 b (v.setWidth 32)
  | .bflush => packCommand .bflush 0 0 0
  | .jwblk => packCommand .jwblk 0 0 0
  | .jrow => packCommand .jrow 0 0 0
  | .jfin => packCommand .jfin 0 0 0
  | .jenc => packCommand .jenc 0 0 0
  | .pfilt => packCommand .pfilt 0 0 0
  | .zbegin a => packCommand .zbegin a.num 0 0
  | .lzstep => packCommand .lzstep 0 0 0
  | .zemit => packCommand .zemit 0 0 0
  | .zend => packCommand .zend 0 0 0
  | .zcomp a => packCommand .zcomp a.num 0 0
  | .adler a => packCommand .adler a.num 0 0
  | .crc32 a => packCommand .crc32 a.num 0 0
  | .crcchk imm => packCommand .crcchk 0 0 imm
  | .psig => packCommand .psig 0 0 0
  | .pchunk a => packCommand .pchunk a.num 0 0
  | .penc => packCommand .penc 0 0 0

/-- The command word whose bits are `w`, of which the table gives the low `nbits`; the bits above are zero. A command has one
word of 64 bits and no byte order (R90, R94; notes/assumptions/18.md). -/
def commandOfTable (nbits w : Nat) : Command := BitVec.ofNat 64 (w % 2 ^ nbits)

/-- The instruction the decoder reads from a word numbered as spec/opcode_table.json numbers it. -/
def decodeTableWord (nbits w : Nat) : Option Instr :=
  match decode (commandOfTable nbits w) with
  | .ok i => some i
  | .error _ => none

end Sys2Proof
end

