-- ==== Sys2Proof/Config.lean ====
section
/-! DEFINITION. The parameters of 00_scope.md R9 and R10, and the values the spec states nothing about (free values, no body). -/

namespace Sys2Proof.Config

/-- `BB_SLOTS`, R9, R30. -/
def bbSlots : Nat := 2048

/-- `BB_HEADROOM`, R10, R162 (notes/assumptions/11.md). -/
def bbHeadroom : Nat := 768

/-- `HASH_BUCKETS`, R9, R35. -/
def hashBuckets : Nat := 16384

/-- `WINDOW`, R9, R236. -/
def window : Nat := 32768

/-- `MAX_DIST`, R9, R249. -/
def maxDist : Nat := 32767

/-- `MIN_MATCH`, R9, R236. -/
def minMatch : Nat := 3

/-- `MAX_MATCH`, R9, R235. -/
def maxMatch : Nat := 258

/-- `ADLER_MOD`, R9, R246. -/
def adlerMod : Nat := 65521

/-- FREE VALUE. The sign and payload of a float operation's NaN result. R17 names IEEE-754 binary32, which leaves both open,
and R18 says no NaN arises from 8-bit sources (notes/assumptions/7.md). -/
opaque nanPayload : F32 → F32 → BitVec 32

/-- FREE VALUE. `ftrunc` of an infinity or a NaN, for which R17 states no result (notes/assumptions/8.md). -/
opaque truncNonFinite : F32 → Int

/-- FREE VALUE. The content of an `s32` register given an integer outside the range of `s32` (notes/assumptions/8.md). -/
opaque wideS32 : Int → Word

/-- FREE VALUE. The content of a `u32` count register (`OUTLEN`, `FBLEN`, `ZBLEN`, `ZLEN`) whose sequence holds `2^32` bytes
or more, for which the spec states nothing (notes/assumptions/9.md). -/
opaque wideCount : Nat → Word

end Sys2Proof.Config
end

