-- ==== Sys2Proof/Machine/State.lean ====
section
/-! DEFINITION. The state of the engine (10_state.md, 20_memory.md R60 to R65), its reset value (R41), and the reasons a step could stop. -/

namespace Sys2Proof.Machine

open Sys2Proof

/-- `PHASE`, R23. The codes 8 to 14 never occur, so they are no values of the type. -/
inductive Phase where
  | idle | jInit | jHdr | jBody | jDone | pHdr | pBody | pDone | failed
  deriving DecidableEq, Repr

/-- The field `ZPH` of `STATUS`, R25. -/
inductive ZPhase where
  | idle | run | done
  deriving DecidableEq, Repr

/-- `WBVAR`, R28, R191. -/
inductive WbVar where
  | subs | full | nv12 | yuv420p
  deriving DecidableEq, Repr

/-- `BLOCK`, the macroblock side, R28: 16 or 8. -/
inductive BlockSide where
  | eight | sixteen
  deriving DecidableEq, Repr

/-- The fault codes of 60_exceptions.md R301. They are the ENGINE's faults: each is taken as a next state (R304). -/
inductive FaultCode where
  | paramZeroDim | paramPixFmt | paramFileType | paramOddDim | paramYuvType | paramEngineUnsupported
  | seqFault | bitBufOverflow | unusedSymbol | lzAssert | srcAccess | outOverflow | illegalOp
  deriving DecidableEq, Repr

/-- The registers that `JQINIT` writes together and that `STATUS.QVALID` says are written (R27, R28, R40, R130). -/
structure Quant where
  /-- `UY[z]`, zig-zag position -/
  uy : Vector Byte 64
  /-- `UUV[z]`, zig-zag position -/
  uuv : Vector Byte 64
  /-- `FY[n]`, natural index -/
  fy : Vector F32 64
  /-- `FUV[n]`, natural index -/
  fuv : Vector F32 64
  subsample : Bool
  block : BlockSide
  awidth : Word
  wbvar : WbVar
  deriving DecidableEq, Repr

/-- `DC[0..2]`, s32 each, R29. -/
structure DcPred where
  y : Word
  u : Word
  v : Word
  deriving DecidableEq, Repr

/-- One slot of the bit buffer `BB`: a value and its bit length 0..16, R30. -/
structure BitPair where
  value : BitVec 16
  len : Nat
  deriving DecidableEq, Repr

/-- A token waiting to be encoded: the content of `TOKEN` while its bit `V` is set, R36. -/
inductive Token where
  /-- `M = 0`, `LL` the byte -/
  | lit (b : Byte)
  /-- `M = 1`, `LL` the length, `DIST` the distance -/
  | copy (len : BitVec 9) (dist : BitVec 15)
  deriving DecidableEq, Repr

/-- The source space `SRC`: the mapped addresses and their bytes, addresses strictly rising (R61). -/
abbrev Memory := List Host.Cell

/-- The hash table `HT`: the buckets that are not empty, with their positions oldest first, bucket numbers strictly rising
(R35, R234). -/
abbrev HashTable := List (Nat × List Nat)

/-- `OUT_CAP`, `FBUF_CAP`, `ZBUF_CAP`, R10; `none` is no limit (notes/assumptions/4.md). -/
structure Caps where
  out : Option Nat
  fbuf : Option Nat
  zbuf : Option Nat
  deriving DecidableEq, Repr

/-- `HASH3`, the three-byte hash, a parameter (R10, R43, R233): the triples of bytes, as their 24-bit key, at which the function
differs from the default of R233, with its value there, keys strictly rising. Every function has one such list, and the default is
the empty one (notes/assumptions/10.md). -/
abbrev HashFunction := List (Nat × Word)

/-- Everything the spec gives the engine. An `Option` element of an array is the spec's own written mark (R40): `none` is an
element whose mark is clear (notes/assumptions/5.md). -/
structure State where
  /-- command port: the words the host presents, oldest first (R284, notes/assumptions/1.md) -/
  cmds : List Command
  /-- `RESP`, the response to the last command (R284, notes/assumptions/2.md) -/
  resp : Word
  /-- `SRC`, the launch memory (R61, notes/assumptions/3.md) -/
  src : Memory
  /-- the capacities of OUT, FBUF and ZBUF; no step changes them -/
  caps : Caps
  /-- `HASH3`; no step changes it -/
  hash3 : HashFunction
  -- configuration registers, R21
  width : Word
  height : Word
  pixfmt : BitVec 3
  filetype : BitVec 3
  quality : Word
  yuvtype : BitVec 1
  srckind : BitVec 2
  -- source pointer registers, R22
  src0Base : Word
  src0Stride : Word
  src1Base : Word
  src1Stride : Word
  src2Base : Word
  src2Stride : Word
  cbase : Word
  clen : Word
  ctype : Word
  -- sequencer, R23, R24
  phase : Phase
  mbx : Word
  mby : Word
  row : Word
  zi : Word
  -- flags and fault registers, R25, R26
  crcok : Bool
  zph : ZPhase
  fail : Word
  finfo : Word
  -- JPEG state, R27 to R33
  /-- the tables and mode registers; present when `STATUS.QVALID = 1` -/
  quant : Option Quant
  dc : DcPred
  /-- the occupied slots of `BB`, slot 0 first -/
  bb : List BitPair
  jacc : Nat
  jaccn : Nat
  /-- `YP[j][i]` at index `16 * j + i`; so `UP`, `VP` -/
  yp : Vector (Option F32) 256
  up : Vector (Option F32) 256
  vp : Vector (Option F32) 256
  /-- `UC[j][i]` at index `8 * j + i`; so `VC` -/
  uc : Vector (Option F32) 64
  vc : Vector (Option F32) 64
  cdu : Vector (Option F32) 64
  du : Vector (Option Word) 64
  -- PNG and compressor state, R34 to R38
  fbuf : List Byte
  zsrc : ZSel
  zlen : Word
  zq : Word
  ht : HashTable
  /-- present when `TOKEN.V = STATUS.TOKV = 1` -/
  token : Option Token
  zacc : Nat
  zaccn : Nat
  zbuf : List Byte
  adlreg : Word
  crcreg : Word
  /-- `OUT`, R63 -/
  out : List Byte
  deriving DecidableEq, Repr

/-- The reasons a step stops the MODEL. There are none: every fault of the spec is taken by the engine as a next state (R304),
and every operation ends (R324). (notes/assumptions/16.md) -/
inductive Fault where
  deriving DecidableEq, Repr

/-- The reasons a step has no meaning. -/
inductive Refusal where
  /-- raised by an arm of `exec` whose instruction has no meaning yet; safe. No arm is left that raises it. -/
  | notModelled (mnemonic : String)
  deriving DecidableEq, Repr

/-- The engine right after reset: the table of R41, with nothing mapped in SRC, no capacity limits and the default `HASH3` (R10), no
command presented and `RESP = 0`. -/
def State.reset : State where
  cmds := []
  resp := 0
  src := []
  caps := { out := none, fbuf := none, zbuf := none }
  hash3 := []
  width := 0
  height := 0
  pixfmt := 0
  filetype := 0
  quality := 0
  yuvtype := 0
  srckind := 0
  src0Base := 0
  src0Stride := 0
  src1Base := 0
  src1Stride := 0
  src2Base := 0
  src2Stride := 0
  cbase := 0
  clen := 0
  ctype := 0
  phase := .idle
  mbx := 0
  mby := 0
  row := 0
  zi := 0
  crcok := false
  zph := .idle
  fail := 0
  finfo := 0
  quant := none
  dc := { y := 0, u := 0, v := 0 }
  bb := []
  jacc := 0
  jaccn := 0
  yp := Vector.replicate 256 none
  up := Vector.replicate 256 none
  vp := Vector.replicate 256 none
  uc := Vector.replicate 64 none
  vc := Vector.replicate 64 none
  cdu := Vector.replicate 64 none
  du := Vector.replicate 64 none
  fbuf := []
  zsrc := .fbuf
  zlen := 0
  zq := 0
  ht := []
  token := none
  zacc := 0
  zaccn := 0
  zbuf := []
  adlreg := 0
  crcreg := 0
  out := []

end Sys2Proof.Machine
end

