-- ==== Sys2Proof/Machine/Ops.lean ====
section
/-! DEFINITION. The shared operations: running a command, taking a fault and the reset that ends it, memory and buffers. -/

namespace Sys2Proof.Machine

open Sys2Proof

/-- What an operation does to the state: it ends well, or it raises a fault and leaves what it had written (R15, R304). -/
abbrev Body (α : Type) := EStateM FaultCode State α

/-- `raise Fault(code)`, R15. -/
def raise {α : Type} (c : FaultCode) : Body α := fun s => .error c s

/-- A condition an operation requires, else `raise Fault(code)`. -/
def require (ok : Bool) (c : FaultCode) : Body Unit := if ok then pure () else raise c

/-- `repeat n times`. -/
def repeatBody : Nat → Body Unit → Body Unit
  | 0, _ => pure ()
  | n + 1, b => do
    b
    repeatBody n b

/-- The `FAIL` codes of R301. -/
def FaultCode.code : FaultCode → Word
  | .paramZeroDim => 1
  | .paramPixFmt => 2
  | .paramFileType => 3
  | .paramOddDim => 4
  | .paramYuvType => 5
  | .paramEngineUnsupported => 6
  | .seqFault => 7
  | .bitBufOverflow => 8
  | .unusedSymbol => 9
  | .lzAssert => 10
  | .srcAccess => 11
  | .outOverflow => 12
  | .illegalOp => 13

/-- TAKING A FAULT, R304: the code and the command's opcode byte are recorded, the phase becomes `FAILED`, OUT is emptied and
the response is 0; everything else stays as the operation left it. -/
def State.takeFault (s : State) (c : FaultCode) (op : Byte) : State :=
  { s with fail := c.code, finfo := op.setWidth 32, phase := .failed, out := [], resp := 0 }

/-- THE WAY OUT OF `FAILED`, R283, R305, R320: every piece of state takes its reset value. SRC is the host's and is not touched
(R320); nor are the capacities and `HASH3`, which are parameters, and the commands the host has yet to present
(notes/assumptions/21.md). -/
def State.sreset (s : State) : State :=
  { State.reset with cmds := s.cmds, src := s.src, caps := s.caps, hash3 := s.hash3 }

/-- The response word of a command, R284. -/
def State.respond (s : State) (v : Word) : State := { s with resp := v }

/-- The oldest command presented, removed from the command port (R284). -/
def State.takeCommand (s : State) : State := { s with cmds := s.cmds.tail }

/-- Run an operation as the command with opcode byte `op`: ignored in `FAILED` (R292), else its effect and `RESP = 0`, or the
fault it raises (R304). -/
def command (op : Byte) (body : Body Unit) (s : State) : Host.Outcome State Fault Refusal :=
  if s.phase = .failed then .next (s.respond 0)
  else
    match body s with
    | .ok _ t => .next (t.respond 0)
    | .error c t => .next (t.takeFault c op)

/-- A command word the decoder refuses: ignored in `FAILED` (R292), else `Fault(IllegalOp)` (R93, R303). -/
def malformed (op : Byte) (s : State) : Host.Outcome State Fault Refusal := command op (raise .illegalOp) s

/-! Phase legality, 48_system_ops.md R290. -/

/-- The phases of the JPEG kernels. -/
def Phase.allowsKernel : Phase → Bool
  | .idle | .jInit | .jHdr | .jBody => true
  | .jDone | .pHdr | .pBody | .pDone | .failed => false

/-- The phases in which scan data may be written to OUT. -/
def Phase.allowsScan : Phase → Bool
  | .jHdr | .jBody => true
  | .idle | .jInit | .jDone | .pHdr | .pBody | .pDone | .failed => false

/-- The phases of the PNG body. -/
def Phase.allowsPng : Phase → Bool
  | .pHdr | .pBody => true
  | .idle | .jInit | .jHdr | .jBody | .jDone | .pDone | .failed => false

/-- `SeqFault` unless the current phase is in a set of R290. -/
def requirePhase (legal : Phase → Bool) : Body Unit := do
  let s ← get
  require (legal s.phase) .seqFault

/-- `SeqFault` unless the current phase is `p`. -/
def requirePhaseIs (p : Phase) : Body Unit := requirePhase fun q => decide (q = p)

/-! The source space, 20_memory.md R61, R66. -/

/-- The byte at an address, if it is mapped. -/
def Memory.read : Memory → Nat → Option Byte
  | [], _ => none
  | (a, v) :: m, k => if k = a then some v else Memory.read m k

/-- The host maps a byte at an address, or replaces the byte there. No operation of the engine does this (R61, R66). -/
def Memory.map : Memory → Nat → Byte → Memory
  | [], k, b => [(k, b)]
  | (a, v) :: m, k, b =>
    if k < a then (k, b) :: (a, v) :: m
    else if k = a then (k, b) :: m
    else (a, v) :: Memory.map m k b

/-- The host unmaps an address. -/
def Memory.unmap : Memory → Nat → Memory
  | [], _ => []
  | (a, v) :: m, k => if k = a then m else (a, v) :: Memory.unmap m k

/-- Addresses rise strictly from `lo` and lie below `2^32` (R61, `AW` = 32). -/
def Memory.wfFrom : Nat → Memory → Bool
  | _, [] => true
  | lo, (a, _) :: m => decide (lo ≤ a) && decide (a < 2 ^ 32) && Memory.wfFrom (a + 1) m

/-- The canonical form of SRC. An unlisted address is unmapped, so every entry differs from what an unlisted one reads as. -/
def Memory.wf (m : Memory) : Bool := Memory.wfFrom 0 m

/-- `MemRead(SRC, a, 1)`, R66. -/
def memRead (a : Word) : Body Byte := fun s =>
  match s.src.read a.toNat with
  | some b => .ok b s
  | none => .error .srcAccess s

/-! The hash table, 46_zlib_deflate.md R234. -/

/-- The positions of a bucket, oldest first. -/
def HashTable.get : HashTable → Nat → List Nat
  | [], _ => []
  | (b, ps) :: t, h => if h = b then ps else HashTable.get t h

/-- Replace a bucket's positions; the new list is not empty. -/
def HashTable.put : HashTable → Nat → List Nat → HashTable
  | [], h, ps => [(h, ps)]
  | (b, qs) :: t, h, ps =>
    if h < b then (h, ps) :: (b, qs) :: t
    else if h = b then (h, ps) :: t
    else (b, qs) :: HashTable.put t h ps

/-- Bucket numbers rise strictly from `lo`, lie below 16384, and no listed bucket is empty. -/
def HashTable.wfFrom : Nat → HashTable → Bool
  | _, [] => true
  | lo, (b, ps) :: t =>
    decide (lo ≤ b) && decide (b < Config.hashBuckets) && !ps.isEmpty && HashTable.wfFrom (b + 1) t

/-- The canonical form of HT. -/
def HashTable.wf (t : HashTable) : Bool := HashTable.wfFrom 0 t

/-! Appends, 20_memory.md R63, R64, R66. -/

/-- A length is within a capacity; `none` is no limit (R63). -/
def fits (cap : Option Nat) (n : Nat) : Bool :=
  match cap with
  | none => true
  | some c => decide (n ≤ c)

/-- `OutBytes(b...)`, R63. The bytes go in together: an overflow empties OUT anyway (R304). -/
def outBytes (bs : List Byte) : Body Unit := fun s =>
  if fits s.caps.out (s.out.length + bs.length) then .ok () { s with out := s.out ++ bs }
  else .error .outOverflow s

/-- `Append(FBUF, b)`, R64. -/
def appendFbuf (b : Byte) : Body Unit := fun s =>
  if fits s.caps.fbuf (s.fbuf.length + 1) then .ok () { s with fbuf := s.fbuf ++ [b] }
  else .error .outOverflow s

/-- `Append(ZBUF, b)`, R64. -/
def appendZbuf (b : Byte) : Body Unit := fun s =>
  if fits s.caps.zbuf (s.zbuf.length + 1) then .ok () { s with zbuf := s.zbuf ++ [b] }
  else .error .outOverflow s

/-- `Push((v, l))`, R161: the value is masked to `l` bits; a full buffer faults. -/
def push (p : BitPair) : Body Unit := fun s =>
  if s.bb.length = Config.bbSlots then .error .bitBufOverflow s
  else .ok () { s with bb := s.bb ++ [{ value := p.value &&& BitVec.ofNat 16 (2 ^ p.len - 1), len := p.len }] }

/-! Arrays with written marks, 10_state.md R40. -/

/-- An element of an array with written marks. -/
def element {α : Type} {n : Nat} (v : Vector (Option α) n) (i : Nat) : Option α := v[i]?.join

/-- All the elements, if every mark is set. -/
def allWritten {α : Type} : List (Option α) → Option (List α)
  | [] => some []
  | none :: _ => none
  | some x :: t =>
    match allWritten t with
    | some xs => some (x :: xs)
    | none => none

/-- An array of `n` elements from a list; `d` stands beyond the list's end. -/
def vectorOf {α : Type} (n : Nat) (xs : List α) (d : α) : Vector α n := Vector.ofFn fun i => xs.getD i.val d

/-- Bytes of a 32-bit number, most significant first (R67). -/
def bigEndian (w : Word) : List Byte :=
  [w.extractLsb' 24 8, w.extractLsb' 16 8, w.extractLsb' 8 8, w.extractLsb' 0 8]

end Sys2Proof.Machine
end

