-- ==== Sys2Proof/Machine/Flags.lean ====
section
/-! DEFINITION. The flags of `STATUS` (10_state.md R25) and the registers computed from other state (R36, R39, R42). -/

namespace Sys2Proof.Machine

open Sys2Proof

/-- The code of `PHASE`, R23. -/
def Phase.code : Phase → BitVec 4
  | .idle => 0
  | .jInit => 1
  | .jHdr => 2
  | .jBody => 3
  | .jDone => 4
  | .pHdr => 5
  | .pBody => 6
  | .pDone => 7
  | .failed => 15

/-- The code of `ZPH`, R25. -/
def ZPhase.code : ZPhase → BitVec 2
  | .idle => 0
  | .run => 1
  | .done => 2

/-- The code of `WBVAR`, R28. -/
def WbVar.code : WbVar → BitVec 2
  | .subs => 0
  | .full => 1
  | .nv12 => 2
  | .yuv420p => 3

/-- `BLOCK` as a number, R28. -/
def BlockSide.side : BlockSide → Nat
  | .eight => 8
  | .sixteen => 16

/-- `STATUS.BBFULL`, R162. -/
def State.bbFull (s : State) : Bool := decide (Config.bbSlots < s.bb.length + Config.bbHeadroom)

/-- `STATUS.TOKV`, R25, R36. -/
def State.tokv (s : State) : Bool := s.token.isSome

/-- `STATUS.QVALID`, R25, R130. -/
def State.qvalid (s : State) : Bool := s.quant.isSome

/-- A flag as one bit. -/
def bit (b : Bool) : BitVec 1 := BitVec.ofBool b

/-- `STATUS`, R25. -/
def State.status (s : State) : Word :=
  (0#21 ++ bit s.qvalid ++ s.zph.code ++ bit s.tokv ++ bit (decide (s.phase = .failed)) ++ bit s.crcok ++ bit s.bbFull
    ++ s.phase.code : BitVec 32)

/-- `TOKEN`, R36: bit 31 `V`, bit 30 `M`, bits [23:9] `DIST`, bits [8:0] `LL`. -/
def State.tokenWord (s : State) : Word :=
  match s.token with
  | none => 0
  | some (.lit b) => (0b10#2 ++ 0#6 ++ 0#15 ++ b.setWidth 9 : BitVec 32)
  | some (.copy len dist) => (0b11#2 ++ 0#6 ++ dist ++ len : BitVec 32)

/-- `JCFG`, R42: bit 0 `SUBSAMPLE`, bits [2:1] `WBVAR`, bits [15:8] `BLOCK`. -/
def Quant.jcfg (q : Quant) : Word :=
  (0#16 ++ BitVec.ofNat 8 q.block.side ++ 0#5 ++ q.wbvar.code ++ bit q.subsample : BitVec 32)

/-- A count in a `u32` register. A count of `2^32` or more has no stated register value and is free (notes/assumptions/9.md). -/
def countWord (n : Nat) : Word := if n < 2 ^ 32 then BitVec.ofNat 32 n else Config.wideCount n

/-- `OUTLEN`, R39. -/
def State.outlen (s : State) : Word := countWord s.out.length

/-- `FBLEN`, R34. -/
def State.fblen (s : State) : Word := countWord s.fbuf.length

/-- `ZBLEN`, R37. -/
def State.zblen (s : State) : Word := countWord s.zbuf.length

/-- `BBN`, R30. -/
def State.bbn (s : State) : Word := countWord s.bb.length

end Sys2Proof.Machine
end

