-- ==== Sys2Proof/Machine/Operands.lean ====
section
/-! DEFINITION. Operand forms: register reads and writes (10_state.md R42), pixel formats, SRC addresses (20_memory.md R62),
macroblock coordinates (43_jpeg_macroblock.md R181), byte-sequence selectors (20_memory.md R65). -/

namespace Sys2Proof.Machine

open Sys2Proof

/-! Enumeration codes of R21. -/

def pixGray8 : BitVec 3 := 1
def pixBgr24 : BitVec 3 := 2
def pixBgra32 : BitVec 3 := 3
def pixRgb24 : BitVec 3 := 4
def pixRgba32 : BitVec 3 := 5
def filePng : BitVec 3 := 4
def fileJpeg : BitVec 3 := 5
def yuvTrect871 : BitVec 1 := 1
def srcPixel : BitVec 2 := 0
def srcNv12 : BitVec 2 := 1
def srcYuv420p : BitVec 2 := 2

/-! Registers. -/

/-- The width in bits of a host-writable register, R21, R22, R280. -/
def wregBits : WReg → Nat
  | .pixfmt => 3
  | .filetype => 3
  | .yuvtype => 1
  | .srckind => 2
  | .width | .height | .quality => 32
  | .src0Base | .src0Stride | .src1Base | .src1Stride | .src2Base | .src2Stride => 32
  | .cbase | .clen | .ctype => 32

/-- The registers R42 marks "rw (any phase)". -/
def wregAnyPhase : WReg → Bool
  | .cbase | .clen | .ctype => true
  | .width | .height | .pixfmt | .filetype | .quality | .yuvtype | .srckind => false
  | .src0Base | .src0Stride | .src1Base | .src1Stride | .src2Base | .src2Stride => false

/-- `REG[a] <- imm`, R280. -/
def State.writeReg (s : State) (r : WReg) (v : Word) : State :=
  match r with
  | .width => { s with width := v }
  | .height => { s with height := v }
  | .pixfmt => { s with pixfmt := v.setWidth 3 }
  | .filetype => { s with filetype := v.setWidth 3 }
  | .quality => { s with quality := v }
  | .yuvtype => { s with yuvtype := v.setWidth 1 }
  | .srckind => { s with srckind := v.setWidth 2 }
  | .src0Base => { s with src0Base := v }
  | .src0Stride => { s with src0Stride := v }
  | .src1Base => { s with src1Base := v }
  | .src1Stride => { s with src1Stride := v }
  | .src2Base => { s with src2Base := v }
  | .src2Stride => { s with src2Stride := v }
  | .cbase => { s with cbase := v }
  | .clen => { s with clen := v }
  | .ctype => { s with ctype := v }

/-- A host-writable register, zero-extended (R281). -/
def State.readRw (s : State) : WReg → Word
  | .width => s.width
  | .height => s.height
  | .pixfmt => s.pixfmt.setWidth 32
  | .filetype => s.filetype.setWidth 32
  | .quality => s.quality
  | .yuvtype => s.yuvtype.setWidth 32
  | .srckind => s.srckind.setWidth 32
  | .src0Base => s.src0Base
  | .src0Stride => s.src0Stride
  | .src1Base => s.src1Base
  | .src1Stride => s.src1Stride
  | .src2Base => s.src2Base
  | .src2Stride => s.src2Stride
  | .cbase => s.cbase
  | .clen => s.clen
  | .ctype => s.ctype

/-- `DC[c]`, R29. -/
def DcPred.get (d : DcPred) : Comp → Word
  | .y => d.y
  | .u => d.u
  | .v => d.v

/-- `DC[c] <- w`, R29. -/
def DcPred.set (d : DcPred) (c : Comp) (w : Word) : DcPred :=
  match c with
  | .y => { d with y := w }
  | .u => { d with u := w }
  | .v => { d with v := w }

/-- A read-only scalar register; `none` when it is unwritten (R40, R42). -/
def State.readRo (s : State) : ROReg → Option Word
  | .status => some s.status
  | .fail => some s.fail
  | .outlen => some s.outlen
  | .crcreg => some s.crcreg
  | .adlreg => some s.adlreg
  | .mbx => some s.mbx
  | .mby => some s.mby
  | .row => some s.row
  | .zi => some s.zi
  | .bbn => some s.bbn
  | .fblen => some s.fblen
  | .zblen => some s.zblen
  | .token => some s.tokenWord
  | .dc c => some (s.dc.get c)
  | .jcfg => s.quant.map Quant.jcfg
  | .awidth => s.quant.map Quant.awidth
  | .finfo => some s.finfo
  | .zlen => some s.zlen

/-- An element of an array register; `none` when it is unwritten or there is no such element (R40, R42). -/
def State.readArr (s : State) (r : ArrReg) (i : Nat) : Option Word :=
  match r with
  | .uy => s.quant.bind fun q => (q.uy[i]?).map fun b => b.setWidth 32
  | .uuv => s.quant.bind fun q => (q.uuv[i]?).map fun b => b.setWidth 32
  | .fy => s.quant.bind fun q => q.fy[i]?
  | .fuv => s.quant.bind fun q => q.fuv[i]?
  | .du => element s.du i
  | .cdu => element s.cdu i

/-- The register or element `RDREG` names, R281. -/
def State.readReg (s : State) (r : RReg) (b : BitVec 16) : Option Word :=
  match r with
  | .rw r => some (s.readRw r)
  | .ro r => s.readRo r
  | .arr r => s.readArr r b.toNat

/-! Pixel formats. -/

/-- Bytes per pixel, R62; a code with no pixel format has none. -/
def bytesPerPixel (p : BitVec 3) : Option Nat :=
  if p = pixGray8 then some 1
  else if p = pixBgr24 ∨ p = pixRgb24 then some 3
  else if p = pixBgra32 ∨ p = pixRgba32 then some 4
  else none

/-- The byte offsets of R, G and B in a pixel of a colour format, R182. -/
def channelOffsets (p : BitVec 3) : Option (Nat × Nat × Nat) :=
  if p = pixRgb24 ∨ p = pixRgba32 then some (0, 1, 2)
  else if p = pixBgr24 ∨ p = pixBgra32 then some (2, 1, 0)
  else none

/-! SRC addresses, R62: computed on unbounded integers, then modulo `2^32`. -/

/-- A register's number as an unbounded integer (R16). -/
def natOf (w : Word) : Int := (w.toNat : Int)

/-- `PixelAddr(x, y, k)`, with `bpp` bytes a pixel. -/
def pixelAddr (s : State) (bpp : Nat) (x y : Int) (k : Nat) : Word :=
  BitVec.ofInt 32 (natOf s.src0Base + y * natOf s.src0Stride + x * bpp + k)

/-- `YAddr(x, y)`. -/
def yAddr (s : State) (x y : Int) : Word :=
  BitVec.ofInt 32 (natOf s.src0Base + y * natOf s.src0Stride + x)

/-- `Nv12UAddr(cx, cy)`. -/
def nv12UAddr (s : State) (cx cy : Int) : Word :=
  BitVec.ofInt 32 (natOf s.src1Base + cy * natOf s.src1Stride + 2 * cx)

/-- `Nv12VAddr(cx, cy)`. -/
def nv12VAddr (s : State) (cx cy : Int) : Word :=
  BitVec.ofInt 32 (natOf s.src1Base + cy * natOf s.src1Stride + 2 * cx + 1)

/-- `I420UAddr(cx, cy)`. -/
def i420UAddr (s : State) (cx cy : Int) : Word :=
  BitVec.ofInt 32 (natOf s.src1Base + cy * natOf s.src1Stride + cx)

/-- `I420VAddr(cx, cy)`. -/
def i420VAddr (s : State) (cx cy : Int) : Word :=
  BitVec.ofInt 32 (natOf s.src2Base + cy * natOf s.src2Stride + cx)

/-- `RowAddr(r, i)`. -/
def rowAddr (s : State) (r i : Nat) : Word :=
  BitVec.ofInt 32 (natOf s.src0Base + (r : Int) * natOf s.src0Stride + i)

/-- `RangeAddr(j)`. -/
def rangeAddr (s : State) (j : Nat) : Word := BitVec.ofInt 32 (natOf s.cbase + j)

/-! Macroblock coordinates, R181. -/

/-- `PX(i)`. -/
def pixelX (s : State) (side i : Nat) : Int := min (natOf s.mbx * side + i) (natOf s.width - 1)

/-- `PY(j)`. -/
def pixelY (s : State) (side j : Nat) : Int := min (natOf s.mby * side + j) (natOf s.height - 1)

/-- `CX(i)`. -/
def chromaX (s : State) (i : Nat) : Int := min (natOf s.mbx * 8 + i) (natOf s.width / 2 - 1)

/-- `CY(j)`. -/
def chromaY (s : State) (j : Nat) : Int := min (natOf s.mby * 8 + j) (natOf s.height / 2 - 1)

/-- `NBANDS = (HEIGHT + BLOCK - 1) / BLOCK`, R186. -/
def bandCount (s : State) (q : Quant) : Nat := (s.height.toNat + q.block.side - 1) / q.block.side

/-- `AWIDTH / BLOCK`, the macroblocks of a row band, R192. -/
def blocksPerBand (q : Quant) : Nat := q.awidth.toNat / q.block.side

/-! Byte sequences. -/

/-- `MemRead(SRC, RangeAddr(j), 1)` for `j = from, from + 1, ...`, `n` bytes. -/
def readRange : Nat → Nat → Body (List Byte)
  | _, 0 => pure []
  | j, n + 1 => do
    let s ← get
    let b ← memRead (rangeAddr s j)
    let bs ← readRange (j + 1) n
    pure (b :: bs)

/-- The first `n` bytes of the sequence a selector names (R65). An index at or beyond `FBLEN` is an unwritten element of FBUF
(R40, notes/assumptions/14.md). -/
def readSelected (z : ZSel) (n : Nat) : Body (List Byte) :=
  match z with
  | .fbuf => do
    let s ← get
    require (decide (n ≤ s.fbuf.length)) .seqFault
    pure (s.fbuf.take n)
  | .src => readRange 0 n

/-- The whole byte sequence a selector names: FBUF, or the SRC range of `CLEN` bytes (R65, R247). -/
def readWhole (z : ZSel) : Body (List Byte) := do
  let s ← get
  match z with
  | .fbuf => pure s.fbuf
  | .src => readRange 0 s.clen.toNat

/-- The compressor's input byte `data[j]`, R65. -/
def dataAt (j : Nat) : Body Byte := fun s =>
  match s.zsrc with
  | .fbuf =>
    match s.fbuf[j]? with
    | some b => .ok b s
    | none => .error .seqFault s
  | .src => memRead (rangeAddr s j) s

end Sys2Proof.Machine
end

