-- ==== Sys2Proof/Machine/Float.lean ====
section
/-! DEFINITION. The binary32 arithmetic of 00_scope.md R17: IEEE-754, each result rounded once, to nearest, ties to even
(notes/assumptions/6.md). -/

namespace Sys2Proof.Machine

open Sys2Proof

/-- The sign bit. -/
def fNeg (x : F32) : Bool := x.getLsbD 31

/-- The biased exponent field, bits [30:23]. -/
def fExpField (x : F32) : Nat := (x.toNat / 2 ^ 23) % 2 ^ 8

/-- The fraction field, bits [22:0]. -/
def fFrac (x : F32) : Nat := x.toNat % 2 ^ 23

def fIsNan (x : F32) : Bool := fExpField x == 255 && fFrac x != 0

def fIsInf (x : F32) : Bool := fExpField x == 255 && fFrac x == 0

/-- The significand of a finite number as an integer: its magnitude is `fSig x * 2 ^ fExp x`. -/
def fSig (x : F32) : Nat := if fExpField x = 0 then fFrac x else fFrac x + 2 ^ 23

/-- The exponent of the last place of a finite number. -/
def fExp (x : F32) : Int := if fExpField x = 0 then -149 else (fExpField x : Int) - 150

/-- The number with a given sign and the given 31 low bits. -/
def fWithSign (neg : Bool) (low : Nat) : F32 := BitVec.ofNat 32 (if neg then low + 2 ^ 31 else low)

def fZero (neg : Bool) : F32 := fWithSign neg 0

def fInf (neg : Bool) : F32 := fWithSign neg 0x7F800000

/-- A quiet NaN; its sign and payload are free (notes/assumptions/7.md). -/
def fNan (a b : F32) : F32 := 0x7FC00000#32 ||| (Config.nanPayload a b &&& 0x803FFFFF#32)

/-- `m / 2 ^ k` rounded to the nearest integer, ties to even. -/
def roundShift (m k : Nat) : Nat :=
  let h := m >>> k
  let r := m % 2 ^ k
  if 2 ^ k < 2 * r ∨ (2 * r = 2 ^ k ∧ h % 2 = 1) then h + 1 else h

/-- The binary32 number nearest to `± m * 2 ^ e`, ties to even; infinity beyond the largest finite number. The significand
`sig` may round up to `2 ^ 24`: added to the exponent field it carries into it. -/
def fRound (neg : Bool) (m : Nat) (e : Int) : F32 :=
  if m = 0 then fZero neg
  else
    let q : Int := max (e + (Nat.log2 m : Int) - 23) (-149)
    let sig := if q ≤ e then m <<< (e - q).toNat else roundShift m (q - e).toNat
    let low := (q + 149).toNat * 2 ^ 23 + sig
    if 0x7F800000 ≤ low then fInf neg else fWithSign neg low

/-- The signed significand of a finite number scaled to the exponent `e`, at most its own. -/
def fScaled (x : F32) (e : Int) : Int :=
  let m : Int := (fSig x <<< (fExp x - e).toNat : Nat)
  if fNeg x then -m else m

/-- The sign of an exact sum that is zero: negative only when both operands are. -/
def fAddFinite (a b : F32) : F32 :=
  let e := min (fExp a) (fExp b)
  let sum := fScaled a e + fScaled b e
  if sum = 0 then fZero (fNeg a && fNeg b) else fRound (decide (sum < 0)) sum.natAbs e

/-- `fadd`, R17. -/
def fadd (a b : F32) : F32 :=
  if fIsNan a || fIsNan b then fNan a b
  else if fIsInf a then (if fIsInf b && (fNeg a != fNeg b) then fNan a b else a)
  else if fIsInf b then b
  else fAddFinite a b

/-- The number with its sign bit inverted. -/
def fnegate (a : F32) : F32 := a ^^^ 0x80000000#32

/-- `fsub`, R17. -/
def fsub (a b : F32) : F32 := fadd a (fnegate b)

/-- `fmul`, R17. -/
def fmul (a b : F32) : F32 :=
  let neg := fNeg a != fNeg b
  if fIsNan a || fIsNan b then fNan a b
  else if fIsInf a then (if fIsInf b || fSig b != 0 then fInf neg else fNan a b)
  else if fIsInf b then (if fSig a != 0 then fInf neg else fNan a b)
  else fRound neg (fSig a * fSig b) (fExp a + fExp b)

/-- A quotient of non-zero significands to 60 places, its last bit set when a remainder is left: enough for one correct
rounding. -/
def fQuotient (m n : Nat) : Nat :=
  let q := (m <<< 60) / n
  2 * q + (if (m <<< 60) % n = 0 then 0 else 1)

/-- `fdiv`, R17. -/
def fdiv (a b : F32) : F32 :=
  let neg := fNeg a != fNeg b
  if fIsNan a || fIsNan b then fNan a b
  else if fIsInf a then (if fIsInf b then fNan a b else fInf neg)
  else if fIsInf b then fZero neg
  else if fSig b = 0 then (if fSig a = 0 then fNan a b else fInf neg)
  else fRound neg (fQuotient (fSig a) (fSig b)) (fExp a - fExp b - 61)

/-- `f32(k)` for a non-negative integer `k`, R17. -/
def f32OfNat (k : Nat) : F32 := fRound false k 0

/-- The comparison `v < 0` of R151: false for both zeros. -/
def fLtZero (x : F32) : Bool := fNeg x && !fIsNan x && (fIsInf x || fSig x != 0)

/-- `ftrunc`, R17: the fraction is discarded. A value that is not finite has a free result (notes/assumptions/8.md). -/
def ftrunc (x : F32) : Int :=
  if fExpField x = 255 then Config.truncNonFinite x
  else
    let m : Int := (if 0 ≤ fExp x then fSig x <<< (fExp x).toNat else fSig x >>> (-fExp x).toNat : Nat)
    if fNeg x then -m else m

/-- An integer in an `s32` register; outside the range of `s32` the content is free (notes/assumptions/8.md). -/
def s32OfInt (v : Int) : Word :=
  if -(2 ^ 31) ≤ v ∧ v < 2 ^ 31 then BitVec.ofInt 32 v else Config.wideS32 v

end Sys2Proof.Machine
end

