-- ==== Sys2Proof/Machine/Tables.lean ====
section
/-! DEFINITION. The constant tables of 30_encoding.md Part B: zig-zag, quantiser bases, AAN factors, Huffman tables, DEFLATE
codes, PNG constants. -/

namespace Sys2Proof.Machine

open Sys2Proof

/-- `NAT(z)`, R100. -/
def natTable : List Nat :=
  [0, 1, 8, 16, 9, 2, 3, 10,
   17, 24, 32, 25, 18, 11, 4, 5,
   12, 19, 26, 33, 40, 48, 41, 34,
   27, 20, 13, 6, 7, 14, 21, 28,
   35, 42, 49, 56, 57, 50, 43, 36,
   29, 22, 15, 23, 30, 37, 44, 51,
   58, 59, 52, 45, 38, 31, 39, 46,
   53, 60, 61, 54, 47, 55, 62, 63]

/-- `ZZ(n)`, R100, by natural index. -/
def zzTable : List Nat :=
  [0, 1, 5, 6, 14, 15, 27, 28,
   2, 4, 7, 13, 16, 26, 29, 42,
   3, 8, 12, 17, 25, 30, 41, 43,
   9, 11, 18, 24, 31, 40, 44, 53,
   10, 19, 23, 32, 39, 45, 52, 54,
   20, 22, 33, 38, 46, 51, 55, 60,
   21, 34, 37, 47, 50, 56, 59, 61,
   35, 36, 48, 49, 57, 58, 62, 63]

/-- The natural index of zig-zag position `z`, R19, R100. -/
def natIndex (z : Nat) : Nat := natTable.getD z 0

/-- The zig-zag position of natural index `n`, R19, R100. -/
def zigzagIndex (n : Nat) : Nat := zzTable.getD n 0

/-- `BASE_Y`, R101, natural order. -/
def baseY : List Nat :=
  [16, 11, 10, 16, 24, 40, 51, 61,
   12, 12, 14, 19, 26, 58, 60, 55,
   14, 13, 16, 24, 40, 57, 69, 56,
   14, 17, 22, 29, 51, 87, 80, 62,
   18, 22, 37, 56, 68, 109, 103, 77,
   24, 35, 55, 64, 81, 104, 113, 92,
   49, 64, 78, 87, 103, 121, 120, 101,
   72, 92, 95, 98, 112, 100, 103, 99]

/-- `BASE_UV`, R101, natural order. -/
def baseUv : List Nat :=
  [17, 18, 24, 47, 99, 99, 99, 99,
   18, 21, 26, 66, 99, 99, 99, 99,
   24, 26, 56, 99, 99, 99, 99, 99,
   47, 66, 99, 99, 99, 99, 99, 99,
   99, 99, 99, 99, 99, 99, 99, 99,
   99, 99, 99, 99, 99, 99, 99, 99,
   99, 99, 99, 99, 99, 99, 99, 99,
   99, 99, 99, 99, 99, 99, 99, 99]

/-- `AAN[k]`, R102. -/
def aan : List F32 :=
  [0x3F800000, 0x3FB18A86, 0x3FA73D75, 0x3F968317, 0x3F800000, 0x3F49234E, 0x3F0A8BD4, 0x3E8D42AF]

/-- `f32(2.828427125)`, R102. -/
def fSqrt8 : F32 := 0x403504F3

/-- `AASF[k] = fmul(AAN[k], f32(2.828427125))`, R102. -/
def aasf (k : Nat) : F32 := fmul (aan.getD k 0) fSqrt8

/-- A JPEG Huffman table as `BITS[1..16]` and `VALS`, R103. -/
structure HuffTable where
  bits : List Nat
  vals : List Nat
  deriving DecidableEq, Repr

/-- `DCY`, R104. -/
def dcyTable : HuffTable where
  bits := [0, 1, 5, 1, 1, 1, 1, 1, 1, 0, 0, 0, 0, 0, 0, 0]
  vals := [0, 1, 2, 3, 4, 5, 6, 7, 8, 9, 10, 11]

/-- `DCC`, R105. -/
def dccTable : HuffTable where
  bits := [0, 3, 1, 1, 1, 1, 1, 1, 1, 1, 1, 0, 0, 0, 0, 0]
  vals := [0, 1, 2, 3, 4, 5, 6, 7, 8, 9, 10, 11]

/-- `ACY`, R106. -/
def acyTable : HuffTable where
  bits := [0, 2, 1, 3, 3, 2, 4, 3, 5, 5, 4, 4, 0, 0, 1, 0x7D]
  vals :=
   [0x01, 0x02, 0x03, 0x00, 0x04, 0x11, 0x05, 0x12, 0x21, 0x31, 0x41, 0x06, 0x13, 0x51, 0x61, 0x07,
   0x22, 0x71, 0x14, 0x32, 0x81, 0x91, 0xA1, 0x08, 0x23, 0x42, 0xB1, 0xC1, 0x15, 0x52, 0xD1, 0xF0,
   0x24, 0x33, 0x62, 0x72, 0x82, 0x09, 0x0A, 0x16, 0x17, 0x18, 0x19, 0x1A, 0x25, 0x26, 0x27, 0x28,
   0x29, 0x2A, 0x34, 0x35, 0x36, 0x37, 0x38, 0x39, 0x3A, 0x43, 0x44, 0x45, 0x46, 0x47, 0x48, 0x49,
   0x4A, 0x53, 0x54, 0x55, 0x56, 0x57, 0x58, 0x59, 0x5A, 0x63, 0x64, 0x65, 0x66, 0x67, 0x68, 0x69,
   0x6A, 0x73, 0x74, 0x75, 0x76, 0x77, 0x78, 0x79, 0x7A, 0x83, 0x84, 0x85, 0x86, 0x87, 0x88, 0x89,
   0x8A, 0x92, 0x93, 0x94, 0x95, 0x96, 0x97, 0x98, 0x99, 0x9A, 0xA2, 0xA3, 0xA4, 0xA5, 0xA6, 0xA7,
   0xA8, 0xA9, 0xAA, 0xB2, 0xB3, 0xB4, 0xB5, 0xB6, 0xB7, 0xB8, 0xB9, 0xBA, 0xC2, 0xC3, 0xC4, 0xC5,
   0xC6, 0xC7, 0xC8, 0xC9, 0xCA, 0xD2, 0xD3, 0xD4, 0xD5, 0xD6, 0xD7, 0xD8, 0xD9, 0xDA, 0xE1, 0xE2,
   0xE3, 0xE4, 0xE5, 0xE6, 0xE7, 0xE8, 0xE9, 0xEA, 0xF1, 0xF2, 0xF3, 0xF4, 0xF5, 0xF6, 0xF7, 0xF8,
   0xF9, 0xFA]

/-- `ACC`, R107. -/
def accTable : HuffTable where
  bits := [0, 2, 1, 2, 4, 4, 3, 4, 7, 5, 4, 4, 0, 1, 2, 0x77]
  vals :=
   [0x00, 0x01, 0x02, 0x03, 0x11, 0x04, 0x05, 0x21, 0x31, 0x06, 0x12, 0x41, 0x51, 0x07, 0x61, 0x71,
   0x13, 0x22, 0x32, 0x81, 0x08, 0x14, 0x42, 0x91, 0xA1, 0xB1, 0xC1, 0x09, 0x23, 0x33, 0x52, 0xF0,
   0x15, 0x62, 0x72, 0xD1, 0x0A, 0x16, 0x24, 0x34, 0xE1, 0x25, 0xF1, 0x17, 0x18, 0x19, 0x1A, 0x26,
   0x27, 0x28, 0x29, 0x2A, 0x35, 0x36, 0x37, 0x38, 0x39, 0x3A, 0x43, 0x44, 0x45, 0x46, 0x47, 0x48,
   0x49, 0x4A, 0x53, 0x54, 0x55, 0x56, 0x57, 0x58, 0x59, 0x5A, 0x63, 0x64, 0x65, 0x66, 0x67, 0x68,
   0x69, 0x6A, 0x73, 0x74, 0x75, 0x76, 0x77, 0x78, 0x79, 0x7A, 0x82, 0x83, 0x84, 0x85, 0x86, 0x87,
   0x88, 0x89, 0x8A, 0x92, 0x93, 0x94, 0x95, 0x96, 0x97, 0x98, 0x99, 0x9A, 0xA2, 0xA3, 0xA4, 0xA5,
   0xA6, 0xA7, 0xA8, 0xA9, 0xAA, 0xB2, 0xB3, 0xB4, 0xB5, 0xB6, 0xB7, 0xB8, 0xB9, 0xBA, 0xC2, 0xC3,
   0xC4, 0xC5, 0xC6, 0xC7, 0xC8, 0xC9, 0xCA, 0xD2, 0xD3, 0xD4, 0xD5, 0xD6, 0xD7, 0xD8, 0xD9, 0xDA,
   0xE2, 0xE3, 0xE4, 0xE5, 0xE6, 0xE7, 0xE8, 0xE9, 0xEA, 0xF2, 0xF3, 0xF4, 0xF5, 0xF6, 0xF7, 0xF8,
   0xF9, 0xFA]

/-- One symbol's codeword and its length. -/
structure HuffCode where
  sym : Nat
  code : Nat
  len : Nat
  deriving DecidableEq, Repr

/-- The codes of one length `len`: `count` symbols taken from `vals`, codes rising from `code` (R103). -/
def codesOfLength (len : Nat) : Nat → Nat → List Nat → List HuffCode
  | 0, _, _ => []
  | _ + 1, _, [] => []
  | count + 1, code, v :: vals => { sym := v, code := code, len := len } :: codesOfLength len count (code + 1) vals

/-- The canonical construction of R103, from length `len` on. -/
def canonicalFrom : Nat → Nat → List Nat → List Nat → List HuffCode
  | _, _, [], _ => []
  | len, code, n :: bits, vals =>
    codesOfLength len n code vals ++ canonicalFrom (len + 1) (2 * (code + n)) bits (vals.drop n)

/-- The used symbols of a table with their codes, R103. -/
def HuffTable.codes (t : HuffTable) : List HuffCode := canonicalFrom 1 0 t.bits t.vals

/-- `T[sym]`; a symbol not in `VALS` is unused (R103, R158). -/
def HuffTable.lookup (t : HuffTable) (sym : Nat) : Option HuffCode := t.codes.find? fun c => c.sym == sym

/-- `FixedCode(sym)` as code and length, R111. -/
def fixedCode (sym : Nat) : Nat × Nat :=
  if sym ≤ 143 then (0x30 + sym, 8)
  else if sym ≤ 255 then (0x190 + (sym - 144), 9)
  else if sym ≤ 279 then (sym - 256, 7)
  else (0xC0 + (sym - 280), 8)

/-- `LENB[0..28]`, R112. -/
def lenBase : List Nat :=
  [3, 4, 5, 6, 7, 8, 9, 10, 11, 13, 15, 17, 19, 23, 27, 31, 35, 43, 51, 59, 67, 83, 99, 115, 131, 163, 195, 227, 258]

/-- `LENE[0..28]`, R112. -/
def lenExtra : List Nat :=
  [0, 0, 0, 0, 0, 0, 0, 0, 1, 1, 1, 1, 2, 2, 2, 2, 3, 3, 3, 3, 4, 4, 4, 4, 5, 5, 5, 5, 0]

/-- `DISB[0..29]`, R113. -/
def distBase : List Nat :=
  [1, 2, 3, 4, 5, 7, 9, 13, 17, 25, 33, 49, 65, 97, 129, 193, 257, 385, 513, 769, 1025, 1537, 2049, 3073, 4097, 6145,
   8193, 12289, 16385, 24577]

/-- `DISE[0..29]`, R113. -/
def distExtra : List Nat :=
  [0, 0, 0, 0, 1, 1, 2, 2, 3, 3, 4, 4, 5, 5, 6, 6, 7, 7, 8, 8, 9, 9, 10, 10, 11, 11, 12, 12, 13, 13]

/-- The largest index of a rising table whose entry is at most `v` (R112, R113); 0 when there is none. -/
def largestIndex (table : List Nat) (v : Nat) : Nat := (table.takeWhile fun b => decide (b ≤ v)).length - 1

/-- `BitRev(v, n)`, R114: bit `i` of the result is bit `n - 1 - i` of `v`. -/
def bitRev : Nat → Nat → Nat
  | _, 0 => 0
  | v, n + 1 => (v % 2) * 2 ^ n + bitRev (v / 2) n

/-- The PNG signature, R116. -/
def pngSignature : List Byte := [0x89, 0x50, 0x4E, 0x47, 0x0D, 0x0A, 0x1A, 0x0A]

/-- The chunk type tags of R116 as 32-bit numbers, byte 0 in bits [31:24]. -/
def tagIhdr : Word := 0x49484452

def tagIdat : Word := 0x49444154

def tagIend : Word := 0x49454E44

end Sys2Proof.Machine
end

