-- ==== Sys2Proof/Machine/JpegCoder.lean ====
section
/-! DEFINITION. QZZ, JHUF, JPDU, JGRAYUV, BPUSH, BFLUSH: quantisation, the Huffman coder and the bit buffer
(42_jpeg_du_coder.md R150 to R165). -/

namespace Sys2Proof.Machine

open Sys2Proof

/-! Quantise and reorder. -/

/-- `f32(0.5)`. -/
def fHalf : F32 := 0x3F000000

/-- `Rnd(v)`, R151. -/
def roundHalfAway (v : F32) : Int := if fLtZero v then ftrunc (fsub v fHalf) else ftrunc (fadd v fHalf)

/-- The reciprocal table of `QZZ a`, R150. -/
def recipTable (q : Quant) : QSel → Vector F32 64
  | .luma => q.fy
  | .chroma => q.fuv

/-- The quantised coefficient of zig-zag position `z`, R150. -/
def quantised (cdu : List F32) (f : Vector F32 64) (z : Nat) : Int :=
  roundHalfAway (fmul (cdu.getD (natIndex z) 0) (f[natIndex z]?.getD 0))

/-- `STATUS.QVALID` must be set (R40, R138); the record it stands for. -/
def requireQuant : Body Quant := fun s =>
  match s.quant with
  | some q => .ok q s
  | none => .error .seqFault s

/-- `QZZ a`, R150. -/
def qzzBody (a : QSel) : Body Unit := do
  requirePhase Phase.allowsKernel
  let q ← requireQuant
  let s ← get
  match allWritten s.cdu.toList with
  | some cdu => set { s with du := Vector.ofFn fun z => some (s32OfInt (quantised cdu (recipTable q a) z.val)) }
  | none => raise .seqFault

def execQzz (a : QSel) (s : State) : Host.Outcome State Fault Refusal := command 0x18 (qzzBody a) s

/-! The Huffman coder. -/

/-- The number of bits of a natural number: the smallest `n` with `v < 2 ^ n`. -/
def bitLength (v : Nat) : Nat := if v = 0 then 0 else Nat.log2 v + 1

/-- The category of a value, R152. -/
def category (v : Int) : Nat := bitLength v.natAbs

/-- The magnitude bits of a value: `val`, or `val - 1` when negative, masked to its category (R152). -/
def magnitude (v : Int) : Nat := ((if v < 0 then v - 1 else v) % (2 ^ category v : Nat)).toNat

/-- The pair `(m, n)` of `CalcBits(val)`, R152. -/
def calcBits (v : Int) : BitPair := { value := BitVec.ofNat 16 (magnitude v), len := category v }

/-- The tables of a component, R109. -/
def dcTable : Comp → HuffTable
  | .y => dcyTable
  | .u => dccTable
  | .v => dccTable

def acTable : Comp → HuffTable
  | .y => acyTable
  | .u => accTable
  | .v => accTable

/-- `Code(T, s)` as a pair; `none` is an unused symbol (R153, R158). -/
def huffPair (t : HuffTable) (sym : Nat) : Option BitPair :=
  (t.lookup sym).map fun c => { value := BitVec.ofNat 16 c.code, len := c.len }

/-- The DC codes of R154. -/
def dcPairs (t : HuffTable) (diff : Int) : List (Option BitPair) :=
  if diff = 0 then [huffPair t 0] else [huffPair t (category diff), some (calcBits diff)]

/-- The symbol of a run below 16 and a category. A category above 10 has no symbol (R106, R158, notes/assumptions/13.md). -/
def acSymbol (t : HuffTable) (run cat : Nat) : Option BitPair := if 10 < cat then none else huffPair t (16 * run + cat)

/-- The codes of one non-zero coefficient after a run of zeros, R155. -/
def acCoefPairs (t : HuffTable) (run : Nat) (v : Int) : List (Option BitPair) :=
  List.replicate (run / 16) (huffPair t 0xF0) ++ [acSymbol t (run % 16) (category v), some (calcBits v)]

/-- The AC codes of the coefficients that are left, after `run` zeros (R155, R156): trailing zeros are one `EOB`, and a last
coefficient that is not zero has none. -/
def acPairs (t : HuffTable) : Nat → List Int → List (Option BitPair)
  | 0, [] => []
  | _ + 1, [] => [huffPair t 0x00]
  | run, v :: vs => if v = 0 then acPairs t (run + 1) vs else acCoefPairs t run v ++ acPairs t 0 vs

/-- All the codes `JHUF` pushes for a data unit, in order (R153). -/
def duPairs (a : Comp) (dc : Int) (du : List Int) : List (Option BitPair) :=
  dcPairs (dcTable a) (du.headD 0 - dc) ++ acPairs (acTable a) 0 du.tail

/-- Push a code, or raise `UnusedSymbol` where there is none (R158). -/
def pushCode : Option BitPair → Body Unit
  | some p => push p
  | none => raise .unusedSymbol

/-- Push codes in order. -/
def pushCodes (ps : List (Option BitPair)) : Body Unit := ps.forM pushCode

/-- `JHUF a`, R153. That `QVALID` must be set is R25's (notes/assumptions/12.md). -/
def jhufBody (a : Comp) : Body Unit := do
  requirePhase Phase.allowsKernel
  let _ ← requireQuant
  let s ← get
  match allWritten s.du.toList with
  | some du => do
    pushCodes (duPairs a (s.dc.get a).toInt (du.map BitVec.toInt))
    modify fun s => { s with dc := s.dc.set a (du.headD 0) }
  | none => raise .seqFault

def execJhuf (a : Comp) (s : State) : Host.Outcome State Fault Refusal := command 0x19 (jhufBody a) s

/-- The quantiser table of a component, R109, R159. -/
def compTable : Comp → QSel
  | .y => .luma
  | .u => .chroma
  | .v => .chroma

/-- `JPDU a`, R159. -/
def jpduBody (a : Comp) : Body Unit := do
  qzzBody (compTable a)
  jhufBody a

def execJpdu (a : Comp) (s : State) : Host.Outcome State Fault Refusal := command 0x1A (jpduBody a) s

/-- The four codewords of `JGRAYUV`, R160. -/
def grayPairs : List (Option BitPair) :=
  [huffPair dccTable 0, huffPair accTable 0x00, huffPair dccTable 0, huffPair accTable 0x00]

/-- `JGRAYUV`, R160. -/
def jgrayuvBody : Body Unit := do
  requirePhase Phase.allowsKernel
  pushCodes grayPairs

def execJgrayuv (s : State) : Host.Outcome State Fault Refusal := command 0x1B jgrayuvBody s

/-! The bit buffer. -/

/-- `BPUSH b, imm`, R161; the length is checked before the phase (R303). -/
def bpushBody (b : BitVec 16) (value : BitVec 16) : Body Unit := do
  require (decide (b.toNat ≤ 16)) .illegalOp
  requirePhase Phase.allowsKernel
  push { value := value, len := b.toNat }

def execBpush (b : BitVec 16) (value : BitVec 16) (s : State) : Host.Outcome State Fault Refusal :=
  command 0x1C (bpushBody b value) s

/-- A byte of scan data as it goes to OUT: a byte FF is followed by a byte 00 (R164). -/
def scanByte (b : Byte) : List Byte := if b = 0xFF then [0xFF, 0x00] else [b]

/-- One bit into the accumulator; a full byte goes to OUT (R163, R164). -/
def flushBit (bit : Bool) : Body Unit := do
  modify fun s => { s with jacc := 2 * s.jacc + bit.toNat, jaccn := s.jaccn + 1 }
  let s ← get
  if s.jaccn = 8 then do
    outBytes (scanByte (BitVec.ofNat 8 s.jacc))
    modify fun s => { s with jacc := 0, jaccn := 0 }
  else pure ()

/-- The bits of a pair, bit `len - 1` first (R68, R163). -/
def pairBits (p : BitPair) : List Bool := (List.range p.len).reverse.map fun j => p.value.getLsbD j

/-- `BFLUSH`, R163. -/
def bflushBody : Body Unit := do
  requirePhase Phase.allowsScan
  let s ← get
  (s.bb.flatMap pairBits).forM flushBit
  modify fun s => { s with bb := [] }

def execBflush (s : State) : Host.Outcome State Fault Refusal := command 0x1D bflushBody s

end Sys2Proof.Machine
end

