-- ==== Sys2Proof/Machine/JpegDct.lean ====
section
/-! DEFINITION. FDCT, the forward 8×8 transform (41_jpeg_fdct.md R140 to R145). -/

namespace Sys2Proof.Machine

open Sys2Proof

/-! The constants of R142. -/

def dctC4 : F32 := 0x3F3504F3
def dctC6 : F32 := 0x3EC3EF15
def dctC2M6 : F32 := 0x3F0A8BD4
def dctC2P6 : F32 := 0x3FA73D75

/-- `Pass(d0, ..., d7)`, R142, operation by operation in the order written there. -/
def dctPass (d0 d1 d2 d3 d4 d5 d6 d7 : F32) : List F32 :=
  let t0 := fadd d0 d7
  let t7 := fsub d0 d7
  let t1 := fadd d1 d6
  let t6 := fsub d1 d6
  let t2 := fadd d2 d5
  let t5 := fsub d2 d5
  let t3 := fadd d3 d4
  let t4 := fsub d3 d4
  let t10 := fadd t0 t3
  let t13 := fsub t0 t3
  let t11 := fadd t1 t2
  let t12 := fsub t1 t2
  let o0 := fadd t10 t11
  let o4 := fsub t10 t11
  let z1 := fmul (fadd t12 t13) dctC4
  let o2 := fadd t13 z1
  let o6 := fsub t13 z1
  let p10 := fadd t4 t5
  let p11 := fadd t5 t6
  let p12 := fadd t6 t7
  let z5 := fmul (fsub p10 p12) dctC6
  let z2 := fadd (fmul p10 dctC2M6) z5
  let z4 := fadd (fmul p12 dctC2P6) z5
  let z3 := fmul p11 dctC4
  let z11 := fadd t7 z3
  let z13 := fsub t7 z3
  let o5 := fadd z13 z2
  let o3 := fsub z13 z2
  let o1 := fadd z11 z4
  let o7 := fsub z11 z4
  [o0, o1, o2, o3, o4, o5, o6, o7]

/-- A pass over the entries `at 0, ..., at 7`. -/
def dctPassAt (x : Nat → F32) : List F32 := dctPass (x 0) (x 1) (x 2) (x 3) (x 4) (x 5) (x 6) (x 7)

/-- The pass over each of the eight rows of a block in natural order, R140. -/
def dctRows (x : List F32) : List F32 :=
  (List.range 8).flatMap fun r => dctPassAt fun k => x.getD (8 * r + k) 0

/-- The pass over each of the eight columns, R140; column `c` of the result is at the places `8 * k + c`. -/
def dctColumns (x : List F32) : List F32 :=
  let cols := (List.range 8).map fun c => dctPassAt fun k => x.getD (8 * k + c) 0
  (List.range 8).flatMap fun k => cols.map fun col => col.getD k 0

/-- The two-dimensional transform: rows first, then columns (R143). -/
def dctBlock (x : List F32) : List F32 := dctColumns (dctRows x)

/-- `Src(a, row, col)`, R141. -/
def blockSample (s : State) (a : BlockSel) (row col : Nat) : Option F32 :=
  match a with
  | .y0 => element s.yp (16 * row + col)
  | .y1 => element s.yp (16 * row + (8 + col))
  | .y2 => element s.yp (16 * (8 + row) + col)
  | .y3 => element s.yp (16 * (8 + row) + (8 + col))
  | .uc => element s.uc (8 * row + col)
  | .vc => element s.vc (8 * row + col)

/-- The 64 samples of a block in natural order. -/
def blockSamples (s : State) (a : BlockSel) : List (Option F32) :=
  (List.range 64).map fun n => blockSample s a (n / 8) (n % 8)

/-- `CDU` after a load that stopped at an unwritten sample: the samples before it are stored (R140, R303). -/
def loadedPrefix (block : List (Option F32)) (cdu : Vector (Option F32) 64) : Vector (Option F32) 64 :=
  let before := block.takeWhile Option.isSome
  Vector.ofFn fun n => if n.val < before.length then before.getD n.val none else cdu[n]

/-- `FDCT a`, R140. -/
def fdctBody (a : BlockSel) : Body Unit := do
  requirePhase Phase.allowsKernel
  let s ← get
  match allWritten (blockSamples s a) with
  | some block => set { s with cdu := vectorOf 64 ((dctBlock block).map some) none }
  | none => do
    set { s with cdu := loadedPrefix (blockSamples s a) s.cdu }
    raise .seqFault

def execFdct (a : BlockSel) (s : State) : Host.Outcome State Fault Refusal := command 0x17 (fdctBody a) s

end Sys2Proof.Machine
end

