-- ==== Sys2Proof/Machine/JpegMacroblock.lean ====
section
/-! DEFINITION. RGB2YUV, GRAY2Y, YUVLOAD, CSUB and JWBLK: colour conversion and macroblock assembly
(43_jpeg_macroblock.md R180 to R192). -/

namespace Sys2Proof.Machine

open Sys2Proof

/-! Constants of R182 and R183 as binary32. -/

def fC299 : F32 := 0x3E991687
def fC587 : F32 := 0x3F1645A2
def fC114 : F32 := 0x3DE978D5
def fCm16874 : F32 := 0xBE2CCA2E
def fCm33126 : F32 := 0xBEA99AE9
def fCm41869 : F32 := 0xBED65E89
def fCm08131 : F32 := 0xBDA685DB
def f128 : F32 := 0x43000000
def fQuarter : F32 := 0x3E800000

/-- The luma sample of a pixel, R182. -/
def lumaOf (r g b : F32) : F32 := fsub (fadd (fadd (fmul fC299 r) (fmul fC587 g)) (fmul fC114 b)) f128

/-- The U sample of a pixel, R182. -/
def chromaUOf (r g b : F32) : F32 := fadd (fadd (fmul fCm16874 r) (fmul fCm33126 g)) (fmul fHalf b)

/-- The V sample of a pixel, R182. -/
def chromaVOf (r g b : F32) : F32 := fadd (fadd (fmul fHalf r) (fmul fCm41869 g)) (fmul fCm08131 b)

/-- A byte as `f32`. -/
def f32OfByte (b : Byte) : F32 := f32OfNat b.toNat

/-- A sample shifted by -128, R183, R184. -/
def levelShift (b : Byte) : F32 := fsub (f32OfByte b) f128

/-- `for j in 0..rows-1: for i in 0..cols-1`. -/
def forGrid (rows cols : Nat) (f : Nat → Nat → Body Unit) : Body Unit :=
  (List.range rows).forM fun j => (List.range cols).forM fun i => f j i

/-- What the four conversion kernels check first: the phase and `QVALID`. -/
def conversionStart : Body Quant := do
  requirePhase Phase.allowsKernel
  requireQuant

/-- The condition of `RGB2YUV`, R182: a pixel source of a colour format; its channel offsets. -/
def requireColour : Body (Nat × Nat × Nat) := fun s =>
  match decide (s.srckind = srcPixel), channelOffsets s.pixfmt with
  | true, some k => .ok k s
  | _, _ => .error .seqFault s

/-- Byte `k` of the pixel of sample `(j, i)`, R62, R181. -/
def pixelByte (side bpp k j i : Nat) : Body Byte := do
  let s ← get
  memRead (pixelAddr s bpp (pixelX s side i) (pixelY s side j) k)

/-- Store a colour sample: full-resolution chroma in `UP`, `VP` when subsampling, else in `UC`, `VC` (R182). -/
def storeColour (subsample : Bool) (j i : Nat) (y u v : F32) : Body Unit := modify fun s =>
  if subsample then
    { s with yp := s.yp.setIfInBounds (16 * j + i) (some y)
             up := s.up.setIfInBounds (16 * j + i) (some u)
             vp := s.vp.setIfInBounds (16 * j + i) (some v) }
  else
    { s with yp := s.yp.setIfInBounds (16 * j + i) (some y)
             uc := s.uc.setIfInBounds (8 * j + i) (some u)
             vc := s.vc.setIfInBounds (8 * j + i) (some v) }

/-- One sample of `RGB2YUV`, R182. -/
def colourSample (q : Quant) (bpp : Nat) (k : Nat × Nat × Nat) (j i : Nat) : Body Unit := do
  let r ← pixelByte q.block.side bpp k.1 j i
  let g ← pixelByte q.block.side bpp k.2.1 j i
  let b ← pixelByte q.block.side bpp k.2.2 j i
  let fr := f32OfByte r
  let fg := f32OfByte g
  let fb := f32OfByte b
  storeColour q.subsample j i (lumaOf fr fg fb) (chromaUOf fr fg fb) (chromaVOf fr fg fb)

/-- `RGB2YUV`, R182. -/
def rgb2yuvBody : Body Unit := do
  let q ← conversionStart
  let k ← requireColour
  let s ← get
  forGrid q.block.side q.block.side (colourSample q ((bytesPerPixel s.pixfmt).getD 0) k)

def execRgb2yuv (s : State) : Host.Outcome State Fault Refusal := command 0x13 rgb2yuvBody s

/-- Store a luma sample. -/
def storeLuma (j i : Nat) (y : F32) : Body Unit := modify fun s =>
  { s with yp := s.yp.setIfInBounds (16 * j + i) (some y) }

/-- One sample of `GRAY2Y`, R183. -/
def graySample (q : Quant) (j i : Nat) : Body Unit := do
  let b ← pixelByte q.block.side 1 0 j i
  storeLuma j i (levelShift b)

/-- `GRAY2Y`, R183. -/
def gray2yBody : Body Unit := do
  let q ← conversionStart
  let s ← get
  require (decide (s.srckind = srcPixel) && decide (s.pixfmt = pixGray8)) .seqFault
  forGrid q.block.side q.block.side (graySample q)

def execGray2y (s : State) : Host.Outcome State Fault Refusal := command 0x14 gray2yBody s

/-- One luma sample of `YUVLOAD`, R184. -/
def planarLuma (q : Quant) (j i : Nat) : Body Unit := do
  let s ← get
  let b ← memRead (yAddr s (pixelX s q.block.side i) (pixelY s q.block.side j))
  storeLuma j i (levelShift b)

/-- The U address of a chroma sample of the planar kinds, R184. -/
def planarUAddr (s : State) (j i : Nat) : Word :=
  if s.srckind = srcNv12 then nv12UAddr s (chromaX s i) (chromaY s j) else i420UAddr s (chromaX s i) (chromaY s j)

/-- The V address of a chroma sample of the planar kinds, R184. -/
def planarVAddr (s : State) (j i : Nat) : Word :=
  if s.srckind = srcNv12 then nv12VAddr s (chromaX s i) (chromaY s j) else i420VAddr s (chromaX s i) (chromaY s j)

/-- One chroma sample of `YUVLOAD`, R184. -/
def planarChroma (j i : Nat) : Body Unit := do
  let s ← get
  let ub ← memRead (planarUAddr s j i)
  modify fun s => { s with uc := s.uc.setIfInBounds (8 * j + i) (some (levelShift ub)) }
  let vb ← memRead (planarVAddr s j i)
  modify fun s => { s with vc := s.vc.setIfInBounds (8 * j + i) (some (levelShift vb)) }

/-- `YUVLOAD`, R184. -/
def yuvloadBody : Body Unit := do
  let q ← conversionStart
  let s ← get
  require (decide (s.srckind = srcNv12) || decide (s.srckind = srcYuv420p)) .seqFault
  forGrid 16 16 (planarLuma q)
  forGrid 8 8 planarChroma

def execYuvload (s : State) : Host.Outcome State Fault Refusal := command 0x15 yuvloadBody s

/-- The average of a 2×2 box of a 16×16 plane, R185. -/
def boxAverage (p : List F32) (j i : Nat) : F32 :=
  let at' := fun r c => p.getD (16 * r + c) 0
  fmul (fadd (fadd (fadd (at' (2 * j) (2 * i)) (at' (2 * j) (2 * i + 1))) (at' (2 * j + 1) (2 * i)))
    (at' (2 * j + 1) (2 * i + 1))) fQuarter

/-- A plane averaged down to 8×8, R185. -/
def downsample (p : List F32) : Vector (Option F32) 64 :=
  Vector.ofFn fun n => some (boxAverage p (n.val / 8) (n.val % 8))

/-- `CSUB`, R185. -/
def csubBody : Body Unit := do
  let q ← conversionStart
  require (decide (q.wbvar = .subs)) .seqFault
  let s ← get
  match allWritten s.up.toList, allWritten s.vp.toList with
  | some up, some vp => set { s with uc := downsample up, vc := downsample vp }
  | _, _ => raise .seqFault

def execCsub (s : State) : Host.Outcome State Fault Refusal := command 0x16 csubBody s

/-! The macroblock operation. -/

/-- `FDCT a; JPDU c`. -/
def codeBlock (a : BlockSel) (c : Comp) : Body Unit := do
  fdctBody a
  jpduBody c

/-- The four luma blocks in raster order, R187, R189. -/
def codeLuma16 : Body Unit := do
  codeBlock .y0 .y
  codeBlock .y1 .y
  codeBlock .y2 .y
  codeBlock .y3 .y

/-- The two chroma blocks. -/
def codeChroma : Body Unit := do
  codeBlock .uc .u
  codeBlock .vc .v

/-- The body of the variant Subs, R187. -/
def subsBody : Body Unit := do
  let s ← get
  if s.pixfmt = pixGray8 then do
    gray2yBody
    codeLuma16
    jgrayuvBody
  else do
    rgb2yuvBody
    csubBody
    codeLuma16
    codeChroma

/-- The body of the variant Full, R188. -/
def fullBody : Body Unit := do
  let s ← get
  if s.pixfmt = pixGray8 then do
    gray2yBody
    codeBlock .y0 .y
    jgrayuvBody
  else do
    rgb2yuvBody
    codeBlock .y0 .y
    codeChroma

/-- The body of the planar variants, R189. -/
def planarBody : Body Unit := do
  yuvloadBody
  codeLuma16
  codeChroma

/-- The body of a variant, R186. -/
def variantBody : WbVar → Body Unit
  | .subs => subsBody
  | .full => fullBody
  | .nv12 => planarBody
  | .yuv420p => planarBody

/-- The counters after a macroblock, R186, R192. -/
def State.nextMacroblock (s : State) (q : Quant) : State :=
  if (s.mbx + 1).toNat = blocksPerBand q then { s with mbx := 0, mby := s.mby + 1, phase := .jBody }
  else { s with mbx := s.mbx + 1, phase := .jBody }

/-- `JWBLK`, R186. -/
def jwblkBody : Body Unit := do
  requirePhase Phase.allowsScan
  let q ← requireQuant
  let s ← get
  require (decide (s.mby.toNat < bandCount s q)) .seqFault
  variantBody q.wbvar
  modify fun s => s.nextMacroblock q
  let s ← get
  if s.bbFull then bflushBody else pure ()

def execJwblk (s : State) : Host.Outcome State Fault Refusal := command 0x1E jwblkBody s

end Sys2Proof.Machine
end

