-- ==== Sys2Proof/Machine/JpegQuant.lean ====
section
/-! DEFINITION. JQINIT, the JPEG quantisation and table initialiser (40_jpeg_quant_init.md R130 to R138). -/

namespace Sys2Proof.Machine

open Sys2Proof

/-- `clamp(QUALITY, 1, 100)` on the signed register, R131. -/
def clampedQuality (quality : Word) : Nat := (min (max quality.toInt 1) 100).toNat

/-- The scale of a clamped quality, R132. -/
def qualityScale (q : Nat) : Nat := if q < 50 then 5000 / q else 200 - 2 * q

/-- A quantiser entry, R133. -/
def quantEntry (base scale : Nat) : Nat := min (max ((base * scale + 50) / 100) 1) 255

/-- `QY[n]` or `QUV[n]`: the entry of natural index `n` from a base table, R133. -/
def quantAt (base : List Nat) (scale n : Nat) : Nat := quantEntry (base.getD n 0) scale

/-- `Recip(Q, row, col)`, R136. -/
def recip (q row col : Nat) : F32 := fdiv 0x3F800000 (fmul (fmul (f32OfNat q) (aasf row)) (aasf col))

/-- The stored table of zig-zag positions, R135. -/
def quantBytes (base : List Nat) (scale : Nat) : Vector Byte 64 :=
  Vector.ofFn fun z => BitVec.ofNat 8 (quantAt base scale (natIndex z.val))

/-- The reciprocal table of natural indices, R136. -/
def quantRecips (base : List Nat) (scale : Nat) : Vector F32 64 :=
  Vector.ofFn fun n => recip (quantAt base scale n.val) (n.val / 8) (n.val % 8)

/-- `SUBSAMPLE`, R134: the comparison uses `QUALITY` as written. -/
def subsampleMode (s : State) : Bool := decide (s.quality.toInt ≤ 90) || decide (s.srckind ≠ srcPixel)

/-- `WBVAR`, R191. -/
def writerVariant (s : State) : WbVar :=
  if s.srckind = srcNv12 then .nv12
  else if s.srckind = srcYuv420p then .yuv420p
  else if subsampleMode s then .subs
  else .full

/-- `AWIDTH`: `WIDTH` aligned up to the block side, R130, R134. -/
def alignedWidth (width : Word) (side : Nat) : Word := BitVec.ofNat 32 ((width.toNat + side - 1) / side * side)

/-- Everything `JQINIT` computes, R130. -/
def quantOf (s : State) : Quant :=
  let scale := qualityScale (clampedQuality s.quality)
  let block := if subsampleMode s then BlockSide.sixteen else BlockSide.eight
  { uy := quantBytes baseY scale
    uuv := quantBytes baseUv scale
    fy := quantRecips baseY scale
    fuv := quantRecips baseUv scale
    subsample := subsampleMode s
    block := block
    awidth := alignedWidth s.width block.side
    wbvar := writerVariant s }

/-- `JQINIT`, R130. -/
def jqinitBody : Body Unit := do
  requirePhaseIs .idle
  modify fun s => { s with quant := some (quantOf s) }

def execJqinit (s : State) : Host.Outcome State Fault Refusal := command 0x10 jqinitBody s

end Sys2Proof.Machine
end

