-- ==== Sys2Proof/Machine/System.lean ====
section
/-! DEFINITION. The system operations WRREG, RDREG, VALIDATE, SRESET (48_system_ops.md R280 to R283). -/

namespace Sys2Proof.Machine

open Sys2Proof

/-- `WRREG a, imm`, R280. The id was checked by the decoder; the width is checked after the phase (R303). -/
def wrregBody (r : WReg) (imm : Word) : Body Unit := do
  let s ← get
  require (wregAnyPhase r || decide (s.phase = .idle)) .seqFault
  require (decide (imm.toNat < 2 ^ wregBits r)) .illegalOp
  set (s.writeReg r imm)

def execWrreg (r : WReg) (imm : Word) (s : State) : Host.Outcome State Fault Refusal := command 0x01 (wrregBody r imm) s

/-- `RDREG a, b`, R281: legal in every phase; in `FAILED` neither fault is raised and the response is 0. -/
def execRdreg (r : RReg) (b : BitVec 16) (s : State) : Host.Outcome State Fault Refusal :=
  match r.indexOk b, s.readReg r b with
  | true, some v => .next (s.respond v)
  | true, none => if s.phase = .failed then .next (s.respond 0) else .next (s.takeFault .seqFault 0x02)
  | false, _ => if s.phase = .failed then .next (s.respond 0) else .next (s.takeFault .illegalOp 0x02)

/-- The first of the checks of R282 that fails, in their order. -/
def checkFault (s : State) : Option FaultCode :=
  let planar := decide (s.srckind ≠ srcPixel)
  if s.width = 0 ∨ s.height = 0 then some .paramZeroDim
  else if !planar && !([pixGray8, pixBgr24, pixBgra32, pixRgb24, pixRgba32].contains s.pixfmt) then some .paramPixFmt
  else if s.filetype = 7 then some .paramFileType
  else if planar && (s.width.getLsbD 0 || s.height.getLsbD 0) then some .paramOddDim
  else if planar && decide (s.yuvtype ≠ yuvTrect871) then some .paramYuvType
  else if decide (s.srckind = 3)
      || !([filePng, fileJpeg].contains s.filetype)
      || (planar && decide (s.filetype ≠ fileJpeg))
      || (decide (s.filetype = filePng) && [pixBgr24, pixBgra32].contains s.pixfmt)
      || (decide (s.filetype = fileJpeg) && (decide (65535 < s.width.toNat) || decide (65535 < s.height.toNat)))
    then some .paramEngineUnsupported
  else none

/-- `Checks()`, R282. -/
def checksBody : Body Unit := do
  let s ← get
  match checkFault s with
  | some c => raise c
  | none => pure ()

/-- `VALIDATE`, R282. -/
def validateBody : Body Unit := do
  requirePhaseIs .idle
  checksBody

def execValidate (s : State) : Host.Outcome State Fault Refusal := command 0x03 validateBody s

/-- `SRESET`, R283: legal in every phase, `FAILED` included. -/
def execSreset (s : State) : Host.Outcome State Fault Refusal := .next s.sreset

end Sys2Proof.Machine
end

