-- ==== Sys2Proof/Machine/JpegStream.lean ====
section
/-! DEFINITION. JINIT, JHDR, JROW, JFIN, JENC: JPEG stream assembly (44_jpeg_stream.md R200 to R211). -/

namespace Sys2Proof.Machine

open Sys2Proof

/-- `FILETYPE` must be the one the stream is of, R201, R263. -/
def requireFiletype (t : BitVec 3) : Body Unit := do
  let s ← get
  require (decide (s.filetype = t)) .paramEngineUnsupported

/-- The per-image registers of a JPEG at its start, R201, R321. -/
def State.startImage (s : State) : State :=
  { s with dc := { y := 0, u := 0, v := 0 }, bb := [], jacc := 0, jaccn := 0, mbx := 0, mby := 0, phase := .jInit }

/-- `JINIT`, R201. -/
def jinitBody : Body Unit := do
  requirePhaseIs .idle
  checksBody
  requireFiletype fileJpeg
  modify fun s => { s with out := [] }
  jqinitBody
  modify State.startImage

def execJinit (s : State) : Host.Outcome State Fault Refusal := command 0x11 jinitBody s

/-! The header, R202. -/

/-- A list of byte values. -/
def bytesOf (ns : List Nat) : List Byte := ns.map (BitVec.ofNat 8)

/-- SOI and APP0, R203. -/
def headerApp0 : List Byte :=
  bytesOf [0xFF, 0xD8, 0xFF, 0xE0, 0x00, 0x10, 0x4A, 0x46, 0x49, 0x46, 0x00, 0x01, 0x01, 0x00, 0x00, 0x01, 0x00, 0x01, 0x00, 0x00]

/-- DQT, R204. -/
def headerDqt (q : Quant) : List Byte :=
  bytesOf [0xFF, 0xDB, 0x00, 0x84, 0x00] ++ q.uy.toList ++ bytesOf [0x01] ++ q.uuv.toList

/-- SOF0, R205. -/
def headerSof0 (s : State) (q : Quant) : List Byte :=
  bytesOf [0xFF, 0xC0, 0x00, 0x11, 0x08] ++
  [s.height.extractLsb' 8 8, s.height.extractLsb' 0 8, s.width.extractLsb' 8 8, s.width.extractLsb' 0 8] ++
  bytesOf [0x03, 0x01, (if q.subsample then 0x22 else 0x11), 0x00, 0x02, 0x11, 0x01, 0x03, 0x11, 0x01]

/-- One table of the DHT segment: class and id, counts, symbols, R206. -/
def headerHuff (classId : Nat) (t : HuffTable) : List Byte := bytesOf (classId :: (t.bits ++ t.vals))

/-- DHT, R206. -/
def headerDht : List Byte :=
  bytesOf [0xFF, 0xC4, 0x01, 0xA2] ++ headerHuff 0x00 dcyTable ++ headerHuff 0x10 acyTable ++
  headerHuff 0x01 dccTable ++ headerHuff 0x11 accTable

/-- SOS, R207. -/
def headerSos : List Byte :=
  bytesOf [0xFF, 0xDA, 0x00, 0x0C, 0x03, 0x01, 0x00, 0x02, 0x11, 0x03, 0x11, 0x00, 0x3F, 0x00]

/-- The 607 header bytes, R202. -/
def jpegHeader (s : State) (q : Quant) : List Byte :=
  headerApp0 ++ headerDqt q ++ headerSof0 s q ++ headerDht ++ headerSos

/-- `JHDR`, R202. -/
def jhdrBody : Body Unit := do
  requirePhaseIs .jInit
  let q ← requireQuant
  let s ← get
  outBytes (jpegHeader s q)
  modify fun s => { s with phase := .jHdr }

def execJhdr (s : State) : Host.Outcome State Fault Refusal := command 0x12 jhdrBody s

/-! Body and end. -/

/-- `JROW`, R208. -/
def jrowBody : Body Unit := do
  requirePhase Phase.allowsScan
  let q ← requireQuant
  let s ← get
  require (decide (s.mbx = 0) && decide (s.mby.toNat < bandCount s q)) .seqFault
  repeatBody (blocksPerBand q) jwblkBody

def execJrow (s : State) : Host.Outcome State Fault Refusal := command 0x1F jrowBody s

/-- `JFIN`, R209. -/
def jfinBody : Body Unit := do
  requirePhaseIs .jBody
  let q ← requireQuant
  let s ← get
  require (decide (s.mbx = 0) && decide (s.mby.toNat = bandCount s q)) .seqFault
  push { value := 0x7F, len := 7 }
  bflushBody
  modify fun s => { s with jacc := 0, jaccn := 0 }
  outBytes [0xFF, 0xD9]
  modify fun s => { s with phase := .jDone }

def execJfin (s : State) : Host.Outcome State Fault Refusal := command 0x20 jfinBody s

/-- `JENC`, R210. -/
def jencBody : Body Unit := do
  jinitBody
  jhdrBody
  let q ← requireQuant
  let s ← get
  repeatBody (bandCount s q) jrowBody
  jfinBody

def execJenc (s : State) : Host.Outcome State Fault Refusal := command 0x21 jencBody s

end Sys2Proof.Machine
end

