-- ==== Sys2Proof/Machine/PngFilter.lean ====
section
/-! DEFINITION. PFILT, the PNG adaptive per-scanline filter selector (45_png_filter.md R220 to R228). -/

namespace Sys2Proof.Machine

open Sys2Proof

/-- The five filter types, R222. -/
inductive FilterType where
  | none | sub | up | average | paeth
  deriving DecidableEq, Repr

/-- The selector byte of a filter type, R222, R227. -/
def FilterType.num : FilterType → Byte
  | .none => 0
  | .sub => 1
  | .up => 2
  | .average => 3
  | .paeth => 4

/-- `Paeth(a, b, c)`, R223, on unbounded integers. -/
def paeth (a b c : Byte) : Byte :=
  let ia : Int := a.toNat
  let ib : Int := b.toNat
  let ic : Int := c.toNat
  let p := ia + ib - ic
  let pa := (p - ia).natAbs
  let pb := (p - ib).natAbs
  let pc := (p - ic).natAbs
  if pa ≤ pb ∧ pa ≤ pc then a else if pb ≤ pc then b else c

/-- `Pred(t, i)` from the neighbours of byte `i`, R222. -/
def predict (t : FilterType) (left up upLeft : Byte) : Byte :=
  match t with
  | .none => 0
  | .sub => left
  | .up => up
  | .average => BitVec.ofNat 8 ((left.toNat + up.toNat) / 2)
  | .paeth => paeth left up upLeft

/-- A row moved right by one pixel, zeros entering: the `left` (or `upLeft`) neighbours, R221. -/
def shiftRow (bpp : Nat) (row : List Byte) : List Byte := List.replicate bpp 0 ++ row

/-- The filtered bytes of one filter type from the row, its left neighbours, the row above and its left neighbours (R220, R222). -/
def filterBytes (t : FilterType) : List Byte → List Byte → List Byte → List Byte → List Byte
  | c :: cur, l :: left, u :: up, ul :: upLeft => (c - predict t l u ul) :: filterBytes t cur left up upLeft
  | _, _, _, _ => []

/-- The row filtered by a type, R220 to R222; `prev` is all zeros for row 0. -/
def filterRow (t : FilterType) (bpp : Nat) (cur prev : List Byte) : List Byte :=
  filterBytes t cur (shiftRow bpp cur) prev (shiftRow bpp prev)

/-- `Abs8`, R225. -/
def abs8 (b : Byte) : Nat := if b.toNat < 128 then b.toNat else 256 - b.toNat

/-- The cost of a filtered row, R225. -/
def filterCost (f : List Byte) : Nat := (f.map abs8).sum

/-- The candidates of a row in evaluation order after the first, which is `none`, R224. -/
def laterCandidates (row : Nat) : List FilterType := if row = 0 then [.sub] else [.sub, .up, .average, .paeth]

/-- A later candidate replaces the best only when it costs strictly less, R226. -/
def cheapest (cost : FilterType → Nat) (best : FilterType) : List FilterType → FilterType
  | [] => best
  | t :: ts => if cost t < cost best then cheapest cost t ts else cheapest cost best ts

/-- The filter type chosen for a row, R224 to R226. -/
def chooseFilter (row bpp : Nat) (cur prev : List Byte) : FilterType :=
  cheapest (fun t => filterCost (filterRow t bpp cur prev)) .none (laterCandidates row)

/-- The bytes `from`, `from + 1`, ... of scanline `r`, `n` of them, R62. -/
def readRow (r : Nat) : Nat → Nat → Body (List Byte)
  | _, 0 => pure []
  | i, n + 1 => do
    let s ← get
    let b ← memRead (rowAddr s r i)
    let bs ← readRow r (i + 1) n
    pure (b :: bs)

/-- `prev` of R220: the row above, or zeros for row 0 (R221). -/
def readAbove (r n : Nat) : Body (List Byte) := if 0 < r then readRow (r - 1) 0 n else pure (List.replicate n 0)

/-- `PIXFMT` must be a pixel format; its bytes per pixel (R62, notes/assumptions/15.md). -/
def requirePixel : Body Nat := fun s =>
  match bytesPerPixel s.pixfmt with
  | some bpp => .ok bpp s
  | none => .error .seqFault s

/-- `PFILT`, R220. -/
def pfiltBody : Body Unit := do
  requirePhase Phase.allowsPng
  let s ← get
  require (decide (s.row.toNat < s.height.toNat)) .seqFault
  let bpp ← requirePixel
  let n := s.width.toNat * bpp
  let r := s.row.toNat
  let cur ← readRow r 0 n
  let prev ← readAbove r n
  let best := chooseFilter r bpp cur prev
  appendFbuf best.num
  (filterRow best bpp cur prev).forM appendFbuf
  modify fun s => { s with row := s.row + 1, phase := .pBody }

def execPfilt (s : State) : Host.Outcome State Fault Refusal := command 0x30 pfiltBody s

end Sys2Proof.Machine
end

