-- ==== Sys2Proof/Machine/Zlib.lean ====
section
/-! DEFINITION. ZBEGIN, LZSTEP, ZEMIT, ZEND, ZCOMP, ADLER: the LZ77 matcher, the DEFLATE fixed-Huffman encoder and Adler-32
(46_zlib_deflate.md R230 to R250). -/

namespace Sys2Proof.Machine

open Sys2Proof

/-! Bit output, R244. -/

/-- One full byte leaves the accumulator, R244. -/
def drainByte : Body Unit := do
  let s ← get
  appendZbuf (BitVec.ofNat 8 s.zacc)
  modify fun s => { s with zacc := s.zacc / 2 ^ 8, zaccn := s.zaccn - 8 }

/-- `ZBits(v, n)`, R244. -/
def zBits (v n : Nat) : Body Unit := do
  modify fun s => { s with zacc := s.zacc ||| (v <<< s.zaccn), zaccn := s.zaccn + n }
  let s ← get
  repeatBody (s.zaccn / 8) drainByte

/-- `ZHuff(sym)`, R244. -/
def zHuff (sym : Nat) : Body Unit :=
  let c := fixedCode sym
  zBits (bitRev c.1 c.2) c.2

/-! Start. -/

/-- `q_eff = max(QUALITY, 5)`, signed, R231. -/
def effectiveQuality (quality : Word) : Word := BitVec.ofInt 32 (max quality.toInt 5)

/-- `ZLEN` for an input, R232. -/
def inputLength (s : State) : ZSel → Word
  | .fbuf => s.fblen
  | .src => s.clen

/-- The registers of the compressor at the start of a stream, R232. -/
def State.startStream (s : State) (a : ZSel) : State :=
  { s with zsrc := a, zlen := inputLength s a, zq := effectiveQuality s.quality, ht := [], zi := 0, token := none,
           zbuf := [], zacc := 0, zaccn := 0 }

/-- In `FAILED` nothing is legal; the compressor and checksum operations are legal in every other phase (R290). -/
def Phase.live (p : Phase) : Bool := decide (p ≠ .failed)

/-- `ZBEGIN a`, R232. -/
def zbeginBody (a : ZSel) : Body Unit := do
  requirePhase Phase.live
  modify fun s => s.startStream a
  appendZbuf 0x78
  appendZbuf 0x5E
  zBits 1 1
  zBits 1 2
  modify fun s => { s with zph := .run }

def execZbegin (a : ZSel) (s : State) : Host.Outcome State Fault Refusal := command 0x31 (zbeginBody a) s

/-! The matcher. -/

/-- The default `HASH3`, R233. -/
def defaultHash3 (b0 b1 b2 : Byte) : Word :=
  let h : Word := b0.setWidth 32 + (b1.setWidth 32 <<< 8) + (b2.setWidth 32 <<< 16)
  let h := h ^^^ (h <<< 3)
  let h := h + (h >>> 5)
  let h := h ^^^ (h <<< 4)
  let h := h + (h >>> 17)
  let h := h ^^^ (h <<< 25)
  h + (h >>> 6)

/-- The key of three bytes: the first byte lowest. -/
def hashKey (b0 b1 b2 : Byte) : Nat := b0.toNat + 2 ^ 8 * b1.toNat + 2 ^ 16 * b2.toNat

/-- The value listed for a key, if one is. -/
def HashFunction.listed : HashFunction → Nat → Option Word
  | [], _ => none
  | (a, v) :: f, k => if k = a then some v else HashFunction.listed f k

/-- The three bytes of a key. -/
def keyBytes (k : Nat) : Byte × Byte × Byte := (BitVec.ofNat 8 k, BitVec.ofNat 8 (k / 2 ^ 8), BitVec.ofNat 8 (k / 2 ^ 16))

/-- Keys rise strictly from `lo`, lie below `2^24`, and no value listed is the default's. -/
def HashFunction.wfFrom : Nat → HashFunction → Bool
  | _, [] => true
  | lo, (a, v) :: f =>
    let b := keyBytes a
    decide (lo ≤ a) && decide (a < 2 ^ 24) && decide (v ≠ defaultHash3 b.1 b.2.1 b.2.2) && HashFunction.wfFrom (a + 1) f

/-- The canonical form of `HASH3`. -/
def HashFunction.wf (f : HashFunction) : Bool := HashFunction.wfFrom 0 f

/-- `HASH3(b0, b1, b2)`, R233: the value listed, else the default's (notes/assumptions/10.md). -/
def hash3 (f : HashFunction) (b0 b1 b2 : Byte) : Word := (f.listed (hashKey b0 b1 b2)).getD (defaultHash3 b0 b1 b2)

/-- The bucket of three bytes, `HASH3 & 16383`, R233. -/
def bucketOf (f : HashFunction) (b0 b1 b2 : Byte) : Nat := (hash3 f b0 b1 b2).toNat % Config.hashBuckets

/-- The positions of a bucket after the insertion of `i`, R234. -/
def insertPosition (q : Nat) (ps : List Nat) (i : Nat) : List Nat :=
  (if ps.length = 2 * q then ps.drop q else ps) ++ [i]

/-- `Insert(h, i)`, R234. -/
def insertBody (h i : Nat) : Body Unit := modify fun s =>
  { s with ht := s.ht.put h (insertPosition s.zq.toNat (s.ht.get h) i) }

/-- Count equal bytes from `p` and `s`, at most `n` of them, R235. -/
def countEqual : Nat → Nat → Nat → Body Nat
  | 0, _, _ => pure 0
  | n + 1, p, q => do
    let a ← dataAt p
    let b ← dataAt q
    if a = b then do
      let k ← countEqual n (p + 1) (q + 1)
      pure (k + 1)
    else pure 0

/-- `ZlibCount(p, s, limit)`, R235. -/
def zlibCount (p s limit : Nat) : Body Nat := countEqual (min limit Config.maxMatch) p s

/-- Step 1 of `LZSTEP`: scan a bucket for the longest match of position `i` with length at least `best`; the last of equally
long ones wins (R236). -/
def searchMatch (i len : Nat) : List Nat → Nat → Option Nat → Body (Nat × Option Nat)
  | [], best, loc => pure (best, loc)
  | p :: ps, best, loc =>
    if i < p + Config.window then do
      let d ← zlibCount p i (len - i)
      if best ≤ d then searchMatch i len ps d (some p) else searchMatch i len ps best loc
    else searchMatch i len ps best loc

/-- Step 2 of `LZSTEP`: is there a strictly longer match at `i + 1` (R236, R238)? -/
def lazyBeaten (i len best : Nat) : List Nat → Body Bool
  | [] => pure false
  | p :: ps =>
    if i < p + Config.maxDist then do
      let e ← zlibCount p (i + 1) (len - i - 1)
      if best < e then pure true else lazyBeaten i len best ps
    else lazyBeaten i len best ps

/-- `TOKEN <- tok; ZI <- zi`, R236. -/
def setToken (tok : Token) (zi : Nat) : Body Unit := modify fun s =>
  { s with token := some tok, zi := BitVec.ofNat 32 zi }

/-- `Literal(b)` at `i`, R236. -/
def literalStep (b : Byte) (i : Nat) : Body Unit := setToken (.lit b) (i + 1)

/-- `Match(best, i - loc)` at `i`, R236. -/
def matchStep (best i loc : Nat) : Body Unit :=
  setToken (.copy (BitVec.ofNat 9 best) (BitVec.ofNat 15 (i - loc))) (i + best)

/-- `LZSTEP` outside the tail, R236. -/
def searchStep (i len : Nat) : Body Unit := do
  let d0 ← dataAt i
  let d1 ← dataAt (i + 1)
  let d2 ← dataAt (i + 2)
  let s ← get
  let h := bucketOf s.hash3 d0 d1 d2
  let found ← searchMatch i len (s.ht.get h) Config.minMatch none
  insertBody h i
  match found with
  | (best, some loc) => do
    let d3 ← dataAt (i + 3)
    let s ← get
    let beaten ← lazyBeaten i len best (s.ht.get (bucketOf s.hash3 d1 d2 d3))
    if beaten then literalStep d0 i else matchStep best i loc
  | (_, none) => literalStep d0 i

/-- The condition of `LZSTEP`, R236. -/
def lzReady (s : State) : Bool := decide (s.zph = .run) && !s.tokv && decide (s.zi.toNat < s.zlen.toNat)

/-- `LZSTEP`, R236. -/
def lzstepBody : Body Unit := do
  requirePhase Phase.live
  let s ← get
  require (lzReady s) .seqFault
  let i := s.zi.toNat
  let len := s.zlen.toNat
  if len ≤ i + 3 then do
    let b ← dataAt i
    literalStep b i
  else searchStep i len

def execLzstep (s : State) : Host.Outcome State Fault Refusal := command 0x32 lzstepBody s

/-! The encoder. -/

/-- `if n > 0: ZBits(v, n)`: the extra bits of a length or a distance, R241. -/
def zExtra (v n : Nat) : Body Unit := if 0 < n then zBits v n else pure ()

/-- A length/distance pair, R241 to R243, R249. -/
def emitMatch (len dist : Nat) : Body Unit := do
  require (decide (dist ≤ Config.maxDist) && decide (len ≤ Config.maxMatch)) .lzAssert
  let j := largestIndex lenBase len
  zHuff (257 + j)
  zExtra (len - lenBase.getD j 0) (lenExtra.getD j 0)
  let k := largestIndex distBase dist
  zBits (bitRev k 5) 5
  zExtra (dist - distBase.getD k 0) (distExtra.getD k 0)

/-- The bits of a token, R241. -/
def emitToken : Token → Body Unit
  | .lit b => zHuff b.toNat
  | .copy len dist => emitMatch len.toNat dist.toNat

/-- The condition of `ZEMIT`, R241: the token that waits. -/
def requireToken : Body Token := fun s =>
  match decide (s.zph = .run), s.token with
  | true, some t => .ok t s
  | _, _ => .error .seqFault s

/-- `ZEMIT`, R241. -/
def zemitBody : Body Unit := do
  requirePhase Phase.live
  let t ← requireToken
  emitToken t
  modify fun s => { s with token := none }

def execZemit (s : State) : Host.Outcome State Fault Refusal := command 0x33 zemitBody s

/-! End and checksum. -/

/-- One byte of Adler-32 on the pair `(lo, hi)`, R246. -/
def adlerByte (acc : Nat × Nat) (b : Byte) : Nat × Nat :=
  let lo := (acc.1 + b.toNat) % Config.adlerMod
  (lo, (acc.2 + lo) % Config.adlerMod)

/-- `Adler32(d)`, R246. -/
def adler32 (d : List Byte) : Word :=
  let acc := d.foldl adlerByte (1, 0)
  BitVec.ofNat 32 (acc.2 * 2 ^ 16 + acc.1)

/-- Pad the last byte with zero bits, R245. -/
def padZbits : Body Unit := do
  let s ← get
  if 0 < s.zaccn then zBits 0 (8 - s.zaccn) else pure ()

/-- The condition of `ZEND`, R245. -/
def zendReady (s : State) : Bool := decide (s.zph = .run) && !s.tokv && decide (s.zi = s.zlen)

/-- `ZEND`, R245. -/
def zendBody : Body Unit := do
  requirePhase Phase.live
  let s ← get
  require (zendReady s) .seqFault
  zHuff 256
  padZbits
  let d ← readSelected s.zsrc s.zlen.toNat
  modify fun s => { s with adlreg := adler32 d }
  (bigEndian (adler32 d)).forM appendZbuf
  modify fun s => { s with zph := .done }

def execZend (s : State) : Host.Outcome State Fault Refusal := command 0x34 zendBody s

/-- `while ZI < ZLEN: LZSTEP; ZEMIT`, R248. `LZSTEP` advances `ZI` (R324), so `ZLEN` rounds are enough. -/
def compressLoop : Nat → Body Unit
  | 0 => pure ()
  | n + 1 => do
    let s ← get
    if s.zi.toNat < s.zlen.toNat then do
      lzstepBody
      zemitBody
      compressLoop n
    else pure ()

/-- `ZCOMP a`, R248. -/
def zcompBody (a : ZSel) : Body Unit := do
  zbeginBody a
  let s ← get
  compressLoop s.zlen.toNat
  zendBody

def execZcomp (a : ZSel) (s : State) : Host.Outcome State Fault Refusal := command 0x35 (zcompBody a) s

/-- `ADLER a`, R247. -/
def adlerBody (a : ZSel) : Body Unit := do
  requirePhase Phase.live
  let d ← readWhole a
  modify fun s => { s with adlreg := adler32 d }

def execAdler (a : ZSel) (s : State) : Host.Outcome State Fault Refusal := command 0x36 (adlerBody a) s

end Sys2Proof.Machine
end

