-- ==== Sys2Proof/Machine/PngChunk.lean ====
section
/-! DEFINITION. CRC32, CRCCHK, PSIG, PCHUNK, PENC: CRC-32 and PNG chunk framing (47_png_chunk.md R260 to R267). -/

namespace Sys2Proof.Machine

open Sys2Proof

/-! CRC-32, R260. -/

/-- One of the eight inner steps. -/
def crcBit (c : Word) : Word := (c >>> 1) ^^^ (if c.getLsbD 0 then 0xEDB88320 else 0)

/-- The step of one message byte. -/
def crcByte (c : Word) (b : Byte) : Word :=
  crcBit (crcBit (crcBit (crcBit (crcBit (crcBit (crcBit (crcBit (c ^^^ b.setWidth 32))))))))

/-- `Crc32(m)`. -/
def crc32 (m : List Byte) : Word := m.foldl crcByte 0xFFFFFFFF ^^^ 0xFFFFFFFF

/-! Payloads. -/

/-- The colour type of a pixel format; 0xFF where it has none, R265. -/
def colourType (p : BitVec 3) : Byte :=
  if p = pixGray8 then 0
  else if p = pixRgb24 then 2
  else if p = pixRgba32 then 6
  else 0xFF

/-- `IhdrPayload`, R265. -/
def ihdrPayload (s : State) : List Byte :=
  bigEndian s.width ++ bigEndian s.height ++ [0x08, colourType s.pixfmt, 0x00, 0x00, 0x00]

/-- The message of `CRC32 a`, R261. DESIGN CHOICE: a ZBUF of `2^32` bytes or more is taken whole (notes/assumptions/27.md). -/
def crcMessage (a : MsgSel) : Body (List Byte) := do
  let s ← get
  match a with
  | .tag => pure (bigEndian s.ctype)
  | .ihdr => pure (bigEndian s.ctype ++ ihdrPayload s)
  | .zbuf => pure (bigEndian s.ctype ++ s.zbuf)
  | .src => readRange 0 s.clen.toNat

/-- `CRC32 a`, R261. -/
def crc32Body (a : MsgSel) : Body Unit := do
  requirePhase Phase.live
  let m ← crcMessage a
  modify fun s => { s with crcreg := crc32 m }

def execCrc32 (a : MsgSel) (s : State) : Host.Outcome State Fault Refusal := command 0x40 (crc32Body a) s

/-- `CRCCHK imm`, R262. -/
def crcchkBody (imm : Word) : Body Unit := do
  requirePhase Phase.live
  modify fun s => { s with crcok := decide (s.crcreg = imm) }

def execCrcchk (imm : Word) (s : State) : Host.Outcome State Fault Refusal := command 0x41 (crcchkBody imm) s

/-! Chunks. -/

/-- `Chunk(tag, p)`, R264: the length field is bits 31 to 0 of the length. -/
def chunkBody (tag : Word) (p : List Byte) : Body Unit := do
  outBytes (bigEndian (BitVec.ofNat 32 p.length))
  outBytes (bigEndian tag)
  outBytes p
  modify fun s => { s with crcreg := crc32 (bigEndian tag ++ p) }
  outBytes (bigEndian (crc32 (bigEndian tag ++ p)))

/-- `PSIG`, R263. -/
def psigBody : Body Unit := do
  requirePhaseIs .idle
  checksBody
  requireFiletype filePng
  modify fun s => { s with out := [], fbuf := [], row := 0 }
  outBytes pngSignature
  let s ← get
  chunkBody tagIhdr (ihdrPayload s)
  modify fun s => { s with phase := .pHdr }

def execPsig (s : State) : Host.Outcome State Fault Refusal := command 0x42 psigBody s

/-- The payload of `PCHUNK a`, R264. DESIGN CHOICE: a ZBUF of `2^32` bytes or more is taken whole (notes/assumptions/27.md). -/
def chunkPayload (s : State) : PaySel → List Byte
  | .empty => []
  | .ihdr => ihdrPayload s
  | .zbuf => s.zbuf

/-- The condition on the selector of `PCHUNK`, R264: selector 2 needs a finished stream. -/
def payloadReady (s : State) : PaySel → Bool
  | .empty => true
  | .ihdr => true
  | .zbuf => decide (s.zph = .done)

/-- `PCHUNK a`, R264. -/
def pchunkBody (a : PaySel) : Body Unit := do
  requirePhase Phase.allowsPng
  let s ← get
  require (payloadReady s a) .seqFault
  chunkBody s.ctype (chunkPayload s a)
  if s.ctype = tagIend then modify fun s => { s with phase := .pDone } else pure ()

def execPchunk (a : PaySel) (s : State) : Host.Outcome State Fault Refusal := command 0x43 (pchunkBody a) s

/-- `PENC`, R266. DESIGN CHOICE: a ZBUF of `2^32` bytes or more goes whole into the chunk (notes/assumptions/27.md). -/
def pencBody : Body Unit := do
  psigBody
  let s ← get
  repeatBody s.height.toNat pfiltBody
  zcompBody .fbuf
  let s ← get
  chunkBody tagIdat s.zbuf
  chunkBody tagIend []
  modify fun s => { s with phase := .pDone }

def execPenc (s : State) : Host.Outcome State Fault Refusal := command 0x44 pencBody s

end Sys2Proof.Machine
end

