-- ==== Sys2Proof/Machine/Dispatch.lean ====
section
/-! DEFINITION. One arm per constructor of Instr: the meaning of each instruction. -/

namespace Sys2Proof.Machine

open Sys2Proof

def exec (i : Instr) (s : State) : Host.Outcome State Fault Refusal :=
  match i with
  | .wrreg r imm => Sys2Proof.Machine.execWrreg r imm s
  | .rdreg r b => Sys2Proof.Machine.execRdreg r b s
  | .validate => Sys2Proof.Machine.execValidate s
  | .sreset => Sys2Proof.Machine.execSreset s
  | .jqinit => Sys2Proof.Machine.execJqinit s
  | .jinit => Sys2Proof.Machine.execJinit s
  | .jhdr => Sys2Proof.Machine.execJhdr s
  | .rgb2yuv => Sys2Proof.Machine.execRgb2yuv s
  | .gray2y => Sys2Proof.Machine.execGray2y s
  | .yuvload => Sys2Proof.Machine.execYuvload s
  | .csub => Sys2Proof.Machine.execCsub s
  | .fdct a => Sys2Proof.Machine.execFdct a s
  | .qzz a => Sys2Proof.Machine.execQzz a s
  | .jhuf a => Sys2Proof.Machine.execJhuf a s
  | .jpdu a => Sys2Proof.Machine.execJpdu a s
  | .jgrayuv => Sys2Proof.Machine.execJgrayuv s
  | .bpush b value => Sys2Proof.Machine.execBpush b value s
  | .bflush => Sys2Proof.Machine.execBflush s
  | .jwblk => Sys2Proof.Machine.execJwblk s
  | .jrow => Sys2Proof.Machine.execJrow s
  | .jfin => Sys2Proof.Machine.execJfin s
  | .jenc => Sys2Proof.Machine.execJenc s
  | .pfilt => Sys2Proof.Machine.execPfilt s
  | .zbegin a => Sys2Proof.Machine.execZbegin a s
  | .lzstep => Sys2Proof.Machine.execLzstep s
  | .zemit => Sys2Proof.Machine.execZemit s
  | .zend => Sys2Proof.Machine.execZend s
  | .zcomp a => Sys2Proof.Machine.execZcomp a s
  | .adler a => Sys2Proof.Machine.execAdler a s
  | .crc32 a => Sys2Proof.Machine.execCrc32 a s
  | .crcchk imm => Sys2Proof.Machine.execCrcchk imm s
  | .psig => Sys2Proof.Machine.execPsig s
  | .pchunk a => Sys2Proof.Machine.execPchunk a s
  | .penc => Sys2Proof.Machine.execPenc s

end Sys2Proof.Machine
end

