-- ==== Sys2Proof/Machine/Step.lean ====
section
/-! DEFINITION. One step of the engine: take the next command from the command port and execute it (48_system_ops.md R284). -/

namespace Sys2Proof.Machine

open Sys2Proof

/-- Take the oldest command presented and execute it, or take its refusal by the decoder as `IllegalOp` (R93). With no command
presented the engine waits, and all state survives the wait (R309). -/
def step (s : State) : Host.Outcome State Fault Refusal :=
  match s.cmds with
  | [] => .next s
  | w :: _ =>
    match decode w with
    | .ok i => exec i s.takeCommand
    | .error _ => malformed (Command.op w) s.takeCommand

/-- `s` with a command word presented at the command port, before any other. -/
def State.withFetchWord (s : State) (nbits w : Nat) : State :=
  { s with cmds := commandOfTable nbits w :: s.cmds }

end Sys2Proof.Machine
end

