-- ==== Sys2Proof/Safety.lean ====
section
/-! DEFINITION. What the statements are stated in: the phase table of R290, the invariants of a run, and reference functions
that write the spec's pseudocode once more as pure functions of the state. No definition of the machine uses this file. -/

namespace Sys2Proof.Machine

open Sys2Proof

/-! Sequencing, 48_system_ops.md R290. -/

/-- The column "legal in" of R290. In `FAILED` only `RDREG` and `SRESET` are legal. -/
def legalPhase (i : Instr) (p : Phase) : Bool :=
  match i with
  | .rdreg _ _ => true
  | .sreset => true
  | .wrreg r _ => if wregAnyPhase r then decide (p ≠ .failed) else decide (p = .idle)
  | .validate | .jqinit | .jinit | .jenc | .psig | .penc => decide (p = .idle)
  | .rgb2yuv | .gray2y | .yuvload | .csub | .fdct _ | .qzz _ | .jhuf _ | .jpdu _ | .jgrayuv | .bpush _ _ =>
    [Phase.idle, .jInit, .jHdr, .jBody].contains p
  | .bflush | .jwblk | .jrow => [Phase.jHdr, .jBody].contains p
  | .jhdr => decide (p = .jInit)
  | .jfin => decide (p = .jBody)
  | .pfilt | .pchunk _ => [Phase.pHdr, .pBody].contains p
  | .zbegin _ | .lzstep | .zemit | .zend | .zcomp _ | .adler _ | .crc32 _ | .crcchk _ => decide (p ≠ .failed)

/-- The column "`PHASE` after" of R290. -/
def phaseAfter (i : Instr) (s : State) : Phase :=
  match i with
  | .sreset => .idle
  | .jinit => .jInit
  | .jhdr => .jHdr
  | .jwblk | .jrow => .jBody
  | .jfin | .jenc => .jDone
  | .psig => .pHdr
  | .pfilt => .pBody
  | .penc => .pDone
  | .pchunk _ => if s.ctype = 0x49454E44 then .pDone else s.phase
  | .wrreg _ _ | .rdreg _ _ | .validate | .jqinit => s.phase
  | .rgb2yuv | .gray2y | .yuvload | .csub | .fdct _ | .qzz _ | .jhuf _ | .jpdu _ | .jgrayuv | .bpush _ _ | .bflush => s.phase
  | .zbegin _ | .lzstep | .zemit | .zend | .zcomp _ | .adler _ | .crc32 _ | .crcchk _ => s.phase

/-- The operations of 40 to 44. -/
def isJpegInstr : Instr → Bool
  | .jqinit | .jinit | .jhdr | .rgb2yuv | .gray2y | .yuvload | .csub | .fdct _ | .qzz _ | .jhuf _ | .jpdu _ | .jgrayuv
  | .bpush _ _ | .bflush | .jwblk | .jrow | .jfin | .jenc => true
  | .wrreg _ _ | .rdreg _ _ | .validate | .sreset => false
  | .pfilt | .zbegin _ | .lzstep | .zemit | .zend | .zcomp _ | .adler _ => false
  | .crc32 _ | .crcchk _ | .psig | .pchunk _ | .penc => false

/-- The operations of 45 to 47. -/
def isPngInstr : Instr → Bool
  | .pfilt | .zbegin _ | .lzstep | .zemit | .zend | .zcomp _ | .adler _ => true
  | .crc32 _ | .crcchk _ | .psig | .pchunk _ | .penc => true
  | .wrreg _ _ | .rdreg _ _ | .validate | .sreset => false
  | .jqinit | .jinit | .jhdr | .rgb2yuv | .gray2y | .yuvload | .csub | .fdct _ | .qzz _ | .jhuf _ | .jpdu _ | .jgrayuv
  | .bpush _ _ | .bflush | .jwblk | .jrow | .jfin | .jenc => false

/-- Execute commands one after another; the state after them, if the machine goes on through all of them. -/
def execAll : List Instr → State → Option State
  | [], s => some s
  | i :: is, s =>
    match exec i s with
    | .next t => execAll is t
    | .fault _ => none
    | .refused _ => none

/-- A command ends in `FAILED` with this code in `FAIL` and its own opcode byte in `FINFO` (R302, R304). -/
def raises (i : Instr) (s : State) (code : Word) : Prop :=
  ∃ t, exec i s = .next t ∧ t.phase = .failed ∧ t.fail = code ∧ t.finfo = i.opcode.byte.setWidth 32

/-! What an operation leaves alone: two states that agree on a group of registers. -/

/-- The configuration and pointer registers of R21 and R22, and the parameters SRC, the capacities and `HASH3`. -/
def SameConfig (s t : State) : Prop :=
  t.src = s.src ∧ t.caps = s.caps ∧ t.hash3 = s.hash3 ∧ t.width = s.width ∧ t.height = s.height ∧ t.pixfmt = s.pixfmt ∧ t.filetype = s.filetype ∧
  t.quality = s.quality ∧ t.yuvtype = s.yuvtype ∧ t.srckind = s.srckind ∧ t.src0Base = s.src0Base ∧
  t.src0Stride = s.src0Stride ∧ t.src1Base = s.src1Base ∧ t.src1Stride = s.src1Stride ∧ t.src2Base = s.src2Base ∧
  t.src2Stride = s.src2Stride ∧ t.cbase = s.cbase ∧ t.clen = s.clen ∧ t.ctype = s.ctype

/-- The JPEG state of R27 to R33 and the counters `MBX`, `MBY`. -/
def SameJpeg (s t : State) : Prop :=
  t.quant = s.quant ∧ t.dc = s.dc ∧ t.bb = s.bb ∧ t.jacc = s.jacc ∧ t.jaccn = s.jaccn ∧ t.yp = s.yp ∧ t.up = s.up ∧
  t.vp = s.vp ∧ t.uc = s.uc ∧ t.vc = s.vc ∧ t.cdu = s.cdu ∧ t.du = s.du ∧ t.mbx = s.mbx ∧ t.mby = s.mby

/-- The PNG and compressor state of R34 to R38, `ROW`, `ZI`, and the flags `CRCOK` and `ZPH`. -/
def SamePng (s t : State) : Prop :=
  t.fbuf = s.fbuf ∧ t.zsrc = s.zsrc ∧ t.zlen = s.zlen ∧ t.zq = s.zq ∧ t.ht = s.ht ∧ t.token = s.token ∧ t.zacc = s.zacc ∧
  t.zaccn = s.zaccn ∧ t.zbuf = s.zbuf ∧ t.adlreg = s.adlreg ∧ t.crcreg = s.crcreg ∧ t.row = s.row ∧ t.zi = s.zi ∧
  t.crcok = s.crcok ∧ t.zph = s.zph

/-- The table of R41: the value of every piece of state after reset. -/
def ResetTable (t : State) : Prop :=
  (t.width = 0 ∧ t.height = 0 ∧ t.pixfmt = 0 ∧ t.filetype = 0 ∧ t.quality = 0 ∧ t.yuvtype = 0 ∧ t.srckind = 0) ∧
  (t.src0Base = 0 ∧ t.src0Stride = 0 ∧ t.src1Base = 0 ∧ t.src1Stride = 0 ∧ t.src2Base = 0 ∧ t.src2Stride = 0 ∧
    t.cbase = 0 ∧ t.clen = 0 ∧ t.ctype = 0) ∧
  t.phase = .idle ∧ (t.mbx = 0 ∧ t.mby = 0 ∧ t.row = 0 ∧ t.zi = 0) ∧ (t.status = 0 ∧ t.fail = 0 ∧ t.finfo = 0) ∧
  (t.dc.y = 0 ∧ t.dc.u = 0 ∧ t.dc.v = 0) ∧ (t.bb = [] ∧ t.jacc = 0 ∧ t.jaccn = 0 ∧ t.zacc = 0 ∧ t.zaccn = 0) ∧
  (t.fbuf = [] ∧ t.zbuf = [] ∧ t.out = []) ∧ (∀ h, t.ht.get h = []) ∧
  (t.tokenWord = 0 ∧ t.adlreg = 0 ∧ t.crcreg = 0 ∧ t.zlen = 0 ∧ t.zq = 0 ∧ t.zsrc.num = 0) ∧
  t.quant = none ∧
  (∀ i, element t.yp i = none ∧ element t.up i = none ∧ element t.vp i = none ∧ element t.uc i = none ∧
    element t.vc i = none ∧ element t.cdu i = none ∧ element t.du i = none)

/-! Invariants. -/

/-- SRC, HT and the list of `HASH3` are in their canonical forms (R61, R35, R233). -/
def StorageInv (s : State) : Prop := s.src.wf = true ∧ s.ht.wf = true ∧ s.hash3.wf = true

/-- `BBN` is at most 2048 and each slot holds a value of its length, at most 16 (R30, R161). -/
def BitBufferInv (s : State) : Prop :=
  s.bb.length ≤ 2048 ∧ ∀ p ∈ s.bb, p.len ≤ 16 ∧ p.value.toNat < 2 ^ p.len

/-- `JACCN` and `ZACCN` are 0..7 and the accumulators hold that many bits (R31, R37); after a fault nothing is said of them. -/
def AccumulatorInv (s : State) : Prop :=
  s.phase ≠ .failed → s.jaccn ≤ 7 ∧ s.jacc < 2 ^ s.jaccn ∧ s.zaccn ≤ 7 ∧ s.zacc < 2 ^ s.zaccn

/-- The fault registers agree with the phase (R26, R301, R304): outside `FAILED` both are 0; in `FAILED` the code is 1 to 13,
`FINFO` is an opcode byte and OUT is empty. -/
def FaultInv (s : State) : Prop :=
  (s.phase ≠ .failed → s.fail = 0 ∧ s.finfo = 0) ∧
  (s.phase = .failed → 1 ≤ s.fail.toNat ∧ s.fail.toNat ≤ 13 ∧ s.finfo.toNat < 256 ∧ s.out = [])

/-- The mode registers agree with one another (R28, R130, R134, R191). -/
def Quant.consistent (q : Quant) : Prop :=
  q.block = (if q.subsample then BlockSide.sixteen else BlockSide.eight) ∧ (q.wbvar = .full ↔ q.subsample = false)

/-- The mode registers, whenever written, agree with one another. -/
def ModeInv (s : State) : Prop := ∀ q, s.quant = some q → q.consistent

/-- The phases of a JPEG in progress or complete. -/
def Phase.isJpeg : Phase → Bool
  | .jInit | .jHdr | .jBody | .jDone => true
  | .idle | .pHdr | .pBody | .pDone | .failed => false

/-- The phases of a PNG in progress or complete. -/
def Phase.isPng : Phase → Bool
  | .pHdr | .pBody | .pDone => true
  | .idle | .jInit | .jHdr | .jBody | .jDone | .failed => false

/-- From `JINIT` on the configuration has passed the checks and the tables and mode registers are those of the configuration as
it stands: it is frozen (R21, R201, R280, R323 H7). -/
def JpegConfigInv (s : State) : Prop :=
  s.phase.isJpeg = true → checkFault s = none ∧ s.filetype = 5 ∧ s.quant = some (quantOf s)

/-- From `PSIG` on the configuration has passed the checks, and FBUF holds one selector byte and one row for each scanline
filtered (R227). -/
def PngRowsInv (s : State) : Prop :=
  s.phase.isPng = true →
    checkFault s = none ∧ s.filetype = 4 ∧ s.row.toNat ≤ s.height.toNat ∧
    ∃ bpp, bytesPerPixel s.pixfmt = some bpp ∧ s.fbuf.length = s.row.toNat * (1 + s.width.toNat * bpp)

/-- A literal, or a match length in 3..258 and a distance in 1..32767 (R239). -/
def Token.legal : Token → Prop
  | .lit _ => True
  | .copy len dist => 3 ≤ len.toNat ∧ len.toNat ≤ 258 ∧ 1 ≤ dist.toNat

/-- The compressor between its commands (R24, R35, R234, R239): the position is in the input, every recorded position is before
it and was not in the tail, a bucket holds at most `2 * ZQ` positions, and a token that waits is legal. -/
def CompressorInv (s : State) : Prop :=
  s.phase ≠ .failed → s.zph = .run →
    s.zi.toNat ≤ s.zlen.toNat ∧ 5 ≤ s.zq.toNat ∧
    (∀ h, (s.ht.get h).length ≤ 2 * s.zq.toNat ∧ ∀ p ∈ s.ht.get h, p < s.zi.toNat ∧ p + 3 < s.zlen.toNat) ∧
    ∀ tok, s.token = some tok → tok.legal

/-! Bits. -/

/-- The `n` low bits of a number, bit 0 first. -/
def lsbBits (n v : Nat) : List Bool := (List.range n).map fun j => v.testBit j

/-- The `n` low bits of a number, bit `n - 1` first (R68). -/
def msbBits (n v : Nat) : List Bool := (lsbBits n v).reverse

/-- The number whose bits are given, the most significant first. -/
def bitsValue (bs : List Bool) : Nat := bs.foldl (fun v b => 2 * v + b.toNat) 0

/-- The full bytes of a bit string, the first bit of a byte in its bit 7 (R68). -/
def fullBytes : List Bool → List Byte
  | b7 :: b6 :: b5 :: b4 :: b3 :: b2 :: b1 :: b0 :: rest =>
    BitVec.ofNat 8 (bitsValue [b7, b6, b5, b4, b3, b2, b1, b0]) :: fullBytes rest
  | _ => []

/-- The bits that do not fill a byte, R165. -/
def leftBits : List Bool → List Bool
  | _ :: _ :: _ :: _ :: _ :: _ :: _ :: _ :: rest => leftBits rest
  | bs => bs

/-- Byte stuffing, R164. -/
def stuffed (bs : List Byte) : List Byte := bs.flatMap fun b => if b = 0xFF then [0xFF, 0x00] else [b]

/-- The bits queued for the scan: the residual bits, then those of the slots of `BB`, oldest slot first (R31, R163). -/
def State.scanBits (s : State) : List Bool := msbBits s.jaccn s.jacc ++ s.bb.flatMap fun p => msbBits p.len p.value.toNat

/-- The whole bit string of the zlib stream so far: the bytes of ZBUF and the bits pending, least significant first (R69). -/
def State.streamBits (s : State) : List Bool := s.zbuf.flatMap (fun b => lsbBits 8 b.toNat) ++ lsbBits s.zaccn s.zacc

/-- The bits of a literal/length symbol: its code, most significant bit first (R111, R244). -/
def symbolBits (sym : Nat) : List Bool := msbBits (fixedCode sym).2 (fixedCode sym).1

/-- The bits of a token (R241 to R243): the length code, its extra bits low bit first, the 5-bit distance code most significant
bit first, its extra bits low bit first. -/
def tokenBits : Token → List Bool
  | .lit b => symbolBits b.toNat
  | .copy len dist =>
    let j := largestIndex lenBase len.toNat
    let k := largestIndex distBase dist.toNat
    symbolBits (257 + j) ++ lsbBits (lenExtra.getD j 0) (len.toNat - lenBase.getD j 0) ++
    msbBits 5 k ++ lsbBits (distExtra.getD k 0) (dist.toNat - distBase.getD k 0)

/-! The conversion kernels as functions of the state, 43_jpeg_macroblock.md R181 to R185. -/

/-- A byte of SRC, and whether it is mapped. -/
def State.srcByte (s : State) (a : Word) : Byte := (s.src.read a.toNat).getD 0

def State.srcMapped (s : State) (a : Word) : Bool := (s.src.read a.toNat).isSome

/-- `f` holds of every place of a grid. -/
def allGrid (rows cols : Nat) (f : Nat → Nat → Bool) : Bool :=
  (List.range rows).all fun j => (List.range cols).all fun i => f j i

/-- A 16×16 plane with its top-left `side` by `side` region written. -/
def writePlane (side : Nat) (f : Nat → Nat → F32) (old : Vector (Option F32) 256) : Vector (Option F32) 256 :=
  Vector.ofFn fun n => if n.val / 16 < side ∧ n.val % 16 < side then some (f (n.val / 16) (n.val % 16)) else old[n]

/-- An 8×8 block, all of it written. -/
def writeBlock (f : Nat → Nat → F32) : Vector (Option F32) 64 := Vector.ofFn fun n => some (f (n.val / 8) (n.val % 8))

/-- The address of byte `k` of the pixel of sample `(j, i)`, R62, R181. -/
def sampleAddr (s : State) (side bpp k j i : Nat) : Word := pixelAddr s bpp (pixelX s side i) (pixelY s side j) k

/-- A gray sample, R183. -/
def graySampleOf (s : State) (side j i : Nat) : F32 := levelShift (s.srcByte (sampleAddr s side 1 0 j i))

/-- A colour sample as red, green and blue, R182. -/
def colourSampleOf (f : F32 → F32 → F32 → F32) (s : State) (side bpp : Nat) (k : Nat × Nat × Nat) (j i : Nat) : F32 :=
  f (f32OfByte (s.srcByte (sampleAddr s side bpp k.1 j i))) (f32OfByte (s.srcByte (sampleAddr s side bpp k.2.1 j i)))
    (f32OfByte (s.srcByte (sampleAddr s side bpp k.2.2 j i)))

/-- A luma sample of a planar source, R184. -/
def planarLumaOf (s : State) (side j i : Nat) : F32 := levelShift (s.srcByte (yAddr s (pixelX s side i) (pixelY s side j)))

/-- The bytes `GRAY2Y` reads are mapped. -/
def grayMapped (s : State) (side : Nat) : Bool := allGrid side side fun j i => s.srcMapped (sampleAddr s side 1 0 j i)

/-- The bytes `RGB2YUV` reads are mapped. -/
def colourMapped (s : State) (side bpp : Nat) (k : Nat × Nat × Nat) : Bool :=
  allGrid side side fun j i => s.srcMapped (sampleAddr s side bpp k.1 j i) && s.srcMapped (sampleAddr s side bpp k.2.1 j i) &&
    s.srcMapped (sampleAddr s side bpp k.2.2 j i)

/-- The bytes `YUVLOAD` reads are mapped. -/
def planarMapped (s : State) (side : Nat) : Bool :=
  (allGrid 16 16 fun j i => s.srcMapped (yAddr s (pixelX s side i) (pixelY s side j))) &&
  (allGrid 8 8 fun j i => s.srcMapped (planarUAddr s j i) && s.srcMapped (planarVAddr s j i))

/-- The state after `GRAY2Y`. -/
def State.grayLoaded (s : State) (q : Quant) : State :=
  { s with yp := writePlane q.block.side (graySampleOf s q.block.side) s.yp }

/-- The state after `RGB2YUV` with `bpp` bytes a pixel and the channels at the offsets `k`. -/
def State.colourLoaded (s : State) (q : Quant) (bpp : Nat) (k : Nat × Nat × Nat) : State :=
  if q.subsample then
    { s with yp := writePlane 16 (colourSampleOf lumaOf s 16 bpp k) s.yp
             up := writePlane 16 (colourSampleOf chromaUOf s 16 bpp k) s.up
             vp := writePlane 16 (colourSampleOf chromaVOf s 16 bpp k) s.vp }
  else
    { s with yp := writePlane 8 (colourSampleOf lumaOf s 8 bpp k) s.yp
             uc := writeBlock (colourSampleOf chromaUOf s 8 bpp k)
             vc := writeBlock (colourSampleOf chromaVOf s 8 bpp k) }

/-- The state after `YUVLOAD`. -/
def State.planarLoaded (s : State) (q : Quant) : State :=
  { s with yp := writePlane 16 (planarLumaOf s q.block.side) s.yp
           uc := writeBlock fun j i => levelShift (s.srcByte (planarUAddr s j i))
           vc := writeBlock fun j i => levelShift (s.srcByte (planarVAddr s j i)) }

/-! The data units of a macroblock, R186 to R189. -/

/-- The sample of place `n` of a block as a function of the configuration, SRC, the counters and the mode registers alone. -/
def unitSample (s : State) (q : Quant) (a : BlockSel) (n : Nat) : F32 :=
  let r := n / 8
  let c := n % 8
  let bpp := (bytesPerPixel s.pixfmt).getD 0
  let k := (channelOffsets s.pixfmt).getD (0, 0, 0)
  let luma := fun j i =>
    if s.srckind ≠ srcPixel then planarLumaOf s q.block.side j i
    else if s.pixfmt = pixGray8 then graySampleOf s q.block.side j i
    else colourSampleOf lumaOf s q.block.side bpp k j i
  let chroma := fun (f : F32 → F32 → F32 → F32) (planar : State → Nat → Nat → Word) =>
    if s.srckind ≠ srcPixel then levelShift (s.srcByte (planar s r c))
    else
      let full := colourSampleOf f s q.block.side bpp k
      if q.subsample then
        fmul (fadd (fadd (fadd (full (2 * r) (2 * c)) (full (2 * r) (2 * c + 1))) (full (2 * r + 1) (2 * c)))
          (full (2 * r + 1) (2 * c + 1))) fQuarter
      else full r c
  match a with
  | .y0 => luma r c
  | .y1 => luma r (8 + c)
  | .y2 => luma (8 + r) c
  | .y3 => luma (8 + r) (8 + c)
  | .uc => chroma chromaUOf planarUAddr
  | .vc => chroma chromaVOf planarVAddr

/-- The quantised data unit of a block in zig-zag order (R140, R150). -/
def unitCoefficients (s : State) (q : Quant) (a : BlockSel) (c : Comp) : List Int :=
  let cdu := dctBlock ((List.range 64).map (unitSample s q a))
  (List.range 64).map (quantised cdu (recipTable q (compTable c)))

/-- The ranges of 8-bit sources: the DC coefficient in -1024..1020, every AC coefficient of category at most 10. DEDUCED: R167 writes
1016, which is 8 times the largest luma sample, but its chroma samples reach 127.5, and 8 times that is 1020
(notes/assumptions/28.md). -/
def unitInRange (du : List Int) : Bool :=
  decide (-1024 ≤ du.headD 0) && decide (du.headD 0 ≤ 1020) && du.tail.all fun v => decide (category v ≤ 10)

/-- The blocks a macroblock transforms, with their components, in the order of the scan (R187 to R189, R192). -/
def unitsOf (s : State) (q : Quant) : List (BlockSel × Comp) :=
  let luma : List (BlockSel × Comp) := if q.subsample then [(.y0, .y), (.y1, .y), (.y2, .y), (.y3, .y)] else [(.y0, .y)]
  if s.srckind = srcPixel ∧ s.pixfmt = pixGray8 then luma else luma ++ [(.uc, .u), (.vc, .v)]

/-- The commands whose effect the body of `JWBLK` has, R187 to R189: the conversion, a transform and a data unit for each block in
the order of the scan, and for a gray source the placeholder codes. -/
def macroblockParts (s : State) (q : Quant) : List Instr :=
  let blocks := fun (bs : List (BlockSel × Comp)) => (bs.map fun b => [Instr.fdct b.1, Instr.jpdu b.2]).flatten
  let luma16 : List (BlockSel × Comp) := [(.y0, .y), (.y1, .y), (.y2, .y), (.y3, .y)]
  let chroma : List (BlockSel × Comp) := [(.uc, .u), (.vc, .v)]
  match q.wbvar with
  | .subs =>
    if s.pixfmt = pixGray8 then [.gray2y] ++ blocks luma16 ++ [.jgrayuv] else [.rgb2yuv, .csub] ++ blocks (luma16 ++ chroma)
  | .full =>
    if s.pixfmt = pixGray8 then [.gray2y] ++ blocks [(.y0, .y)] ++ [.jgrayuv] else [.rgb2yuv] ++ blocks ((.y0, .y) :: chroma)
  | .nv12 | .yuv420p => [.yuvload] ++ blocks (luma16 ++ chroma)

/-- The source bytes of the macroblock at (`MBX`, `MBY`) are mapped. -/
def macroblockMapped (s : State) (q : Quant) : Bool :=
  if s.srckind ≠ srcPixel then planarMapped s q.block.side
  else if s.pixfmt = pixGray8 then grayMapped s q.block.side
  else colourMapped s q.block.side ((bytesPerPixel s.pixfmt).getD 0) ((channelOffsets s.pixfmt).getD (0, 0, 0))

/-- The macroblock at (`MBX`, `MBY`) can be coded: its bytes are mapped and its data units lie in the ranges of 8-bit
sources (R167, notes/assumptions/28.md). -/
def macroblockReady (s : State) (q : Quant) : Bool :=
  macroblockMapped s q && (unitsOf s q).all fun u => unitInRange (unitCoefficients s q u.1 u.2)

/-- The counters set to a macroblock. -/
def State.atBlock (s : State) (x y : Nat) : State := { s with mbx := BitVec.ofNat 32 x, mby := BitVec.ofNat 32 y }

/-- A DC predictor value in the range of a DC coefficient (R167, notes/assumptions/28.md). -/
def dcInRange (w : Word) : Bool := decide (-1024 ≤ w.toInt) && decide (w.toInt ≤ 1020)

/-- What a macroblock operation finds at its start when it is reached as the spec's sequence reaches it: the predictors in
range, the bit buffer not full (R186), no capacity on OUT. -/
def coderReady (s : State) : Bool :=
  dcInRange s.dc.y && dcInRange s.dc.u && dcInRange s.dc.v && decide (s.bb.length ≤ 1280) && decide (s.caps.out = none)

/-! `JHUF` as R153 writes it. -/

/-- The largest `z` in 1..63 with a coefficient that is not zero, or 0. -/
def lastNonZero (du : List Int) : Nat :=
  ((List.range 64).filter fun z => decide (1 ≤ z) && decide (du.getD z 0 ≠ 0)).getLastD 0

/-- The number of zeros from position `z` on, at most `n`. -/
def zerosFrom (du : List Int) : Nat → Nat → Nat
  | 0, _ => 0
  | n + 1, z => if du.getD z 0 = 0 then zerosFrom du n (z + 1) + 1 else 0

/-- The loop `while z <= end0` of R153, at most `n` times round. -/
def acLoop (t : HuffTable) (du : List Int) (end0 : Nat) : Nat → Nat → List (Option BitPair)
  | 0, _ => []
  | n + 1, z =>
    if z ≤ end0 then
      let r := zerosFrom du 64 z
      let v := du.getD (z + r) 0
      List.replicate (r / 16) (huffPair t 0xF0) ++
      [huffPair t (16 * (r % 16) + category v), some (calcBits v)] ++ acLoop t du end0 n (z + r + 1)
    else []

/-- The pairs of R153 for a data unit whose AC coefficients have categories at most 10. -/
def jhufPairs (a : Comp) (dc : Int) (du : List Int) : List (Option BitPair) :=
  let diff := du.getD 0 0 - dc
  let dcCodes :=
    if diff = 0 then [huffPair (dcTable a) 0] else [huffPair (dcTable a) (category diff), some (calcBits diff)]
  let end0 := lastNonZero du
  let acCodes :=
    if end0 = 0 then [huffPair (acTable a) 0x00]
    else acLoop (acTable a) du end0 63 1 ++ (if end0 = 63 then [] else [huffPair (acTable a) 0x00])
  dcCodes ++ acCodes

/-! `LZSTEP` as R236 writes it, over the input as a list. -/

/-- `ZlibCount(p, q, limit)`, R235. -/
def countOf (data : List Byte) : Nat → Nat → Nat → Nat
  | 0, _, _ => 0
  | n + 1, p, q => if data.getD p 0 = data.getD q 0 then countOf data n (p + 1) (q + 1) + 1 else 0

/-- Step 1: `best` and `loc` after the bucket's positions, oldest first. -/
def bestMatch (data : List Byte) (i : Nat) (ps : List Nat) : Nat × Option Nat :=
  ps.foldl (fun acc p =>
    let d := countOf data (min (data.length - i) 258) p i
    if i < p + 32768 ∧ acc.1 ≤ d then (d, some p) else acc) (3, none)

/-- Step 2: some candidate of the bucket of `i + 1` is strictly longer. -/
def longerNext (data : List Byte) (i best : Nat) (ps : List Nat) : Bool :=
  ps.any fun p => decide (i < p + 32767) && decide (best < countOf data (min (data.length - i - 1) 258) p (i + 1))

/-- The bucket of position `i`. -/
def bucketAt (f : HashFunction) (data : List Byte) (i : Nat) : Nat := bucketOf f (data.getD i 0) (data.getD (i + 1) 0) (data.getD (i + 2) 0)

/-- The state after `LZSTEP` on the input `data`. -/
def State.lzStepped (s : State) (data : List Byte) : State :=
  let i := s.zi.toNat
  let literal : Token × Nat := (.lit (data.getD i 0), i + 1)
  if data.length ≤ i + 3 then { s with token := some literal.1, zi := BitVec.ofNat 32 literal.2 }
  else
    let h := bucketAt s.hash3 data i
    let ht := s.ht.put h (insertPosition s.zq.toNat (s.ht.get h) i)
    let decision : Token × Nat :=
      match bestMatch data i (s.ht.get h) with
      | (_, none) => literal
      | (best, some loc) =>
        if longerNext data i best (ht.get (bucketAt s.hash3 data (i + 1))) then literal
        else (.copy (BitVec.ofNat 9 best) (BitVec.ofNat 15 (i - loc)), i + best)
    { s with ht := ht, token := some decision.1, zi := BitVec.ofNat 32 decision.2 }

/-- The compressor's input is the list `data` and can be read whole (R65). -/
def State.inputIs (s : State) (data : List Byte) : Bool :=
  decide (data.length = s.zlen.toNat) &&
  (match s.zsrc with
  | .fbuf => decide (data.length ≤ s.fbuf.length) && decide (s.fbuf.take data.length = data)
  | .src => (List.range data.length).all fun j => decide (s.src.read (rangeAddr s j).toNat = some (data.getD j 0)))

/-- The byte sequence of a selector is `data` and can be read whole (R65, R247). -/
def State.selects (s : State) (a : ZSel) (data : List Byte) : Bool :=
  match a with
  | .fbuf => decide (s.fbuf = data)
  | .src =>
    decide (data.length = s.clen.toNat) &&
    (List.range data.length).all fun j => decide (s.src.read (rangeAddr s j).toNat = some (data.getD j 0))

/-! PNG. -/

/-- Row `r` of the source, `n` bytes. -/
def sourceRow (s : State) (r n : Nat) : List Byte := (List.range n).map fun i => s.srcByte (rowAddr s r i)

/-- Row `r` of the source is mapped. -/
def rowMapped (s : State) (r n : Nat) : Bool := (List.range n).all fun i => s.srcMapped (rowAddr s r i)

/-- `prev` of R220 and R221: the row above, or zeros for row 0. -/
def rowAbove (s : State) (r n : Nat) : List Byte := if r = 0 then List.replicate n 0 else sourceRow s (r - 1) n

/-- `Pred(t, i)` from the row and the row above, by index (R221, R222). -/
def predAt (t : FilterType) (bpp : Nat) (cur prev : List Byte) (i : Nat) : Byte :=
  let left := if bpp ≤ i then cur.getD (i - bpp) 0 else 0
  let up := prev.getD i 0
  let upLeft := if bpp ≤ i then prev.getD (i - bpp) 0 else 0
  match t with
  | .none => 0
  | .sub => left
  | .up => up
  | .average => BitVec.ofNat 8 ((left.toNat + up.toNat) / 2)
  | .paeth => paeth left up upLeft

/-- A chunk as R264 lays it out. -/
def chunkBytes (tag : Word) (p : List Byte) : List Byte :=
  bigEndian (BitVec.ofNat 32 p.length) ++ bigEndian tag ++ p ++ bigEndian (crc32 (bigEndian tag ++ p))

end Sys2Proof.Machine
end

