-- ==== Sys2Proof/Certificates/Slice0/Obligations.lean ====
section
/-! DEFINITION. The statements for the provers. Each docstring names the rules of spec/ it formalises or rests on. -/

open Sys2Proof Sys2Proof.Machine

/-! Encoding, 30_encoding.md R90 to R97. -/

/-- The decoder reads back every well-formed instruction from the word the encoder gives it, with every operand. -/
def Obligations.DecodeEncode : Prop := ∀ i : Instr, i.wf = true → decode (encode i) = .ok i

/-- Every word the decoder accepts is the word of a well-formed instruction: no bit is dropped and no unused field is set (R91). -/
def Obligations.EncodeDecode : Prop := ∀ (w : Command) (i : Instr), decode w = .ok i → i.wf = true ∧ encode i = w

/-- The words R95 writes out, and a word of each family of the opcode table, decode to the commands they stand for: the system
operations (48), `JQINIT` (40), `FDCT` (41), `BPUSH` (42), `YUVLOAD` and `JWBLK` (43), `JINIT` and `JENC` (44), `PFILT` (45),
`ZBEGIN` (46), `CRCCHK` (47). -/
def Obligations.DecodeSampleWords : Prop :=
  decode 0x0000001000000001 = .ok (.wrreg .width 16) ∧
  decode 0x0000000000002002 = .ok (.rdreg (.ro .status) 0) ∧
  decode 0x0000000000054402 = .ok (.rdreg (.arr .du) 5) ∧
  decode 0x0000000000000010 = .ok .jqinit ∧
  decode 0x0000000000000217 = .ok (.fdct .y2) ∧
  decode 0x0000007F0007001C = .ok (.bpush 7 0x7F) ∧
  decode 0x0000000000000015 = .ok .yuvload ∧
  decode 0x000000000000001E = .ok .jwblk ∧
  decode 0x0000000000000011 = .ok .jinit ∧
  decode 0x0000000000000021 = .ok .jenc ∧
  decode 0x0000000000000331 = .ok (.zbegin .src) ∧
  decode 0x0000000000000030 = .ok .pfilt ∧
  decode 0xAE42608200000041 = .ok (.crcchk 0xAE426082)

/-! The step, 48_system_ops.md R284, 60_exceptions.md R303. -/

/-- The step takes the oldest command word presented and runs the instruction it decodes to; a word that decodes to nothing is
`IllegalOp` with its own opcode byte in `FINFO`, but for the phase `FAILED`, where it is ignored (R93, R292, R303, R304). -/
def Obligations.StepTakesCommand : Prop := ∀ (s : State) (w : Command) (rest : List Command), s.cmds = w :: rest →
  (∀ i, decode w = .ok i → step s = exec i { s with cmds := rest }) ∧
  (∀ e, decode w = .error e →
    step s = if s.phase = .failed then .next { s with cmds := rest, resp := 0 }
      else .next { s with cmds := rest, resp := 0, fail := 13, finfo := (w.extractLsb' 0 8).setWidth 32, phase := .failed, out := [] })

/-! Faults, 60_exceptions.md. -/

/-- `FAILED` is absorbing: every command word but an `RDREG` and an `SRESET` changes nothing and answers 0 (R292). -/
def Obligations.FailedIsAbsorbing : Prop := ∀ (s : State) (w : Command) (rest : List Command),
  s.phase = .failed → s.cmds = w :: rest →
  (∀ r b, decode w ≠ .ok (.rdreg r b)) → decode w ≠ .ok .sreset →
  step s = .next { s with cmds := rest, resp := 0 }

/-- What a fault leaves (R302, R304): whenever a command that started outside `FAILED` ends in `FAILED`, the code is one of R301,
`FINFO` is the command's opcode byte, OUT is empty and the response is 0. -/
def Obligations.FaultRecord : Prop := ∀ (i : Instr) (s t : State),
  s.phase ≠ .failed → exec i s = .next t → t.phase = .failed →
  1 ≤ t.fail.toNat ∧ t.fail.toNat ≤ 13 ∧ t.finfo = i.opcode.byte.setWidth 32 ∧ t.out = [] ∧ t.resp = 0

/-- A command that is not legal in the phase by R290 raises `SeqFault` and changes nothing but the fault state and OUT (R304):
the check comes before any write. A `BPUSH` longer than 16 is refused by the decoder first (R303). -/
def Obligations.PhaseChecked : Prop := ∀ (i : Instr) (s : State),
  i.wf = true → s.phase ≠ .failed → legalPhase i s.phase = false →
  exec i s = .next { s with fail := 7, finfo := i.opcode.byte.setWidth 32, phase := .failed, out := [], resp := 0 }

/-- Where a command that raised no fault leaves `PHASE`: the last column of R290. In the phases of a JPEG the configuration is
the one `JINIT` admitted, so that a row band is not empty (R192). -/
def Obligations.PhaseAfterCommand : Prop := ∀ (i : Instr) (s t : State),
  JpegConfigInv s → exec i s = .next t → s.phase ≠ .failed → t.phase ≠ .failed → t.phase = phaseAfter i s

/-- The further conditions of R303 that trap in a legal phase: the value width of `WRREG` (R280), `QVALID`, the source kind and
format of `RGB2YUV`, `GRAY2Y` and `YUVLOAD` (R182, R183, R184), `QVALID` and `WBVAR` of `CSUB` (R185), `QVALID` of `QZZ` and of
`JPDU`, which begins with it (R138, R150, R159), and of `JHDR` (R138), `QVALID` and `MBY` of `JWBLK` (R186), these and `MBX` of
`JROW` (R208), the parameter checks and the file type of `PSIG` (R263), and `ZPH`, `TOKV` and `ZI` of `LZSTEP`, `ZEMIT` and `ZEND`
(R236, R241, R245). Nothing but the fault state and OUT is changed (R304). -/
def Obligations.TrapsBeforeAnyWrite : Prop := ∀ s : State,
  (∀ r v, s.phase ≠ .failed → (wregAnyPhase r = true ∨ s.phase = .idle) → 2 ^ wregBits r ≤ v.toNat →
    exec (.wrreg r v) s = .next (s.takeFault .illegalOp 0x01)) ∧
  (s.phase.allowsKernel = true →
    (s.quant = none ∨ s.srckind ≠ 0 ∨ s.pixfmt ∉ [2, 3, 4, 5] → exec .rgb2yuv s = .next (s.takeFault .seqFault 0x13)) ∧
    (s.quant = none ∨ s.srckind ≠ 0 ∨ s.pixfmt ≠ 1 → exec .gray2y s = .next (s.takeFault .seqFault 0x14)) ∧
    (s.quant = none ∨ (s.srckind ≠ 1 ∧ s.srckind ≠ 2) → exec .yuvload s = .next (s.takeFault .seqFault 0x15)) ∧
    (s.quant = none ∨ (∃ q, s.quant = some q ∧ q.wbvar ≠ .subs) → exec .csub s = .next (s.takeFault .seqFault 0x16)) ∧
    (s.quant = none → ∀ a, exec (.qzz a) s = .next (s.takeFault .seqFault 0x18)) ∧
    (s.quant = none → ∀ a, exec (.jpdu a) s = .next (s.takeFault .seqFault 0x1A))) ∧
  (s.phase = .jInit → s.quant = none → exec .jhdr s = .next (s.takeFault .seqFault 0x12)) ∧
  (s.phase.allowsScan = true →
    (s.quant = none ∨ (∃ q, s.quant = some q ∧ bandCount s q ≤ s.mby.toNat) →
      exec .jwblk s = .next (s.takeFault .seqFault 0x1E)) ∧
    (s.quant = none ∨ s.mbx ≠ 0 ∨ (∃ q, s.quant = some q ∧ bandCount s q ≤ s.mby.toNat) →
      exec .jrow s = .next (s.takeFault .seqFault 0x1F))) ∧
  (s.phase = .idle →
    (∀ c, checkFault s = some c → exec .psig s = .next (s.takeFault c 0x42)) ∧
    (checkFault s = none → s.filetype ≠ 4 → exec .psig s = .next (s.takeFault .paramEngineUnsupported 0x42))) ∧
  (s.phase ≠ .failed →
    (s.zph ≠ .run ∨ s.token ≠ none ∨ s.zlen.toNat ≤ s.zi.toNat → exec .lzstep s = .next (s.takeFault .seqFault 0x32)) ∧
    (s.zph ≠ .run ∨ s.token = none → exec .zemit s = .next (s.takeFault .seqFault 0x33)) ∧
    (s.zph ≠ .run ∨ s.token ≠ none ∨ s.zi ≠ s.zlen → exec .zend s = .next (s.takeFault .seqFault 0x34)))

/-- Faults of the body (R303 step 6). A read of an unmapped address of SRC is `SrcAccess` (R61): in `GRAY2Y`, `RGB2YUV` and
`YUVLOAD`, in `CRC32` over SRC, and in `LZSTEP` and `ZEND` over SRC. A read of an unwritten element is `SeqFault` (R40): in `FDCT`,
`QZZ`, `JHUF` and `CSUB`; that the last three find it before they write anything, also in an array written only in part, is the
model's reading (notes/assumptions/26.md). An append beyond the capacity of OUT is `OutOverflow` (R63): in `JHDR`, `BFLUSH`, `PSIG` and `PCHUNK`; and
one beyond that of ZBUF (R64): in `ZBEGIN`, `ZEMIT` and `ZEND`. -/
def Obligations.BodyFaultsReported : Prop := ∀ s : State,
  (∀ q, s.quant = some q → s.phase.allowsKernel = true →
    (s.srckind = 0 → s.pixfmt = 1 → grayMapped s q.block.side = false → raises .gray2y s 11) ∧
    (∀ bpp k, s.srckind = 0 → channelOffsets s.pixfmt = some k → bytesPerPixel s.pixfmt = some bpp →
      colourMapped s q.block.side bpp k = false → raises .rgb2yuv s 11) ∧
    (s.srckind = 1 ∨ s.srckind = 2 → planarMapped s q.block.side = false → raises .yuvload s 11) ∧
    (∀ a n, n < 64 → blockSample s a (n / 8) (n % 8) = none → raises (.fdct a) s 7) ∧
    (∀ a n, n < 64 → element s.cdu n = none → exec (.qzz a) s = .next (s.takeFault .seqFault 0x18)) ∧
    (∀ a z, z < 64 → element s.du z = none → exec (.jhuf a) s = .next (s.takeFault .seqFault 0x19)) ∧
    (∀ n, n < 256 → element s.up n = none ∨ element s.vp n = none → exec .csub s = .next (s.takeFault .seqFault 0x16))) ∧
  (s.phase ≠ .failed → ∀ j : Nat, s.src.read (rangeAddr s j).toNat = none →
    (j < s.clen.toNat → exec (.crc32 .src) s = .next (s.takeFault .srcAccess 0x40)) ∧
    (s.zph = .run → s.token = none → s.zsrc = .src → j < s.zlen.toNat →
      (j = s.zi.toNat ∨ (s.zi.toNat ≤ j ∧ j < s.zi.toNat + 3 ∧ s.zi.toNat + 3 < s.zlen.toNat) →
        exec .lzstep s = .next (s.takeFault .srcAccess 0x32)) ∧
      (s.zi = s.zlen → s.caps.zbuf = none → raises .zend s 11))) ∧
  (∀ c, s.caps.out = some c →
    (s.phase = .jInit → s.quant.isSome = true → c < s.out.length + 607 →
      exec .jhdr s = .next (s.takeFault .outOverflow 0x12)) ∧
    (s.phase.allowsScan = true → AccumulatorInv s → s.out.length ≤ c →
      c < s.out.length + (stuffed (fullBytes s.scanBits)).length → raises .bflush s 12) ∧
    (s.phase = .idle → checkFault s = none → s.filetype = 4 → c < 33 → raises .psig s 12) ∧
    (∀ a : PaySel, s.phase.allowsPng = true → (a = .zbuf → s.zph = .done) →
      c < s.out.length + 12 + (match a with | .empty => 0 | .ihdr => 13 | .zbuf => s.zbuf.length) → raises (.pchunk a) s 12)) ∧
  (∀ c, s.caps.zbuf = some c → s.phase ≠ .failed →
    (∀ a, c < 2 → raises (.zbegin a) s 12) ∧
    (s.zph = .run → AccumulatorInv s →
      (∀ tok, s.token = some tok → tok.legal → s.zbuf.length ≤ c →
        c < s.zbuf.length + (s.zaccn + (tokenBits tok).length) / 8 → raises .zemit s 12) ∧
      (∀ data, s.token = none → s.zi = s.zlen → s.inputIs data = true →
        c < s.zbuf.length + (s.zaccn + 14) / 8 + 4 → raises .zend s 12)))

/-! Invariants that every step keeps. -/

/-- SRC and HT keep their canonical forms (R35, R61), `BB` stays within its 2048 slots and every slot holds a value of its length
(R30, R161), and both accumulators hold at most 7 pending bits between commands (R31, R37). -/
def Obligations.StoresInvKept : Prop := ∀ s t : State, step s = .next t →
  (StorageInv s → StorageInv t) ∧ (BitBufferInv s → BitBufferInv t) ∧ (AccumulatorInv s → AccumulatorInv t)

/-- `FAIL`, `FINFO`, OUT and the phase `FAILED` agree in every state (R26, R301, R304). -/
def Obligations.FaultInvKept : Prop := ∀ s t : State, FaultInv s → step s = .next t → FaultInv t

/-- From `JINIT` on the configuration and the tables stay those that passed the checks (R21, R201, R290); and whenever the mode
registers are written they agree with one another (R28, R134, R191). -/
def Obligations.ConfigInvKept : Prop := ∀ s t : State, step s = .next t →
  (JpegConfigInv s → JpegConfigInv t) ∧ (ModeInv s → ModeInv t)

/-- FBUF holds `ROW * (1 + N)` bytes while a PNG is built (R220, R227). -/
def Obligations.PngRowsInvKept : Prop := ∀ s t : State, PngRowsInv s → step s = .next t → PngRowsInv t

/-- The compressor keeps its positions before `ZI`, its buckets within `2 * ZQ`, and its tokens in the ranges of R239. -/
def Obligations.CompressorInvKept : Prop := ∀ s t : State, CompressorInv s → step s = .next t → CompressorInv t

/-- All of these hold right after reset (R41). -/
def Obligations.InvariantsAtReset : Prop :=
  StorageInv State.reset ∧ BitBufferInv State.reset ∧ AccumulatorInv State.reset ∧ FaultInv State.reset ∧
  ModeInv State.reset ∧ JpegConfigInv State.reset ∧ PngRowsInv State.reset ∧ CompressorInv State.reset

/-! What no command, or only some, may change. -/

/-- No command writes SRC (R61, R66), and no operation but `WRREG` and `SRESET` changes a configuration or pointer register (R21,
R22). That no command changes a capacity or `HASH3`, which R10 and R43 make parameters, is the model's choice
(notes/assumptions/4.md, notes/assumptions/10.md). -/
def Obligations.ConfigurationFrame : Prop := ∀ (i : Instr) (s t : State), exec i s = .next t →
  t.src = s.src ∧ t.caps = s.caps ∧ t.hash3 = s.hash3 ∧ ((∀ r v, i ≠ .wrreg r v) → i ≠ .sreset → SameConfig s t)

/-- The JPEG operations leave the PNG and compressor state, `ROW`, `ZI`, `CRCOK` and `ZPH` alone, and the PNG, compressor and
checksum operations leave the JPEG state, `MBX` and `MBY` alone, whether they complete or fault. -/
def Obligations.OperationsFrame : Prop := ∀ (i : Instr) (s t : State), exec i s = .next t →
  (isJpegInstr i = true → SamePng s t) ∧ (isPngInstr i = true → SameJpeg s t)

/-- Who writes what, whether the command completes or faults: the tables and mode registers behind `QVALID` only `JQINIT`, alone
or inside `JINIT` and `JENC`, and reset (R25, R27, R130, R321); `DC` only `JHUF` and `JINIT`, alone or inside a composite, and
reset (R29, R190); `CRCOK` only `CRCCHK` and reset (R25); the waiting token only the compressor operations and reset (R25, R36);
OUT is never shortened but by a fault, `JINIT`, `PSIG`, what contains them, and reset (R63). -/
def Obligations.WhoWritesWhat : Prop := ∀ (i : Instr) (s t : State), i ≠ .sreset → exec i s = .next t →
  (i ≠ .jqinit → i ≠ .jinit → i ≠ .jenc → t.quant = s.quant) ∧
  (i ≠ .jinit → i ≠ .jenc → i ≠ .jwblk → i ≠ .jrow → (∀ c, i ≠ .jhuf c) → (∀ c, i ≠ .jpdu c) → t.dc = s.dc) ∧
  ((∀ v, i ≠ .crcchk v) → t.crcok = s.crcok) ∧
  (i ≠ .lzstep → i ≠ .zemit → i ≠ .penc → (∀ a, i ≠ .zbegin a) → (∀ a, i ≠ .zcomp a) → t.token = s.token) ∧
  (i ≠ .jinit → i ≠ .psig → i ≠ .jenc → i ≠ .penc → t.phase ≠ .failed → ∃ bs, t.out = s.out ++ bs)

/-! System operations, 48_system_ops.md. -/

/-- Right after reset, and after `SRESET` in any state, every piece of state has the value of the table of R41. SRC is the host's
and stays (R320), and the response is 0 (R284). That the capacities, `HASH3` and the commands not yet taken stay is the model's
reading (notes/assumptions/4.md, notes/assumptions/10.md, notes/assumptions/21.md). -/
def Obligations.SresetResets : Prop := ResetTable State.reset ∧
  ∀ s : State, ∃ t, exec .sreset s = .next t ∧ ResetTable t ∧ t.src = s.src ∧ t.caps = s.caps ∧ t.hash3 = s.hash3 ∧
    t.cmds = s.cmds ∧ t.resp = 0

/-- `WRREG` where it is legal and the value fits: the register is written, the response is 0, and nothing else changes (R280). -/
def Obligations.WrregWrites : Prop := ∀ (s : State) (r : WReg) (v : Word),
  s.phase ≠ .failed → (wregAnyPhase r = true ∨ s.phase = .idle) → v.toNat < 2 ^ wregBits r →
  exec (.wrreg r v) s = .next ((s.writeReg r v).respond 0) ∧
  (s.writeReg r v).readRw r = v ∧ (∀ r', r' ≠ r → (s.writeReg r v).readRw r' = s.readRw r') ∧
  (∀ o, (s.writeReg r v).readRo o = s.readRo o) ∧ (∀ a n, (s.writeReg r v).readArr a n = s.readArr a n) ∧
  SameJpeg s (s.writeReg r v) ∧ SamePng s (s.writeReg r v) ∧ (s.writeReg r v).out = s.out ∧ (s.writeReg r v).src = s.src

/-- `RDREG` answers the register or element named, in every phase, and changes nothing else; an unwritten one is `SeqFault`, and
in `FAILED` answers 0 (R281). -/
def Obligations.RdregReads : Prop := ∀ (s : State) (r : RReg) (b : BitVec 16), r.indexOk b = true →
  (∀ v, s.readReg r b = some v → exec (.rdreg r b) s = .next { s with resp := v }) ∧
  (s.readReg r b = none → s.phase ≠ .failed → exec (.rdreg r b) s = .next (s.takeFault .seqFault 0x02)) ∧
  (s.readReg r b = none → s.phase = .failed → exec (.rdreg r b) s = .next { s with resp := 0 })

/-- The fields of `STATUS` (R25): `PHASE`; `BBFULL`, set exactly when `BBN` is above 1280 (R162); `CRCOK`; `FAILED`; `TOKV`; `ZPH`;
`QVALID`; and zeros above. -/
def Obligations.StatusFields : Prop := ∀ s : State,
  s.status.extractLsb' 0 4 = s.phase.code ∧ s.status.getLsbD 4 = decide (1280 < s.bb.length) ∧ s.status.getLsbD 5 = s.crcok ∧
  s.status.getLsbD 6 = decide (s.phase = .failed) ∧ s.status.getLsbD 7 = s.token.isSome ∧
  s.status.extractLsb' 8 2 = s.zph.code ∧ s.status.getLsbD 10 = s.quant.isSome ∧ s.status.toNat < 2 ^ 11

/-- `VALIDATE` runs the checks of R282 in their order and reports the first that fails; if none does, nothing changes. -/
def Obligations.ValidateChecksInOrder : Prop := ∀ s : State, s.phase = .idle →
  let planar := s.srckind ≠ 0
  exec .validate s =
    if s.width = 0 ∨ s.height = 0 then .next (s.takeFault .paramZeroDim 0x03)
    else if ¬ planar ∧ s.pixfmt ∉ [1, 2, 3, 4, 5] then .next (s.takeFault .paramPixFmt 0x03)
    else if s.filetype = 7 then .next (s.takeFault .paramFileType 0x03)
    else if planar ∧ (s.width.toNat % 2 = 1 ∨ s.height.toNat % 2 = 1) then .next (s.takeFault .paramOddDim 0x03)
    else if planar ∧ s.yuvtype ≠ 1 then .next (s.takeFault .paramYuvType 0x03)
    else if s.srckind = 3 ∨ s.filetype ∉ [4, 5] ∨ (planar ∧ s.filetype ≠ 5) ∨ (s.filetype = 4 ∧ s.pixfmt ∈ [2, 3]) ∨
        (s.filetype = 5 ∧ (65535 < s.width.toNat ∨ 65535 < s.height.toNat))
      then .next (s.takeFault .paramEngineUnsupported 0x03)
    else .next { s with resp := 0 }

/-! JPEG tables, 40_jpeg_quant_init.md. -/

/-- `JQINIT` in `IDLE` writes the tables and the mode registers, sets `QVALID`, and changes nothing else (R130). The mode registers
are `SUBSAMPLE`, `BLOCK`, `WBVAR` (R134, R191), and `AWIDTH`, the least multiple of `BLOCK` not below `WIDTH` for every width a JPEG
can have (R211). -/
def Obligations.JqinitWrites : Prop := ∀ s : State, s.phase = .idle →
  let q := quantOf s
  exec .jqinit s = .next { s with quant := some q, resp := 0 } ∧
  (q.subsample = true ↔ s.quality.toInt ≤ 90 ∨ s.srckind ≠ 0) ∧
  q.block = (if q.subsample then BlockSide.sixteen else BlockSide.eight) ∧
  q.wbvar = (if s.srckind = 1 then .nv12 else if s.srckind = 2 then .yuv420p else if q.subsample then .subs else .full) ∧
  (s.width.toNat ≤ 65535 →
    q.awidth.toNat % q.block.side = 0 ∧ s.width.toNat ≤ q.awidth.toNat ∧ q.awidth.toNat < s.width.toNat + q.block.side)

/-- The tables `JQINIT` writes. The quantiser tables, in zig-zag order: each entry is `(base * scale + 50) / 100` limited to 1..255,
at the clamped quality's scale (R131, R132, R133, R135). The reciprocal tables, in natural order: 1 divided by the entry times the
AAN factor of its row times that of its column, multiplied in that order, each operation rounded (R136). `QUALITY` itself is not
changed. -/
def Obligations.QuantiserEntries : Prop := ∀ s : State, s.phase = .idle →
  let quality : Int := min (max s.quality.toInt 1) 100
  let scale : Int := if quality < 50 then 5000 / quality else 200 - 2 * quality
  let entry := fun (base : List Nat) (n : Nat) => min (max ((((base.getD n 0 : Nat) : Int) * scale + 50) / 100) 1) 255
  let reciprocal := fun (base : List Nat) (n : Nat) =>
    fdiv 0x3F800000 (fmul (fmul (f32OfNat (entry base n).toNat) (aasf (n / 8))) (aasf (n % 8)))
  ∃ q, exec .jqinit s = .next { s with quant := some q, resp := 0 } ∧
    (∀ (z : Nat) (hz : z < 64),
      (q.uy[z].toNat : Int) = entry baseY (natIndex z) ∧ (q.uuv[z].toNat : Int) = entry baseUv (natIndex z)) ∧
    (∀ (n : Nat) (hn : n < 64), q.fy[n] = reciprocal baseY n ∧ q.fuv[n] = reciprocal baseUv n)

/-! Conversion, 43_jpeg_macroblock.md. -/

/-- The coordinates of a macroblock's samples never leave the image: beyond the right and bottom edges the last column and row are
replicated. A macroblock that `JWBLK` admits holds at least one pixel column and one pixel row of the image (R181). -/
def Obligations.EdgeReplication : Prop := ∀ s : State, 1 ≤ s.width.toNat → 1 ≤ s.height.toNat →
  (∀ side i j : Nat,
    (0 ≤ pixelX s side i ∧ pixelX s side i < s.width.toNat) ∧ (0 ≤ pixelY s side j ∧ pixelY s side j < s.height.toNat) ∧
    (s.mbx.toNat * side + i < s.width.toNat → pixelX s side i = s.mbx.toNat * side + i) ∧
    (s.mby.toNat * side + j < s.height.toNat → pixelY s side j = s.mby.toNat * side + j) ∧
    (s.width.toNat ≤ s.mbx.toNat * side + i → pixelX s side i = s.width.toNat - 1) ∧
    (s.height.toNat ≤ s.mby.toNat * side + j → pixelY s side j = s.height.toNat - 1)) ∧
  (∀ i j : Nat,
    (2 ≤ s.width.toNat → 0 ≤ chromaX s i ∧ chromaX s i < s.width.toNat / 2) ∧
    (2 ≤ s.height.toNat → 0 ≤ chromaY s j ∧ chromaY s j < s.height.toNat / 2) ∧
    (s.mbx.toNat * 8 + i < s.width.toNat / 2 → chromaX s i = s.mbx.toNat * 8 + i) ∧
    (s.mby.toNat * 8 + j < s.height.toNat / 2 → chromaY s j = s.mby.toNat * 8 + j) ∧
    (s.width.toNat / 2 ≤ s.mbx.toNat * 8 + i → chromaX s i = (s.width.toNat / 2 : Nat) - 1) ∧
    (s.height.toNat / 2 ≤ s.mby.toNat * 8 + j → chromaY s j = (s.height.toNat / 2 : Nat) - 1)) ∧
  (s.width.toNat ≤ 65535 → s.mbx.toNat < blocksPerBand (quantOf s) →
    s.mbx.toNat * (quantOf s).block.side < s.width.toNat) ∧
  (s.mby.toNat < bandCount s (quantOf s) → s.mby.toNat * (quantOf s).block.side < s.height.toNat)

/-- `RGB2YUV` completes when its bytes are mapped, writes the luma and chroma samples of the macroblock as R182 computes them, and
changes nothing else. -/
def Obligations.Rgb2yuvConverts : Prop := ∀ (s : State) (q : Quant) (bpp : Nat) (k : Nat × Nat × Nat),
  s.phase.allowsKernel = true → s.quant = some q → q.consistent → s.srckind = 0 → channelOffsets s.pixfmt = some k →
  bytesPerPixel s.pixfmt = some bpp → colourMapped s q.block.side bpp k = true →
  exec .rgb2yuv s = .next { s.colourLoaded q bpp k with resp := 0 }

/-- `GRAY2Y` completes when its bytes are mapped, writes the level-shifted luma samples of the macroblock, and changes nothing
else (R183). -/
def Obligations.Gray2yConverts : Prop := ∀ (s : State) (q : Quant),
  s.phase.allowsKernel = true → s.quant = some q → s.srckind = 0 → s.pixfmt = 1 → grayMapped s q.block.side = true →
  exec .gray2y s = .next { s.grayLoaded q with resp := 0 }

/-- `YUVLOAD` completes when its bytes are mapped, writes the level-shifted luma and chroma samples of the macroblock, and changes
nothing else (R184). -/
def Obligations.YuvloadLoads : Prop := ∀ (s : State) (q : Quant),
  s.phase.allowsKernel = true → s.quant = some q → (s.srckind = 1 ∨ s.srckind = 2) → planarMapped s q.block.side = true →
  exec .yuvload s = .next { s.planarLoaded q with resp := 0 }

/-- `CSUB` writes the 2×2 box averages of `UP` and `VP` to `UC` and `VC` and changes nothing else (R185). -/
def Obligations.CsubAverages : Prop := ∀ (s : State) (q : Quant) (up vp : List F32),
  s.phase.allowsKernel = true → s.quant = some q → q.wbvar = .subs →
  s.up.toList = up.map some → s.vp.toList = vp.map some →
  exec .csub s = .next { s with
    uc := writeBlock (fun j i => fmul (fadd (fadd (fadd (up.getD (16 * (2 * j) + 2 * i) 0) (up.getD (16 * (2 * j) + (2 * i + 1)) 0))
      (up.getD (16 * (2 * j + 1) + 2 * i) 0)) (up.getD (16 * (2 * j + 1) + (2 * i + 1)) 0)) 0x3E800000)
    vc := writeBlock (fun j i => fmul (fadd (fadd (fadd (vp.getD (16 * (2 * j) + 2 * i) 0) (vp.getD (16 * (2 * j) + (2 * i + 1)) 0))
      (vp.getD (16 * (2 * j + 1) + 2 * i) 0)) (vp.getD (16 * (2 * j + 1) + (2 * i + 1)) 0)) 0x3E800000)
    resp := 0 }

/-! The transform and the coder, 41_jpeg_fdct.md and 42_jpeg_du_coder.md. -/

/-- `FDCT` loads the selected block, transforms its rows and then its columns into `CDU`, and changes nothing else (R140, R141,
R143). -/
def Obligations.FdctTransforms : Prop := ∀ (s : State) (a : BlockSel) (x : Nat → F32),
  s.phase.allowsKernel = true → (∀ n, n < 64 → blockSample s a (n / 8) (n % 8) = some (x n)) →
  let rows := fun n => (dctPassAt fun k => x (8 * (n / 8) + k)).getD (n % 8) 0
  let cols := fun n => (dctPassAt fun k => rows (8 * k + n % 8)).getD (n / 8) 0
  exec (.fdct a) s = .next { s with cdu := Vector.ofFn (fun n => some (cols n.val)), resp := 0 }

/-- `QZZ` multiplies each coefficient by its reciprocal, rounds it, and stores it at its zig-zag position; nothing else changes
(R150, R151). -/
def Obligations.QzzQuantises : Prop := ∀ (s : State) (a : QSel) (q : Quant) (x : Nat → F32),
  s.phase.allowsKernel = true → s.quant = some q → (∀ n, n < 64 → element s.cdu n = some (x n)) →
  exec (.qzz a) s = .next { s with
    du := Vector.ofFn (fun z => some (s32OfInt (roundHalfAway (fmul (x (natIndex z.val))
      ((match a with | .luma => q.fy | .chroma => q.fuv).toList.getD (natIndex z.val) 0)))))
    resp := 0 }

/-- `JHUF` pushes the pairs R153 writes out and then writes `DC`, and changes nothing else, when every category has a symbol
(R158) and the bit buffer has room (R161). That it asks for `QVALID` is the model's reading (notes/assumptions/12.md). -/
def Obligations.JhufCodes : Prop := ∀ (s : State) (a : Comp) (w : Nat → Word),
  s.phase.allowsKernel = true → s.quant.isSome = true → (∀ z, z < 64 → element s.du z = some (w z)) →
  let du := (List.range 64).map fun z => (w z).toInt
  category (du.getD 0 0 - (s.dc.get a).toInt) ≤ 11 → (∀ z, 1 ≤ z → z < 64 → category (du.getD z 0) ≤ 10) →
  s.bb.length + (jhufPairs a (s.dc.get a).toInt du).length ≤ 2048 →
  ∃ ps : List BitPair, jhufPairs a (s.dc.get a).toInt du = ps.map some ∧
    exec (.jhuf a) s = .next { s with bb := s.bb ++ ps, dc := s.dc.set a (w 0), resp := 0 }

/-- One `JHUF` pushes at most 128 pairs, whatever the data unit and the predictor (R166), and it meets an unused symbol exactly when
the DC difference has category above 11 or an AC coefficient category above 10 (R158). That a category above 10 never reads another
symbol's code is the model's reading (notes/assumptions/13.md). -/
def Obligations.JhufBounds : Prop := ∀ (a : Comp) (dc : Int) (du : List Int), du.length = 64 →
  (duPairs a dc du).length ≤ 128 ∧
  (none ∈ duPairs a dc du ↔ 11 < category (du.getD 0 0 - dc) ∨ ∃ z, 1 ≤ z ∧ z < 64 ∧ 10 < category (du.getD z 0))

/-- `JPDU` completes on every written block whose data unit lies in the ranges of 8-bit sources (R167), with the predictor in
range and room in the bit buffer (R159). That the DC range ends at 1020 is the model's reading (notes/assumptions/28.md). -/
def Obligations.JpduCompletes : Prop := ∀ (s : State) (q : Quant) (a : Comp) (x : Nat → F32),
  s.phase.allowsKernel = true → s.quant = some q → (∀ n, n < 64 → element s.cdu n = some (x n)) →
  let du := (List.range 64).map (quantised ((List.range 64).map x) (recipTable q (compTable a)))
  unitInRange du = true → dcInRange (s.dc.get a) = true → s.bb.length + 128 ≤ 2048 →
  ∃ (ps : List BitPair) (du' : Vector (Option Word) 64), duPairs a (s.dc.get a).toInt du = ps.map some ∧
    exec (.jpdu a) s = .next { s with
      du := du', bb := s.bb ++ ps, dc := s.dc.set a (BitVec.ofInt 32 (du.getD 0 0)), resp := 0 }

/-- `BPUSH` appends the value masked to its length, length 0 included; `JGRAYUV` appends the four pairs (0,2) and leaves the
predictors alone; a push on a full buffer is `BitBufOverflow`, a length above 16 `IllegalOp`; nothing else changes (R160, R161). -/
def Obligations.PushesAppend : Prop := ∀ s : State, s.phase.allowsKernel = true →
  (∀ b v : BitVec 16, b.toNat ≤ 16 → s.bb.length < 2048 → exec (.bpush b v) s =
    .next { s with bb := s.bb ++ [{ value := BitVec.ofNat 16 (v.toNat % 2 ^ b.toNat), len := b.toNat }], resp := 0 }) ∧
  (∀ b v : BitVec 16, b.toNat ≤ 16 → s.bb.length = 2048 → exec (.bpush b v) s = .next (s.takeFault .bitBufOverflow 0x1C)) ∧
  (∀ b v : BitVec 16, 16 < b.toNat → exec (.bpush b v) s = .next (s.takeFault .illegalOp 0x1C)) ∧
  (s.bb.length + 4 ≤ 2048 →
    exec .jgrayuv s = .next { s with bb := s.bb ++ List.replicate 4 { value := 0, len := 2 }, resp := 0 }) ∧
  (2044 < s.bb.length → s.bb.length ≤ 2048 →
    ∃ t, exec .jgrayuv s = .next t ∧ t.phase = .failed ∧ t.fail = 8 ∧ t.finfo = 0x1B ∧ t.dc = s.dc)

/-- `BFLUSH` packs the residual bits and the queued bits, most significant first, into bytes, stuffs them, keeps the bits that do
not fill a byte, empties `BB`, and changes nothing else (R68, R163, R164, R165). -/
def Obligations.BflushPacks : Prop := ∀ s : State, s.phase.allowsScan = true → s.caps.out = none → AccumulatorInv s →
  exec .bflush s = .next { s with
    out := s.out ++ stuffed (fullBytes s.scanBits), jacc := bitsValue (leftBits s.scanBits),
    jaccn := (leftBits s.scanBits).length, bb := [], resp := 0 }

/-- The bytes in OUT depend only on the pairs pushed, not on where the flushes fell (R165): flushing the first part of the queue
and then the rest leaves what one flush of the whole leaves. -/
def Obligations.FlushPointsDoNotMatter : Prop := ∀ (s t u : State) (p r : List BitPair),
  s.phase.allowsScan = true → s.caps.out = none → AccumulatorInv s → s.bb = p ++ r →
  exec .bflush { s with bb := p } = .next t → exec .bflush { t with bb := r } = .next u → exec .bflush s = .next u

/-! Macroblocks and the JPEG stream, 43_jpeg_macroblock.md and 44_jpeg_stream.md. -/

/-- `JWBLK` completes on every macroblock whose bytes are mapped and whose data units lie in the ranges of 8-bit sources
(R167), in all four variants and for gray and colour sources; it steps the counters (R186, R192), leaves the bit buffer not full,
the predictors in range, and everything that is not JPEG state but OUT alone. That the DC range ends at 1020 is the model's
reading (notes/assumptions/28.md). -/
def Obligations.JwblkCompletes : Prop := ∀ (s : State) (q : Quant),
  s.phase.allowsScan = true → JpegConfigInv s → AccumulatorInv s → s.quant = some q → coderReady s = true →
  s.mby.toNat < bandCount s q → macroblockReady s q = true →
  ∃ t, exec .jwblk s = .next t ∧ t.phase = .jBody ∧ AccumulatorInv t ∧ coderReady t = true ∧ t.quant = s.quant ∧
    (t.mbx, t.mby) = (if (s.mbx + 1).toNat = q.awidth.toNat / q.block.side then (0, s.mby + 1) else (s.mbx + 1, s.mby)) ∧
    SameConfig s t ∧ SamePng s t ∧ t.fail = s.fail ∧ t.finfo = s.finfo ∧ ∃ bs, t.out = s.out ++ bs

/-- `JROW` completes on every row band whose macroblocks can be coded: `MBX` is 0 again, `MBY` one higher, the phase `J_BODY`
(R208). That the DC range ends at 1020 is the model's reading (notes/assumptions/28.md). -/
def Obligations.JrowCompletes : Prop := ∀ (s : State) (q : Quant),
  s.phase.allowsScan = true → JpegConfigInv s → AccumulatorInv s → s.quant = some q → coderReady s = true →
  s.mbx = 0 → s.mby.toNat < bandCount s q →
  (∀ x, x < blocksPerBand q → macroblockReady (s.atBlock x s.mby.toNat) q = true) →
  ∃ t, exec .jrow s = .next t ∧ t.phase = .jBody ∧ AccumulatorInv t ∧ coderReady t = true ∧ t.quant = s.quant ∧
    t.mbx = 0 ∧ t.mby = s.mby + 1 ∧ SameConfig s t ∧ SamePng s t ∧ t.fail = s.fail ∧ t.finfo = s.finfo ∧
    ∃ bs, t.out = s.out ++ bs

/-- `JINIT` on a configuration that passes the checks, with file type JPEG: OUT emptied, the tables computed, the predictors, the
bit buffer, the accumulator and the counters cleared, the phase `J_INIT`, and nothing else changed; in another phase, on a failing
check or with another file type it faults and changes nothing but the fault state and OUT (R201). -/
def Obligations.JinitInitialises : Prop := ∀ s : State,
  (s.phase = .idle → checkFault s = none → s.filetype = 5 →
    exec .jinit s = .next { s with
      out := [], quant := some (quantOf s), dc := { y := 0, u := 0, v := 0 }, bb := [], jacc := 0, jaccn := 0, mbx := 0, mby := 0,
      phase := .jInit, resp := 0 }) ∧
  (s.phase ≠ .idle → s.phase ≠ .failed → exec .jinit s = .next (s.takeFault .seqFault 0x11)) ∧
  (∀ c, s.phase = .idle → checkFault s = some c → exec .jinit s = .next (s.takeFault c 0x11)) ∧
  (s.phase = .idle → checkFault s = none → s.filetype ≠ 5 →
    exec .jinit s = .next (s.takeFault .paramEngineUnsupported 0x11))

/-- `JHDR` appends the 607 header bytes, which begin with FF D8 FF E0, and moves to `J_HDR`; nothing else changes (R202, R203). -/
def Obligations.JhdrWrites : Prop := ∀ (s : State) (q : Quant), s.phase = .jInit → s.quant = some q → s.caps.out = none →
  exec .jhdr s = .next { s with out := s.out ++ jpegHeader s q, phase := .jHdr, resp := 0 } ∧
  (jpegHeader s q).length = 607 ∧ (jpegHeader s q).take 4 = [0xFF, 0xD8, 0xFF, 0xE0]

/-- `JFIN` after the last row band: seven ones are queued, the scan is flushed, the bits left are dropped, FF D9 is appended and
the phase is `J_DONE`; so the last scan byte is the pending bits followed by ones, and none is added when none are pending. In
another phase or before the last band is complete it is `SeqFault` (R209). -/
def Obligations.JfinFinishes : Prop := ∀ (s : State) (q : Quant), s.quant = some q →
  (s.phase = .jBody → s.mbx = 0 → s.mby.toNat = bandCount s q → s.bb.length < 2048 → s.caps.out = none → AccumulatorInv s →
    let p := s.scanBits.length % 8
    exec .jfin s = .next { s with
      out := s.out ++ stuffed (fullBytes (s.scanBits ++ if p = 0 then [] else List.replicate (8 - p) true)) ++ [0xFF, 0xD9],
      jacc := 0, jaccn := 0, bb := [], phase := .jDone, resp := 0 }) ∧
  (s.phase ≠ .failed → s.phase ≠ .jBody ∨ s.mbx ≠ 0 ∨ s.mby.toNat ≠ bandCount s q →
    exec .jfin s = .next (s.takeFault .seqFault 0x20))

/-- `JENC` completes from `IDLE` on every image that passes the checks, is mapped and has its data units in the ranges of 8-bit
sources (R167): the phase is `J_DONE`, and OUT is the header, the scan and FF D9 (R210, R212, R293). That the DC range ends at
1020 is the model's reading (notes/assumptions/28.md). -/
def Obligations.JencCompletes : Prop := ∀ s : State,
  s.phase = .idle → AccumulatorInv s → checkFault s = none → s.filetype = 5 → s.caps.out = none →
  (∀ y x, y < bandCount s (quantOf s) → x < blocksPerBand (quantOf s) →
    macroblockReady (s.atBlock x y) (quantOf s) = true) →
  ∃ t scan, exec .jenc s = .next t ∧ t.phase = .jDone ∧ t.fail = s.fail ∧ t.mbx = 0 ∧ t.mby.toNat = bandCount s (quantOf s) ∧
    t.out = jpegHeader s (quantOf s) ++ scan ++ [0xFF, 0xD9] ∧ SameConfig s t ∧ SamePng s t

/-- The composites have the effect of their parts issued as separate commands, wherever these raise no fault (R96, R291): `JPDU` of
`QZZ` and `JHUF` (R159); `JWBLK` of its variant's kernels, in the order Y0 Y1 Y2 Y3 U V or Y U V (R187 to R189, R192), with the
step of the counters and, where the bit buffer is then full, a `BFLUSH` (R186); `JROW` of its macroblocks (R208); `JENC` of
`JINIT`, `JHDR`, a `JROW` for each band and `JFIN` (R210); `ZCOMP` of `ZBEGIN`, pairs of `LZSTEP` and `ZEMIT`, and `ZEND` (R248);
`PENC` of `PSIG`, a `PFILT` for each row, `ZCOMP` and the two chunks, but for `CTYPE`, which `PENC` does not use (R266). -/
def Obligations.CompositesAreTheirParts : Prop := ∀ s t : State, t.phase ≠ .failed →
  (∀ a, execAll [.qzz (compTable a), .jhuf a] s = some t → exec (.jpdu a) s = .next t) ∧
  (∀ q, s.quant = some q → s.phase.allowsScan = true → s.mby.toNat < bandCount s q →
    execAll (macroblockParts s q) s = some t →
    let last := (s.mbx + 1).toNat = q.awidth.toNat / q.block.side
    let u : State := { t with
      mbx := if last then 0 else s.mbx + 1, mby := if last then s.mby + 1 else s.mby, phase := .jBody }
    (t.bb.length ≤ 1280 → exec .jwblk s = .next u) ∧
    (1280 < t.bb.length → ∀ v, exec .bflush u = .next v → v.phase ≠ .failed → exec .jwblk s = .next v)) ∧
  (∀ q n, s.quant = some q → s.mbx = 0 → n + 1 = blocksPerBand q →
    execAll (List.replicate (n + 1) .jwblk) s = some t → exec .jrow s = .next t) ∧
  (execAll ([.jinit, .jhdr] ++ List.replicate (bandCount s (quantOf s)) .jrow ++ [.jfin]) s = some t → exec .jenc s = .next t) ∧
  (∀ a n, execAll ([.zbegin a] ++ (List.replicate n [Instr.lzstep, .zemit]).flatten ++ [.zend]) s = some t →
    exec (.zcomp a) s = .next t) ∧
  (execAll ([.psig] ++ List.replicate s.height.toNat .pfilt ++
      [.zcomp .fbuf, .wrreg .ctype 0x49444154, .pchunk .zbuf, .wrreg .ctype 0x49454E44, .pchunk .empty]) s = some t →
    exec .penc s = .next { t with ctype := s.ctype })

/-! PNG filtering, 45_png_filter.md. -/

/-- `PFILT` completes when its two rows are mapped: FBUF gets the selector byte and the row filtered by the type chosen, `ROW`
advances, the phase is `P_BODY`, and nothing else changes. Out of phase or past the last row it is `SeqFault`, and with a byte of
its rows not mapped `SrcAccess`, and beyond the capacity of FBUF `OutOverflow` (R220, R222). -/
def Obligations.PfiltFilters : Prop := ∀ (s : State) (bpp : Nat),
  let n := s.width.toNat * bpp
  let r := s.row.toNat
  let cur := sourceRow s r n
  let prev := rowAbove s r n
  let best := chooseFilter r bpp cur prev
  let mapped := rowMapped s r n = true ∧ (0 < r → rowMapped s (r - 1) n = true)
  (s.phase.allowsPng = true → r < s.height.toNat → bytesPerPixel s.pixfmt = some bpp →
    (mapped → fits s.caps.fbuf (s.fbuf.length + (1 + n)) = true → exec .pfilt s = .next { s with
      fbuf := s.fbuf ++ (best.num :: (List.range n).map fun i => cur.getD i 0 - predAt best bpp cur prev i),
      row := s.row + 1, phase := .pBody, resp := 0 }) ∧
    (mapped → fits s.caps.fbuf (s.fbuf.length + (1 + n)) = false →
      ∃ t, exec .pfilt s = .next t ∧ t.phase = .failed ∧ t.fail = 12 ∧ t.finfo = 0x30 ∧ t.row = s.row) ∧
    (¬ mapped → exec .pfilt s = .next (s.takeFault .srcAccess 0x30))) ∧
  (s.phase ≠ .failed → s.phase.allowsPng = false ∨ s.height.toNat ≤ r → exec .pfilt s = .next (s.takeFault .seqFault 0x30))

/-- The filter chosen costs no more than any candidate, strictly less than any candidate before it, and in row 0 is None or Sub
(R224, R225, R226, R228). -/
def Obligations.FilterChoice : Prop := ∀ (row bpp : Nat) (cur prev : List Byte),
  let cost := fun t => filterCost (filterRow t bpp cur prev)
  let best := chooseFilter row bpp cur prev
  let cands : List FilterType := if row = 0 then [.none, .sub] else [.none, .sub, .up, .average, .paeth]
  best ∈ cands ∧ (∀ t ∈ cands, cost best ≤ cost t) ∧ (∀ t ∈ cands, t.num.toNat < best.num.toNat → cost best < cost t)

/-! The compressor, 46_zlib_deflate.md. -/

/-- `ZBEGIN` latches its input and the effective quality, empties the hash table and ZBUF, writes the zlib header and the block
header bits 1, 1, 0, and sets `Z_RUN`; nothing else changes (R231, R232). -/
def Obligations.ZbeginStarts : Prop := ∀ (s : State) (a : ZSel), s.phase ≠ .failed → s.caps.zbuf = none →
  exec (.zbegin a) s = .next { s with
    zsrc := a, zlen := (match a with | .fbuf => s.fblen | .src => s.clen), zq := BitVec.ofInt 32 (max s.quality.toInt 5),
    ht := [], zi := 0, token := none, zbuf := [0x78, 0x5E], zacc := 3, zaccn := 3, zph := .run, resp := 0 }

/-- `LZSTEP` completes on every readable input and takes the decision R236 writes out: the token, the position and the hash table
are those of the pseudocode, and nothing else changes. -/
def Obligations.LzstepDecides : Prop := ∀ (s : State) (data : List Byte),
  s.phase ≠ .failed → s.zph = .run → s.token = none → s.zi.toNat < s.zlen.toNat → s.inputIs data = true → CompressorInv s →
  exec .lzstep s = .next { s.lzStepped data with resp := 0 }

/-- A match token is sound: its length is 3..258 and its distance 1..32767 (R239), the bytes it stands for are the bytes at that
distance before them (R235), and `ZI` advances by its length; a literal token is the byte at `ZI`, and `ZI` advances by one. -/
def Obligations.LzstepTokenSound : Prop := ∀ (s t : State) (data : List Byte),
  CompressorInv s → s.inputIs data = true → s.phase ≠ .failed → exec .lzstep s = .next t → t.phase ≠ .failed →
  (∀ b, t.token = some (.lit b) → data.getD s.zi.toNat 0 = b ∧ t.zi.toNat = s.zi.toNat + 1) ∧
  (∀ len dist, t.token = some (.copy len dist) →
    3 ≤ len.toNat ∧ len.toNat ≤ 258 ∧ 1 ≤ dist.toNat ∧ dist.toNat ≤ 32767 ∧ dist.toNat ≤ s.zi.toNat ∧
    t.zi.toNat = s.zi.toNat + len.toNat ∧ t.zi.toNat ≤ s.zlen.toNat ∧
    ∀ k, k < len.toNat → data.getD (s.zi.toNat + k) 0 = data.getD (s.zi.toNat + k - dist.toNat) 0)

/-- `ZEMIT` appends the bits of the waiting token to the stream and clears it; nothing else changes (R241 to R244). -/
def Obligations.ZemitAppends : Prop := ∀ (s : State) (tok : Token),
  s.phase ≠ .failed → s.zph = .run → s.token = some tok → tok.legal → AccumulatorInv s → s.caps.zbuf = none →
  ∃ zbuf zacc zaccn, exec .zemit s = .next { s with zbuf := zbuf, zacc := zacc, zaccn := zaccn, token := none, resp := 0 } ∧
    zaccn ≤ 7 ∧ zacc < 2 ^ zaccn ∧
    State.streamBits { s with zbuf := zbuf, zacc := zacc, zaccn := zaccn } = s.streamBits ++ tokenBits tok

/-- `ZEND` appends the end-of-block code, pads the last byte with zeros, appends the Adler-32 of the whole input most significant
byte first, leaves it in `ADLREG`, and sets `Z_DONE`; nothing else changes (R245). -/
def Obligations.ZendFinishes : Prop := ∀ (s : State) (data : List Byte),
  s.phase ≠ .failed → s.zph = .run → s.token = none → s.zi = s.zlen → s.inputIs data = true → AccumulatorInv s →
  s.caps.zbuf = none →
  ∃ zbuf pad, exec .zend s = .next { s with
      zbuf := zbuf ++ bigEndian (adler32 data), zacc := 0, zaccn := 0, adlreg := adler32 data, zph := .done, resp := 0 } ∧
    pad < 8 ∧ zbuf.flatMap (fun b => lsbBits 8 b.toNat) = s.streamBits ++ List.replicate (7 + pad) false

/-- `ZCOMP` completes on every readable input: the stream begins 78 5E and ends with the Adler-32 of the input, `ZI` is at the
end, `Z_DONE` is set, no token waits, and no `LzAssert` is raised (R248, R249). -/
def Obligations.ZcompCompletes : Prop := ∀ (s : State) (a : ZSel) (data : List Byte),
  s.phase ≠ .failed → s.caps.zbuf = none → data.length < 2 ^ 32 → s.selects a data = true →
  ∃ t body, exec (.zcomp a) s = .next t ∧ t.phase = s.phase ∧ t.zph = .done ∧ t.token = none ∧ t.zi = t.zlen ∧
    t.zlen.toNat = data.length ∧ t.zbuf = [0x78, 0x5E] ++ body ++ bigEndian (adler32 data) ∧ t.adlreg = adler32 data ∧
    t.fail = s.fail ∧ t.out = s.out ∧ t.fbuf = s.fbuf ∧ SameConfig s t ∧ SameJpeg s t

/-- With `HASH3` fixed, ZBUF is a function of the input bytes and the quality alone (R250): two engines that differ in everything
else, the place of the input included, produce the same stream from the same bytes. -/
def Obligations.StreamDependsOnInputOnly : Prop := ∀ (s₁ s₂ t₁ t₂ : State) (a₁ a₂ : ZSel) (data : List Byte),
  s₁.selects a₁ data = true → s₂.selects a₂ data = true → data.length < 2 ^ 32 →
  s₁.quality = s₂.quality → s₁.hash3 = s₂.hash3 →
  exec (.zcomp a₁) s₁ = .next t₁ → exec (.zcomp a₂) s₂ = .next t₂ →
  s₁.phase ≠ .failed → s₂.phase ≠ .failed → t₁.phase ≠ .failed → t₂.phase ≠ .failed →
  t₁.zbuf = t₂.zbuf ∧ t₁.adlreg = t₂.adlreg

/-- `ADLER` writes the Adler-32 of the selected bytes to `ADLREG` and changes nothing else; a byte of the SRC range that is not
mapped is `SrcAccess`, and a word with another selector decodes to no command (R247). The two sums are those of the definition. -/
def Obligations.AdlerComputes : Prop := ∀ s : State, s.phase ≠ .failed →
  (∀ (a : ZSel) (data : List Byte), s.selects a data = true →
    exec (.adler a) s = .next { s with adlreg := adler32 data, resp := 0 } ∧
    (adler32 data).toNat % 2 ^ 16 = (1 + (data.map (·.toNat)).sum) % 65521 ∧
    (adler32 data).toNat / 2 ^ 16 =
      (data.length + ((List.range data.length).map fun k => (data.length - k) * (data.getD k 0).toNat).sum) % 65521) ∧
  (∀ j, j < s.clen.toNat → s.src.read (rangeAddr s j).toNat = none →
    exec (.adler .src) s = .next (s.takeFault .srcAccess 0x36)) ∧
  (∀ w : Command, w.extractLsb' 0 8 = 0x36 → w.extractLsb' 8 8 ≠ 0 → w.extractLsb' 8 8 ≠ 3 → ∃ e, decode w = .error e)

/-! PNG chunks, 47_png_chunk.md. -/

/-- `CRC32` writes the CRC-32 of the selected message to `CRCREG` (R261), `CRCCHK` sets `CRCOK` to whether `CRCREG` is the expected
value (R262), and neither changes anything else. That a ZBUF of `2^32` bytes or more is taken whole is the model's choice
(notes/assumptions/27.md). -/
def Obligations.CrcComputesAndCompares : Prop := ∀ s : State, s.phase ≠ .failed →
  exec (.crc32 .tag) s = .next { s with crcreg := crc32 (bigEndian s.ctype), resp := 0 } ∧
  exec (.crc32 .ihdr) s = .next { s with crcreg := crc32 (bigEndian s.ctype ++ ihdrPayload s), resp := 0 } ∧
  exec (.crc32 .zbuf) s = .next { s with crcreg := crc32 (bigEndian s.ctype ++ s.zbuf), resp := 0 } ∧
  (∀ data, s.selects .src data = true → exec (.crc32 .src) s = .next { s with crcreg := crc32 data, resp := 0 }) ∧
  ∀ v, exec (.crcchk v) s = .next { s with crcok := decide (s.crcreg = v), resp := 0 }

/-- `PSIG` on a configuration that passes the checks, with file type PNG: OUT is the signature and the IHDR chunk, 33 bytes, FBUF
is emptied, `ROW` is 0, the phase is `P_HDR`, and `CTYPE` is neither read nor written (R263, R264, R265). -/
def Obligations.PsigWrites : Prop := ∀ s : State,
  s.phase = .idle → checkFault s = none → s.filetype = 4 → s.caps.out = none →
  exec .psig s = .next { s with
    out := [0x89, 0x50, 0x4E, 0x47, 0x0D, 0x0A, 0x1A, 0x0A] ++ chunkBytes 0x49484452 (ihdrPayload s), fbuf := [], row := 0,
    crcreg := crc32 (bigEndian 0x49484452 ++ ihdrPayload s), phase := .pHdr, resp := 0 } ∧
  ([0x89, 0x50, 0x4E, 0x47, 0x0D, 0x0A, 0x1A, 0x0A] ++ chunkBytes 0x49484452 (ihdrPayload s)).length = 33

/-- `PCHUNK` appends one chunk of type `CTYPE`, leaves its CRC in `CRCREG`, and moves to `P_DONE` exactly for `IEND`; selector 2
needs a finished stream (R264). That a ZBUF of `2^32` bytes or more is taken whole is the model's choice
(notes/assumptions/27.md). -/
def Obligations.PchunkWrites : Prop := ∀ (s : State) (a : PaySel),
  s.phase.allowsPng = true → s.caps.out = none →
  ((a = .zbuf → s.zph = .done) →
    exec (.pchunk a) s = .next { s with
      out := s.out ++ chunkBytes s.ctype (match a with | .empty => [] | .ihdr => ihdrPayload s | .zbuf => s.zbuf),
      crcreg := crc32 (bigEndian s.ctype ++ (match a with | .empty => [] | .ihdr => ihdrPayload s | .zbuf => s.zbuf)),
      phase := if s.ctype = 0x49454E44 then .pDone else s.phase, resp := 0 }) ∧
  (a = .zbuf → s.zph ≠ .done → exec (.pchunk a) s = .next (s.takeFault .seqFault 0x43))

/-- `PENC` completes from `IDLE` on every image that passes the checks and is mapped: the phase is `P_DONE`, and OUT is the
signature, IHDR, one IDAT holding the whole zlib stream of FBUF, and the fixed IEND (R266, R267). That a stream of `2^32` bytes or
more goes whole into the chunk is the model's choice (notes/assumptions/27.md). -/
def Obligations.PencCompletes : Prop := ∀ (s : State) (bpp : Nat),
  s.phase = .idle → checkFault s = none → s.filetype = 4 → bytesPerPixel s.pixfmt = some bpp →
  s.caps.out = none → s.caps.fbuf = none → s.caps.zbuf = none →
  s.height.toNat * (1 + s.width.toNat * bpp) < 2 ^ 32 →
  (∀ r, r < s.height.toNat → rowMapped s r (s.width.toNat * bpp) = true) →
  ∃ t, exec .penc s = .next t ∧ t.phase = .pDone ∧ t.fail = s.fail ∧ t.row = s.height ∧
    t.fbuf.length = s.height.toNat * (1 + s.width.toNat * bpp) ∧ t.zph = .done ∧ t.adlreg = adler32 t.fbuf ∧
    t.out = [0x89, 0x50, 0x4E, 0x47, 0x0D, 0x0A, 0x1A, 0x0A] ++ chunkBytes 0x49484452 (ihdrPayload s) ++
      chunkBytes 0x49444154 t.zbuf ++ [0x00, 0x00, 0x00, 0x00, 0x49, 0x45, 0x4E, 0x44, 0xAE, 0x42, 0x60, 0x82] ∧
    SameConfig s t ∧ SameJpeg s t
end

