-- ==== Sys2Proof/Laws/Body.lean ====
section
/-! SUPPORT. What the shared operations of Machine/Ops.lean do: running a body as a command, sequencing, conditions, appends, reads. -/

namespace Sys2Proof.Laws

open Sys2Proof Sys2Proof.Machine

/-! Sequencing of bodies. -/

variable {α β : Type}

theorem bind_ok {x : Body α} {f : α → Body β} {s t : State} {a : α} (h : x s = .ok a t) : (x >>= f) s = f a t := by
  show (EStateM.bind x f) s = _
  unfold EStateM.bind
  rw [h]

theorem bind_error {x : Body α} {f : α → Body β} {s t : State} {c : FaultCode} (h : x s = .error c t) :
    (x >>= f) s = .error c t := by
  show (EStateM.bind x f) s = _
  unfold EStateM.bind
  rw [h]

/-- A sequence that ends well went through a middle state. -/
theorem bind_ok_inv {x : Body α} {f : α → Body β} {s u : State} {b : β} (h : (x >>= f) s = .ok b u) :
    ∃ a t, x s = .ok a t ∧ f a t = .ok b u := by
  cases hx : x s with
  | ok a t => exact ⟨a, t, rfl, by rw [← h, bind_ok hx]⟩
  | error c t => rw [bind_error hx] at h; cases h

@[simp] theorem pure_apply (a : α) (s : State) : (pure a : Body α) s = .ok a s := rfl

@[simp] theorem get_bind (f : State → Body β) (s : State) : ((get : Body State) >>= f) s = f s s := rfl

@[simp] theorem set_apply (t s : State) : (set t : Body Unit) s = .ok () t := rfl

@[simp] theorem modify_apply (f : State → State) (s : State) : (modify f : Body Unit) s = .ok () (f s) := rfl

@[simp] theorem set_bind (t s : State) (f : Unit → Body β) : ((set t : Body Unit) >>= f) s = f () t := rfl

@[simp] theorem modify_bind (g : State → State) (s : State) (f : Unit → Body β) :
    ((modify g : Body Unit) >>= f) s = f () (g s) := rfl

@[simp] theorem pure_bind_apply (a : α) (f : α → Body β) (s : State) : ((pure a : Body α) >>= f) s = f a s := rfl

/-! Loops. -/

@[simp] theorem forM_nil_apply (f : α → Body Unit) (s : State) : ([] : List α).forM f s = .ok () s := rfl

theorem forM_cons_apply (f : α → Body Unit) (a : α) (l : List α) (s : State) :
    (a :: l).forM f s = (f a >>= fun _ => l.forM f) s := rfl

@[simp] theorem repeat_zero_apply (b : Body Unit) (s : State) : repeatBody 0 b s = .ok () s := rfl

theorem repeat_succ_apply (n : Nat) (b : Body Unit) (s : State) :
    repeatBody (n + 1) b s = (b >>= fun _ => repeatBody n b) s := rfl

/-! Faults and conditions. -/

@[simp] theorem raise_apply (c : FaultCode) (s : State) : (raise c : Body α) s = .error c s := rfl

@[simp] theorem raise_bind (c : FaultCode) (f : α → Body β) (s : State) : ((raise c : Body α) >>= f) s = .error c s := rfl

theorem require_apply (ok : Bool) (c : FaultCode) (s : State) :
    require ok c s = if ok then .ok () s else .error c s := by
  cases ok <;> rfl

@[simp] theorem require_true (c : FaultCode) (s : State) : require true c s = .ok () s := rfl

@[simp] theorem require_false (c : FaultCode) (s : State) : require false c s = .error c s := rfl

theorem require_bind (ok : Bool) (c : FaultCode) (f : Unit → Body β) (s : State) :
    (require ok c >>= f) s = if ok then f () s else .error c s := by
  cases ok <;> rfl

theorem requirePhase_apply (legal : Phase → Bool) (s : State) :
    requirePhase legal s = if legal s.phase then .ok () s else .error .seqFault s := require_apply _ _ _

theorem requirePhase_bind (legal : Phase → Bool) (f : Unit → Body β) (s : State) :
    (requirePhase legal >>= f) s = if legal s.phase then f () s else .error .seqFault s := by
  cases h : legal s.phase
  · exact bind_error (by simp [requirePhase_apply, h])
  · exact bind_ok (by simp [requirePhase_apply, h])

theorem requirePhaseIs_bind (p : Phase) (f : Unit → Body β) (s : State) :
    (requirePhaseIs p >>= f) s = if s.phase = p then f () s else .error .seqFault s := by
  simp [requirePhaseIs, requirePhase_bind]

/-! Commands. -/

theorem command_failed (op : Byte) (b : Body Unit) {s : State} (h : s.phase = .failed) :
    command op b s = .next (s.respond 0) := by
  simp [command, h]

theorem command_ok {op : Byte} {b : Body Unit} {s t : State} {u : Unit} (hp : s.phase ≠ .failed) (h : b s = .ok u t) :
    command op b s = .next (t.respond 0) := by
  simp [command, hp, h]

theorem command_error {op : Byte} {b : Body Unit} {s t : State} {c : FaultCode} (hp : s.phase ≠ .failed)
    (h : b s = .error c t) : command op b s = .next (t.takeFault c op) := by
  simp [command, hp, h]

/-- Everything a command can do: it is ignored in `FAILED`, ends well, or takes the fault its body raises. -/
theorem command_cases {op : Byte} {b : Body Unit} {s t : State} (h : command op b s = .next t) :
    (s.phase = .failed ∧ t = s.respond 0) ∨
    (s.phase ≠ .failed ∧ ∃ u, b s = .ok () u ∧ t = u.respond 0) ∨
    (s.phase ≠ .failed ∧ ∃ c u, b s = .error c u ∧ t = u.takeFault c op) := by
  by_cases hp : s.phase = .failed
  · rw [command_failed op b hp] at h
    exact .inl ⟨hp, by cases h; rfl⟩
  · cases hb : b s with
    | ok u t' => rw [command_ok hp hb] at h; exact .inr (.inl ⟨hp, t', rfl, by cases h; rfl⟩)
    | error c t' => rw [command_error hp hb] at h; exact .inr (.inr ⟨hp, c, t', rfl, by cases h; rfl⟩)

/-! Appends and reads. -/

theorem outBytes_unlimited (bs : List Byte) {s : State} (h : s.caps.out = none) :
    outBytes bs s = .ok () { s with out := s.out ++ bs } := by
  simp [outBytes, fits, h]

theorem appendFbuf_unlimited (b : Byte) {s : State} (h : s.caps.fbuf = none) :
    appendFbuf b s = .ok () { s with fbuf := s.fbuf ++ [b] } := by
  simp [appendFbuf, fits, h]

theorem appendZbuf_unlimited (b : Byte) {s : State} (h : s.caps.zbuf = none) :
    appendZbuf b s = .ok () { s with zbuf := s.zbuf ++ [b] } := by
  simp [appendZbuf, fits, h]

theorem push_room (p : BitPair) {s : State} (h : s.bb.length < 2048) :
    push p s =
      .ok () { s with bb := s.bb ++ [{ value := p.value &&& BitVec.ofNat 16 (2 ^ p.len - 1), len := p.len }] } := by
  simp [push, Config.bbSlots, Nat.ne_of_lt h]

theorem push_full (p : BitPair) {s : State} (h : s.bb.length = 2048) : push p s = .error .bitBufOverflow s := by
  simp [push, Config.bbSlots, h]

theorem memRead_mapped {s : State} {a : Word} {b : Byte} (h : s.src.read a.toNat = some b) : memRead a s = .ok b s := by
  simp [memRead, h]

theorem memRead_unmapped {s : State} {a : Word} (h : s.src.read a.toNat = none) : memRead a s = .error .srcAccess s := by
  simp [memRead, h]

/-- Everything a read can do: it changes nothing. -/
theorem memRead_cases (a : Word) (s : State) :
    (∃ b, memRead a s = .ok b s) ∨ memRead a s = .error .srcAccess s := by
  cases h : s.src.read a.toNat with
  | none => exact .inr (memRead_unmapped h)
  | some b => exact .inl ⟨b, memRead_mapped h⟩

/-! Facts that relate the state before a body to the state it leaves, whether it ends well or faults. -/

/-- The state a body leaves. -/
def after (r : EStateM.Result FaultCode State α) : State :=
  match r with
  | .ok _ t => t
  | .error _ t => t

/-- The body relates every state to the state it leaves by `R`. -/
def Keeps (R : State → State → Prop) (b : Body α) : Prop := ∀ s, R s (after (b s))

/-- A relation that composes: enough to follow a sequence of bodies. -/
structure Chains (R : State → State → Prop) : Prop where
  same : ∀ s, R s s
  trans : ∀ s t u, R s t → R t u → R s u

variable {R : State → State → Prop}

theorem keeps_pure (hR : Chains R) (a : α) : Keeps R (pure a : Body α) := hR.same

theorem keeps_raise (hR : Chains R) (c : FaultCode) : Keeps R (raise c : Body α) := hR.same

theorem keeps_get (hR : Chains R) : Keeps R (get : Body State) := hR.same

theorem keeps_require (hR : Chains R) (ok : Bool) (c : FaultCode) : Keeps R (require ok c) := by
  cases ok <;> exact hR.same

theorem keeps_modify {f : State → State} (h : ∀ s, R s (f s)) : Keeps R (modify f : Body Unit) := h

theorem keeps_bind (hR : Chains R) {x : Body α} {f : α → Body β} (hx : Keeps R x) (hf : ∀ a, Keeps R (f a)) :
    Keeps R (x >>= f) := by
  intro s
  have h1 := hx s
  cases h : x s with
  | ok a t => rw [bind_ok h]; rw [h] at h1; exact hR.trans _ _ _ h1 (hf a t)
  | error c t => rw [bind_error h]; rw [h] at h1; exact h1

/-- Reading the state first: the rest may use what it read. -/
theorem keeps_get_bind {f : State → Body β} (h : ∀ s, R s (after (f s s))) : Keeps R ((get : Body State) >>= f) := h

theorem keeps_forM (hR : Chains R) {f : α → Body Unit} (h : ∀ a, Keeps R (f a)) (l : List α) : Keeps R (l.forM f) := by
  induction l with
  | nil => exact hR.same
  | cons a l ih => exact keeps_bind hR (h a) fun _ => ih

theorem keeps_repeat (hR : Chains R) {b : Body Unit} (h : Keeps R b) (n : Nat) : Keeps R (repeatBody n b) := by
  induction n with
  | zero => exact hR.same
  | succ n ih => exact keeps_bind hR h fun _ => ih

theorem keeps_requirePhase (hR : Chains R) (legal : Phase → Bool) : Keeps R (requirePhase legal) :=
  keeps_get_bind fun s => keeps_require hR (legal s.phase) .seqFault s

theorem keeps_memRead (hR : Chains R) (a : Word) : Keeps R (memRead a) := by
  intro s
  rcases memRead_cases a s with ⟨b, h⟩ | h <;> rw [h] <;> exact hR.same s

theorem keeps_outBytes (hR : Chains R) (bs : List Byte) (h : ∀ s, R s { s with out := s.out ++ bs }) :
    Keeps R (outBytes bs) := by
  intro s
  unfold outBytes
  split
  · exact h s
  · exact hR.same s

theorem keeps_appendFbuf (hR : Chains R) (b : Byte) (h : ∀ s, R s { s with fbuf := s.fbuf ++ [b] }) :
    Keeps R (appendFbuf b) := by
  intro s
  unfold appendFbuf
  split
  · exact h s
  · exact hR.same s

theorem keeps_appendZbuf (hR : Chains R) (b : Byte) (h : ∀ s, R s { s with zbuf := s.zbuf ++ [b] }) :
    Keeps R (appendZbuf b) := by
  intro s
  unfold appendZbuf
  split
  · exact h s
  · exact hR.same s

theorem keeps_push (hR : Chains R) (p : BitPair)
    (h : ∀ s, s.bb.length ≠ 2048 →
      R s { s with bb := s.bb ++ [{ value := p.value &&& BitVec.ofNat 16 (2 ^ p.len - 1), len := p.len }] }) :
    Keeps R (push p) := by
  intro s
  unfold push
  split
  · exact hR.same s
  · exact h s ‹_›

/-- A relation a body keeps is kept by the command, if the response and the fault entry keep it too. -/
theorem command_keeps {op : Byte} {b : Body Unit} {s t : State} (hR : Chains R) (hb : Keeps R b)
    (hr : ∀ u, R u (u.respond 0)) (hf : ∀ u c, R u (u.takeFault c op)) (h : command op b s = .next t) : R s t := by
  have hs := hb s
  rcases command_cases h with ⟨-, rfl⟩ | ⟨-, u, hu, rfl⟩ | ⟨-, c, u, hu, rfl⟩
  · exact hr s
  · rw [hu] at hs; exact hR.trans _ _ _ hs (hr u)
  · rw [hu] at hs; exact hR.trans _ _ _ hs (hf u c)

end Sys2Proof.Laws
end

