-- ==== Sys2Proof/Laws/Bits.lean ====
section
/-! SUPPORT. Bit strings and the two bit accumulators: what a flush of `BB` and an output of `ZBits` leave. -/

namespace Sys2Proof.Laws

open Sys2Proof Sys2Proof.Machine

/-! Bit strings. -/

@[simp] theorem lsbBits_length (n v : Nat) : (lsbBits n v).length = n := by simp [lsbBits]

@[simp] theorem msbBits_length (n v : Nat) : (msbBits n v).length = n := by simp [msbBits]

theorem bitsValue_append_singleton (l : List Bool) (b : Bool) : bitsValue (l ++ [b]) = 2 * bitsValue l + b.toNat := by
  simp [bitsValue]

theorem lsbBits_succ (n v : Nat) : lsbBits (n + 1) v = lsbBits n v ++ [v.testBit n] := by
  simp [lsbBits, List.range_succ]

theorem lsbBits_cons (n v : Nat) : lsbBits (n + 1) v = (v.testBit 0) :: lsbBits n (v / 2) := by
  simp only [lsbBits, List.range_succ_eq_map, List.map_cons, List.map_map, Function.comp_def]
  simp [Nat.testBit_succ]

theorem msbBits_succ (n v : Nat) : msbBits (n + 1) v = msbBits n (v / 2) ++ [v.testBit 0] := by
  simp [msbBits, lsbBits_cons]

/-- The bits of a number that fits give the number back. -/
theorem bitsValue_msbBits (n v : Nat) (h : v < 2 ^ n) : bitsValue (msbBits n v) = v := by
  induction n generalizing v with
  | zero => simp at h; subst h; rfl
  | succ n ih =>
    rw [msbBits_succ, bitsValue_append_singleton, ih _ (by omega)]
    simp only [Nat.testBit_zero]
    rcases Nat.mod_two_eq_zero_or_one v with h0 | h0 <;> simp [h0] <;> omega

theorem fullBytes_short (l : List Bool) (h : l.length < 8) : fullBytes l = [] := by
  match l, h with
  | [], _ | [_], _ | [_, _], _ | [_, _, _], _ | [_, _, _, _], _ | [_, _, _, _, _], _ | [_, _, _, _, _, _], _
  | [_, _, _, _, _, _, _], _ => rfl

theorem leftBits_short (l : List Bool) (h : l.length < 8) : leftBits l = l := by
  match l, h with
  | [], _ | [_], _ | [_, _], _ | [_, _, _], _ | [_, _, _, _], _ | [_, _, _, _, _], _ | [_, _, _, _, _, _], _
  | [_, _, _, _, _, _, _], _ => rfl

theorem fullBytes_eight (l r : List Bool) (h : l.length = 8) :
    fullBytes (l ++ r) = BitVec.ofNat 8 (bitsValue l) :: fullBytes r := by
  match l, h with
  | [_, _, _, _, _, _, _, _], _ => rfl

theorem leftBits_eight (l r : List Bool) (h : l.length = 8) : leftBits (l ++ r) = leftBits r := by
  match l, h with
  | [_, _, _, _, _, _, _, _], _ => rfl

theorem leftBits_length (l : List Bool) : (leftBits l).length = l.length % 8 := by
  induction h : l.length using Nat.strong_induction_on generalizing l with
  | _ n ih =>
    by_cases h8 : l.length < 8
    · rw [leftBits_short l h8, h, Nat.mod_eq_of_lt (h ▸ h8)]
    · rw [← List.take_append_drop 8 l, leftBits_eight _ _ (by simp; omega)]
      rw [ih (l.drop 8).length (by simp; omega) _ rfl]
      simp; omega

theorem leftBits_length_lt (l : List Bool) : (leftBits l).length < 8 := by
  rw [leftBits_length]; omega

/-- A bit string splits into its full bytes and the rest at any point. -/
theorem fullBytes_append (l r : List Bool) : fullBytes (l ++ r) = fullBytes l ++ fullBytes (leftBits l ++ r) := by
  induction h : l.length using Nat.strong_induction_on generalizing l with
  | _ n ih =>
    by_cases h8 : l.length < 8
    · rw [leftBits_short l h8, fullBytes_short l h8, List.nil_append]
    · have e := List.take_append_drop 8 l
      have h1 : (l.take 8).length = 8 := by simp; omega
      rw [← e, List.append_assoc, fullBytes_eight _ _ h1, fullBytes_eight _ _ h1, leftBits_eight _ _ h1,
        ih (l.drop 8).length (by simp; omega) _ rfl, List.cons_append]

theorem leftBits_append (l r : List Bool) : leftBits (l ++ r) = leftBits (leftBits l ++ r) := by
  induction h : l.length using Nat.strong_induction_on generalizing l with
  | _ n ih =>
    by_cases h8 : l.length < 8
    · rw [leftBits_short l h8]
    · have e := List.take_append_drop 8 l
      have h1 : (l.take 8).length = 8 := by simp; omega
      rw [← e, List.append_assoc, leftBits_eight _ _ h1, leftBits_eight _ _ h1,
        ih (l.drop 8).length (by simp; omega) _ rfl]

theorem bitsValue_lt (l : List Bool) : bitsValue l < 2 ^ l.length := by
  induction l using List.reverseRecOn with
  | nil => simp [bitsValue]
  | append_singleton l b ih =>
    rw [bitsValue_append_singleton]
    simp only [List.length_append, List.length_singleton, pow_succ]
    cases b <;> (simp; omega)

/-- The bits of the number a bit string stands for are the string. -/
theorem msbBits_bitsValue (l : List Bool) : msbBits l.length (bitsValue l) = l := by
  induction l using List.reverseRecOn with
  | nil => rfl
  | append_singleton l b ih =>
    rw [bitsValue_append_singleton]
    simp only [List.length_append, List.length_singleton, msbBits_succ]
    have h1 : (2 * bitsValue l + b.toNat) / 2 = bitsValue l := by cases b <;> simp <;> omega
    have h2 : (2 * bitsValue l + b.toNat).testBit 0 = b := by cases b <;> simp [Nat.testBit_zero]
    rw [h1, h2, ih]

@[simp] theorem stuffed_nil : stuffed [] = [] := rfl

@[simp] theorem stuffed_cons (b : Byte) (bs : List Byte) : stuffed (b :: bs) = scanByte b ++ stuffed bs := by
  simp [stuffed, scanByte]

@[simp] theorem stuffed_append (as bs : List Byte) : stuffed (as ++ bs) = stuffed as ++ stuffed bs := by
  simp [stuffed]

/-- The bits a pair gives to a flush. -/
theorem pairBits_eq (p : BitPair) : pairBits p = msbBits p.len p.value.toNat := by
  simp [pairBits, msbBits, lsbBits, BitVec.getLsbD]

/-! The flush, 42_jpeg_du_coder.md R163 to R165. -/

/-- The state after the bits `bits` have gone through the accumulator, on the pending bits `pend`. -/
def flushed (s : State) (bits : List Bool) : State :=
  { s with out := s.out ++ stuffed (fullBytes bits), jacc := bitsValue (leftBits bits), jaccn := (leftBits bits).length }

theorem flushBit_step (b : Bool) (pend : List Bool) (s : State) (hc : s.caps.out = none) (hn : s.jaccn = pend.length)
    (ha : s.jacc = bitsValue pend) (hl : pend.length < 8) : flushBit b s = .ok () (flushed s (pend ++ [b])) := by
  simp only [flushBit, modify_bind, get_bind, hn, ha]
  have hv : 2 * bitsValue pend + b.toNat = bitsValue (pend ++ [b]) := (bitsValue_append_singleton _ _).symm
  by_cases h : pend.length + 1 = 8
  · have h8 : (pend ++ [b]).length = 8 := by simpa using h
    have e1 := fullBytes_eight (pend ++ [b]) [] h8
    have e2 := leftBits_eight (pend ++ [b]) [] h8
    rw [List.append_nil] at e1 e2
    rw [if_pos h]
    refine (bind_ok (outBytes_unlimited _ (by exact hc))).trans ?_
    simp [flushed, e1, e2, fullBytes_short, leftBits_short, bitsValue]
  · have h8 : (pend ++ [b]).length < 8 := by simp; omega
    rw [if_neg h]
    simp [flushed, fullBytes_short _ h8, leftBits_short _ h8, hv]

/-- The whole of a flush: the bits go out in order after the pending ones. -/
theorem flushBits (bits : List Bool) : ∀ (pend : List Bool) (s : State), s.caps.out = none → s.jaccn = pend.length →
    s.jacc = bitsValue pend → pend.length < 8 → bits.forM flushBit s = .ok () (flushed s (pend ++ bits)) := by
  induction bits with
  | nil =>
    intro pend s _ hn ha hl
    simp [flushed, fullBytes_short _ hl, leftBits_short _ hl, ← hn, ← ha]
  | cons b bits ih =>
    intro pend s hc hn ha hl
    rw [forM_cons_apply, bind_ok (flushBit_step b pend s hc hn ha hl),
      ih (leftBits (pend ++ [b])) (flushed s (pend ++ [b])) hc rfl rfl (leftBits_length_lt _)]
    have e : pend ++ b :: bits = (pend ++ [b]) ++ bits := by simp
    rw [e, flushed, flushed, flushed, fullBytes_append (pend ++ [b]) bits, leftBits_append (pend ++ [b]) bits]
    simp

/-- What `BFLUSH` does, when OUT has no capacity and the accumulator is in range. -/
theorem bflushBody_spec {s : State} (hp : s.phase.allowsScan = true) (hc : s.caps.out = none) (hn : s.jaccn ≤ 7)
    (ha : s.jacc < 2 ^ s.jaccn) : bflushBody s = .ok () { flushed s s.scanBits with bb := [] } := by
  have e : s.bb.flatMap pairBits = s.bb.flatMap fun p => msbBits p.len p.value.toNat := by
    congr 1; funext p; exact pairBits_eq p
  simp only [bflushBody, requirePhase_bind, hp, if_true, get_bind]
  rw [bind_ok (flushBits _ (msbBits s.jaccn s.jacc) s hc (by simp) (bitsValue_msbBits _ _ ha).symm (by simp; omega)), e]
  rfl

end Sys2Proof.Laws
end

