-- ==== Sys2Proof/Laws/Coder.lean ====
section
/-! SUPPORT. Pushing a list of codes, and which symbols of the four Huffman tables have a code. -/

namespace Sys2Proof.Laws

open Sys2Proof Sys2Proof.Machine

/-- A pair as `Push` stores it, R161. -/
def stored (p : BitPair) : BitPair := { value := p.value &&& BitVec.ofNat 16 (2 ^ p.len - 1), len := p.len }

/-- A value of its length is stored as it stands. -/
theorem stored_eq {p : BitPair} (hl : p.len ≤ 16) (hv : p.value.toNat < 2 ^ p.len) : stored p = p := by
  have h : p.value &&& BitVec.ofNat 16 (2 ^ p.len - 1) = p.value := by
    apply BitVec.eq_of_toNat_eq
    have hm : 2 ^ p.len - 1 < 2 ^ 16 := by
      have := Nat.pow_le_pow_right (n := 2) (by omega) hl
      have := Nat.two_pow_pos p.len
      omega
    rw [BitVec.toNat_and, BitVec.toNat_ofNat, Nat.mod_eq_of_lt hm, Nat.and_two_pow_sub_one_eq_mod, Nat.mod_eq_of_lt hv]
  simp [stored, h]

/-- Codes that all exist are pushed in order while there is room (R153, R161). -/
theorem pushCodes_room (ps : List BitPair) {s : State} (h : s.bb.length + ps.length ≤ 2048) :
    pushCodes (ps.map some) s = .ok () { s with bb := s.bb ++ ps.map stored } := by
  induction ps generalizing s with
  | nil => simp [pushCodes]
  | cons p ps ih =>
    simp only [List.length_cons] at h
    have hp : pushCode (some p) s = .ok () { s with bb := s.bb ++ [stored p] } := push_room p (by omega)
    unfold pushCodes
    rw [List.map_cons, forM_cons_apply, bind_ok hp]
    refine (ih (s := { s with bb := s.bb ++ [stored p] }) (by simp only [List.length_append, List.length_singleton]; omega)).trans ?_
    simp

/-! Which symbols have a code, R104 to R108. -/

theorem dcTable_present (a : Comp) : ∀ n, n ≤ 11 → (huffPair (dcTable a) n).isSome := by cases a <;> decide

theorem acTable_present (a : Comp) : ∀ r, r ≤ 15 → ∀ c, c ≤ 10 → 1 ≤ c → (huffPair (acTable a) (16 * r + c)).isSome := by
  cases a <;> decide +kernel

theorem acTable_eob (a : Comp) : (huffPair (acTable a) 0x00).isSome := by cases a <;> decide

theorem acTable_zrl (a : Comp) : (huffPair (acTable a) 0xF0).isSome := by cases a <;> decide +kernel

/-- Every code of a table is at most 16 bits long and fits its length. -/
def codesFit (t : HuffTable) : Bool := t.codes.all fun c => decide (c.len ≤ 16) && decide (c.code < 2 ^ c.len)

theorem dcTable_fit (a : Comp) : codesFit (dcTable a) = true := by cases a <;> decide +kernel

theorem acTable_fit (a : Comp) : codesFit (acTable a) = true := by cases a <;> decide +kernel

theorem huffPair_fit {t : HuffTable} (h : codesFit t = true) {n : Nat} {p : BitPair} (hp : huffPair t n = some p) :
    p.len ≤ 16 ∧ p.value.toNat < 2 ^ p.len := by
  simp only [huffPair, HuffTable.lookup, Option.map_eq_some_iff] at hp
  obtain ⟨c, hc, rfl⟩ := hp
  have hm := List.all_eq_true.mp h c (List.mem_of_find?_eq_some hc)
  simp only [Bool.and_eq_true, decide_eq_true_eq] at hm
  exact ⟨hm.1, Nat.lt_of_le_of_lt (by rw [BitVec.toNat_ofNat]; exact Nat.mod_le _ _) hm.2⟩

/-- No DC symbol above 11 has a code. -/
theorem dcTable_absent (a : Comp) {n : Nat} (h : 11 < n) : huffPair (dcTable a) n = none := by
  have key : ∀ t : HuffTable, (t.codes.all fun c => decide (c.sym ≤ 11)) = true → huffPair t n = none := by
    intro t ht
    simp only [huffPair, HuffTable.lookup, Option.map_eq_none_iff, List.find?_eq_none]
    intro c hc
    have := List.all_eq_true.mp ht c hc
    simp only [decide_eq_true_eq] at this
    simp only [beq_iff_eq]
    omega
  cases a <;> exact key _ (by decide)

end Sys2Proof.Laws
end

