-- ==== Sys2Proof/Laws/Convert.lean ====
section
/-! SUPPORT. Loops over ranges and grids: where every round takes one named state to the next, the loop takes the first to the last. -/

namespace Sys2Proof.Laws

open Sys2Proof Sys2Proof.Machine

theorem forM_append_ok {α : Type} {f : α → Body Unit} {l m : List α} {s t : State} (h : l.forM f s = .ok () t) :
    (l ++ m).forM f s = m.forM f t := by
  induction l generalizing s with
  | nil => simp only [forM_nil_apply] at h; cases h; rfl
  | cons a l ih =>
    rw [forM_cons_apply] at h
    rw [List.cons_append, forM_cons_apply]
    obtain ⟨u, v, hu, hv⟩ := bind_ok_inv h
    rw [bind_ok hu]
    exact ih hv

/-- `for k in 0..n-1`. -/
theorem forM_range_states {f : Nat → Body Unit} (S : Nat → State) (n : Nat)
    (h : ∀ k, k < n → f k (S k) = .ok () (S (k + 1))) : (List.range n).forM f (S 0) = .ok () (S n) := by
  induction n with
  | zero => rfl
  | succ n ih =>
    rw [List.range_succ, forM_append_ok (ih fun k hk => h k (by omega)), forM_cons_apply, bind_ok (h n (by omega))]
    rfl

/-- `for j in 0..rows-1: for i in 0..cols-1`, with the state before each round named. -/
theorem forGrid_states {f : Nat → Nat → Body Unit} (rows cols : Nat) (S : Nat → Nat → State)
    (h : ∀ j i, j < rows → i < cols → f j i (S j i) = .ok () (S j (i + 1)))
    (hrow : ∀ j, j < rows → S j cols = S (j + 1) 0) : forGrid rows cols f (S 0 0) = .ok () (S rows 0) :=
  forM_range_states (fun j => S j 0) rows fun j hj =>
    (forM_range_states (fun i => S j i) cols fun i hi => h j i hj hi).trans (by rw [hrow j hj])

end Sys2Proof.Laws
end

