-- ==== Sys2Proof/Laws/Encoding.lean ====
section
/-! SUPPORT. The fields of a command word and the codes of the operands: what the decoder and the encoder are made of. -/

namespace Sys2Proof.Laws

open Sys2Proof

/-! Fields, R90 and R95. -/

@[simp] theorem packCommand_op (o : Opcode) (a : Byte) (b : BitVec 16) (imm : Word) :
    Command.op (packCommand o a b imm) = o.byte := by
  apply BitVec.eq_of_getLsbD_eq
  intro i hi
  simp only [Command.op, packCommand, BitVec.getLsbD_extractLsb', BitVec.getLsbD_append, hi]
  have h2 : 0 + i = i := by omega
  simp only [h2, hi]
  simp [hi]

@[simp] theorem packCommand_a (o : Opcode) (a : Byte) (b : BitVec 16) (imm : Word) :
    Command.a (packCommand o a b imm) = a := by
  apply BitVec.eq_of_getLsbD_eq
  intro i hi
  simp only [Command.a, packCommand, BitVec.getLsbD_extractLsb', BitVec.getLsbD_append, hi]
  have h1 : ¬ 8 + i < 8 := by omega
  have h2 : 8 + i - 8 = i := by omega
  simp [h1, h2, hi]

@[simp] theorem packCommand_b (o : Opcode) (a : Byte) (b : BitVec 16) (imm : Word) :
    Command.b (packCommand o a b imm) = b := by
  apply BitVec.eq_of_getLsbD_eq
  intro i hi
  simp only [Command.b, packCommand, BitVec.getLsbD_extractLsb', BitVec.getLsbD_append, hi]
  have h1 : ¬ 16 + i < 8 := by omega
  have h2 : ¬ 16 + i - 8 < 8 := by omega
  have h3 : 16 + i - 8 - 8 = i := by omega
  simp [h1, h2, h3, hi]

@[simp] theorem packCommand_imm (o : Opcode) (a : Byte) (b : BitVec 16) (imm : Word) :
    Command.imm (packCommand o a b imm) = imm := by
  apply BitVec.eq_of_getLsbD_eq
  intro i hi
  simp only [Command.imm, packCommand, BitVec.getLsbD_extractLsb', BitVec.getLsbD_append, hi]
  have h1 : ¬ 32 + i < 8 := by omega
  have h2 : ¬ 32 + i - 8 < 8 := by omega
  have h3 : ¬ 32 + i - 8 - 8 < 16 := by omega
  have h4 : 32 + i - 8 - 8 - 16 = i := by omega
  simp [h1, h2, h3, h4, hi]

/-- A word is its four fields put together again. -/
theorem packCommand_fields (o : Opcode) (w : Command) (h : Command.op w = o.byte) :
    packCommand o (Command.a w) (Command.b w) (Command.imm w) = w := by
  apply BitVec.eq_of_getLsbD_eq
  intro i hi
  simp only [packCommand, ← h, BitVec.getLsbD_append, Command.op, Command.a, Command.b, Command.imm, BitVec.getLsbD_extractLsb']
  by_cases h1 : i < 8
  · simp [h1]
  by_cases h2 : i - 8 < 8
  · have e : 8 + (i - 8) = i := by omega
    simp [h1, h2, e]
  by_cases h3 : i - 8 - 8 < 16
  · have e : 16 + (i - 8 - 8) = i := by omega
    simp [h1, h2, h3, e]
  · have e : 32 + (i - 8 - 8 - 16) = i := by omega
    have h4 : i - 8 - 8 - 16 < 32 := by omega
    simp [h1, h2, h3, e, h4]

/-! Codes, R42, R92, R97. -/

@[simp] theorem opcode_ofByte_byte (o : Opcode) : Opcode.ofByte o.byte = some o := by cases o <;> rfl

theorem opcode_byte_of_ofByte {b : Byte} {o : Opcode} (h : Opcode.ofByte b = some o) : o.byte = b := by
  simpa using List.find?_some h

@[simp] theorem wreg_ofId_id (r : WReg) : WReg.ofId r.id = some r := by cases r <;> rfl

theorem wreg_id_of_ofId {a : Byte} {r : WReg} (h : WReg.ofId a = some r) : r.id = a := by simpa using List.find?_some h

@[simp] theorem rreg_ofId_id (r : RReg) : RReg.ofId r.id = some r := by
  rcases r with r | r | r
  · cases r <;> rfl
  · rcases r with _ | _ | _ | _ | _ | _ | _ | _ | _ | _ | _ | _ | _ | c | _ | _ | _ | _ <;> first | rfl | (cases c <;> rfl)
  · cases r <;> rfl

theorem rreg_id_of_ofId {a : Byte} {r : RReg} (h : RReg.ofId a = some r) : r.id = a := by simpa using List.find?_some h

@[simp] theorem comp_ofNum_num (c : Comp) : Comp.ofNum c.num = some c := by cases c <;> rfl

theorem comp_num_of_ofNum {a : Byte} {c : Comp} (h : Comp.ofNum a = some c) : c.num = a := by simpa using List.find?_some h

@[simp] theorem blockSel_ofNum_num (c : BlockSel) : BlockSel.ofNum c.num = some c := by cases c <;> rfl

theorem blockSel_num_of_ofNum {a : Byte} {c : BlockSel} (h : BlockSel.ofNum a = some c) : c.num = a := by
  simpa using List.find?_some h

@[simp] theorem qSel_ofNum_num (c : QSel) : QSel.ofNum c.num = some c := by cases c <;> rfl

theorem qSel_num_of_ofNum {a : Byte} {c : QSel} (h : QSel.ofNum a = some c) : c.num = a := by simpa using List.find?_some h

@[simp] theorem zSel_ofNum_num (c : ZSel) : ZSel.ofNum c.num = some c := by cases c <;> rfl

theorem zSel_num_of_ofNum {a : Byte} {c : ZSel} (h : ZSel.ofNum a = some c) : c.num = a := by simpa using List.find?_some h

@[simp] theorem msgSel_ofNum_num (c : MsgSel) : MsgSel.ofNum c.num = some c := by cases c <;> rfl

theorem msgSel_num_of_ofNum {a : Byte} {c : MsgSel} (h : MsgSel.ofNum a = some c) : c.num = a := by
  simpa using List.find?_some h

@[simp] theorem paySel_ofNum_num (c : PaySel) : PaySel.ofNum c.num = some c := by cases c <;> rfl

theorem paySel_num_of_ofNum {a : Byte} {c : PaySel} (h : PaySel.ofNum a = some c) : c.num = a := by
  simpa using List.find?_some h

end Sys2Proof.Laws
end

