-- ==== Sys2Proof/Laws/Frames.lean ====
section
/-! SUPPORT. For each body, what it can write: it keeps every relation that its own field updates keep. A frame, or an invariant of
the fields it writes, follows by giving the relation. -/

namespace Sys2Proof.Laws

open Sys2Proof Sys2Proof.Machine

variable {R : State → State → Prop}

/-! 40 to 42: tables, transform, coder. -/

theorem keeps_requireQuant (hR : Chains R) : Keeps R requireQuant := by
  intro s
  unfold requireQuant
  split <;> exact hR.same s

theorem keeps_jqinitBody (hR : Chains R) (quant : ∀ s, R s { s with quant := some (quantOf s) }) : Keeps R jqinitBody :=
  keeps_bind hR (keeps_requirePhase hR _) fun _ => keeps_modify quant

theorem keeps_fdctBody (hR : Chains R) (cdu : ∀ s v, R s { s with cdu := v }) (a : BlockSel) : Keeps R (fdctBody a) := by
  refine keeps_bind hR (keeps_requirePhase hR _) fun _ => keeps_get_bind fun s => ?_
  cases allWritten (blockSamples s a) <;> exact cdu s _

theorem keeps_qzzBody (hR : Chains R) (du : ∀ s v, R s { s with du := v }) (a : QSel) : Keeps R (qzzBody a) := by
  refine keeps_bind hR (keeps_requirePhase hR _) fun _ => keeps_bind hR (keeps_requireQuant hR) fun q =>
    keeps_get_bind fun s => ?_
  cases allWritten s.cdu.toList
  · exact hR.same s
  · exact du s _

theorem keeps_pushCodes (hR : Chains R) (bb : ∀ s v, R s { s with bb := v }) (ps : List (Option BitPair)) :
    Keeps R (pushCodes ps) := by
  refine keeps_forM hR (fun p => ?_) ps
  cases p with
  | none => exact keeps_raise hR _
  | some p => exact keeps_push hR p fun s _ => bb s _

theorem keeps_jhufBody (hR : Chains R) (bb : ∀ s v, R s { s with bb := v }) (dc : ∀ s v, R s { s with dc := v })
    (a : Comp) : Keeps R (jhufBody a) := by
  refine keeps_bind hR (keeps_requirePhase hR _) fun _ => keeps_bind hR (keeps_requireQuant hR) fun _ =>
    keeps_get_bind fun s => ?_
  cases allWritten s.du.toList
  · exact hR.same s
  · exact keeps_bind hR (keeps_pushCodes hR bb _) (fun _ => keeps_modify fun s => dc s _) s

theorem keeps_jpduBody (hR : Chains R) (du : ∀ s v, R s { s with du := v }) (bb : ∀ s v, R s { s with bb := v })
    (dc : ∀ s v, R s { s with dc := v }) (a : Comp) : Keeps R (jpduBody a) :=
  keeps_bind hR (keeps_qzzBody hR du _) fun _ => keeps_jhufBody hR bb dc a

theorem keeps_jgrayuvBody (hR : Chains R) (bb : ∀ s v, R s { s with bb := v }) : Keeps R jgrayuvBody :=
  keeps_bind hR (keeps_requirePhase hR _) fun _ => keeps_pushCodes hR bb _

theorem keeps_bpushBody (hR : Chains R) (bb : ∀ s v, R s { s with bb := v }) (b v : BitVec 16) : Keeps R (bpushBody b v) :=
  keeps_bind hR (keeps_require hR _ _) fun _ => keeps_bind hR (keeps_requirePhase hR _) fun _ =>
    keeps_push hR _ fun s _ => bb s _

/-- The fields a flush writes. -/
structure FlushWrites (R : State → State → Prop) : Prop where
  jacc : ∀ s v, R s { s with jacc := v }
  jaccn : ∀ s v, R s { s with jaccn := v }
  bb : ∀ s v, R s { s with bb := v }
  out : ∀ s bs, R s { s with out := s.out ++ bs }

theorem keeps_flushBit (hR : Chains R) (h : FlushWrites R) (b : Bool) : Keeps R (flushBit b) := by
  refine keeps_bind hR (keeps_modify fun s => hR.trans s { s with jacc := 2 * s.jacc + b.toNat } _ (h.jacc s _)
    (h.jaccn { s with jacc := 2 * s.jacc + b.toNat } _)) fun _ => keeps_get_bind fun s => ?_
  split
  · exact keeps_bind hR (keeps_outBytes hR _ fun s => h.out s _) (fun _ =>
      keeps_modify fun s => hR.trans s { s with jacc := 0 } _ (h.jacc s _) (h.jaccn { s with jacc := 0 } _)) s
  · exact hR.same s

theorem keeps_bflushBody (hR : Chains R) (h : FlushWrites R) : Keeps R bflushBody := by
  refine keeps_bind hR (keeps_requirePhase hR _) fun _ => keeps_get_bind fun s => ?_
  exact keeps_bind hR (keeps_forM hR (keeps_flushBit hR h) _) (fun _ => keeps_modify fun s => h.bb s _) s

/-! 43: conversion and macroblocks. -/

/-- The fields the macroblock kernels write. -/
structure KernelWrites (R : State → State → Prop) : Prop where
  yp : ∀ s v, R s { s with yp := v }
  up : ∀ s v, R s { s with up := v }
  vp : ∀ s v, R s { s with vp := v }
  uc : ∀ s v, R s { s with uc := v }
  vc : ∀ s v, R s { s with vc := v }
  cdu : ∀ s v, R s { s with cdu := v }
  du : ∀ s v, R s { s with du := v }
  bb : ∀ s v, R s { s with bb := v }
  dc : ∀ s v, R s { s with dc := v }

theorem keeps_forGrid (hR : Chains R) {f : Nat → Nat → Body Unit} (h : ∀ j i, Keeps R (f j i)) (rows cols : Nat) :
    Keeps R (forGrid rows cols f) :=
  keeps_forM hR (fun j => keeps_forM hR (h j) _) _

theorem keeps_conversionStart (hR : Chains R) : Keeps R conversionStart :=
  keeps_bind hR (keeps_requirePhase hR _) fun _ => keeps_requireQuant hR

theorem keeps_requireColour (hR : Chains R) : Keeps R requireColour := by
  intro s
  unfold requireColour
  split <;> exact hR.same s

theorem keeps_pixelByte (hR : Chains R) (side bpp k j i : Nat) : Keeps R (pixelByte side bpp k j i) :=
  keeps_get_bind fun s => keeps_memRead hR _ s

theorem keeps_colourSample (hR : Chains R) (yp : ∀ s v, R s { s with yp := v }) (up : ∀ s v, R s { s with up := v })
    (vp : ∀ s v, R s { s with vp := v }) (uc : ∀ s v, R s { s with uc := v }) (vc : ∀ s v, R s { s with vc := v })
    (q : Quant) (bpp : Nat) (k : Nat × Nat × Nat) (j i : Nat) : Keeps R (colourSample q bpp k j i) := by
  refine keeps_bind hR (keeps_pixelByte hR _ _ _ _ _) fun r => keeps_bind hR (keeps_pixelByte hR _ _ _ _ _) fun g =>
    keeps_bind hR (keeps_pixelByte hR _ _ _ _ _) fun b => keeps_modify fun s => ?_
  generalize lumaOf _ _ _ = y
  generalize chromaUOf _ _ _ = u
  generalize chromaVOf _ _ _ = v
  split
  · exact hR.trans s { s with yp := s.yp.setIfInBounds (16 * j + i) (some y) } _ (yp s _)
      (hR.trans _ { s with yp := s.yp.setIfInBounds (16 * j + i) (some y), up := s.up.setIfInBounds (16 * j + i) (some u) } _
        (up { s with yp := s.yp.setIfInBounds (16 * j + i) (some y) } _)
        (vp { s with yp := s.yp.setIfInBounds (16 * j + i) (some y), up := s.up.setIfInBounds (16 * j + i) (some u) } _))
  · exact hR.trans s { s with yp := s.yp.setIfInBounds (16 * j + i) (some y) } _ (yp s _)
      (hR.trans _ { s with yp := s.yp.setIfInBounds (16 * j + i) (some y), uc := s.uc.setIfInBounds (8 * j + i) (some u) } _
        (uc { s with yp := s.yp.setIfInBounds (16 * j + i) (some y) } _)
        (vc { s with yp := s.yp.setIfInBounds (16 * j + i) (some y), uc := s.uc.setIfInBounds (8 * j + i) (some u) } _))

theorem keeps_rgb2yuvBody (hR : Chains R) (yp : ∀ s v, R s { s with yp := v }) (up : ∀ s v, R s { s with up := v })
    (vp : ∀ s v, R s { s with vp := v }) (uc : ∀ s v, R s { s with uc := v }) (vc : ∀ s v, R s { s with vc := v }) :
    Keeps R rgb2yuvBody :=
  keeps_bind hR (keeps_conversionStart hR) fun q => keeps_bind hR (keeps_requireColour hR) fun _ =>
    keeps_get_bind fun s => keeps_forGrid hR (keeps_colourSample hR yp up vp uc vc q _ _) _ _ s

theorem keeps_gray2yBody (hR : Chains R) (yp : ∀ s v, R s { s with yp := v }) : Keeps R gray2yBody :=
  keeps_bind hR (keeps_conversionStart hR) fun _ => keeps_get_bind fun s =>
    keeps_bind hR (keeps_require hR _ _) (fun _ => keeps_forGrid hR (fun _ _ =>
      keeps_bind hR (keeps_pixelByte hR _ _ _ _ _) fun _ => keeps_modify fun s => yp s _) _ _) s

theorem keeps_yuvloadBody (hR : Chains R) (yp : ∀ s v, R s { s with yp := v }) (uc : ∀ s v, R s { s with uc := v })
    (vc : ∀ s v, R s { s with vc := v }) : Keeps R yuvloadBody := by
  refine keeps_bind hR (keeps_conversionStart hR) fun _ => keeps_get_bind fun s => ?_
  refine keeps_bind hR (keeps_require hR _ _) (fun _ => keeps_bind hR (keeps_forGrid hR (fun _ _ => ?_) _ _) fun _ =>
    keeps_forGrid hR (fun _ _ => ?_) _ _) s
  · exact keeps_get_bind fun s => keeps_bind hR (keeps_memRead hR _) (fun b => keeps_modify fun s => yp s _) s
  · exact keeps_get_bind fun s => keeps_bind hR (keeps_memRead hR _) (fun _ => keeps_bind hR (keeps_modify fun s => uc s _)
      fun _ => keeps_bind hR (keeps_memRead hR _) fun _ => keeps_modify fun s => vc s _) s

theorem keeps_csubBody (hR : Chains R) (uc : ∀ s v, R s { s with uc := v }) (vc : ∀ s v, R s { s with vc := v }) :
    Keeps R csubBody := by
  refine keeps_bind hR (keeps_conversionStart hR) fun q => keeps_bind hR (keeps_require hR _ _) fun _ =>
    keeps_get_bind fun s => ?_
  rcases allWritten s.up.toList with _ | up
  · exact hR.same s
  rcases allWritten s.vp.toList with _ | vp
  · exact hR.same s
  exact hR.trans s { s with uc := downsample up } _ (uc s _) (vc { s with uc := downsample up } _)

theorem keeps_codeBlock (hR : Chains R) (h : KernelWrites R) (a : BlockSel) (c : Comp) : Keeps R (codeBlock a c) :=
  keeps_bind hR (keeps_fdctBody hR h.cdu a) fun _ => keeps_jpduBody hR h.du h.bb h.dc c

theorem keeps_codeLuma16 (hR : Chains R) (h : KernelWrites R) : Keeps R codeLuma16 :=
  keeps_bind hR (keeps_codeBlock hR h _ _) fun _ => keeps_bind hR (keeps_codeBlock hR h _ _) fun _ =>
    keeps_bind hR (keeps_codeBlock hR h _ _) fun _ => keeps_codeBlock hR h _ _

theorem keeps_codeChroma (hR : Chains R) (h : KernelWrites R) : Keeps R codeChroma :=
  keeps_bind hR (keeps_codeBlock hR h _ _) fun _ => keeps_codeBlock hR h _ _

theorem keeps_variantBody (hR : Chains R) (h : KernelWrites R) (v : WbVar) : Keeps R (variantBody v) := by
  have hgray := keeps_gray2yBody hR h.yp
  have hcolour := keeps_rgb2yuvBody hR h.yp h.up h.vp h.uc h.vc
  have hplanar := keeps_bind hR (keeps_yuvloadBody hR h.yp h.uc h.vc) fun _ =>
    keeps_bind hR (keeps_codeLuma16 hR h) fun _ => keeps_codeChroma hR h
  cases v with
  | subs =>
    refine keeps_get_bind fun s => ?_
    split
    · exact keeps_bind hR hgray (fun _ => keeps_bind hR (keeps_codeLuma16 hR h) fun _ => keeps_jgrayuvBody hR h.bb) s
    · exact keeps_bind hR hcolour (fun _ => keeps_bind hR (keeps_csubBody hR h.uc h.vc) fun _ =>
        keeps_bind hR (keeps_codeLuma16 hR h) fun _ => keeps_codeChroma hR h) s
  | full =>
    refine keeps_get_bind fun s => ?_
    split
    · exact keeps_bind hR hgray (fun _ => keeps_bind hR (keeps_codeBlock hR h _ _) fun _ => keeps_jgrayuvBody hR h.bb) s
    · exact keeps_bind hR hcolour (fun _ => keeps_bind hR (keeps_codeBlock hR h _ _) fun _ => keeps_codeChroma hR h) s
  | nv12 => exact hplanar
  | yuv420p => exact hplanar

/-- The fields a macroblock and a row band write. -/
structure BlockWrites (R : State → State → Prop) : Prop extends KernelWrites R where
  jacc : ∀ s v, R s { s with jacc := v }
  jaccn : ∀ s v, R s { s with jaccn := v }
  out : ∀ s bs, R s { s with out := s.out ++ bs }
  mbx : ∀ s v, R s { s with mbx := v }
  mby : ∀ s v, R s { s with mby := v }
  phase : ∀ s v, v ≠ .failed → R s { s with phase := v }

theorem BlockWrites.toFlush (h : BlockWrites R) : FlushWrites R := ⟨h.jacc, h.jaccn, h.bb, h.out⟩

theorem keeps_nextMacroblock (hR : Chains R) (h : BlockWrites R) (q : Quant) (s : State) : R s (s.nextMacroblock q) := by
  unfold State.nextMacroblock
  split
  · exact hR.trans s { s with mbx := 0 } _ (h.mbx s _) (hR.trans _ { s with mbx := 0, mby := s.mby + 1 } _
      (h.mby { s with mbx := 0 } _) (h.phase { s with mbx := 0, mby := s.mby + 1 } _ (by decide)))
  · exact hR.trans s { s with mbx := s.mbx + 1 } _ (h.mbx s _) (h.phase { s with mbx := s.mbx + 1 } _ (by decide))

theorem keeps_jwblkBody (hR : Chains R) (h : BlockWrites R) : Keeps R jwblkBody := by
  refine keeps_bind hR (keeps_requirePhase hR _) fun _ => keeps_bind hR (keeps_requireQuant hR) fun q =>
    keeps_get_bind fun s => ?_
  refine keeps_bind hR (keeps_require hR _ _) (fun _ => keeps_bind hR (keeps_variantBody hR h.toKernelWrites _) fun _ =>
    keeps_bind hR (keeps_modify (keeps_nextMacroblock hR h q)) fun _ => keeps_get_bind fun s => ?_) s
  split
  · exact keeps_bflushBody hR h.toFlush s
  · exact hR.same s

/-! 44: the JPEG stream. -/

theorem keeps_checksBody (hR : Chains R) : Keeps R checksBody := by
  refine keeps_get_bind fun s => ?_
  cases checkFault s <;> exact hR.same s

theorem keeps_requireFiletype (hR : Chains R) (t : BitVec 3) : Keeps R (requireFiletype t) :=
  keeps_get_bind fun s => keeps_require hR (decide (s.filetype = t)) .paramEngineUnsupported s

theorem keeps_validateBody (hR : Chains R) : Keeps R validateBody :=
  keeps_bind hR (keeps_requirePhase hR _) fun _ => keeps_checksBody hR

theorem keeps_jrowBody (hR : Chains R) (h : BlockWrites R) : Keeps R jrowBody := by
  refine keeps_bind hR (keeps_requirePhase hR _) fun _ => keeps_bind hR (keeps_requireQuant hR) fun _ =>
    keeps_get_bind fun s => ?_
  exact keeps_bind hR (keeps_require hR _ _) (fun _ => keeps_repeat hR (keeps_jwblkBody hR h) _) s

/-- The fields the start of a JPEG and a whole JPEG write. -/
structure StreamWrites (R : State → State → Prop) : Prop extends BlockWrites R where
  quant : ∀ s, R s { s with quant := some (quantOf s) }
  clear : ∀ s, R s { s with out := [] }

theorem keeps_startImage (hR : Chains R) (h : BlockWrites R) (s : State) : R s s.startImage := by
  have h1 : R s { s with dc := { y := 0, u := 0, v := 0 } } := h.dc s _
  have h2 := hR.trans _ _ _ h1 (h.bb { s with dc := { y := 0, u := 0, v := 0 } } [])
  have h3 := hR.trans _ _ _ h2 (h.jacc { s with dc := { y := 0, u := 0, v := 0 }, bb := [] } 0)
  have h4 := hR.trans _ _ _ h3 (h.jaccn { s with dc := { y := 0, u := 0, v := 0 }, bb := [], jacc := 0 } 0)
  have h5 := hR.trans _ _ _ h4 (h.mbx { s with dc := { y := 0, u := 0, v := 0 }, bb := [], jacc := 0, jaccn := 0 } 0)
  have h6 := hR.trans _ _ _ h5
    (h.mby { s with dc := { y := 0, u := 0, v := 0 }, bb := [], jacc := 0, jaccn := 0, mbx := 0 } 0)
  exact hR.trans _ _ _ h6
    (h.phase { s with dc := { y := 0, u := 0, v := 0 }, bb := [], jacc := 0, jaccn := 0, mbx := 0, mby := 0 } .jInit (by decide))

theorem keeps_jinitBody (hR : Chains R) (h : StreamWrites R) : Keeps R jinitBody :=
  keeps_bind hR (keeps_requirePhase hR _) fun _ => keeps_bind hR (keeps_checksBody hR) fun _ =>
    keeps_bind hR (keeps_requireFiletype hR _) fun _ => keeps_bind hR (keeps_modify h.clear) fun _ =>
      keeps_bind hR (keeps_jqinitBody hR h.quant) fun _ => keeps_modify (keeps_startImage hR h.toBlockWrites)

theorem keeps_jhdrBody (hR : Chains R) (out : ∀ s bs, R s { s with out := s.out ++ bs })
    (phase : ∀ s v, v ≠ .failed → R s { s with phase := v }) : Keeps R jhdrBody :=
  keeps_bind hR (keeps_requirePhase hR _) fun _ => keeps_bind hR (keeps_requireQuant hR) fun _ => keeps_get_bind fun s =>
    keeps_bind hR (keeps_outBytes hR _ fun s => out s _) (fun _ => keeps_modify fun s => phase s _ (by decide)) s

theorem keeps_jfinBody (hR : Chains R) (h : FlushWrites R) (phase : ∀ s v, v ≠ .failed → R s { s with phase := v }) :
    Keeps R jfinBody := by
  refine keeps_bind hR (keeps_requirePhase hR _) fun _ => keeps_bind hR (keeps_requireQuant hR) fun _ =>
    keeps_get_bind fun s => ?_
  exact keeps_bind hR (keeps_require hR _ _) (fun _ => keeps_bind hR (keeps_push hR _ fun s _ => h.bb s _) fun _ =>
    keeps_bind hR (keeps_bflushBody hR h) fun _ =>
      keeps_bind hR (keeps_modify fun s => hR.trans s { s with jacc := 0 } _ (h.jacc s _)
        (h.jaccn { s with jacc := 0 } _)) fun _ =>
        keeps_bind hR (keeps_outBytes hR _ fun s => h.out s _) fun _ => keeps_modify fun s => phase s _ (by decide)) s

theorem keeps_jencBody (hR : Chains R) (h : StreamWrites R) : Keeps R jencBody :=
  keeps_bind hR (keeps_jinitBody hR h) fun _ => keeps_bind hR (keeps_jhdrBody hR h.out h.phase) fun _ =>
    keeps_bind hR (keeps_requireQuant hR) fun _ => keeps_get_bind fun s =>
      keeps_bind hR (keeps_repeat hR (keeps_jrowBody hR h.toBlockWrites) _)
        (fun _ => keeps_jfinBody hR h.toFlush h.phase) s

/-! 45: the PNG filter. -/

theorem keeps_readRow (hR : Chains R) (r i n : Nat) : Keeps R (readRow r i n) := by
  induction n generalizing i with
  | zero => exact hR.same
  | succ n ih =>
    exact keeps_get_bind fun s => keeps_bind hR (keeps_memRead hR _) (fun _ => keeps_bind hR (ih (i + 1)) fun _ =>
      keeps_pure hR _) s

theorem keeps_readAbove (hR : Chains R) (r n : Nat) : Keeps R (readAbove r n) := by
  unfold readAbove
  split
  · exact keeps_readRow hR _ _ _
  · exact keeps_pure hR _

theorem keeps_requirePixel (hR : Chains R) : Keeps R requirePixel := by
  intro s
  unfold requirePixel
  split <;> exact hR.same s

/-- The fields `PFILT` writes. -/
structure FilterWrites (R : State → State → Prop) : Prop where
  fbuf : ∀ s v, R s { s with fbuf := v }
  row : ∀ s v, R s { s with row := v }
  phase : ∀ s v, v ≠ .failed → R s { s with phase := v }

theorem keeps_pfiltBody (hR : Chains R) (h : FilterWrites R) : Keeps R pfiltBody := by
  refine keeps_bind hR (keeps_requirePhase hR _) fun _ => keeps_get_bind fun s => ?_
  refine keeps_bind hR (keeps_require hR _ _) (fun _ => keeps_bind hR (keeps_requirePixel hR) fun _ =>
    keeps_bind hR (keeps_readRow hR _ _ _) fun _ => keeps_bind hR (keeps_readAbove hR _ _) fun _ =>
      keeps_bind hR (keeps_appendFbuf hR _ fun s => h.fbuf s _) fun _ =>
        keeps_bind hR (keeps_forM hR (fun b => keeps_appendFbuf hR b fun s => h.fbuf s _) _) fun _ => keeps_modify fun s => ?_) s
  exact hR.trans s { s with row := s.row + 1 } _ (h.row s _) (h.phase { s with row := s.row + 1 } _ (by decide))

/-! 46: the compressor. -/

theorem keeps_dataAt (hR : Chains R) (j : Nat) : Keeps R (dataAt j) := by
  intro s
  unfold dataAt
  split
  · split <;> exact hR.same s
  · exact keeps_memRead hR _ s

theorem keeps_readRange (hR : Chains R) (j n : Nat) : Keeps R (readRange j n) := by
  induction n generalizing j with
  | zero => exact hR.same
  | succ n ih =>
    exact keeps_get_bind fun s => keeps_bind hR (keeps_memRead hR _) (fun _ => keeps_bind hR (ih (j + 1)) fun _ =>
      keeps_pure hR _) s

theorem keeps_readSelected (hR : Chains R) (z : ZSel) (n : Nat) : Keeps R (readSelected z n) := by
  cases z with
  | fbuf => exact keeps_get_bind fun s => keeps_bind hR (keeps_require hR _ _) (fun _ => keeps_pure hR _) s
  | src => exact keeps_readRange hR 0 n

theorem keeps_readWhole (hR : Chains R) (z : ZSel) : Keeps R (readWhole z) := by
  refine keeps_get_bind fun s => ?_
  cases z with
  | fbuf => exact hR.same s
  | src => exact keeps_readRange hR 0 _ s

theorem keeps_countEqual (hR : Chains R) (n p q : Nat) : Keeps R (countEqual n p q) := by
  induction n generalizing p q with
  | zero => exact hR.same
  | succ n ih =>
    refine keeps_bind hR (keeps_dataAt hR p) fun a => keeps_bind hR (keeps_dataAt hR q) fun b => ?_
    split
    · exact keeps_bind hR (ih _ _) fun _ => keeps_pure hR _
    · exact keeps_pure hR _

theorem keeps_searchMatch (hR : Chains R) (i len : Nat) (ps : List Nat) (best : Nat) (loc : Option Nat) :
    Keeps R (searchMatch i len ps best loc) := by
  induction ps generalizing best loc with
  | nil => exact hR.same
  | cons p ps ih =>
    unfold searchMatch
    split
    · refine keeps_bind hR (keeps_countEqual hR _ _ _) fun d => ?_
      split <;> exact ih _ _
    · exact ih _ _

theorem keeps_lazyBeaten (hR : Chains R) (i len best : Nat) (ps : List Nat) : Keeps R (lazyBeaten i len best ps) := by
  induction ps with
  | nil => exact hR.same
  | cons p ps ih =>
    unfold lazyBeaten
    split
    · refine keeps_bind hR (keeps_countEqual hR _ _ _) fun e => ?_
      split
      · exact keeps_pure hR _
      · exact ih
    · exact ih

/-- The fields the matcher writes. -/
structure MatcherWrites (R : State → State → Prop) : Prop where
  ht : ∀ s v, R s { s with ht := v }
  token : ∀ s v, R s { s with token := v }
  zi : ∀ s v, R s { s with zi := v }

theorem keeps_setToken (hR : Chains R) (h : MatcherWrites R) (tok : Token) (zi : Nat) : Keeps R (setToken tok zi) :=
  keeps_modify fun s => hR.trans s { s with token := some tok } _ (h.token s _) (h.zi { s with token := some tok } _)

theorem keeps_searchStep (hR : Chains R) (h : MatcherWrites R) (i len : Nat) : Keeps R (searchStep i len) := by
  refine keeps_bind hR (keeps_dataAt hR _) fun d0 => keeps_bind hR (keeps_dataAt hR _) fun d1 =>
    keeps_bind hR (keeps_dataAt hR _) fun d2 => keeps_get_bind fun s => ?_
  refine keeps_bind hR (keeps_searchMatch hR _ _ _ _ _) (fun found => keeps_bind hR (keeps_modify fun s => h.ht s _)
    fun _ => ?_) s
  rcases found with ⟨best, _ | loc⟩
  · exact keeps_setToken hR h _ _
  · refine keeps_bind hR (keeps_dataAt hR _) fun d3 => keeps_get_bind fun s => ?_
    refine keeps_bind hR (keeps_lazyBeaten hR _ _ _ _) (fun beaten => ?_) s
    split
    · exact keeps_setToken hR h _ _
    · exact keeps_setToken hR h _ _

theorem keeps_lzstepBody (hR : Chains R) (h : MatcherWrites R) : Keeps R lzstepBody := by
  refine keeps_bind hR (keeps_requirePhase hR _) fun _ => keeps_get_bind fun s => ?_
  refine keeps_bind hR (keeps_require hR _ _) (fun _ => ?_) s
  dsimp only
  split
  · exact keeps_bind hR (keeps_dataAt hR _) fun _ => keeps_setToken hR h _ _
  · exact keeps_searchStep hR h _ _

/-- The fields the bit output writes. -/
structure BitWrites (R : State → State → Prop) : Prop where
  zbuf : ∀ s v, R s { s with zbuf := v }
  zacc : ∀ s v, R s { s with zacc := v }
  zaccn : ∀ s v, R s { s with zaccn := v }

theorem keeps_drainByte (hR : Chains R) (h : BitWrites R) : Keeps R drainByte := by
  refine keeps_get_bind fun s => ?_
  exact keeps_bind hR (keeps_appendZbuf hR _ fun s => h.zbuf s _) (fun _ => keeps_modify fun s =>
    hR.trans s { s with zacc := s.zacc / 2 ^ 8 } _ (h.zacc s _) (h.zaccn { s with zacc := s.zacc / 2 ^ 8 } _)) s

theorem keeps_zBits (hR : Chains R) (h : BitWrites R) (v n : Nat) : Keeps R (zBits v n) := by
  refine keeps_bind hR (keeps_modify fun s => hR.trans s { s with zacc := s.zacc ||| (v <<< s.zaccn) } _ (h.zacc s _)
    (h.zaccn { s with zacc := s.zacc ||| (v <<< s.zaccn) } _)) fun _ => keeps_get_bind fun s => ?_
  exact keeps_repeat hR (keeps_drainByte hR h) _ s

theorem keeps_zExtra (hR : Chains R) (h : BitWrites R) (v n : Nat) : Keeps R (zExtra v n) := by
  unfold zExtra
  split
  · exact keeps_zBits hR h v n
  · exact keeps_pure hR ()

theorem keeps_emitToken (hR : Chains R) (h : BitWrites R) (t : Token) : Keeps R (emitToken t) := by
  cases t with
  | lit b => exact keeps_zBits hR h _ _
  | copy len dist =>
    exact keeps_bind hR (keeps_require hR _ _) fun _ => keeps_bind hR (keeps_zBits hR h _ _) fun _ =>
      keeps_bind hR (keeps_zExtra hR h _ _) fun _ => keeps_bind hR (keeps_zBits hR h _ _) fun _ => keeps_zExtra hR h _ _

theorem keeps_requireToken (hR : Chains R) : Keeps R requireToken := by
  intro s
  unfold requireToken
  split <;> exact hR.same s

/-- The fields the compressor writes. -/
structure CompressorWrites (R : State → State → Prop) : Prop extends MatcherWrites R, BitWrites R where
  zsrc : ∀ s v, R s { s with zsrc := v }
  zlen : ∀ s v, R s { s with zlen := v }
  zq : ∀ s v, R s { s with zq := v }
  zph : ∀ s v, R s { s with zph := v }
  adlreg : ∀ s v, R s { s with adlreg := v }

theorem keeps_zemitBody (hR : Chains R) (h : BitWrites R) (token : ∀ s v, R s { s with token := v }) :
    Keeps R zemitBody :=
  keeps_bind hR (keeps_requirePhase hR _) fun _ => keeps_bind hR (keeps_requireToken hR) fun t =>
    keeps_bind hR (keeps_emitToken hR h t) fun _ => keeps_modify fun s => token s _

theorem keeps_startStream (hR : Chains R) (h : CompressorWrites R) (a : ZSel) (s : State) : R s (s.startStream a) := by
  have h1 : R s { s with zsrc := a } := h.zsrc s a
  have h2 := hR.trans _ _ _ h1 (h.zlen { s with zsrc := a } (inputLength s a))
  have h3 := hR.trans _ _ _ h2 (h.zq { s with zsrc := a, zlen := inputLength s a } (effectiveQuality s.quality))
  have h4 := hR.trans _ _ _ h3
    (h.ht { s with zsrc := a, zlen := inputLength s a, zq := effectiveQuality s.quality } [])
  have h5 := hR.trans _ _ _ h4
    (h.zi { s with zsrc := a, zlen := inputLength s a, zq := effectiveQuality s.quality, ht := [] } 0)
  have h6 := hR.trans _ _ _ h5
    (h.token { s with zsrc := a, zlen := inputLength s a, zq := effectiveQuality s.quality, ht := [], zi := 0 } none)
  have h7 := hR.trans _ _ _ h6 (h.zbuf { s with
    zsrc := a, zlen := inputLength s a, zq := effectiveQuality s.quality, ht := [], zi := 0, token := none } [])
  have h8 := hR.trans _ _ _ h7 (h.zacc { s with
    zsrc := a, zlen := inputLength s a, zq := effectiveQuality s.quality, ht := [], zi := 0, token := none, zbuf := [] } 0)
  exact hR.trans _ _ _ h8 (h.zaccn { s with
    zsrc := a, zlen := inputLength s a, zq := effectiveQuality s.quality, ht := [], zi := 0, token := none, zbuf := [],
    zacc := 0 } 0)

theorem keeps_zbeginBody (hR : Chains R) (h : CompressorWrites R) (a : ZSel) : Keeps R (zbeginBody a) :=
  keeps_bind hR (keeps_requirePhase hR _) fun _ => keeps_bind hR (keeps_modify (keeps_startStream hR h a)) fun _ =>
    keeps_bind hR (keeps_appendZbuf hR _ fun s => h.zbuf s _) fun _ =>
      keeps_bind hR (keeps_appendZbuf hR _ fun s => h.zbuf s _) fun _ =>
        keeps_bind hR (keeps_zBits hR h.toBitWrites _ _) fun _ => keeps_bind hR (keeps_zBits hR h.toBitWrites _ _) fun _ =>
          keeps_modify fun s => h.zph s _

theorem keeps_padZbits (hR : Chains R) (h : BitWrites R) : Keeps R padZbits := by
  refine keeps_get_bind fun s => ?_
  split
  · exact keeps_zBits hR h _ _ s
  · exact hR.same s

theorem keeps_zendBody (hR : Chains R) (h : CompressorWrites R) : Keeps R zendBody := by
  refine keeps_bind hR (keeps_requirePhase hR _) fun _ => keeps_get_bind fun s => ?_
  exact keeps_bind hR (keeps_require hR _ _) (fun _ => keeps_bind hR (keeps_zBits hR h.toBitWrites _ _) fun _ =>
    keeps_bind hR (keeps_padZbits hR h.toBitWrites) fun _ => keeps_bind hR (keeps_readSelected hR _ _) fun _ =>
      keeps_bind hR (keeps_modify fun s => h.adlreg s _) fun _ =>
        keeps_bind hR (keeps_forM hR (fun b => keeps_appendZbuf hR b fun s => h.zbuf s _) _) fun _ =>
          keeps_modify fun s => h.zph s _) s

theorem keeps_compressLoop (hR : Chains R) (h : CompressorWrites R) (n : Nat) : Keeps R (compressLoop n) := by
  induction n with
  | zero => exact hR.same
  | succ n ih =>
    refine keeps_get_bind fun s => ?_
    split
    · exact keeps_bind hR (keeps_lzstepBody hR h.toMatcherWrites) (fun _ =>
        keeps_bind hR (keeps_zemitBody hR h.toBitWrites h.token) fun _ => ih) s
    · exact hR.same s

theorem keeps_zcompBody (hR : Chains R) (h : CompressorWrites R) (a : ZSel) : Keeps R (zcompBody a) :=
  keeps_bind hR (keeps_zbeginBody hR h a) fun _ => keeps_get_bind fun s =>
    keeps_bind hR (keeps_compressLoop hR h _) (fun _ => keeps_zendBody hR h) s

theorem keeps_adlerBody (hR : Chains R) (adlreg : ∀ s v, R s { s with adlreg := v }) (a : ZSel) : Keeps R (adlerBody a) :=
  keeps_bind hR (keeps_requirePhase hR _) fun _ => keeps_bind hR (keeps_readWhole hR a) fun _ =>
    keeps_modify fun s => adlreg s _

/-! 47: chunks. -/

theorem keeps_crcMessage (hR : Chains R) (a : MsgSel) : Keeps R (crcMessage a) := by
  refine keeps_get_bind fun s => ?_
  cases a with
  | tag => exact hR.same s
  | ihdr => exact hR.same s
  | zbuf => exact hR.same s
  | src => exact keeps_readRange hR 0 _ s

theorem keeps_crc32Body (hR : Chains R) (crcreg : ∀ s v, R s { s with crcreg := v }) (a : MsgSel) : Keeps R (crc32Body a) :=
  keeps_bind hR (keeps_requirePhase hR _) fun _ => keeps_bind hR (keeps_crcMessage hR a) fun _ =>
    keeps_modify fun s => crcreg s _

theorem keeps_crcchkBody (hR : Chains R) (crcok : ∀ s v, R s { s with crcok := v }) (v : Word) : Keeps R (crcchkBody v) :=
  keeps_bind hR (keeps_requirePhase hR _) fun _ => keeps_modify fun s => crcok s _

/-- The fields a chunk writes. -/
structure ChunkWrites (R : State → State → Prop) : Prop where
  out : ∀ s bs, R s { s with out := s.out ++ bs }
  crcreg : ∀ s v, R s { s with crcreg := v }

theorem keeps_chunkBody (hR : Chains R) (h : ChunkWrites R) (tag : Word) (p : List Byte) : Keeps R (chunkBody tag p) :=
  keeps_bind hR (keeps_outBytes hR _ fun s => h.out s _) fun _ => keeps_bind hR (keeps_outBytes hR _ fun s => h.out s _)
    fun _ => keeps_bind hR (keeps_outBytes hR _ fun s => h.out s _) fun _ => keeps_bind hR (keeps_modify fun s => h.crcreg s _)
      fun _ => keeps_outBytes hR _ fun s => h.out s _

theorem keeps_pchunkBody (hR : Chains R) (h : ChunkWrites R) (phase : ∀ s v, v ≠ .failed → R s { s with phase := v }) (a : PaySel) :
    Keeps R (pchunkBody a) := by
  refine keeps_bind hR (keeps_requirePhase hR _) fun _ => keeps_get_bind fun s => ?_
  refine keeps_bind hR (keeps_require hR _ _) (fun _ => keeps_bind hR (keeps_chunkBody hR h _ _) fun _ => ?_) s
  split
  · exact keeps_modify fun s => phase s _ (by decide)
  · exact keeps_pure hR ()

/-- The fields the start of a PNG and a whole PNG write. -/
structure PngWrites (R : State → State → Prop) : Prop extends ChunkWrites R, FilterWrites R where
  clear : ∀ s, R s { s with out := [] }

theorem keeps_psigBody (hR : Chains R) (h : PngWrites R) : Keeps R psigBody := by
  refine keeps_bind hR (keeps_requirePhase hR _) fun _ => keeps_bind hR (keeps_checksBody hR) fun _ =>
    keeps_bind hR (keeps_requireFiletype hR _) fun _ => keeps_bind hR (keeps_modify fun s => ?_) fun _ =>
      keeps_bind hR (keeps_outBytes hR _ fun s => h.out s _) fun _ => keeps_get_bind fun s =>
        keeps_bind hR (keeps_chunkBody hR h.toChunkWrites _ _) (fun _ => keeps_modify fun s => h.phase s _ (by decide)) s
  exact hR.trans s { s with out := [] } _ (h.clear s) (hR.trans _ { s with out := [], fbuf := [] } _
    (h.fbuf { s with out := [] } _) (h.row { s with out := [], fbuf := [] } _))

theorem keeps_pencBody (hR : Chains R) (h : PngWrites R) (hz : CompressorWrites R) : Keeps R pencBody := by
  refine keeps_bind hR (keeps_psigBody hR h) fun _ => keeps_get_bind fun s => ?_
  refine keeps_bind hR (keeps_repeat hR (keeps_pfiltBody hR h.toFilterWrites) _) (fun _ =>
    keeps_bind hR (keeps_zcompBody hR hz _) fun _ => keeps_get_bind fun s => ?_) s
  exact keeps_bind hR (keeps_chunkBody hR h.toChunkWrites _ _) (fun _ =>
    keeps_bind hR (keeps_chunkBody hR h.toChunkWrites _ _) fun _ => keeps_modify fun s => h.phase s _ (by decide)) s

end Sys2Proof.Laws
end

