-- ==== Sys2Proof/Laws/Exec.lean ====
section
/-! SUPPORT. What `exec` can do, said once for each family of operations: it keeps every relation that the family's field updates,
the response and the fault entry keep. -/

namespace Sys2Proof.Laws

open Sys2Proof Sys2Proof.Machine

variable {R : State → State → Prop}

/-- A relation that setting the response and taking a fault keep. -/
structure EndsWell (R : State → State → Prop) : Prop where
  respond : ∀ s v, R s (s.respond v)
  takeFault : ∀ s c op, R s (s.takeFault c op)

theorem command_endsWell {op : Byte} {b : Body Unit} {s t : State} (hR : Chains R) (hE : EndsWell R) (hb : Keeps R b)
    (h : command op b s = .next t) : R s t :=
  command_keeps hR hb (fun u => hE.respond u 0) (fun u c => hE.takeFault u c op) h

/-- The body of each operation but `RDREG` and `SRESET`, which are no commands with a body. -/
def bodyOf : Instr → Body Unit
  | .wrreg r imm => wrregBody r imm
  | .rdreg _ _ => pure ()
  | .validate => validateBody
  | .sreset => pure ()
  | .jqinit => jqinitBody
  | .jinit => jinitBody
  | .jhdr => jhdrBody
  | .rgb2yuv => rgb2yuvBody
  | .gray2y => gray2yBody
  | .yuvload => yuvloadBody
  | .csub => csubBody
  | .fdct a => fdctBody a
  | .qzz a => qzzBody a
  | .jhuf a => jhufBody a
  | .jpdu a => jpduBody a
  | .jgrayuv => jgrayuvBody
  | .bpush b value => bpushBody b value
  | .bflush => bflushBody
  | .jwblk => jwblkBody
  | .jrow => jrowBody
  | .jfin => jfinBody
  | .jenc => jencBody
  | .pfilt => pfiltBody
  | .zbegin a => zbeginBody a
  | .lzstep => lzstepBody
  | .zemit => zemitBody
  | .zend => zendBody
  | .zcomp a => zcompBody a
  | .adler a => adlerBody a
  | .crc32 a => crc32Body a
  | .crcchk imm => crcchkBody imm
  | .psig => psigBody
  | .pchunk a => pchunkBody a
  | .penc => pencBody

/-- `RDREG` and `SRESET`, which run in `FAILED` too. -/
def answersInFailed : Instr → Bool
  | .rdreg _ _ => true
  | .sreset => true
  | _ => false

/-- Every other operation is its body, run as a command with its opcode byte. -/
theorem exec_eq_command {i : Instr} (hi : answersInFailed i = false) (s : State) :
    exec i s = command i.opcode.byte (bodyOf i) s := by
  cases i <;> first | rfl | cases hi

/-- The bodies of the JPEG operations. -/
theorem keeps_jpeg (hR : Chains R) (hS : StreamWrites R) {i : Instr} (hi : isJpegInstr i = true) : Keeps R (bodyOf i) := by
  cases i <;> simp only [isJpegInstr, Bool.false_eq_true] at hi
  case jqinit => exact keeps_jqinitBody hR hS.quant
  case jinit => exact keeps_jinitBody hR hS
  case jhdr => exact keeps_jhdrBody hR hS.out hS.phase
  case rgb2yuv => exact keeps_rgb2yuvBody hR hS.yp hS.up hS.vp hS.uc hS.vc
  case gray2y => exact keeps_gray2yBody hR hS.yp
  case yuvload => exact keeps_yuvloadBody hR hS.yp hS.uc hS.vc
  case csub => exact keeps_csubBody hR hS.uc hS.vc
  case fdct a => exact keeps_fdctBody hR hS.cdu a
  case qzz a => exact keeps_qzzBody hR hS.du a
  case jhuf a => exact keeps_jhufBody hR hS.bb hS.dc a
  case jpdu a => exact keeps_jpduBody hR hS.du hS.bb hS.dc a
  case jgrayuv => exact keeps_jgrayuvBody hR hS.bb
  case bpush b v => exact keeps_bpushBody hR hS.bb b v
  case bflush => exact keeps_bflushBody hR hS.toFlush
  case jwblk => exact keeps_jwblkBody hR hS.toBlockWrites
  case jrow => exact keeps_jrowBody hR hS.toBlockWrites
  case jfin => exact keeps_jfinBody hR hS.toFlush hS.phase
  case jenc => exact keeps_jencBody hR hS

/-- The bodies of the PNG, compressor and checksum operations. -/
theorem keeps_png (hR : Chains R) (hP : PngWrites R) (hZ : CompressorWrites R) (crcok : ∀ s v, R s { s with crcok := v })
    {i : Instr} (hi : isPngInstr i = true) : Keeps R (bodyOf i) := by
  cases i <;> simp only [isPngInstr, Bool.false_eq_true] at hi
  case pfilt => exact keeps_pfiltBody hR hP.toFilterWrites
  case zbegin a => exact keeps_zbeginBody hR hZ a
  case lzstep => exact keeps_lzstepBody hR hZ.toMatcherWrites
  case zemit => exact keeps_zemitBody hR hZ.toBitWrites hZ.token
  case zend => exact keeps_zendBody hR hZ
  case zcomp a => exact keeps_zcompBody hR hZ a
  case adler a => exact keeps_adlerBody hR hZ.adlreg a
  case crc32 a => exact keeps_crc32Body hR hP.crcreg a
  case crcchk v => exact keeps_crcchkBody hR crcok v
  case psig => exact keeps_psigBody hR hP
  case pchunk a => exact keeps_pchunkBody hR hP.toChunkWrites hP.phase a
  case penc => exact keeps_pencBody hR hP hZ

theorem keeps_wrregBody (hR : Chains R) (write : ∀ s r v, R s (s.writeReg r v)) (r : WReg) (v : Word) :
    Keeps R (wrregBody r v) := by
  intro s
  simp only [wrregBody, get_bind, require_bind]
  split
  · split
    · exact write s r v
    · exact hR.same s
  · exact hR.same s

/-- Every body: what all the operations together write. -/
theorem keeps_bodyOf (hR : Chains R) (hS : StreamWrites R) (hP : PngWrites R) (hZ : CompressorWrites R)
    (crcok : ∀ s v, R s { s with crcok := v }) (write : ∀ s r v, R s (s.writeReg r v)) (i : Instr) : Keeps R (bodyOf i) := by
  cases hj : isJpegInstr i with
  | true => exact keeps_jpeg hR hS hj
  | false =>
    cases hp : isPngInstr i with
    | true => exact keeps_png hR hP hZ crcok hp
    | false =>
      cases i <;> simp [isJpegInstr, isPngInstr] at hj hp
      case wrreg r v => exact keeps_wrregBody hR write r v
      case rdreg r b => exact hR.same
      case validate => exact keeps_validateBody hR
      case sreset => exact hR.same

/-- The JPEG operations. -/
theorem exec_jpeg_keeps (hR : Chains R) (hE : EndsWell R) (hS : StreamWrites R) {i : Instr} {s t : State}
    (hi : isJpegInstr i = true) (h : exec i s = .next t) : R s t := by
  rw [exec_eq_command (by cases i <;> first | rfl | cases hi)] at h
  exact command_endsWell hR hE (keeps_jpeg hR hS hi) h

/-- The PNG, compressor and checksum operations. -/
theorem exec_png_keeps (hR : Chains R) (hE : EndsWell R) (hP : PngWrites R) (hZ : CompressorWrites R)
    (crcok : ∀ s v, R s { s with crcok := v }) {i : Instr} {s t : State}
    (hi : isPngInstr i = true) (h : exec i s = .next t) : R s t := by
  rw [exec_eq_command (by cases i <;> first | rfl | cases hi)] at h
  exact command_endsWell hR hE (keeps_png hR hP hZ crcok hi) h

/-- A body never enters `FAILED` by itself: only the fault entry does. -/
theorem body_phase {i : Instr} {s t : State} {u : Unit} (hp : s.phase ≠ .failed) (h : bodyOf i s = .ok u t) :
    t.phase ≠ .failed := by
  have hR : Chains fun s t : State => s.phase ≠ .failed → t.phase ≠ .failed := ⟨fun _ h => h, fun _ _ _ h1 h2 h => h2 (h1 h)⟩
  have key := keeps_bodyOf hR
    (by constructor <;> (try constructor) <;> (try constructor) <;> first | exact fun _ _ h => h | exact fun _ h => h | exact fun _ _ h _ => h)
    (by constructor <;> (try constructor) <;> first | exact fun _ _ h => h | exact fun _ h => h | exact fun _ _ h _ => h)
    (by constructor <;> (try constructor) <;> exact fun _ _ h => h)
    (fun _ _ h => h) (fun s r v h => by cases r <;> exact h) i s
  rw [h] at key
  exact key hp

/-- What a command other than `RDREG` and `SRESET` can do. -/
theorem exec_cases {i : Instr} {s t : State} (hi : answersInFailed i = false) (h : exec i s = .next t) :
    (s.phase = .failed ∧ t = s.respond 0) ∨
    (s.phase ≠ .failed ∧ ∃ u, bodyOf i s = .ok () u ∧ u.phase ≠ .failed ∧ t = u.respond 0) ∨
    (s.phase ≠ .failed ∧ ∃ c u, bodyOf i s = .error c u ∧ t = u.takeFault c i.opcode.byte) := by
  rw [exec_eq_command hi] at h
  rcases command_cases h with h | ⟨hp, u, hu, rfl⟩ | h
  · exact .inl h
  · exact .inr (.inl ⟨hp, u, hu, body_phase hp hu, rfl⟩)
  · exact .inr (.inr h)

/-- `RDREG` changes nothing but the response, unless it faults. -/
theorem exec_rdreg_cases {r : RReg} {b : BitVec 16} {s t : State} (h : exec (.rdreg r b) s = .next t) :
    (∃ v, t = s.respond v) ∨ (s.phase ≠ .failed ∧ ∃ c, t = s.takeFault c 0x02) := by
  change execRdreg r b s = .next t at h
  unfold execRdreg at h
  split at h
  · exact .inl ⟨_, by cases h; rfl⟩
  · split at h
    · exact .inl ⟨0, by cases h; rfl⟩
    · exact .inr ⟨‹_›, .seqFault, by cases h; rfl⟩
  · split at h
    · exact .inl ⟨0, by cases h; rfl⟩
    · exact .inr ⟨‹_›, .illegalOp, by cases h; rfl⟩

/-- What a step can do: wait, execute the decoded instruction, or refuse the word. -/
theorem step_cases {s t : State} (h : step s = .next t) :
    (s.cmds = [] ∧ t = s) ∨
    (∃ w rest i, s.cmds = w :: rest ∧ decode w = .ok i ∧ exec i s.takeCommand = .next t) ∨
    (∃ w rest e, s.cmds = w :: rest ∧ decode w = .error e ∧ malformed (Command.op w) s.takeCommand = .next t) := by
  unfold step at h
  split at h
  · exact .inl ⟨‹_›, by cases h; rfl⟩
  · rename_i w rest hc
    split at h
    · exact .inr (.inl ⟨w, rest, _, hc, ‹_›, h⟩)
    · exact .inr (.inr ⟨w, rest, _, hc, ‹_›, h⟩)

/-- What a refused word can do. -/
theorem malformed_cases {op : Byte} {s t : State} (h : malformed op s = .next t) :
    (s.phase = .failed ∧ t = s.respond 0) ∨ (s.phase ≠ .failed ∧ t = s.takeFault .illegalOp op) := by
  rcases command_cases h with h | ⟨hp, u, hu, rfl⟩ | ⟨hp, c, u, hu, rfl⟩
  · exact .inl h
  · cases hu
  · cases hu; exact .inr ⟨hp, rfl⟩

end Sys2Proof.Laws
end

