-- ==== Sys2Proof/Laws/Memory.lean ====
section
/-! SUPPORT. SRC and HT as lists in canonical form: a read after a write, and that every operation keeps the form. -/

namespace Sys2Proof.Laws

open Sys2Proof Sys2Proof.Machine

/-! SRC, 20_memory.md R61. -/

@[simp] theorem read_map_same (m : Memory) (k : Nat) (b : Byte) : (m.map k b).read k = some b := by
  induction m with
  | nil => simp [Memory.map, Memory.read]
  | cons e m ih =>
    obtain ⟨a, v⟩ := e
    simp only [Memory.map]
    split
    · simp [Memory.read]
    · split
      · simp [Memory.read]
      · simp [Memory.read, *]

theorem read_map_other (m : Memory) {k j : Nat} (b : Byte) (h : j ≠ k) : (m.map k b).read j = m.read j := by
  induction m with
  | nil => simp [Memory.map, Memory.read, h]
  | cons e m ih =>
    obtain ⟨a, v⟩ := e
    simp only [Memory.map]
    split
    · simp [Memory.read, h]
    · split
      · subst_vars; simp [Memory.read, h]
      · simp [Memory.read, ih]

/-- Two mapped addresses of a memory in canonical form are listed once each, from `lo` on. -/
theorem read_below (m : Memory) {lo k : Nat} (h : Memory.wfFrom lo m = true) (hk : k < lo) : m.read k = none := by
  induction m generalizing lo with
  | nil => rfl
  | cons e m ih =>
    obtain ⟨a, v⟩ := e
    simp only [Memory.wfFrom, Bool.and_eq_true, decide_eq_true_eq] at h
    simp only [Memory.read]
    rw [if_neg (by omega)]
    exact ih h.2 (by omega)

theorem map_wfFrom (m : Memory) {lo k : Nat} (b : Byte) (h : Memory.wfFrom lo m = true) (hlo : lo ≤ k) (hk : k < 2 ^ 32) :
    Memory.wfFrom lo (m.map k b) = true := by
  induction m generalizing lo with
  | nil => simp [Memory.map, Memory.wfFrom, hlo]; omega
  | cons e m ih =>
    obtain ⟨a, v⟩ := e
    simp only [Memory.wfFrom, Bool.and_eq_true, decide_eq_true_eq] at h
    simp only [Memory.map]
    split
    · simp [Memory.wfFrom, h]; omega
    · split
      · subst_vars; simp [Memory.wfFrom, h]; omega
      · simp only [Memory.wfFrom, Bool.and_eq_true, decide_eq_true_eq]; exact ⟨h.1, ih h.2 (by omega)⟩

/-- Mapping a byte keeps the canonical form. -/
theorem map_wf (m : Memory) {k : Nat} (b : Byte) (h : m.wf = true) (hk : k < 2 ^ 32) : (m.map k b).wf = true :=
  map_wfFrom m b h (Nat.zero_le _) hk

theorem wfFrom_mono (m : Memory) {lo hi : Nat} (h : Memory.wfFrom hi m = true) (hl : lo ≤ hi) : Memory.wfFrom lo m = true := by
  cases m with
  | nil => rfl
  | cons e m =>
    obtain ⟨a, v⟩ := e
    simp only [Memory.wfFrom, Bool.and_eq_true, decide_eq_true_eq] at h ⊢
    exact ⟨⟨by omega, h.1.2⟩, h.2⟩

theorem unmap_wfFrom (m : Memory) {lo : Nat} (k : Nat) (h : Memory.wfFrom lo m = true) :
    Memory.wfFrom lo (m.unmap k) = true := by
  induction m generalizing lo with
  | nil => rfl
  | cons e m ih =>
    obtain ⟨a, v⟩ := e
    simp only [Memory.wfFrom, Bool.and_eq_true, decide_eq_true_eq] at h
    simp only [Memory.unmap]
    split
    · exact wfFrom_mono m h.2 (by omega)
    · simp only [Memory.wfFrom, Bool.and_eq_true, decide_eq_true_eq]; exact ⟨h.1, ih h.2⟩

/-- Unmapping an address keeps the canonical form. -/
theorem unmap_wf (m : Memory) (k : Nat) (h : m.wf = true) : (m.unmap k).wf = true := unmap_wfFrom m k h

theorem read_unmap_same (m : Memory) (k : Nat) (h : m.wf = true) : (m.unmap k).read k = none := by
  suffices ∀ (m : Memory) (lo : Nat), Memory.wfFrom lo m = true → (m.unmap k).read k = none from this m 0 h
  intro m
  induction m with
  | nil => intros; rfl
  | cons e m ih =>
    obtain ⟨a, v⟩ := e
    intro lo h
    simp only [Memory.wfFrom, Bool.and_eq_true, decide_eq_true_eq] at h
    simp only [Memory.unmap]
    split
    · exact read_below m h.2 (by omega)
    · simp only [Memory.read]
      rw [if_neg ‹_›]
      exact ih _ h.2

theorem read_unmap_other (m : Memory) {k j : Nat} (h : j ≠ k) : (m.unmap k).read j = m.read j := by
  induction m with
  | nil => rfl
  | cons e m ih =>
    obtain ⟨a, v⟩ := e
    simp only [Memory.unmap]
    split
    · subst_vars; simp [Memory.read, h]
    · simp [Memory.read, ih]

theorem reset_src_wf : State.reset.src.wf = true := rfl

/-! HT, 46_zlib_deflate.md R234. -/

theorem get_put (t : HashTable) (h g : Nat) (ps : List Nat) : (t.put h ps).get g = if g = h then ps else t.get g := by
  induction t with
  | nil => simp [HashTable.put, HashTable.get]
  | cons e t ih =>
    obtain ⟨b, qs⟩ := e
    simp only [HashTable.put]
    split
    · simp [HashTable.get]
    · split
      · subst_vars
        simp only [HashTable.get]
        split <;> rfl
      · simp only [HashTable.get, ih]
        split
        · subst_vars; rw [if_neg (Ne.symm ‹_›)]
        · rfl

@[simp] theorem get_nil (h : Nat) : HashTable.get [] h = [] := rfl

theorem put_wfFrom (t : HashTable) {lo h : Nat} {ps : List Nat} (hw : HashTable.wfFrom lo t = true) (hlo : lo ≤ h)
    (hh : h < 16384) (hp : ps ≠ []) : HashTable.wfFrom lo (t.put h ps) = true := by
  induction t generalizing lo with
  | nil => simp [HashTable.put, HashTable.wfFrom, hlo, hh, hp, Config.hashBuckets]
  | cons e t ih =>
    obtain ⟨b, qs⟩ := e
    simp only [HashTable.wfFrom, Bool.and_eq_true, decide_eq_true_eq] at hw
    simp only [HashTable.put]
    split
    · simp only [HashTable.wfFrom, Bool.and_eq_true, decide_eq_true_eq]
      exact ⟨⟨⟨hlo, hh⟩, by simpa using hp⟩, ⟨⟨by omega, hw.1.1.2⟩, hw.1.2⟩, hw.2⟩
    · split
      · subst_vars
        simp only [HashTable.wfFrom, Bool.and_eq_true, decide_eq_true_eq]
        exact ⟨⟨hw.1.1, by simpa using hp⟩, hw.2⟩
      · simp only [HashTable.wfFrom, Bool.and_eq_true, decide_eq_true_eq]
        exact ⟨⟨hw.1.1, hw.1.2⟩, ih hw.2 (by omega)⟩

/-- Replacing a bucket keeps the canonical form. -/
theorem put_wf (t : HashTable) {h : Nat} {ps : List Nat} (hw : t.wf = true) (hh : h < 16384) (hp : ps ≠ []) :
    (t.put h ps).wf = true := put_wfFrom t hw (Nat.zero_le _) hh hp

theorem insertPosition_ne_nil (q : Nat) (ps : List Nat) (i : Nat) : insertPosition q ps i ≠ [] := by simp [insertPosition]

theorem insertPosition_length (q : Nat) (ps : List Nat) (i : Nat) (hq : 1 ≤ q) (h : ps.length ≤ 2 * q) :
    (insertPosition q ps i).length ≤ 2 * q := by
  unfold insertPosition
  split <;> simp <;> omega

/-- Every position recorded is the new one or was recorded before. -/
theorem mem_insertPosition {q : Nat} {ps : List Nat} {i p : Nat} (h : p ∈ insertPosition q ps i) : p ∈ ps ∨ p = i := by
  unfold insertPosition at h
  split at h
  · rcases List.mem_append.mp h with h | h
    · exact .inl (List.mem_of_mem_drop h)
    · exact .inr (by simpa using h)
  · rcases List.mem_append.mp h with h | h
    · exact .inl h
    · exact .inr (by simpa using h)

theorem reset_ht_wf : State.reset.ht.wf = true := rfl

end Sys2Proof.Laws
end

