-- ==== Sys2Proof/Laws/PerInstr.lean ====
section
/-! SUPPORT. Per-instruction laws: the word of an instruction carries its opcode of R92 in the low byte. -/

namespace Sys2Proof.Laws.OpcodeByte

open Sys2Proof

/-- The low byte of the word the encoder gives is the opcode R92 lists for the instruction's row. -/
def Statement (i : Instr) : Prop := Command.op (encode i) = i.opcode.byte

theorem wrreg (r : WReg) (imm : Word) : Statement (.wrreg r imm) := packCommand_op _ _ _ _

theorem rdreg (r : RReg) (b : BitVec 16) : Statement (.rdreg r b) := packCommand_op _ _ _ _

theorem validate : Statement .validate := packCommand_op _ _ _ _

theorem sreset : Statement .sreset := packCommand_op _ _ _ _

theorem jqinit : Statement .jqinit := packCommand_op _ _ _ _

theorem jinit : Statement .jinit := packCommand_op _ _ _ _

theorem jhdr : Statement .jhdr := packCommand_op _ _ _ _

theorem rgb2yuv : Statement .rgb2yuv := packCommand_op _ _ _ _

theorem gray2y : Statement .gray2y := packCommand_op _ _ _ _

theorem yuvload : Statement .yuvload := packCommand_op _ _ _ _

theorem csub : Statement .csub := packCommand_op _ _ _ _

theorem fdct (a : BlockSel) : Statement (.fdct a) := packCommand_op _ _ _ _

theorem qzz (a : QSel) : Statement (.qzz a) := packCommand_op _ _ _ _

theorem jhuf (a : Comp) : Statement (.jhuf a) := packCommand_op _ _ _ _

theorem jpdu (a : Comp) : Statement (.jpdu a) := packCommand_op _ _ _ _

theorem jgrayuv : Statement .jgrayuv := packCommand_op _ _ _ _

theorem bpush (b value : BitVec 16) : Statement (.bpush b value) := packCommand_op _ _ _ _

theorem bflush : Statement .bflush := packCommand_op _ _ _ _

theorem jwblk : Statement .jwblk := packCommand_op _ _ _ _

theorem jrow : Statement .jrow := packCommand_op _ _ _ _

theorem jfin : Statement .jfin := packCommand_op _ _ _ _

theorem jenc : Statement .jenc := packCommand_op _ _ _ _

theorem pfilt : Statement .pfilt := packCommand_op _ _ _ _

theorem zbegin (a : ZSel) : Statement (.zbegin a) := packCommand_op _ _ _ _

theorem lzstep : Statement .lzstep := packCommand_op _ _ _ _

theorem zemit : Statement .zemit := packCommand_op _ _ _ _

theorem zend : Statement .zend := packCommand_op _ _ _ _

theorem zcomp (a : ZSel) : Statement (.zcomp a) := packCommand_op _ _ _ _

theorem adler (a : ZSel) : Statement (.adler a) := packCommand_op _ _ _ _

theorem crc32 (a : MsgSel) : Statement (.crc32 a) := packCommand_op _ _ _ _

theorem crcchk (imm : Word) : Statement (.crcchk imm) := packCommand_op _ _ _ _

theorem psig : Statement .psig := packCommand_op _ _ _ _

theorem pchunk (a : PaySel) : Statement (.pchunk a) := packCommand_op _ _ _ _

theorem penc : Statement .penc := packCommand_op _ _ _ _

end Sys2Proof.Laws.OpcodeByte
end

