-- ==== Sys2Proof/Laws/State.lean ====
section
/-! SUPPORT. One lemma per field per named update of the state, each true by unfolding the update (rfl), so that no later proof
unfolds a record update. -/

namespace Sys2Proof.Laws

open Sys2Proof Sys2Proof.Machine

/-! The response, R284. -/

@[simp] theorem respond_cmds (s : State) (v : Word) : (s.respond v).cmds = s.cmds := rfl
@[simp] theorem respond_resp (s : State) (v : Word) : (s.respond v).resp = v := rfl
@[simp] theorem respond_src (s : State) (v : Word) : (s.respond v).src = s.src := rfl
@[simp] theorem respond_caps (s : State) (v : Word) : (s.respond v).caps = s.caps := rfl
@[simp] theorem respond_hash3 (s : State) (v : Word) : (s.respond v).hash3 = s.hash3 := rfl
@[simp] theorem respond_width (s : State) (v : Word) : (s.respond v).width = s.width := rfl
@[simp] theorem respond_height (s : State) (v : Word) : (s.respond v).height = s.height := rfl
@[simp] theorem respond_pixfmt (s : State) (v : Word) : (s.respond v).pixfmt = s.pixfmt := rfl
@[simp] theorem respond_filetype (s : State) (v : Word) : (s.respond v).filetype = s.filetype := rfl
@[simp] theorem respond_quality (s : State) (v : Word) : (s.respond v).quality = s.quality := rfl
@[simp] theorem respond_yuvtype (s : State) (v : Word) : (s.respond v).yuvtype = s.yuvtype := rfl
@[simp] theorem respond_srckind (s : State) (v : Word) : (s.respond v).srckind = s.srckind := rfl
@[simp] theorem respond_src0Base (s : State) (v : Word) : (s.respond v).src0Base = s.src0Base := rfl
@[simp] theorem respond_src0Stride (s : State) (v : Word) : (s.respond v).src0Stride = s.src0Stride := rfl
@[simp] theorem respond_src1Base (s : State) (v : Word) : (s.respond v).src1Base = s.src1Base := rfl
@[simp] theorem respond_src1Stride (s : State) (v : Word) : (s.respond v).src1Stride = s.src1Stride := rfl
@[simp] theorem respond_src2Base (s : State) (v : Word) : (s.respond v).src2Base = s.src2Base := rfl
@[simp] theorem respond_src2Stride (s : State) (v : Word) : (s.respond v).src2Stride = s.src2Stride := rfl
@[simp] theorem respond_cbase (s : State) (v : Word) : (s.respond v).cbase = s.cbase := rfl
@[simp] theorem respond_clen (s : State) (v : Word) : (s.respond v).clen = s.clen := rfl
@[simp] theorem respond_ctype (s : State) (v : Word) : (s.respond v).ctype = s.ctype := rfl
@[simp] theorem respond_phase (s : State) (v : Word) : (s.respond v).phase = s.phase := rfl
@[simp] theorem respond_mbx (s : State) (v : Word) : (s.respond v).mbx = s.mbx := rfl
@[simp] theorem respond_mby (s : State) (v : Word) : (s.respond v).mby = s.mby := rfl
@[simp] theorem respond_row (s : State) (v : Word) : (s.respond v).row = s.row := rfl
@[simp] theorem respond_zi (s : State) (v : Word) : (s.respond v).zi = s.zi := rfl
@[simp] theorem respond_crcok (s : State) (v : Word) : (s.respond v).crcok = s.crcok := rfl
@[simp] theorem respond_zph (s : State) (v : Word) : (s.respond v).zph = s.zph := rfl
@[simp] theorem respond_fail (s : State) (v : Word) : (s.respond v).fail = s.fail := rfl
@[simp] theorem respond_finfo (s : State) (v : Word) : (s.respond v).finfo = s.finfo := rfl
@[simp] theorem respond_quant (s : State) (v : Word) : (s.respond v).quant = s.quant := rfl
@[simp] theorem respond_dc (s : State) (v : Word) : (s.respond v).dc = s.dc := rfl
@[simp] theorem respond_bb (s : State) (v : Word) : (s.respond v).bb = s.bb := rfl
@[simp] theorem respond_jacc (s : State) (v : Word) : (s.respond v).jacc = s.jacc := rfl
@[simp] theorem respond_jaccn (s : State) (v : Word) : (s.respond v).jaccn = s.jaccn := rfl
@[simp] theorem respond_yp (s : State) (v : Word) : (s.respond v).yp = s.yp := rfl
@[simp] theorem respond_up (s : State) (v : Word) : (s.respond v).up = s.up := rfl
@[simp] theorem respond_vp (s : State) (v : Word) : (s.respond v).vp = s.vp := rfl
@[simp] theorem respond_uc (s : State) (v : Word) : (s.respond v).uc = s.uc := rfl
@[simp] theorem respond_vc (s : State) (v : Word) : (s.respond v).vc = s.vc := rfl
@[simp] theorem respond_cdu (s : State) (v : Word) : (s.respond v).cdu = s.cdu := rfl
@[simp] theorem respond_du (s : State) (v : Word) : (s.respond v).du = s.du := rfl
@[simp] theorem respond_fbuf (s : State) (v : Word) : (s.respond v).fbuf = s.fbuf := rfl
@[simp] theorem respond_zsrc (s : State) (v : Word) : (s.respond v).zsrc = s.zsrc := rfl
@[simp] theorem respond_zlen (s : State) (v : Word) : (s.respond v).zlen = s.zlen := rfl
@[simp] theorem respond_zq (s : State) (v : Word) : (s.respond v).zq = s.zq := rfl
@[simp] theorem respond_ht (s : State) (v : Word) : (s.respond v).ht = s.ht := rfl
@[simp] theorem respond_token (s : State) (v : Word) : (s.respond v).token = s.token := rfl
@[simp] theorem respond_zacc (s : State) (v : Word) : (s.respond v).zacc = s.zacc := rfl
@[simp] theorem respond_zaccn (s : State) (v : Word) : (s.respond v).zaccn = s.zaccn := rfl
@[simp] theorem respond_zbuf (s : State) (v : Word) : (s.respond v).zbuf = s.zbuf := rfl
@[simp] theorem respond_adlreg (s : State) (v : Word) : (s.respond v).adlreg = s.adlreg := rfl
@[simp] theorem respond_crcreg (s : State) (v : Word) : (s.respond v).crcreg = s.crcreg := rfl
@[simp] theorem respond_out (s : State) (v : Word) : (s.respond v).out = s.out := rfl

/-! Taking a fault, R304. -/

@[simp] theorem takeFault_cmds (s : State) (c : FaultCode) (op : Byte) : (s.takeFault c op).cmds = s.cmds := rfl
@[simp] theorem takeFault_resp (s : State) (c : FaultCode) (op : Byte) : (s.takeFault c op).resp = 0 := rfl
@[simp] theorem takeFault_src (s : State) (c : FaultCode) (op : Byte) : (s.takeFault c op).src = s.src := rfl
@[simp] theorem takeFault_caps (s : State) (c : FaultCode) (op : Byte) : (s.takeFault c op).caps = s.caps := rfl
@[simp] theorem takeFault_hash3 (s : State) (c : FaultCode) (op : Byte) : (s.takeFault c op).hash3 = s.hash3 := rfl
@[simp] theorem takeFault_width (s : State) (c : FaultCode) (op : Byte) : (s.takeFault c op).width = s.width := rfl
@[simp] theorem takeFault_height (s : State) (c : FaultCode) (op : Byte) : (s.takeFault c op).height = s.height := rfl
@[simp] theorem takeFault_pixfmt (s : State) (c : FaultCode) (op : Byte) : (s.takeFault c op).pixfmt = s.pixfmt := rfl
@[simp] theorem takeFault_filetype (s : State) (c : FaultCode) (op : Byte) : (s.takeFault c op).filetype = s.filetype := rfl
@[simp] theorem takeFault_quality (s : State) (c : FaultCode) (op : Byte) : (s.takeFault c op).quality = s.quality := rfl
@[simp] theorem takeFault_yuvtype (s : State) (c : FaultCode) (op : Byte) : (s.takeFault c op).yuvtype = s.yuvtype := rfl
@[simp] theorem takeFault_srckind (s : State) (c : FaultCode) (op : Byte) : (s.takeFault c op).srckind = s.srckind := rfl
@[simp] theorem takeFault_src0Base (s : State) (c : FaultCode) (op : Byte) : (s.takeFault c op).src0Base = s.src0Base := rfl
@[simp] theorem takeFault_src0Stride (s : State) (c : FaultCode) (op : Byte) : (s.takeFault c op).src0Stride = s.src0Stride := rfl
@[simp] theorem takeFault_src1Base (s : State) (c : FaultCode) (op : Byte) : (s.takeFault c op).src1Base = s.src1Base := rfl
@[simp] theorem takeFault_src1Stride (s : State) (c : FaultCode) (op : Byte) : (s.takeFault c op).src1Stride = s.src1Stride := rfl
@[simp] theorem takeFault_src2Base (s : State) (c : FaultCode) (op : Byte) : (s.takeFault c op).src2Base = s.src2Base := rfl
@[simp] theorem takeFault_src2Stride (s : State) (c : FaultCode) (op : Byte) : (s.takeFault c op).src2Stride = s.src2Stride := rfl
@[simp] theorem takeFault_cbase (s : State) (c : FaultCode) (op : Byte) : (s.takeFault c op).cbase = s.cbase := rfl
@[simp] theorem takeFault_clen (s : State) (c : FaultCode) (op : Byte) : (s.takeFault c op).clen = s.clen := rfl
@[simp] theorem takeFault_ctype (s : State) (c : FaultCode) (op : Byte) : (s.takeFault c op).ctype = s.ctype := rfl
@[simp] theorem takeFault_phase (s : State) (c : FaultCode) (op : Byte) : (s.takeFault c op).phase = .failed := rfl
@[simp] theorem takeFault_mbx (s : State) (c : FaultCode) (op : Byte) : (s.takeFault c op).mbx = s.mbx := rfl
@[simp] theorem takeFault_mby (s : State) (c : FaultCode) (op : Byte) : (s.takeFault c op).mby = s.mby := rfl
@[simp] theorem takeFault_row (s : State) (c : FaultCode) (op : Byte) : (s.takeFault c op).row = s.row := rfl
@[simp] theorem takeFault_zi (s : State) (c : FaultCode) (op : Byte) : (s.takeFault c op).zi = s.zi := rfl
@[simp] theorem takeFault_crcok (s : State) (c : FaultCode) (op : Byte) : (s.takeFault c op).crcok = s.crcok := rfl
@[simp] theorem takeFault_zph (s : State) (c : FaultCode) (op : Byte) : (s.takeFault c op).zph = s.zph := rfl
@[simp] theorem takeFault_fail (s : State) (c : FaultCode) (op : Byte) : (s.takeFault c op).fail = c.code := rfl
@[simp] theorem takeFault_finfo (s : State) (c : FaultCode) (op : Byte) : (s.takeFault c op).finfo = op.setWidth 32 := rfl
@[simp] theorem takeFault_quant (s : State) (c : FaultCode) (op : Byte) : (s.takeFault c op).quant = s.quant := rfl
@[simp] theorem takeFault_dc (s : State) (c : FaultCode) (op : Byte) : (s.takeFault c op).dc = s.dc := rfl
@[simp] theorem takeFault_bb (s : State) (c : FaultCode) (op : Byte) : (s.takeFault c op).bb = s.bb := rfl
@[simp] theorem takeFault_jacc (s : State) (c : FaultCode) (op : Byte) : (s.takeFault c op).jacc = s.jacc := rfl
@[simp] theorem takeFault_jaccn (s : State) (c : FaultCode) (op : Byte) : (s.takeFault c op).jaccn = s.jaccn := rfl
@[simp] theorem takeFault_yp (s : State) (c : FaultCode) (op : Byte) : (s.takeFault c op).yp = s.yp := rfl
@[simp] theorem takeFault_up (s : State) (c : FaultCode) (op : Byte) : (s.takeFault c op).up = s.up := rfl
@[simp] theorem takeFault_vp (s : State) (c : FaultCode) (op : Byte) : (s.takeFault c op).vp = s.vp := rfl
@[simp] theorem takeFault_uc (s : State) (c : FaultCode) (op : Byte) : (s.takeFault c op).uc = s.uc := rfl
@[simp] theorem takeFault_vc (s : State) (c : FaultCode) (op : Byte) : (s.takeFault c op).vc = s.vc := rfl
@[simp] theorem takeFault_cdu (s : State) (c : FaultCode) (op : Byte) : (s.takeFault c op).cdu = s.cdu := rfl
@[simp] theorem takeFault_du (s : State) (c : FaultCode) (op : Byte) : (s.takeFault c op).du = s.du := rfl
@[simp] theorem takeFault_fbuf (s : State) (c : FaultCode) (op : Byte) : (s.takeFault c op).fbuf = s.fbuf := rfl
@[simp] theorem takeFault_zsrc (s : State) (c : FaultCode) (op : Byte) : (s.takeFault c op).zsrc = s.zsrc := rfl
@[simp] theorem takeFault_zlen (s : State) (c : FaultCode) (op : Byte) : (s.takeFault c op).zlen = s.zlen := rfl
@[simp] theorem takeFault_zq (s : State) (c : FaultCode) (op : Byte) : (s.takeFault c op).zq = s.zq := rfl
@[simp] theorem takeFault_ht (s : State) (c : FaultCode) (op : Byte) : (s.takeFault c op).ht = s.ht := rfl
@[simp] theorem takeFault_token (s : State) (c : FaultCode) (op : Byte) : (s.takeFault c op).token = s.token := rfl
@[simp] theorem takeFault_zacc (s : State) (c : FaultCode) (op : Byte) : (s.takeFault c op).zacc = s.zacc := rfl
@[simp] theorem takeFault_zaccn (s : State) (c : FaultCode) (op : Byte) : (s.takeFault c op).zaccn = s.zaccn := rfl
@[simp] theorem takeFault_zbuf (s : State) (c : FaultCode) (op : Byte) : (s.takeFault c op).zbuf = s.zbuf := rfl
@[simp] theorem takeFault_adlreg (s : State) (c : FaultCode) (op : Byte) : (s.takeFault c op).adlreg = s.adlreg := rfl
@[simp] theorem takeFault_crcreg (s : State) (c : FaultCode) (op : Byte) : (s.takeFault c op).crcreg = s.crcreg := rfl
@[simp] theorem takeFault_out (s : State) (c : FaultCode) (op : Byte) : (s.takeFault c op).out = [] := rfl

/-! Taking a command from the port, R284. -/

@[simp] theorem takeCommand_cmds (s : State) : (s.takeCommand).cmds = s.cmds.tail := rfl
@[simp] theorem takeCommand_resp (s : State) : (s.takeCommand).resp = s.resp := rfl
@[simp] theorem takeCommand_src (s : State) : (s.takeCommand).src = s.src := rfl
@[simp] theorem takeCommand_caps (s : State) : (s.takeCommand).caps = s.caps := rfl
@[simp] theorem takeCommand_hash3 (s : State) : (s.takeCommand).hash3 = s.hash3 := rfl
@[simp] theorem takeCommand_width (s : State) : (s.takeCommand).width = s.width := rfl
@[simp] theorem takeCommand_height (s : State) : (s.takeCommand).height = s.height := rfl
@[simp] theorem takeCommand_pixfmt (s : State) : (s.takeCommand).pixfmt = s.pixfmt := rfl
@[simp] theorem takeCommand_filetype (s : State) : (s.takeCommand).filetype = s.filetype := rfl
@[simp] theorem takeCommand_quality (s : State) : (s.takeCommand).quality = s.quality := rfl
@[simp] theorem takeCommand_yuvtype (s : State) : (s.takeCommand).yuvtype = s.yuvtype := rfl
@[simp] theorem takeCommand_srckind (s : State) : (s.takeCommand).srckind = s.srckind := rfl
@[simp] theorem takeCommand_src0Base (s : State) : (s.takeCommand).src0Base = s.src0Base := rfl
@[simp] theorem takeCommand_src0Stride (s : State) : (s.takeCommand).src0Stride = s.src0Stride := rfl
@[simp] theorem takeCommand_src1Base (s : State) : (s.takeCommand).src1Base = s.src1Base := rfl
@[simp] theorem takeCommand_src1Stride (s : State) : (s.takeCommand).src1Stride = s.src1Stride := rfl
@[simp] theorem takeCommand_src2Base (s : State) : (s.takeCommand).src2Base = s.src2Base := rfl
@[simp] theorem takeCommand_src2Stride (s : State) : (s.takeCommand).src2Stride = s.src2Stride := rfl
@[simp] theorem takeCommand_cbase (s : State) : (s.takeCommand).cbase = s.cbase := rfl
@[simp] theorem takeCommand_clen (s : State) : (s.takeCommand).clen = s.clen := rfl
@[simp] theorem takeCommand_ctype (s : State) : (s.takeCommand).ctype = s.ctype := rfl
@[simp] theorem takeCommand_phase (s : State) : (s.takeCommand).phase = s.phase := rfl
@[simp] theorem takeCommand_mbx (s : State) : (s.takeCommand).mbx = s.mbx := rfl
@[simp] theorem takeCommand_mby (s : State) : (s.takeCommand).mby = s.mby := rfl
@[simp] theorem takeCommand_row (s : State) : (s.takeCommand).row = s.row := rfl
@[simp] theorem takeCommand_zi (s : State) : (s.takeCommand).zi = s.zi := rfl
@[simp] theorem takeCommand_crcok (s : State) : (s.takeCommand).crcok = s.crcok := rfl
@[simp] theorem takeCommand_zph (s : State) : (s.takeCommand).zph = s.zph := rfl
@[simp] theorem takeCommand_fail (s : State) : (s.takeCommand).fail = s.fail := rfl
@[simp] theorem takeCommand_finfo (s : State) : (s.takeCommand).finfo = s.finfo := rfl
@[simp] theorem takeCommand_quant (s : State) : (s.takeCommand).quant = s.quant := rfl
@[simp] theorem takeCommand_dc (s : State) : (s.takeCommand).dc = s.dc := rfl
@[simp] theorem takeCommand_bb (s : State) : (s.takeCommand).bb = s.bb := rfl
@[simp] theorem takeCommand_jacc (s : State) : (s.takeCommand).jacc = s.jacc := rfl
@[simp] theorem takeCommand_jaccn (s : State) : (s.takeCommand).jaccn = s.jaccn := rfl
@[simp] theorem takeCommand_yp (s : State) : (s.takeCommand).yp = s.yp := rfl
@[simp] theorem takeCommand_up (s : State) : (s.takeCommand).up = s.up := rfl
@[simp] theorem takeCommand_vp (s : State) : (s.takeCommand).vp = s.vp := rfl
@[simp] theorem takeCommand_uc (s : State) : (s.takeCommand).uc = s.uc := rfl
@[simp] theorem takeCommand_vc (s : State) : (s.takeCommand).vc = s.vc := rfl
@[simp] theorem takeCommand_cdu (s : State) : (s.takeCommand).cdu = s.cdu := rfl
@[simp] theorem takeCommand_du (s : State) : (s.takeCommand).du = s.du := rfl
@[simp] theorem takeCommand_fbuf (s : State) : (s.takeCommand).fbuf = s.fbuf := rfl
@[simp] theorem takeCommand_zsrc (s : State) : (s.takeCommand).zsrc = s.zsrc := rfl
@[simp] theorem takeCommand_zlen (s : State) : (s.takeCommand).zlen = s.zlen := rfl
@[simp] theorem takeCommand_zq (s : State) : (s.takeCommand).zq = s.zq := rfl
@[simp] theorem takeCommand_ht (s : State) : (s.takeCommand).ht = s.ht := rfl
@[simp] theorem takeCommand_token (s : State) : (s.takeCommand).token = s.token := rfl
@[simp] theorem takeCommand_zacc (s : State) : (s.takeCommand).zacc = s.zacc := rfl
@[simp] theorem takeCommand_zaccn (s : State) : (s.takeCommand).zaccn = s.zaccn := rfl
@[simp] theorem takeCommand_zbuf (s : State) : (s.takeCommand).zbuf = s.zbuf := rfl
@[simp] theorem takeCommand_adlreg (s : State) : (s.takeCommand).adlreg = s.adlreg := rfl
@[simp] theorem takeCommand_crcreg (s : State) : (s.takeCommand).crcreg = s.crcreg := rfl
@[simp] theorem takeCommand_out (s : State) : (s.takeCommand).out = s.out := rfl

/-! Presenting a command. -/

@[simp] theorem withFetchWord_cmds (s : State) (n w : Nat) : (s.withFetchWord n w).cmds = commandOfTable n w :: s.cmds := rfl
@[simp] theorem withFetchWord_resp (s : State) (n w : Nat) : (s.withFetchWord n w).resp = s.resp := rfl
@[simp] theorem withFetchWord_src (s : State) (n w : Nat) : (s.withFetchWord n w).src = s.src := rfl
@[simp] theorem withFetchWord_caps (s : State) (n w : Nat) : (s.withFetchWord n w).caps = s.caps := rfl
@[simp] theorem withFetchWord_hash3 (s : State) (n w : Nat) : (s.withFetchWord n w).hash3 = s.hash3 := rfl
@[simp] theorem withFetchWord_width (s : State) (n w : Nat) : (s.withFetchWord n w).width = s.width := rfl
@[simp] theorem withFetchWord_height (s : State) (n w : Nat) : (s.withFetchWord n w).height = s.height := rfl
@[simp] theorem withFetchWord_pixfmt (s : State) (n w : Nat) : (s.withFetchWord n w).pixfmt = s.pixfmt := rfl
@[simp] theorem withFetchWord_filetype (s : State) (n w : Nat) : (s.withFetchWord n w).filetype = s.filetype := rfl
@[simp] theorem withFetchWord_quality (s : State) (n w : Nat) : (s.withFetchWord n w).quality = s.quality := rfl
@[simp] theorem withFetchWord_yuvtype (s : State) (n w : Nat) : (s.withFetchWord n w).yuvtype = s.yuvtype := rfl
@[simp] theorem withFetchWord_srckind (s : State) (n w : Nat) : (s.withFetchWord n w).srckind = s.srckind := rfl
@[simp] theorem withFetchWord_src0Base (s : State) (n w : Nat) : (s.withFetchWord n w).src0Base = s.src0Base := rfl
@[simp] theorem withFetchWord_src0Stride (s : State) (n w : Nat) : (s.withFetchWord n w).src0Stride = s.src0Stride := rfl
@[simp] theorem withFetchWord_src1Base (s : State) (n w : Nat) : (s.withFetchWord n w).src1Base = s.src1Base := rfl
@[simp] theorem withFetchWord_src1Stride (s : State) (n w : Nat) : (s.withFetchWord n w).src1Stride = s.src1Stride := rfl
@[simp] theorem withFetchWord_src2Base (s : State) (n w : Nat) : (s.withFetchWord n w).src2Base = s.src2Base := rfl
@[simp] theorem withFetchWord_src2Stride (s : State) (n w : Nat) : (s.withFetchWord n w).src2Stride = s.src2Stride := rfl
@[simp] theorem withFetchWord_cbase (s : State) (n w : Nat) : (s.withFetchWord n w).cbase = s.cbase := rfl
@[simp] theorem withFetchWord_clen (s : State) (n w : Nat) : (s.withFetchWord n w).clen = s.clen := rfl
@[simp] theorem withFetchWord_ctype (s : State) (n w : Nat) : (s.withFetchWord n w).ctype = s.ctype := rfl
@[simp] theorem withFetchWord_phase (s : State) (n w : Nat) : (s.withFetchWord n w).phase = s.phase := rfl
@[simp] theorem withFetchWord_mbx (s : State) (n w : Nat) : (s.withFetchWord n w).mbx = s.mbx := rfl
@[simp] theorem withFetchWord_mby (s : State) (n w : Nat) : (s.withFetchWord n w).mby = s.mby := rfl
@[simp] theorem withFetchWord_row (s : State) (n w : Nat) : (s.withFetchWord n w).row = s.row := rfl
@[simp] theorem withFetchWord_zi (s : State) (n w : Nat) : (s.withFetchWord n w).zi = s.zi := rfl
@[simp] theorem withFetchWord_crcok (s : State) (n w : Nat) : (s.withFetchWord n w).crcok = s.crcok := rfl
@[simp] theorem withFetchWord_zph (s : State) (n w : Nat) : (s.withFetchWord n w).zph = s.zph := rfl
@[simp] theorem withFetchWord_fail (s : State) (n w : Nat) : (s.withFetchWord n w).fail = s.fail := rfl
@[simp] theorem withFetchWord_finfo (s : State) (n w : Nat) : (s.withFetchWord n w).finfo = s.finfo := rfl
@[simp] theorem withFetchWord_quant (s : State) (n w : Nat) : (s.withFetchWord n w).quant = s.quant := rfl
@[simp] theorem withFetchWord_dc (s : State) (n w : Nat) : (s.withFetchWord n w).dc = s.dc := rfl
@[simp] theorem withFetchWord_bb (s : State) (n w : Nat) : (s.withFetchWord n w).bb = s.bb := rfl
@[simp] theorem withFetchWord_jacc (s : State) (n w : Nat) : (s.withFetchWord n w).jacc = s.jacc := rfl
@[simp] theorem withFetchWord_jaccn (s : State) (n w : Nat) : (s.withFetchWord n w).jaccn = s.jaccn := rfl
@[simp] theorem withFetchWord_yp (s : State) (n w : Nat) : (s.withFetchWord n w).yp = s.yp := rfl
@[simp] theorem withFetchWord_up (s : State) (n w : Nat) : (s.withFetchWord n w).up = s.up := rfl
@[simp] theorem withFetchWord_vp (s : State) (n w : Nat) : (s.withFetchWord n w).vp = s.vp := rfl
@[simp] theorem withFetchWord_uc (s : State) (n w : Nat) : (s.withFetchWord n w).uc = s.uc := rfl
@[simp] theorem withFetchWord_vc (s : State) (n w : Nat) : (s.withFetchWord n w).vc = s.vc := rfl
@[simp] theorem withFetchWord_cdu (s : State) (n w : Nat) : (s.withFetchWord n w).cdu = s.cdu := rfl
@[simp] theorem withFetchWord_du (s : State) (n w : Nat) : (s.withFetchWord n w).du = s.du := rfl
@[simp] theorem withFetchWord_fbuf (s : State) (n w : Nat) : (s.withFetchWord n w).fbuf = s.fbuf := rfl
@[simp] theorem withFetchWord_zsrc (s : State) (n w : Nat) : (s.withFetchWord n w).zsrc = s.zsrc := rfl
@[simp] theorem withFetchWord_zlen (s : State) (n w : Nat) : (s.withFetchWord n w).zlen = s.zlen := rfl
@[simp] theorem withFetchWord_zq (s : State) (n w : Nat) : (s.withFetchWord n w).zq = s.zq := rfl
@[simp] theorem withFetchWord_ht (s : State) (n w : Nat) : (s.withFetchWord n w).ht = s.ht := rfl
@[simp] theorem withFetchWord_token (s : State) (n w : Nat) : (s.withFetchWord n w).token = s.token := rfl
@[simp] theorem withFetchWord_zacc (s : State) (n w : Nat) : (s.withFetchWord n w).zacc = s.zacc := rfl
@[simp] theorem withFetchWord_zaccn (s : State) (n w : Nat) : (s.withFetchWord n w).zaccn = s.zaccn := rfl
@[simp] theorem withFetchWord_zbuf (s : State) (n w : Nat) : (s.withFetchWord n w).zbuf = s.zbuf := rfl
@[simp] theorem withFetchWord_adlreg (s : State) (n w : Nat) : (s.withFetchWord n w).adlreg = s.adlreg := rfl
@[simp] theorem withFetchWord_crcreg (s : State) (n w : Nat) : (s.withFetchWord n w).crcreg = s.crcreg := rfl
@[simp] theorem withFetchWord_out (s : State) (n w : Nat) : (s.withFetchWord n w).out = s.out := rfl

/-! SRESET, R283. -/

@[simp] theorem sreset_cmds (s : State) : (s.sreset).cmds = s.cmds := rfl
@[simp] theorem sreset_resp (s : State) : (s.sreset).resp = State.reset.resp := rfl
@[simp] theorem sreset_src (s : State) : (s.sreset).src = s.src := rfl
@[simp] theorem sreset_caps (s : State) : (s.sreset).caps = s.caps := rfl
@[simp] theorem sreset_hash3 (s : State) : (s.sreset).hash3 = s.hash3 := rfl
@[simp] theorem sreset_width (s : State) : (s.sreset).width = State.reset.width := rfl
@[simp] theorem sreset_height (s : State) : (s.sreset).height = State.reset.height := rfl
@[simp] theorem sreset_pixfmt (s : State) : (s.sreset).pixfmt = State.reset.pixfmt := rfl
@[simp] theorem sreset_filetype (s : State) : (s.sreset).filetype = State.reset.filetype := rfl
@[simp] theorem sreset_quality (s : State) : (s.sreset).quality = State.reset.quality := rfl
@[simp] theorem sreset_yuvtype (s : State) : (s.sreset).yuvtype = State.reset.yuvtype := rfl
@[simp] theorem sreset_srckind (s : State) : (s.sreset).srckind = State.reset.srckind := rfl
@[simp] theorem sreset_src0Base (s : State) : (s.sreset).src0Base = State.reset.src0Base := rfl
@[simp] theorem sreset_src0Stride (s : State) : (s.sreset).src0Stride = State.reset.src0Stride := rfl
@[simp] theorem sreset_src1Base (s : State) : (s.sreset).src1Base = State.reset.src1Base := rfl
@[simp] theorem sreset_src1Stride (s : State) : (s.sreset).src1Stride = State.reset.src1Stride := rfl
@[simp] theorem sreset_src2Base (s : State) : (s.sreset).src2Base = State.reset.src2Base := rfl
@[simp] theorem sreset_src2Stride (s : State) : (s.sreset).src2Stride = State.reset.src2Stride := rfl
@[simp] theorem sreset_cbase (s : State) : (s.sreset).cbase = State.reset.cbase := rfl
@[simp] theorem sreset_clen (s : State) : (s.sreset).clen = State.reset.clen := rfl
@[simp] theorem sreset_ctype (s : State) : (s.sreset).ctype = State.reset.ctype := rfl
@[simp] theorem sreset_phase (s : State) : (s.sreset).phase = State.reset.phase := rfl
@[simp] theorem sreset_mbx (s : State) : (s.sreset).mbx = State.reset.mbx := rfl
@[simp] theorem sreset_mby (s : State) : (s.sreset).mby = State.reset.mby := rfl
@[simp] theorem sreset_row (s : State) : (s.sreset).row = State.reset.row := rfl
@[simp] theorem sreset_zi (s : State) : (s.sreset).zi = State.reset.zi := rfl
@[simp] theorem sreset_crcok (s : State) : (s.sreset).crcok = State.reset.crcok := rfl
@[simp] theorem sreset_zph (s : State) : (s.sreset).zph = State.reset.zph := rfl
@[simp] theorem sreset_fail (s : State) : (s.sreset).fail = State.reset.fail := rfl
@[simp] theorem sreset_finfo (s : State) : (s.sreset).finfo = State.reset.finfo := rfl
@[simp] theorem sreset_quant (s : State) : (s.sreset).quant = State.reset.quant := rfl
@[simp] theorem sreset_dc (s : State) : (s.sreset).dc = State.reset.dc := rfl
@[simp] theorem sreset_bb (s : State) : (s.sreset).bb = State.reset.bb := rfl
@[simp] theorem sreset_jacc (s : State) : (s.sreset).jacc = State.reset.jacc := rfl
@[simp] theorem sreset_jaccn (s : State) : (s.sreset).jaccn = State.reset.jaccn := rfl
@[simp] theorem sreset_yp (s : State) : (s.sreset).yp = State.reset.yp := rfl
@[simp] theorem sreset_up (s : State) : (s.sreset).up = State.reset.up := rfl
@[simp] theorem sreset_vp (s : State) : (s.sreset).vp = State.reset.vp := rfl
@[simp] theorem sreset_uc (s : State) : (s.sreset).uc = State.reset.uc := rfl
@[simp] theorem sreset_vc (s : State) : (s.sreset).vc = State.reset.vc := rfl
@[simp] theorem sreset_cdu (s : State) : (s.sreset).cdu = State.reset.cdu := rfl
@[simp] theorem sreset_du (s : State) : (s.sreset).du = State.reset.du := rfl
@[simp] theorem sreset_fbuf (s : State) : (s.sreset).fbuf = State.reset.fbuf := rfl
@[simp] theorem sreset_zsrc (s : State) : (s.sreset).zsrc = State.reset.zsrc := rfl
@[simp] theorem sreset_zlen (s : State) : (s.sreset).zlen = State.reset.zlen := rfl
@[simp] theorem sreset_zq (s : State) : (s.sreset).zq = State.reset.zq := rfl
@[simp] theorem sreset_ht (s : State) : (s.sreset).ht = State.reset.ht := rfl
@[simp] theorem sreset_token (s : State) : (s.sreset).token = State.reset.token := rfl
@[simp] theorem sreset_zacc (s : State) : (s.sreset).zacc = State.reset.zacc := rfl
@[simp] theorem sreset_zaccn (s : State) : (s.sreset).zaccn = State.reset.zaccn := rfl
@[simp] theorem sreset_zbuf (s : State) : (s.sreset).zbuf = State.reset.zbuf := rfl
@[simp] theorem sreset_adlreg (s : State) : (s.sreset).adlreg = State.reset.adlreg := rfl
@[simp] theorem sreset_crcreg (s : State) : (s.sreset).crcreg = State.reset.crcreg := rfl
@[simp] theorem sreset_out (s : State) : (s.sreset).out = State.reset.out := rfl

/-! The start of an image, R201. -/

@[simp] theorem startImage_cmds (s : State) : (s.startImage).cmds = s.cmds := rfl
@[simp] theorem startImage_resp (s : State) : (s.startImage).resp = s.resp := rfl
@[simp] theorem startImage_src (s : State) : (s.startImage).src = s.src := rfl
@[simp] theorem startImage_caps (s : State) : (s.startImage).caps = s.caps := rfl
@[simp] theorem startImage_hash3 (s : State) : (s.startImage).hash3 = s.hash3 := rfl
@[simp] theorem startImage_width (s : State) : (s.startImage).width = s.width := rfl
@[simp] theorem startImage_height (s : State) : (s.startImage).height = s.height := rfl
@[simp] theorem startImage_pixfmt (s : State) : (s.startImage).pixfmt = s.pixfmt := rfl
@[simp] theorem startImage_filetype (s : State) : (s.startImage).filetype = s.filetype := rfl
@[simp] theorem startImage_quality (s : State) : (s.startImage).quality = s.quality := rfl
@[simp] theorem startImage_yuvtype (s : State) : (s.startImage).yuvtype = s.yuvtype := rfl
@[simp] theorem startImage_srckind (s : State) : (s.startImage).srckind = s.srckind := rfl
@[simp] theorem startImage_src0Base (s : State) : (s.startImage).src0Base = s.src0Base := rfl
@[simp] theorem startImage_src0Stride (s : State) : (s.startImage).src0Stride = s.src0Stride := rfl
@[simp] theorem startImage_src1Base (s : State) : (s.startImage).src1Base = s.src1Base := rfl
@[simp] theorem startImage_src1Stride (s : State) : (s.startImage).src1Stride = s.src1Stride := rfl
@[simp] theorem startImage_src2Base (s : State) : (s.startImage).src2Base = s.src2Base := rfl
@[simp] theorem startImage_src2Stride (s : State) : (s.startImage).src2Stride = s.src2Stride := rfl
@[simp] theorem startImage_cbase (s : State) : (s.startImage).cbase = s.cbase := rfl
@[simp] theorem startImage_clen (s : State) : (s.startImage).clen = s.clen := rfl
@[simp] theorem startImage_ctype (s : State) : (s.startImage).ctype = s.ctype := rfl
@[simp] theorem startImage_phase (s : State) : (s.startImage).phase = .jInit := rfl
@[simp] theorem startImage_mbx (s : State) : (s.startImage).mbx = 0 := rfl
@[simp] theorem startImage_mby (s : State) : (s.startImage).mby = 0 := rfl
@[simp] theorem startImage_row (s : State) : (s.startImage).row = s.row := rfl
@[simp] theorem startImage_zi (s : State) : (s.startImage).zi = s.zi := rfl
@[simp] theorem startImage_crcok (s : State) : (s.startImage).crcok = s.crcok := rfl
@[simp] theorem startImage_zph (s : State) : (s.startImage).zph = s.zph := rfl
@[simp] theorem startImage_fail (s : State) : (s.startImage).fail = s.fail := rfl
@[simp] theorem startImage_finfo (s : State) : (s.startImage).finfo = s.finfo := rfl
@[simp] theorem startImage_quant (s : State) : (s.startImage).quant = s.quant := rfl
@[simp] theorem startImage_dc (s : State) : (s.startImage).dc = { y := 0, u := 0, v := 0 } := rfl
@[simp] theorem startImage_bb (s : State) : (s.startImage).bb = [] := rfl
@[simp] theorem startImage_jacc (s : State) : (s.startImage).jacc = 0 := rfl
@[simp] theorem startImage_jaccn (s : State) : (s.startImage).jaccn = 0 := rfl
@[simp] theorem startImage_yp (s : State) : (s.startImage).yp = s.yp := rfl
@[simp] theorem startImage_up (s : State) : (s.startImage).up = s.up := rfl
@[simp] theorem startImage_vp (s : State) : (s.startImage).vp = s.vp := rfl
@[simp] theorem startImage_uc (s : State) : (s.startImage).uc = s.uc := rfl
@[simp] theorem startImage_vc (s : State) : (s.startImage).vc = s.vc := rfl
@[simp] theorem startImage_cdu (s : State) : (s.startImage).cdu = s.cdu := rfl
@[simp] theorem startImage_du (s : State) : (s.startImage).du = s.du := rfl
@[simp] theorem startImage_fbuf (s : State) : (s.startImage).fbuf = s.fbuf := rfl
@[simp] theorem startImage_zsrc (s : State) : (s.startImage).zsrc = s.zsrc := rfl
@[simp] theorem startImage_zlen (s : State) : (s.startImage).zlen = s.zlen := rfl
@[simp] theorem startImage_zq (s : State) : (s.startImage).zq = s.zq := rfl
@[simp] theorem startImage_ht (s : State) : (s.startImage).ht = s.ht := rfl
@[simp] theorem startImage_token (s : State) : (s.startImage).token = s.token := rfl
@[simp] theorem startImage_zacc (s : State) : (s.startImage).zacc = s.zacc := rfl
@[simp] theorem startImage_zaccn (s : State) : (s.startImage).zaccn = s.zaccn := rfl
@[simp] theorem startImage_zbuf (s : State) : (s.startImage).zbuf = s.zbuf := rfl
@[simp] theorem startImage_adlreg (s : State) : (s.startImage).adlreg = s.adlreg := rfl
@[simp] theorem startImage_crcreg (s : State) : (s.startImage).crcreg = s.crcreg := rfl
@[simp] theorem startImage_out (s : State) : (s.startImage).out = s.out := rfl

/-! The start of a stream, R232. -/

@[simp] theorem startStream_cmds (s : State) (a : ZSel) : (s.startStream a).cmds = s.cmds := rfl
@[simp] theorem startStream_resp (s : State) (a : ZSel) : (s.startStream a).resp = s.resp := rfl
@[simp] theorem startStream_src (s : State) (a : ZSel) : (s.startStream a).src = s.src := rfl
@[simp] theorem startStream_caps (s : State) (a : ZSel) : (s.startStream a).caps = s.caps := rfl
@[simp] theorem startStream_hash3 (s : State) (a : ZSel) : (s.startStream a).hash3 = s.hash3 := rfl
@[simp] theorem startStream_width (s : State) (a : ZSel) : (s.startStream a).width = s.width := rfl
@[simp] theorem startStream_height (s : State) (a : ZSel) : (s.startStream a).height = s.height := rfl
@[simp] theorem startStream_pixfmt (s : State) (a : ZSel) : (s.startStream a).pixfmt = s.pixfmt := rfl
@[simp] theorem startStream_filetype (s : State) (a : ZSel) : (s.startStream a).filetype = s.filetype := rfl
@[simp] theorem startStream_quality (s : State) (a : ZSel) : (s.startStream a).quality = s.quality := rfl
@[simp] theorem startStream_yuvtype (s : State) (a : ZSel) : (s.startStream a).yuvtype = s.yuvtype := rfl
@[simp] theorem startStream_srckind (s : State) (a : ZSel) : (s.startStream a).srckind = s.srckind := rfl
@[simp] theorem startStream_src0Base (s : State) (a : ZSel) : (s.startStream a).src0Base = s.src0Base := rfl
@[simp] theorem startStream_src0Stride (s : State) (a : ZSel) : (s.startStream a).src0Stride = s.src0Stride := rfl
@[simp] theorem startStream_src1Base (s : State) (a : ZSel) : (s.startStream a).src1Base = s.src1Base := rfl
@[simp] theorem startStream_src1Stride (s : State) (a : ZSel) : (s.startStream a).src1Stride = s.src1Stride := rfl
@[simp] theorem startStream_src2Base (s : State) (a : ZSel) : (s.startStream a).src2Base = s.src2Base := rfl
@[simp] theorem startStream_src2Stride (s : State) (a : ZSel) : (s.startStream a).src2Stride = s.src2Stride := rfl
@[simp] theorem startStream_cbase (s : State) (a : ZSel) : (s.startStream a).cbase = s.cbase := rfl
@[simp] theorem startStream_clen (s : State) (a : ZSel) : (s.startStream a).clen = s.clen := rfl
@[simp] theorem startStream_ctype (s : State) (a : ZSel) : (s.startStream a).ctype = s.ctype := rfl
@[simp] theorem startStream_phase (s : State) (a : ZSel) : (s.startStream a).phase = s.phase := rfl
@[simp] theorem startStream_mbx (s : State) (a : ZSel) : (s.startStream a).mbx = s.mbx := rfl
@[simp] theorem startStream_mby (s : State) (a : ZSel) : (s.startStream a).mby = s.mby := rfl
@[simp] theorem startStream_row (s : State) (a : ZSel) : (s.startStream a).row = s.row := rfl
@[simp] theorem startStream_zi (s : State) (a : ZSel) : (s.startStream a).zi = 0 := rfl
@[simp] theorem startStream_crcok (s : State) (a : ZSel) : (s.startStream a).crcok = s.crcok := rfl
@[simp] theorem startStream_zph (s : State) (a : ZSel) : (s.startStream a).zph = s.zph := rfl
@[simp] theorem startStream_fail (s : State) (a : ZSel) : (s.startStream a).fail = s.fail := rfl
@[simp] theorem startStream_finfo (s : State) (a : ZSel) : (s.startStream a).finfo = s.finfo := rfl
@[simp] theorem startStream_quant (s : State) (a : ZSel) : (s.startStream a).quant = s.quant := rfl
@[simp] theorem startStream_dc (s : State) (a : ZSel) : (s.startStream a).dc = s.dc := rfl
@[simp] theorem startStream_bb (s : State) (a : ZSel) : (s.startStream a).bb = s.bb := rfl
@[simp] theorem startStream_jacc (s : State) (a : ZSel) : (s.startStream a).jacc = s.jacc := rfl
@[simp] theorem startStream_jaccn (s : State) (a : ZSel) : (s.startStream a).jaccn = s.jaccn := rfl
@[simp] theorem startStream_yp (s : State) (a : ZSel) : (s.startStream a).yp = s.yp := rfl
@[simp] theorem startStream_up (s : State) (a : ZSel) : (s.startStream a).up = s.up := rfl
@[simp] theorem startStream_vp (s : State) (a : ZSel) : (s.startStream a).vp = s.vp := rfl
@[simp] theorem startStream_uc (s : State) (a : ZSel) : (s.startStream a).uc = s.uc := rfl
@[simp] theorem startStream_vc (s : State) (a : ZSel) : (s.startStream a).vc = s.vc := rfl
@[simp] theorem startStream_cdu (s : State) (a : ZSel) : (s.startStream a).cdu = s.cdu := rfl
@[simp] theorem startStream_du (s : State) (a : ZSel) : (s.startStream a).du = s.du := rfl
@[simp] theorem startStream_fbuf (s : State) (a : ZSel) : (s.startStream a).fbuf = s.fbuf := rfl
@[simp] theorem startStream_zsrc (s : State) (a : ZSel) : (s.startStream a).zsrc = a := rfl
@[simp] theorem startStream_zlen (s : State) (a : ZSel) : (s.startStream a).zlen = inputLength s a := rfl
@[simp] theorem startStream_zq (s : State) (a : ZSel) : (s.startStream a).zq = effectiveQuality s.quality := rfl
@[simp] theorem startStream_ht (s : State) (a : ZSel) : (s.startStream a).ht = [] := rfl
@[simp] theorem startStream_token (s : State) (a : ZSel) : (s.startStream a).token = none := rfl
@[simp] theorem startStream_zacc (s : State) (a : ZSel) : (s.startStream a).zacc = 0 := rfl
@[simp] theorem startStream_zaccn (s : State) (a : ZSel) : (s.startStream a).zaccn = 0 := rfl
@[simp] theorem startStream_zbuf (s : State) (a : ZSel) : (s.startStream a).zbuf = [] := rfl
@[simp] theorem startStream_adlreg (s : State) (a : ZSel) : (s.startStream a).adlreg = s.adlreg := rfl
@[simp] theorem startStream_crcreg (s : State) (a : ZSel) : (s.startStream a).crcreg = s.crcreg := rfl
@[simp] theorem startStream_out (s : State) (a : ZSel) : (s.startStream a).out = s.out := rfl

end Sys2Proof.Laws
end

