-- ==== Sys2Proof/Laws/Zlib.lean ====
section
/-! SUPPORT. The compressor's bit output and its reads: `ZBits` appends bits to the stream; the searches of `LZSTEP` are functions of
the input when it can be read; every hash of three bytes is some state's. -/

namespace Sys2Proof.Laws

open Sys2Proof Sys2Proof.Machine

/-! Bit output, 46_zlib_deflate.md R244. -/

theorem lsbBits_add (m n v : Nat) : lsbBits (m + n) v = lsbBits m v ++ lsbBits n (v / 2 ^ m) := by
  induction m generalizing v with
  | zero => simp [lsbBits]
  | succ m ih =>
    rw [show m + 1 + n = (m + n) + 1 by omega, lsbBits_cons, lsbBits_cons, ih, List.cons_append]
    congr 3
    rw [Nat.div_div_eq_div_mul, pow_succ, Nat.mul_comm]

theorem lsbBits_mod (n v : Nat) : lsbBits n (v % 2 ^ n) = lsbBits n v := by
  apply List.map_congr_left
  intro j hj
  simp only [List.mem_range] at hj
  simp [Nat.testBit_mod_two_pow, hj]

theorem lsbBits_byte (v : Nat) : lsbBits 8 (BitVec.ofNat 8 v).toNat = lsbBits 8 v := by
  rw [BitVec.toNat_ofNat, lsbBits_mod]

/-- Bits put above the pending ones. -/
theorem lsbBits_or_shift (a n z v : Nat) (h : z < 2 ^ a) : lsbBits (a + n) (z ||| v <<< a) = lsbBits a z ++ lsbBits n v := by
  rw [lsbBits_add]
  have h1 : (z ||| v <<< a) % 2 ^ a = z := by
    apply Nat.eq_of_testBit_eq
    intro i
    simp only [Nat.testBit_mod_two_pow, Nat.testBit_or, Nat.testBit_shiftLeft]
    by_cases hi : i < a
    · have : ¬ a ≤ i := by omega
      simp [hi, this]
    · have : z.testBit i = false := Nat.testBit_lt_two_pow (lt_of_lt_of_le h (Nat.pow_le_pow_right (by omega) (by omega)))
      simp [hi, this]
  have h2 : (z ||| v <<< a) / 2 ^ a = v := by
    rw [← Nat.shiftRight_eq_div_pow]
    apply Nat.eq_of_testBit_eq
    intro i
    have : z.testBit (a + i) = false :=
      Nat.testBit_lt_two_pow (lt_of_lt_of_le h (Nat.pow_le_pow_right (by omega) (by omega)))
    simp [Nat.testBit_shiftRight, Nat.testBit_or, Nat.testBit_shiftLeft, this]
  rw [h2]
  conv => lhs; rw [← lsbBits_mod, h1]

theorem or_shift_lt (a n z v : Nat) (hz : z < 2 ^ a) (hv : v < 2 ^ n) : (z ||| v <<< a) < 2 ^ (a + n) := by
  apply Nat.or_lt_two_pow
  · exact lt_of_lt_of_le hz (Nat.pow_le_pow_right (by omega) (by omega))
  · rw [Nat.shiftLeft_eq, pow_add, Nat.mul_comm (2 ^ a)]
    exact Nat.mul_lt_mul_of_pos_right hv (Nat.two_pow_pos a)

/-- The three fields of the bit output. -/
def withBits (s : State) (zbuf : List Byte) (zacc zaccn : Nat) : State := { s with zbuf := zbuf, zacc := zacc, zaccn := zaccn }

theorem drainByte_step {s : State} {m : Nat} (hc : s.caps.zbuf = none) (hn : s.zaccn = m + 8) (ha : s.zacc < 2 ^ s.zaccn) :
    ∃ t, drainByte s = .ok () t ∧ t = withBits s t.zbuf t.zacc m ∧ t.streamBits = s.streamBits ∧ t.zacc < 2 ^ m := by
  refine ⟨withBits s (s.zbuf ++ [BitVec.ofNat 8 s.zacc]) (s.zacc / 2 ^ 8) (s.zaccn - 8), ?_, ?_, ?_, ?_⟩
  · simp only [drainByte, get_bind]
    exact bind_ok (appendZbuf_unlimited _ hc)
  · simp [withBits, hn]
  · simp only [State.streamBits, withBits, List.flatMap_append, List.flatMap_cons, List.flatMap_nil, List.append_nil,
      lsbBits_byte, List.append_assoc]
    rw [hn, Nat.add_sub_cancel, Nat.add_comm m 8, lsbBits_add]
  · simp only [withBits]
    rw [hn, pow_add] at ha
    exact Nat.div_lt_of_lt_mul (by rw [Nat.mul_comm]; exact ha)

theorem drainBytes (k : Nat) : ∀ {s : State} {m : Nat}, s.caps.zbuf = none → s.zaccn = m + 8 * k → s.zacc < 2 ^ s.zaccn →
    ∃ t, repeatBody k drainByte s = .ok () t ∧ t = withBits s t.zbuf t.zacc m ∧ t.streamBits = s.streamBits ∧
      t.zacc < 2 ^ m := by
  induction k with
  | zero =>
    intro s m _ hn ha
    simp only [Nat.mul_zero, Nat.add_zero] at hn
    exact ⟨s, rfl, by rw [← hn]; rfl, rfl, hn ▸ ha⟩
  | succ k ih =>
    intro s m hc hn ha
    obtain ⟨u, hu, he, hs, hz⟩ := drainByte_step (m := m + 8 * k) hc (by omega) ha
    have hcu : u.caps.zbuf = none := by rw [he]; exact hc
    have hnu : u.zaccn = m + 8 * k := by rw [he]; rfl
    obtain ⟨t, ht, het, hst, hzt⟩ := ih hcu hnu (by rw [hnu]; exact hz)
    refine ⟨t, ?_, ?_, hst.trans hs, hzt⟩
    · rw [repeat_succ_apply, bind_ok hu, ht]
    · rw [het, he]; rfl

/-- What `ZBits(v, n)` does, when ZBUF has no capacity and the accumulator is in range: the `n` bits of `v` follow the stream. -/
theorem zBits_spec {s : State} {v n : Nat} (hc : s.caps.zbuf = none) (ha : s.zacc < 2 ^ s.zaccn) (hv : v < 2 ^ n) :
    ∃ t, zBits v n s = .ok () t ∧ t = withBits s t.zbuf t.zacc ((s.zaccn + n) % 8) ∧
      t.streamBits = s.streamBits ++ lsbBits n v ∧ t.zacc < 2 ^ ((s.zaccn + n) % 8) := by
  obtain ⟨t, ht, he, hs, hz⟩ := drainBytes ((s.zaccn + n) / 8)
    (s := { s with zacc := s.zacc ||| (v <<< s.zaccn), zaccn := s.zaccn + n }) (m := (s.zaccn + n) % 8) hc
    (by show s.zaccn + n = _; omega) (or_shift_lt _ _ _ _ ha hv)
  refine ⟨t, ?_, ?_, ?_, hz⟩
  · simp only [zBits, modify_bind, get_bind]
    exact ht
  · rw [he]; rfl
  · rw [hs]
    simp only [State.streamBits, lsbBits_or_shift _ _ _ _ ha, List.append_assoc]

theorem bitRev_lt (n v : Nat) : bitRev v n < 2 ^ n := by
  induction n generalizing v with
  | zero => simp [bitRev]
  | succ n ih =>
    have h1 := ih (v / 2)
    have h2 : v % 2 ≤ 1 := by omega
    have h3 : v % 2 * 2 ^ n ≤ 1 * 2 ^ n := Nat.mul_le_mul_right _ h2
    simp only [bitRev, pow_succ]
    omega

/-- Sending a reversed code low bit first sends the code high bit first. -/
theorem lsbBits_bitRev (n v : Nat) : lsbBits n (bitRev v n) = msbBits n v := by
  induction n generalizing v with
  | zero => rfl
  | succ n ih =>
    rw [msbBits_succ, ← ih, lsbBits_succ]
    have hlt := bitRev_lt n (v / 2)
    congr 1
    · rw [← lsbBits_mod n (bitRev v (n + 1))]
      congr 1
      simp only [bitRev]
      rw [Nat.add_comm, Nat.add_mul_mod_self_right, Nat.mod_eq_of_lt hlt]
    · simp only [bitRev, List.cons.injEq, and_true]
      rw [Nat.testBit_zero, Nat.testBit_eq_decide_div_mod_eq]
      have : (v % 2 * 2 ^ n + bitRev (v / 2) n) / 2 ^ n = v % 2 := by
        rw [Nat.add_comm, Nat.add_mul_div_right _ _ (Nat.two_pow_pos n), Nat.div_eq_of_lt hlt, Nat.zero_add]
      rw [this]
      simp

/-! Reads, 20_memory.md R65. -/

theorem dataAt_spec {s : State} {data : List Byte} (h : s.inputIs data = true) {j : Nat} (hj : j < data.length) :
    dataAt j s = .ok (data.getD j 0) s := by
  simp only [State.inputIs, Bool.and_eq_true, decide_eq_true_eq] at h
  unfold dataAt
  cases hz : s.zsrc with
  | fbuf =>
    simp only [hz, Bool.and_eq_true, decide_eq_true_eq] at h
    have e : s.fbuf[j]? = some (data.getD j 0) := by
      have h2 : data[j]? = (s.fbuf.take data.length)[j]? := by rw [h.2.2]
      rw [List.getElem?_take_of_lt hj] at h2
      rw [← h2, List.getD_eq_getElem?_getD, List.getElem?_eq_getElem hj]
      rfl
    simp [e]
  | src =>
    simp only [hz, List.all_eq_true, List.mem_range, decide_eq_true_eq] at h
    exact memRead_mapped (h.2 j hj)

theorem countEqual_spec {s : State} {data : List Byte} (h : s.inputIs data = true) (n : Nat) :
    ∀ p q, p < q → q + n ≤ data.length → countEqual n p q s = .ok (countOf data n p q) s := by
  induction n with
  | zero => intros; rfl
  | succ n ih =>
    intro p q hpq hq
    unfold countEqual countOf
    rw [bind_ok (dataAt_spec h (by omega)), bind_ok (dataAt_spec h (by omega))]
    split
    · rw [bind_ok (ih (p + 1) (q + 1) (by omega) (by omega))]
      rfl
    · rfl

theorem countOf_le (data : List Byte) (n p q : Nat) : countOf data n p q ≤ n := by
  induction n generalizing p q with
  | zero => exact Nat.le_refl _
  | succ n ih =>
    unfold countOf
    split
    · exact Nat.succ_le_succ (ih _ _)
    · exact Nat.zero_le _

/-- The bytes counted are equal. -/
theorem countOf_equal (data : List Byte) (n : Nat) : ∀ p q k, k < countOf data n p q →
    data.getD (p + k) 0 = data.getD (q + k) 0 := by
  induction n with
  | zero => intro p q k hk; simp [countOf] at hk
  | succ n ih =>
    intro p q k hk
    unfold countOf at hk
    split at hk
    · cases k with
      | zero => simpa using ‹data.getD p 0 = data.getD q 0›
      | succ k =>
        have := ih (p + 1) (q + 1) k (by omega)
        rwa [Nat.add_assoc, Nat.add_comm 1 k, Nat.add_assoc, Nat.add_comm 1 k] at this
    · omega

theorem searchMatch_spec {s : State} {data : List Byte} (h : s.inputIs data = true) {i : Nat} (hi : i ≤ data.length)
    (ps : List Nat) : ∀ best loc, (∀ p ∈ ps, p < i) →
    searchMatch i data.length ps best loc s =
      .ok (ps.foldl (fun acc p =>
        let d := countOf data (min (data.length - i) 258) p i
        if i < p + 32768 ∧ acc.1 ≤ d then (d, some p) else acc) (best, loc)) s := by
  induction ps with
  | nil => intros; rfl
  | cons p ps ih =>
    intro best loc hp
    have hps : ∀ p ∈ ps, p < i := fun x hx => hp x (List.mem_cons_of_mem _ hx)
    unfold searchMatch
    simp only [List.foldl_cons]
    split
    · rename_i hw
      have hw' : i < p + 32768 := hw
      rw [bind_ok (show zlibCount p i (data.length - i) s = .ok _ s from
        countEqual_spec h _ p i (hp p List.mem_cons_self) (by omega))]
      simp only [hw', true_and, Config.maxMatch]
      by_cases hb : best ≤ countOf data (min (data.length - i) 258) p i
      · refine (congrFun (if_pos hb) s).trans ?_
        simp only [if_pos hb]
        exact ih _ _ hps
      · refine (congrFun (if_neg hb) s).trans ?_
        simp only [if_neg hb]
        exact ih _ _ hps
    · rename_i hw
      have hw' : ¬ i < p + 32768 := hw
      simp only [hw', false_and, if_false]
      exact ih _ _ hps

theorem lazyBeaten_spec {s : State} {data : List Byte} (h : s.inputIs data = true) {i : Nat} (hi : i + 1 ≤ data.length)
    (best : Nat) (ps : List Nat) (hp : ∀ p ∈ ps, p < i + 1) :
    lazyBeaten i data.length best ps s = .ok (longerNext data i best ps) s := by
  induction ps with
  | nil => rfl
  | cons p ps ih =>
    have ih := ih fun x hx => hp x (List.mem_cons_of_mem _ hx)
    unfold lazyBeaten
    simp only [longerNext, List.any_cons]
    split
    · rename_i hw
      have hw' : i < p + 32767 := hw
      rw [bind_ok (show zlibCount p (i + 1) (data.length - i - 1) s = .ok _ s from
        countEqual_spec h _ p (i + 1) (hp p List.mem_cons_self) (by omega))]
      simp only [hw', decide_true, Bool.true_and, Config.maxMatch]
      by_cases hb : best < countOf data (min (data.length - i - 1) 258) p (i + 1)
      · refine (congrFun (if_pos hb) s).trans ?_
        simp only [hb, decide_true, Bool.true_or]
        rfl
      · refine (congrFun (if_neg hb) s).trans ?_
        simp only [hb, decide_false, Bool.false_or]
        exact ih
    · rename_i hw
      have hw' : ¬ i < p + 32767 := hw
      simp only [hw', decide_false, Bool.false_and, Bool.false_or]
      exact ih

/-- What step 1 of `LZSTEP` finds: no candidate, or one in the window whose common prefix is the best length, at least 3. -/
theorem bestMatch_spec (data : List Byte) (i : Nat) (ps : List Nat) (best loc : Nat)
    (h : bestMatch data i ps = (best, some loc)) :
    loc ∈ ps ∧ i < loc + 32768 ∧ 3 ≤ best ∧ best = countOf data (min (data.length - i) 258) loc i := by
  suffices key : ∀ (ps : List Nat) (acc : Nat × Option Nat), 3 ≤ acc.1 →
      let r := ps.foldl (fun acc p =>
        let d := countOf data (min (data.length - i) 258) p i
        if i < p + 32768 ∧ acc.1 ≤ d then (d, some p) else acc) acc
      3 ≤ r.1 ∧ (r = acc ∨ ∃ p ∈ ps, r = (countOf data (min (data.length - i) 258) p i, some p) ∧ i < p + 32768) by
    have := key ps (3, none) (Nat.le_refl 3)
    unfold bestMatch at h
    rw [h] at this
    obtain ⟨h3, h4 | ⟨p, hp, h4, hw⟩⟩ := this
    · cases h4
    · cases h4; exact ⟨hp, hw, h3, rfl⟩
  intro ps
  induction ps with
  | nil => intro acc ha; exact ⟨ha, .inl rfl⟩
  | cons p ps ih =>
    intro acc ha
    simp only [List.foldl_cons]
    by_cases hc : i < p + 32768 ∧ acc.1 ≤ countOf data (min (data.length - i) 258) p i
    · rw [if_pos hc]
      obtain ⟨h3, h4 | ⟨x, hx, h4, hw⟩⟩ := ih (countOf data (min (data.length - i) 258) p i, some p) (by show 3 ≤ countOf _ _ _ _; omega)
      · exact ⟨h3, .inr ⟨p, List.mem_cons_self, h4, hc.1⟩⟩
      · exact ⟨h3, .inr ⟨x, List.mem_cons_of_mem _ hx, h4, hw⟩⟩
    · rw [if_neg hc]
      obtain ⟨h3, h4 | ⟨x, hx, h4, hw⟩⟩ := ih acc ha
      · exact ⟨h3, .inl h4⟩
      · exact ⟨h3, .inr ⟨x, List.mem_cons_of_mem _ hx, h4, hw⟩⟩

/-! The hash, 46_zlib_deflate.md R233. -/

/-- With nothing listed the hash is the default. -/
@[simp] theorem hash3_default (b0 b1 b2 : Byte) : hash3 [] b0 b1 b2 = defaultHash3 b0 b1 b2 := rfl

/-- The bucket is one of 16384. -/
theorem bucketOf_lt (f : HashFunction) (b0 b1 b2 : Byte) : bucketOf f b0 b1 b2 < 16384 := Nat.mod_lt _ (by decide)

theorem hashKey_lt (b0 b1 b2 : Byte) : hashKey b0 b1 b2 < 2 ^ 24 := by
  have := b0.isLt; have := b1.isLt; have := b2.isLt
  unfold hashKey; omega

theorem keyBytes_hashKey (b0 b1 b2 : Byte) : keyBytes (hashKey b0 b1 b2) = (b0, b1, b2) := by
  have := b0.isLt; have := b1.isLt; have := b2.isLt
  simp only [keyBytes, hashKey, Prod.mk.injEq]
  refine ⟨?_, ?_, ?_⟩ <;> apply BitVec.eq_of_toNat_eq <;> rw [BitVec.toNat_ofNat] <;> omega

/-- The keys from `lo` on, `n` of them, at which `f` differs from the default. -/
def listFrom (f : Byte → Byte → Byte → Word) : Nat → Nat → HashFunction
  | 0, _ => []
  | n + 1, lo =>
    if f (keyBytes lo).1 (keyBytes lo).2.1 (keyBytes lo).2.2 =
        defaultHash3 (keyBytes lo).1 (keyBytes lo).2.1 (keyBytes lo).2.2 then listFrom f n (lo + 1)
    else (lo, f (keyBytes lo).1 (keyBytes lo).2.1 (keyBytes lo).2.2) :: listFrom f n (lo + 1)

theorem hashWfFrom_mono {f : HashFunction} {a b : Nat} (h : a ≤ b) (hf : f.wfFrom b = true) : f.wfFrom a = true := by
  cases f with
  | nil => rfl
  | cons p f =>
    simp only [HashFunction.wfFrom, Bool.and_eq_true, decide_eq_true_eq] at hf ⊢
    exact ⟨⟨⟨by omega, hf.1.1.2⟩, hf.1.2⟩, hf.2⟩

theorem listFrom_wf (f : Byte → Byte → Byte → Word) (n : Nat) : ∀ lo, lo + n ≤ 2 ^ 24 → (listFrom f n lo).wfFrom lo = true := by
  induction n with
  | zero => intros; rfl
  | succ n ih =>
    intro lo h
    unfold listFrom
    split
    · exact hashWfFrom_mono (Nat.le_succ lo) (ih _ (by omega))
    · simp only [HashFunction.wfFrom, Bool.and_eq_true, decide_eq_true_eq]
      exact ⟨⟨⟨Nat.le_refl _, by omega⟩, ‹_›⟩, ih _ (by omega)⟩

theorem listFrom_listed (f : Byte → Byte → Byte → Word) (n : Nat) : ∀ lo k,
    ((listFrom f n lo).listed k).getD (defaultHash3 (keyBytes k).1 (keyBytes k).2.1 (keyBytes k).2.2) =
      if lo ≤ k ∧ k < lo + n then f (keyBytes k).1 (keyBytes k).2.1 (keyBytes k).2.2
      else defaultHash3 (keyBytes k).1 (keyBytes k).2.1 (keyBytes k).2.2 := by
  induction n with
  | zero => intro lo k; simp only [listFrom, HashFunction.listed, Option.getD_none]; rw [if_neg (by omega)]
  | succ n ih =>
    intro lo k
    unfold listFrom
    by_cases hk : k = lo
    · subst hk
      rw [if_pos (show k ≤ k ∧ k < k + (n + 1) by omega)]
      split
      · rename_i hd
        rw [ih, if_neg (show ¬ (k + 1 ≤ k ∧ k < k + 1 + n) by omega), hd]
      · simp [HashFunction.listed]
    · have e : (lo ≤ k ∧ k < lo + (n + 1)) ↔ (lo + 1 ≤ k ∧ k < lo + 1 + n) := by omega
      simp only [e]
      split
      · exact ih _ _
      · simp only [HashFunction.listed, if_neg hk]; exact ih _ _

/-- Every function of three bytes is the hash of some state, in canonical form. -/
theorem hash3_any (f : Byte → Byte → Byte → Word) :
    ∃ l : HashFunction, l.wf = true ∧ ∀ b0 b1 b2, hash3 l b0 b1 b2 = f b0 b1 b2 := by
  refine ⟨listFrom f (2 ^ 24) 0, listFrom_wf f _ 0 (by omega), fun b0 b1 b2 => ?_⟩
  have := listFrom_listed f (2 ^ 24) 0 (hashKey b0 b1 b2)
  rw [if_pos ⟨Nat.zero_le _, by rw [Nat.zero_add]; exact hashKey_lt b0 b1 b2⟩] at this
  simp only [keyBytes_hashKey] at this
  exact this

end Sys2Proof.Laws
end

