-- ==== Sys2Proof/Tests/Slice0.lean ====
section
/-! SUPPORT. Tests: words written out from 30_encoding.md R90 to R97, ill-formed terms, single commands with results from
the spec's worked values, and for every statement a named witness of its hypotheses. -/

namespace Sys2Proof.Tests

open Sys2Proof Sys2Proof.Machine

set_option Elab.async false

/-! Decoding, R90 to R97, R42: op in bits [7:0], a in [15:8], b in [31:16], imm in [63:32]. -/

/-- Vector Y1. -/
theorem test_decode_wrreg : decode 0xFFFFFFFB00000401 = .ok (.wrreg .quality 0xFFFFFFFB) := by decide
/-- Vector Y1. -/
theorem test_decode_wrreg_ctype : decode 0x4944415400001001 = .ok (.wrreg .ctype 0x49444154) := by decide
/-- Vector Y1: the index is in `b`. -/
theorem test_decode_rdreg : decode 0x0000000000054402 = .ok (.rdreg (.arr .du) 5) := by decide
/-- Program P1, row 11: `DC[0]` is register 0x2D. -/
theorem test_decode_rdreg_dc : decode 0x0000000000002D02 = .ok (.rdreg (.ro (.dc .y)) 0) := by decide
theorem test_decode_validate : decode 0x0000000000000003 = .ok .validate := by decide
theorem test_decode_sreset : decode 0x0000000000000004 = .ok .sreset := by decide
theorem test_decode_jqinit : decode 0x0000000000000010 = .ok .jqinit := by decide
theorem test_decode_jinit : decode 0x0000000000000011 = .ok .jinit := by decide
theorem test_decode_jhdr : decode 0x0000000000000012 = .ok .jhdr := by decide
theorem test_decode_rgb2yuv : decode 0x0000000000000013 = .ok .rgb2yuv := by decide
theorem test_decode_gray2y : decode 0x0000000000000014 = .ok .gray2y := by decide
theorem test_decode_yuvload : decode 0x0000000000000015 = .ok .yuvload := by decide
theorem test_decode_csub : decode 0x0000000000000016 = .ok .csub := by decide
/-- Vector Y1: block 4 is `UC`. -/
theorem test_decode_fdct : decode 0x0000000000000417 = .ok (.fdct .uc) := by decide
theorem test_decode_qzz : decode 0x0000000000000118 = .ok (.qzz .chroma) := by decide
theorem test_decode_jhuf : decode 0x0000000000000219 = .ok (.jhuf .v) := by decide
theorem test_decode_jpdu : decode 0x000000000000011A = .ok (.jpdu .u) := by decide
theorem test_decode_jgrayuv : decode 0x000000000000001B = .ok .jgrayuv := by decide
/-- Vector Y1. -/
theorem test_decode_bpush : decode 0x0000FFFE0010001C = .ok (.bpush 16 0xFFFE) := by decide
theorem test_decode_bflush : decode 0x000000000000001D = .ok .bflush := by decide
theorem test_decode_jwblk : decode 0x000000000000001E = .ok .jwblk := by decide
theorem test_decode_jrow : decode 0x000000000000001F = .ok .jrow := by decide
theorem test_decode_jfin : decode 0x0000000000000020 = .ok .jfin := by decide
/-- Vector Y1. -/
theorem test_decode_jenc : decode 0x0000000000000021 = .ok .jenc := by decide
theorem test_decode_pfilt : decode 0x0000000000000030 = .ok .pfilt := by decide
theorem test_decode_zbegin : decode 0x0000000000000331 = .ok (.zbegin .src) := by decide
theorem test_decode_lzstep : decode 0x0000000000000032 = .ok .lzstep := by decide
theorem test_decode_zemit : decode 0x0000000000000033 = .ok .zemit := by decide
theorem test_decode_zend : decode 0x0000000000000034 = .ok .zend := by decide
/-- Program P2, row 13. -/
theorem test_decode_zcomp : decode 0x0000000000000035 = .ok (.zcomp .fbuf) := by decide
theorem test_decode_adler : decode 0x0000000000000336 = .ok (.adler .src) := by decide
/-- Program P3, row 3. -/
theorem test_decode_crc32 : decode 0x0000000000000340 = .ok (.crc32 .src) := by decide
/-- Vector Y1. -/
theorem test_decode_crcchk : decode 0xCBF4392600000041 = .ok (.crcchk 0xCBF43926) := by decide
/-- Program P2, row 8. -/
theorem test_decode_psig : decode 0x0000000000000042 = .ok .psig := by decide
/-- Program P2, row 15. -/
theorem test_decode_pchunk : decode 0x0000000000000243 = .ok (.pchunk .zbuf) := by decide
theorem test_decode_penc : decode 0x0000000000000044 = .ok .penc := by decide

/-- Words R91 and R93 refuse: an undefined opcode, a read-only id, reserved ids, unused fields, selectors out of range, a wide
length (vectors Y2, Y3, X4). -/
theorem test_decode_refused :
    [0x05, 0xFF, 0x2001, 0x0701, 0x1101, 0x10001, 0x404402, 0x10002, 0x3402, 0x4602, 0x100000002, 0x104, 0x617, 0x218, 0x319,
      0x11001C, 0x131, 0x440, 0x343, 0x100000021].all
      (fun n => (decodeTableWord 64 n).isNone) = true := by decide

/-! Ill-formed terms, which each check of `Instr.wf` refuses. -/

theorem test_illformed_scalar_index : (Instr.rdreg (.rw .width) 1).wf = false ∧ (Instr.rdreg (.ro .zlen) 1).wf = false := by decide
theorem test_illformed_array_index : (Instr.rdreg (.arr .du) 64).wf = false ∧ (Instr.rdreg (.arr .du) 63).wf = true := by decide
theorem test_illformed_push_length : (Instr.bpush 17 0).wf = false ∧ (Instr.bpush 16 0).wf = true := by decide

/-! Small states. -/

/-- Does a command give a next state with the property? -/
def gives (i : Instr) (s : State) (p : State → Bool) : Bool :=
  match exec i s with
  | .next t => p t
  | .fault _ => false
  | .refused _ => false

/-- Did it take the fault with this code and opcode byte (R302)? -/
def faulted (code op : Word) (t : State) : Bool := decide (t.phase = .failed ∧ t.fail = code ∧ t.finfo = op ∧ t.out = [])

/-- A black 1×1 gray image, quality 75, to be a JPEG. -/
def grayIdle : State := { State.reset with width := 1, height := 1, pixfmt := 1, filetype := 5, quality := 75, src := [(0, 0)] }

/-- The same with no subsampling, after its header. -/
def grayFull : State := { grayIdle with quality := 95, quant := some (quantOf { grayIdle with quality := 95 }), phase := .jHdr }

/-- The subsampled one after its header. -/
def grayHdr : State := { grayIdle with quant := some (quantOf grayIdle), phase := .jHdr }

/-- A 1×1 RGB image with the pixel (12, 34, 56). -/
def colourIdle : State :=
  { State.reset with width := 1, height := 1, pixfmt := 4, filetype := 5, quality := 75, src := [(0, 12), (1, 34), (2, 56)] }

def colourHdr : State := { colourIdle with quant := some (quantOf colourIdle), phase := .jHdr }

/-- The same with no subsampling. -/
def fullHdr : State := { colourIdle with quality := 95, quant := some (quantOf { colourIdle with quality := 95 }), phase := .jHdr }

/-- A 2×2 NV12 image; all strides are 0. -/
def planarIdle : State :=
  { State.reset with width := 2, height := 2, srckind := 1, yuvtype := 1, filetype := 5, quality := 75, src1Base := 2,
                     src := [(0, 128), (1, 0), (2, 130), (3, 120)] }

def planarHdr : State := { planarIdle with quant := some (quantOf planarIdle), phase := .jHdr }

/-- The 1×1 gray image of R268 example 2, to be a PNG. -/
def pngIdle : State := { State.reset with width := 1, height := 1, pixfmt := 1, filetype := 4, quality := 8, src := [(0, 0x80)] }

def pngHdr : State := { pngIdle with phase := .pHdr }

/-- Bytes laid out in SRC from an address on. -/
def cells : Nat → List Byte → List Host.Cell
  | _, [] => []
  | a, b :: bs => (a, b) :: cells (a + 1) bs

/-- A stream begun over FBUF with quality 8. -/
def zRun (data : List Byte) : State :=
  { State.reset with fbuf := data, zlen := BitVec.ofNat 32 data.length, zq := 8, zph := .run, zbuf := [0x78, 0x5E], zacc := 3,
                     zaccn := 3 }

/-! System operations. -/

/-- R280: `WRREG QUALITY, 0xFFFFFFFF` sets `QUALITY = -1`. -/
theorem test_wrreg_signed : gives (.wrreg .quality 0xFFFFFFFF) State.reset (fun t => decide (t.quality.toInt = -1)) = true := by decide +kernel
/-- Y2: `WRREG PIXFMT, 8` in `J_INIT` is `SeqFault`, in `IDLE` `IllegalOp`. -/
theorem test_wrreg_order : gives (.wrreg .pixfmt 8) { State.reset with phase := .jInit } (faulted 7 0x01) = true ∧
    gives (.wrreg .pixfmt 8) State.reset (faulted 13 0x01) = true := by decide +kernel
/-- X3: the status after a fault with `QVALID` set. -/
theorem test_rdreg_status : gives (.rdreg (.ro .status) 0) { grayHdr with phase := .failed } (fun t => decide (t.resp = 0x44F)) = true := by
  decide +kernel
/-- Y3: `JCFG` is unwritten after reset. -/
theorem test_rdreg_unwritten : gives (.rdreg (.ro .jcfg) 0) State.reset (faulted 7 0x02) = true := by decide +kernel
/-- R303: a planar source of width 3 with no YUV standard is code 4. -/
theorem test_validate_odd : gives .validate { State.reset with width := 3, height := 4, srckind := 1, filetype := 5 }
    (faulted 4 0x03) = true := by decide +kernel
/-- Y4. -/
theorem test_validate_passes : gives .validate { State.reset with width := 65536, height := 1, pixfmt := 1, filetype := 4 }
    (fun t => decide (t.phase = .idle ∧ t.fail = 0)) = true := by decide +kernel
/-- R283. -/
theorem test_sreset : gives .sreset { grayIdle with phase := .failed, fail := 7 }
    (fun t => decide (t.phase = .idle ∧ t.fail = 0 ∧ t.width = 0 ∧ t.src = [(0, 0)])) = true := by decide +kernel

/-! JPEG. -/

/-- R139: quality 75, width 17. -/
theorem test_jqinit : gives .jqinit { State.reset with quality := 75, width := 17 } (fun t => match t.quant with
    | some q => decide (q.awidth = 32 ∧ q.subsample = true ∧ q.uy[0] = 8 ∧ q.uuv[0] = 9 ∧ q.fy[0] = 0x3C800001 ∧ q.fy[63] = 0x3D06860B)
    | none => false) = true := by decide +kernel
/-- R139: quality 95, width 17. -/
theorem test_jqinit_full : gives .jqinit { State.reset with quality := 95, width := 17 } (fun t => match t.quant with
    | some q => decide (q.awidth = 24 ∧ q.subsample = false ∧ q.wbvar = .full)
    | none => false) = true := by decide +kernel
/-- R201. -/
theorem test_jinit : gives .jinit { grayIdle with bb := [{ value := 1, len := 1 }] }
    (fun t => decide (t.phase = .jInit ∧ t.bb = [] ∧ t.quant.isSome)) = true := by decide +kernel
/-- R205, R212: the frame header of a 16×16 image at quality 75, and the length of the header. -/
theorem test_jhdr : gives .jhdr { grayHdr with phase := .jInit, width := 16, height := 16 } (fun t => decide (t.out.length = 607 ∧
    (t.out.drop 154).take 19 = [0xFF, 0xC0, 0x00, 0x11, 0x08, 0x00, 0x10, 0x00, 0x10, 0x03, 0x01, 0x22, 0x00, 0x02, 0x11, 0x01,
      0x03, 0x11, 0x01])) = true := by decide +kernel
/-- R182: (12, 34, 56); the replicated corner has the same value. -/
theorem test_rgb2yuv : gives .rgb2yuv fullHdr (fun t => decide (element t.yp 0 = some 0xC2C423D7 ∧ element t.uc 0 = some 0x416B6580 ∧
    element t.vc 63 = some 0xC14C9F02)) = true := by decide +kernel
/-- R182: with the BGR order the channels are exchanged. -/
theorem test_rgb2yuv_bgr : gives .rgb2yuv { fullHdr with pixfmt := 2, src := [(0, 56), (1, 34), (2, 12)] }
    (fun t => decide (element t.yp 17 = some 0xC2C423D7)) = true := by decide +kernel
/-- R183: black is -128. -/
theorem test_gray2y : gives .gray2y grayFull (fun t => decide (element t.yp (16 * 7 + 7) = some 0xC3000000 ∧ element t.yp 8 = none)) = true := by decide +kernel
/-- R184: 128 is 0, 0 is -128; U comes before V in a pair: 130 is 2, 120 is -8. -/
theorem test_yuvload : gives .yuvload planarHdr (fun t => decide (element t.yp 0 = some 0 ∧ element t.yp 1 = some 0xC3000000 ∧
    element t.uc 0 = some 0x40000000 ∧ element t.vc 63 = some 0xC1000000)) = true := by decide +kernel
/-- A chroma plane whose first 2×2 box is that of R185. -/
def boxPlane : Vector (Option F32) 256 := Vector.ofFn fun n => some
  (if n.val = 0 then 0xC22C1D64 else if n.val = 16 then 0x416B6580 else if n.val = 17 then 0xC2277EFA else 0)
/-- R185: the four `u` values average to C18C617F. -/
theorem test_csub : gives .csub { colourHdr with up := boxPlane, vp := Vector.replicate 256 (some 0) }
    (fun t => decide (element t.uc 0 = some 0xC18C617F ∧ element t.vc 63 = some 0)) = true := by decide +kernel
/-- R145: a constant block of -128 has the first coefficient -8192 and the others zero. -/
theorem test_fdct : gives (.fdct .y3) { grayHdr with yp := Vector.replicate 256 (some 0xC3000000) }
    (fun t => decide (element t.cdu 0 = some 0xC6000000 ∧ element t.cdu 1 = some 0 ∧ element t.cdu 63 = some 0)) = true := by
  decide +kernel
/-- The transform of a black block. -/
def blackCdu : Vector (Option F32) 64 := Vector.ofFn fun n => some (if n.val = 0 then 0xC6000000 else 0)
/-- R150: -8192 times 3C800001 rounds to -128. -/
theorem test_qzz : gives (.qzz .luma) { grayHdr with cdu := blackCdu }
    (fun t => decide (element t.du 0 = some (-128) ∧ element t.du 1 = some 0)) = true := by decide +kernel
/-- A data unit from its non-zero entries. -/
def unit (l : List (Nat × Int)) : Vector (Option Word) 64 := Vector.ofFn fun z => some (BitVec.ofInt 32 ((l.lookup z.val).getD 0))
/-- R168 example 4: runs of 19 and 42, and no end of block. -/
theorem test_jhuf_runs : gives (.jhuf .y) { grayHdr with du := unit [(20, 3), (63, -1)] } (fun t => decide (t.bb.map (fun p => (p.value, p.len)) =
    [(0, 2), (0x7F9, 11), (0x1F7, 9), (3, 2), (0x7F9, 11), (0x7F9, 11), (0x1FA, 9), (0, 1)])) = true := by decide +kernel
/-- R168 example 5: a difference of 3, a run of 39, and the end of block. -/
theorem test_jhuf_diff : gives (.jhuf .y) { grayHdr with du := unit [(0, 5), (40, 1)], dc := { y := 2, u := 0, v := 0 } }
    (fun t => decide (t.dc.y = 5 ∧ t.bb.map (fun p => (p.value, p.len)) =
      [(3, 3), (3, 2), (0x7F9, 11), (0x7F9, 11), (0xFA, 8), (1, 1), (0xA, 4)])) = true := by decide +kernel
/-- R168 example 2. -/
theorem test_jpdu : gives (.jpdu .y) { grayHdr with cdu := blackCdu } (fun t => decide (t.dc.y = -128 ∧
    t.bb.map (fun p => (p.value, p.len)) = [(0x3E, 6), (0x7F, 8), (0xA, 4)])) = true := by decide +kernel
/-- R160. -/
theorem test_jgrayuv : gives .jgrayuv grayHdr (fun t => decide (t.bb = List.replicate 4 { value := 0, len := 2 })) = true := by
  decide +kernel
/-- R161: the value is masked to its length. -/
theorem test_bpush : gives (.bpush 3 0xFF) State.reset (fun t => decide (t.bb = [{ value := 7, len := 3 }])) = true := by decide +kernel
/-- R161: a pair of length 0 takes a slot. -/
theorem test_bpush_empty : gives (.bpush 0 0xFFFF) State.reset (fun t => decide (t.bb = [{ value := 0, len := 0 }])) = true := by decide +kernel
/-- R163: pairs (3E,6), (7F,8), (A,4). -/
theorem test_bflush : gives .bflush { State.reset with phase := .jHdr, bb := [⟨0x3E, 6⟩, ⟨0x7F, 8⟩, ⟨0xA, 4⟩] }
    (fun t => decide (t.out = [0xF9, 0xFE] ∧ t.jacc = 2 ∧ t.jaccn = 2 ∧ t.bb = [])) = true := by decide +kernel
/-- R164: pairs (7,3), (FFFE,16), (1F,5). -/
theorem test_bflush_stuffing : gives .bflush { State.reset with phase := .jHdr, bb := [⟨7, 3⟩, ⟨0xFFFE, 16⟩, ⟨0x1F, 5⟩] }
    (fun t => decide (t.out = [0xFF, 0x00, 0xFF, 0x00, 0xDF])) = true := by decide +kernel
/-- R188, R160: a black macroblock with no subsampling is one data unit and the gray placeholder. At quality 95 the DC quantiser is 2
(R133), so the DC coefficient is -512. -/
theorem test_jwblk : gives .jwblk grayFull (fun t => decide (t.phase = .jBody ∧ t.mbx = 0 ∧ t.mby = 1 ∧ t.dc.y = -512 ∧
    t.bb.length = 7)) = true := by decide +kernel
/-- A pure blue 1×1 image at quality 100, after its header. -/
def blueHdr : State :=
  { colourIdle with quality := 100, src := [(0, 0), (1, 0), (2, 255)], quant := some (quantOf { colourIdle with quality := 100 }),
                    phase := .jHdr }

/-- R182, R139, R150: `u` is 127.5 everywhere and the quantiser is 1, so `DC[1]` is 1020. -/
theorem test_jwblk_blue : gives .jwblk blueHdr (fun t => decide (t.phase = .jBody ∧ t.dc.u = 1020)) = true := by decide +kernel
/-- X2: an unmapped byte met by `JWBLK`, `JROW` and `JENC`. -/
theorem test_jwblk_unmapped : gives .jwblk { grayHdr with src := [] } (faulted 11 0x1E) = true := by decide +kernel
/-- R208: the one row band. -/
theorem test_jrow : gives .jrow grayFull (fun t => decide (t.phase = .jBody ∧ t.mbx = 0 ∧ t.mby = 1 ∧ t.dc.y = -512)) = true := by
  decide +kernel
theorem test_jrow_unmapped : gives .jrow { grayHdr with src := [] } (faulted 11 0x1F) = true := by decide +kernel
/-- R104 to R107, R152, R209: FE in 8 bits, 511 in 10, A in 4, eight zeros, and two ones of the filler; then the marker. -/
theorem test_jenc : gives .jenc { grayIdle with quality := 95 } (fun t => decide (t.phase = .jDone ∧ t.out.length = 613 ∧
    t.out.drop 607 = [0xFE, 0x7F, 0xE8, 0x03, 0xFF, 0xD9])) = true := by decide +kernel
theorem test_jenc_unmapped : gives .jenc { grayIdle with src := [] } (faulted 11 0x21) = true := by decide +kernel
/-- A scan of four pending bits after the last row band. -/
def grayEnd : State := { grayHdr with phase := .jBody, mby := 1, jacc := 0, jaccn := 4 }
/-- R209, R212: the last byte `0000` and four ones, then the marker. -/
theorem test_jfin : gives .jfin grayEnd (fun t => decide (t.phase = .jDone ∧ t.out = [0x0F, 0xFF, 0xD9] ∧ t.jaccn = 0)) = true := by
  decide +kernel
/-- R209: with no bit pending no byte is added. -/
theorem test_jfin_aligned : gives .jfin { grayEnd with jaccn := 0 } (fun t => decide (t.out = [0xFF, 0xD9])) = true := by decide +kernel
/-! PNG. -/

/-- R229 example 1. -/
theorem test_pfilt : gives .pfilt { pngHdr with width := 8, height := 2, row := 1, src0Stride := 8, src := (cells 0 [5, 25, 25, 45, 45, 65, 65, 85, 10, 20, 30, 40, 50, 60, 70, 80]) }
    (fun t => decide (t.fbuf = [0x02, 0x05, 0xFB, 0x05, 0xFB, 0x05, 0xFB, 0x05, 0xFB] ∧ t.row = 2 ∧ t.phase = .pBody)) = true := by
  decide +kernel
/-- R229 example 2, row 0: a tie goes to type 0. -/
theorem test_pfilt_tie : gives .pfilt { pngHdr with width := 4, height := 4, pixfmt := 4, src0Stride := 12, src := (cells 0 [0xFF, 0, 0, 0xFF, 0, 0, 0, 0, 0, 0, 0, 0]) }
    (fun t => decide (t.fbuf = [0, 0xFF, 0, 0, 0xFF, 0, 0, 0, 0, 0, 0, 0, 0])) = true := by decide +kernel
/-- R231, R232: the header, and quality below 5. -/
theorem test_zbegin : gives (.zbegin .fbuf) { State.reset with fbuf := [1, 2], quality := 0xFFFFFFFF }
    (fun t => decide (t.zbuf = [0x78, 0x5E] ∧ t.zlen = 2 ∧ t.zq = 5 ∧ t.zacc = 3 ∧ t.zaccn = 3 ∧ t.zph = .run)) = true := by decide +kernel
/-- The bucket of "aaa" is 15996 (R233). -/
def aState : State := { zRun (List.replicate 10 0x61) with ht := [(15996, [0])], zi := 1 }
/-- R251 example 4: at position 1 a match of length 9 and distance 1. -/
theorem test_lzstep : gives .lzstep aState (fun t => decide (t.token = some (.copy 9 1) ∧ t.zi = 10 ∧ t.ht = [(15996, [0, 1])])) = true := by
  decide +kernel
/-- R233: with a hash that sends "aaa" to bucket 5 the positions recorded in bucket 15996 are not candidates. -/
theorem test_lzstep_hash : gives .lzstep { aState with hash3 := [(0x616161, 0x10005)] }
    (fun t => decide (t.token = some (.lit 0x61) ∧ t.zi = 2 ∧ t.ht = [(5, [1]), (15996, [0])])) = true := by decide +kernel
/-- R233: values of the default. -/
theorem test_hash_default : hash3 [] 0x61 0x62 0x63 = 0x04EAF783 ∧ bucketOf [] 0x61 0x61 0x61 = 15996 := by decide +kernel
/-- R251 example 2: the tail is literal. -/
theorem test_lzstep_tail : gives .lzstep (zRun [0x61]) (fun t => decide (t.token = some (.lit 0x61) ∧ t.zi = 1)) = true := by decide +kernel
/-- R251 example 2: after the header bits the first byte is 4B, and 0, 0, 1 are pending. -/
theorem test_zemit : gives .zemit { zRun [0x61] with token := some (.lit 0x61), zi := 1 }
    (fun t => decide (t.zbuf = [0x78, 0x5E, 0x4B] ∧ t.zacc = 4 ∧ t.zaccn = 3 ∧ t.token = none)) = true := by decide +kernel
/-- R242, R243: length 41 is symbol 273 (0010001) with 3 extra bits of value 6, distance 258 is code 16 with 7 extra bits of value 1;
as bits 0010001 011 10000 1000000. -/
theorem test_zemit_copy :
    gives .zemit { zRun [] with token := some (.copy 41 258), zacc := 0, zaccn := 0, zbuf := [] }
    (fun t => decide (t.streamBits = [false, false, true, false, false, false, true, false, true, true, true, false, false, false, false,
      true, false, false, false, false, false, false])) = true := by decide +kernel
/-- R251 example 2. -/
theorem test_zend : gives .zend { zRun [0x61] with zbuf := [0x78, 0x5E, 0x4B], zacc := 4, zaccn := 3, zi := 1 }
    (fun t => decide (t.zbuf = [0x78, 0x5E, 0x4B, 0x04, 0x00, 0x00, 0x62, 0x00, 0x62] ∧ t.adlreg = 0x00620062 ∧ t.zph = .done)) = true := by
  decide +kernel
/-- R251 example 5: "abcabcabcabc". -/
theorem test_zcomp : gives (.zcomp .fbuf) { State.reset with
      quality := 8
      fbuf := [0x61, 0x62, 0x63, 0x61, 0x62, 0x63, 0x61, 0x62, 0x63, 0x61, 0x62, 0x63] }
    (fun t => decide (t.zbuf = [0x78, 0x5E, 0x4B, 0x4C, 0x4A, 0x86, 0x23, 0x00, 0x1D, 0xE0, 0x04, 0x99])) = true := by decide +kernel
/-- R251 example 7: "abc_bcde_abcde", where the lazy check discards a match. -/
theorem test_zcomp_lazy : gives (.zcomp .src) { State.reset with
      quality := 8
      clen := 14
      src := (cells 0 [0x61, 0x62, 0x63, 0x5F, 0x62, 0x63, 0x64, 0x65, 0x5F, 0x61, 0x62, 0x63, 0x64, 0x65]) }
    (fun t => decide (t.zbuf = [0x78, 0x5E, 0x4B, 0x4C, 0x4A, 0x8E, 0x4F, 0x4A, 0x4E, 0x49, 0x8D, 0x4F, 0x04, 0x91, 0x00, 0x28, 0x3E,
      0x05, 0x62])) = true := by decide +kernel
/-- R246: "Wikipedia". -/
theorem test_adler : gives (.adler .fbuf) { State.reset with fbuf := [0x57, 0x69, 0x6B, 0x69, 0x70, 0x65, 0x64, 0x69, 0x61] }
    (fun t => decide (t.adlreg = 0x11E60398)) = true := by decide +kernel
/-- R246: empty input. -/
theorem test_adler_empty : gives (.adler .src) State.reset (fun t => decide (t.adlreg = 1)) = true := by decide +kernel
/-- R260: "123456789", the top of the address space included. -/
theorem test_crc32 : gives (.crc32 .src) { State.reset with
      cbase := 0xFFFFFFFF
      clen := 9
      src := (cells 0 [0x32, 0x33, 0x34, 0x35, 0x36, 0x37, 0x38, 0x39] ++ [(0xFFFFFFFF, 0x31)]) }
    (fun t => decide (t.crcreg = 0xCBF43926)) = true := by decide +kernel
/-- C2: the tag "IEND" alone. -/
theorem test_crc32_tag : gives (.crc32 .tag) { State.reset with ctype := 0x49454E44 }
    (fun t => decide (t.crcreg = 0xAE426082)) = true := by decide +kernel
/-- C2. -/
theorem test_crcchk : gives (.crcchk 0xCBF43926) { State.reset with crcreg := 0xCBF43926 } (fun t => t.crcok) = true ∧
    gives (.crcchk 0xCBF43927) { State.reset with crcreg := 0xCBF43926, crcok := true } (fun t => !t.crcok && decide (t.fail = 0)) = true := by
  decide +kernel
/-- R268 example 2. -/
theorem test_psig : gives .psig pngIdle (fun t => decide (t.phase = .pHdr ∧ t.out = [0x89, 0x50, 0x4E, 0x47, 0x0D, 0x0A, 0x1A, 0x0A,
    0x00, 0x00, 0x00, 0x0D, 0x49, 0x48, 0x44, 0x52, 0x00, 0x00, 0x00, 0x01, 0x00, 0x00, 0x00, 0x01, 0x08, 0x00, 0x00, 0x00, 0x00,
    0x3A, 0x7E, 0x9B, 0x55])) = true := by decide +kernel
/-- R267: the IEND chunk. -/
theorem test_pchunk : gives (.pchunk .empty) { pngHdr with ctype := 0x49454E44 } (fun t => decide (t.phase = .pDone ∧
    t.out = [0x00, 0x00, 0x00, 0x00, 0x49, 0x45, 0x4E, 0x44, 0xAE, 0x42, 0x60, 0x82])) = true := by decide +kernel
/-- R268 example 2: 67 bytes; the part after IHDR. -/
theorem test_penc : gives .penc pngIdle (fun t => decide (t.phase = .pDone ∧ t.out.length = 67 ∧ t.out.drop 33 = [0x00, 0x00, 0x00,
    0x0A, 0x49, 0x44, 0x41, 0x54, 0x78, 0x5E, 0x63, 0x68, 0x00, 0x00, 0x00, 0x82, 0x00, 0x81, 0xE1, 0xFC, 0x59, 0x78, 0x00, 0x00,
    0x00, 0x00, 0x49, 0x45, 0x4E, 0x44, 0xAE, 0x42, 0x60, 0x82])) = true := by decide +kernel

/-! The step. -/

def stepGives (s : State) (p : State → Bool) : Bool :=
  match step s with
  | .next t => p t
  | .fault _ => false
  | .refused _ => false

/-- X2: an undefined opcode. -/
theorem test_step_undefined : stepGives { State.reset with cmds := [0x05] } (faulted 13 0x05) = true := by decide +kernel
/-- R309: the engine waits for a command. -/
theorem test_step_waits : step State.reset = .next State.reset := rfl
/-- R284: the word placed is the next one taken. -/
theorem test_step_fetches : stepGives (State.reset.withFetchWord 64 0x0000001000000001) (fun t => decide (t.width = 16 ∧ t.cmds = [])) = true := by
  decide +kernel

/-! Witnesses: for each statement with hypotheses, concrete values that meet all of them together. -/

theorem witness_DecodeEncode : (Instr.bpush 16 0xFFFF).wf = true ∧ (Instr.rdreg (.arr .cdu) 63).wf = true := by decide

theorem witness_EncodeDecode : decode 0x0000FFFE0010001C = .ok (.bpush 16 0xFFFE) := by decide

/-- A word that decodes, one with an undefined opcode, one with an unused field set, one with a selector out of range. -/
theorem witness_StepTakesCommand : (∃ s : State, s.cmds = [0x04] ∧ decode 0x04 = .ok .sreset) ∧
    decode 0xFF = .error .undefinedOpcode ∧ decode 0x0104 = .error .unusedField ∧ decode 0x0617 = .error .operandRange :=
  ⟨⟨{ State.reset with cmds := [0x04] }, by decide⟩, by decide⟩

def failedState : State := { State.reset with phase := .failed, fail := 7, finfo := 0x20, cmds := [0xFF, 0x21] }

/-- An undefined opcode, and `JENC`, met in `FAILED`. -/
theorem witness_FailedIsAbsorbing : failedState.phase = .failed ∧ failedState.cmds = 0xFF :: [0x21] ∧
    (∀ r b, decode 0xFF ≠ .ok (.rdreg r b)) ∧ decode 0xFF ≠ .ok .sreset ∧
    (∀ r b, decode 0x21 ≠ .ok (.rdreg r b)) ∧ decode 0x21 ≠ .ok .sreset := by
  refine ⟨rfl, rfl, ?_, by decide, ?_, by decide⟩ <;> intro r b h
  · rw [show decode 0xFF = .error .undefinedOpcode by decide] at h; cases h
  · rw [show decode 0x21 = .ok .jenc by decide] at h; cases h

theorem witness_FaultRecord : State.reset.phase ≠ .failed ∧ ∃ t, exec .jfin State.reset = .next t ∧ t.phase = .failed :=
  ⟨by decide, _, rfl, rfl⟩

theorem witness_PhaseChecked : Instr.jfin.wf = true ∧ State.reset.phase ≠ .failed ∧ legalPhase .jfin State.reset.phase = false := by
  decide

theorem jpegConfigInv_idle {s : State} (h : s.phase.isJpeg = false) : JpegConfigInv s := fun hp => absurd hp (by simp [h])

theorem witness_PhaseAfterCommand : JpegConfigInv State.reset ∧ State.reset.phase ≠ .failed ∧
    ∃ t, exec .jqinit State.reset = .next t ∧ t.phase ≠ .failed :=
  ⟨jpegConfigInv_idle rfl, by decide, _, rfl, by decide⟩

/-- Each clause: a 3-bit register given 8; a conversion with no tables, another source or another variant; a header with no tables;
a macroblock past the last row band and a row band begun inside one; a failing check; a wrong file type; a compressor out of
step. -/
theorem witness_TrapsBeforeAnyWrite :
    (State.reset.phase = .idle ∧ 2 ^ wregBits .pixfmt ≤ (8 : Word).toNat) ∧
    (grayFull.phase.allowsKernel = true ∧ grayFull.pixfmt ∉ [2, 3, 4, 5] ∧ colourHdr.pixfmt ≠ 1 ∧
      colourHdr.phase.allowsKernel = true ∧ grayFull.srckind ≠ 1 ∧ grayFull.srckind ≠ 2 ∧ State.reset.quant = none) ∧
    (fullHdr.phase.allowsKernel = true ∧ fullHdr.quant = some (quantOf fullHdr) ∧ (quantOf fullHdr).wbvar ≠ .subs) ∧
    (∃ s : State, s.phase = .jInit ∧ s.quant = none) ∧
    (grayEnd.phase.allowsScan = true ∧ grayEnd.quant = some (quantOf grayEnd) ∧
      bandCount grayEnd (quantOf grayEnd) ≤ grayEnd.mby.toNat ∧ ∃ s : State, s.phase.allowsScan = true ∧ s.mbx ≠ 0) ∧
    (checkFault State.reset = some .paramZeroDim ∧ checkFault grayIdle = none ∧ grayIdle.phase = .idle ∧ grayIdle.filetype ≠ 4) ∧
    (State.reset.zph ≠ .run ∧ (zRun []).zlen.toNat ≤ (zRun []).zi.toNat ∧ (zRun []).token = none ∧
      (zRun [1]).zi ≠ (zRun [1]).zlen) :=
  ⟨by decide +kernel, by decide +kernel, by decide +kernel, ⟨{ State.reset with phase := .jInit }, by decide⟩,
    ⟨by decide, rfl, by decide +kernel, { grayEnd with mbx := 1 }, by decide⟩, by decide +kernel, by decide +kernel⟩

def noSource : State := { grayFull with src := [] }

/-- Unwritten elements, and each conversion with no byte mapped. -/
theorem witness_BodyFaultsReported_kernels : noSource.quant = some (quantOf noSource) ∧ noSource.phase.allowsKernel = true ∧
    noSource.srckind = 0 ∧ noSource.pixfmt = 1 ∧ grayMapped noSource (quantOf noSource).block.side = false ∧
    colourMapped { colourHdr with src := [] } 16 3 (0, 1, 2) = false ∧ channelOffsets colourHdr.pixfmt = some (0, 1, 2) ∧
    bytesPerPixel colourHdr.pixfmt = some 3 ∧ planarMapped { planarHdr with src := [] } 16 = false ∧
    blockSample noSource .y0 0 0 = none ∧ blockSample noSource .vc 7 7 = none ∧ element noSource.cdu 63 = none ∧
    element noSource.du 0 = none ∧ element noSource.up 255 = none :=
  ⟨rfl, by decide, by decide, by decide, by decide +kernel, by decide +kernel, rfl, rfl, by decide +kernel, by decide, by decide,
    by decide, by decide, by decide⟩

/-- A stream of four bytes over a range whose third byte is not mapped. -/
def rangeRun : State :=
  { State.reset with clen := 4, zsrc := .src, zlen := 4, zq := 8, zph := .run, src := [(0, 1), (1, 1), (3, 1)] }

/-- The third byte is read by `CRC32`, by `LZSTEP` at position 0 and by `ZEND` at the end. -/
theorem witness_BodyFaultsReported_source : rangeRun.phase ≠ .failed ∧ rangeRun.src.read (rangeAddr rangeRun 2).toNat = none ∧
    2 < rangeRun.clen.toNat ∧ rangeRun.zph = .run ∧ rangeRun.token = none ∧ rangeRun.zsrc = .src ∧ 2 < rangeRun.zlen.toNat ∧
    rangeRun.zi.toNat ≤ 2 ∧ 2 < rangeRun.zi.toNat + 3 ∧ rangeRun.zi.toNat + 3 < rangeRun.zlen.toNat ∧
    rangeRun.caps.zbuf = none ∧ ∃ s : State, s.zi = s.zlen ∧ s.src.read (rangeAddr s 2).toNat = none ∧ 2 < s.zlen.toNat :=
  ⟨by decide, by decide, by decide, rfl, rfl, rfl, by decide, by decide, by decide, by decide, rfl, { rangeRun with zi := 4 },
    by decide⟩

/-- One byte less than the header, the flush of one full byte, the start of a PNG and an empty chunk need. -/
theorem witness_BodyFaultsReported_out :
    (∃ s : State, s.phase = .jInit ∧ s.quant.isSome = true ∧ s.caps.out = some 606 ∧ 606 < s.out.length + 607) ∧
    (∃ s : State, s.phase.allowsScan = true ∧ s.caps.out = some 0 ∧ (s.jaccn ≤ 7 ∧ s.jacc < 2 ^ s.jaccn) ∧ s.out.length ≤ 0 ∧
      0 < s.out.length + (stuffed (fullBytes s.scanBits)).length) ∧
    (pngIdle.phase = .idle ∧ checkFault pngIdle = none ∧ pngIdle.filetype = 4 ∧ 32 < 33) ∧
    (pngHdr.phase.allowsPng = true ∧ 11 < pngHdr.out.length + 12 + 0) :=
  ⟨⟨{ grayHdr with phase := .jInit, caps := { out := some 606, fbuf := none, zbuf := none } }, by decide⟩,
    ⟨{ grayHdr with bb := [⟨0x7F, 8⟩], caps := { out := some 0, fbuf := none, zbuf := none } }, by decide +kernel⟩, by decide,
    by decide⟩

/-- One byte less than a literal after seven pending bits, and than the end of an empty stream, need. -/
theorem witness_BodyFaultsReported_zbuf :
    (∃ s : State, s.caps.zbuf = some 2 ∧ s.phase ≠ .failed ∧ s.zph = .run ∧
      (s.zaccn ≤ 7 ∧ s.zacc < 2 ^ s.zaccn) ∧ s.token = some (.lit 0x61) ∧ s.zbuf.length ≤ 2 ∧
      2 < s.zbuf.length + (s.zaccn + (tokenBits (.lit 0x61)).length) / 8) ∧
    (∃ s : State, s.caps.zbuf = some 7 ∧ s.phase ≠ .failed ∧ s.zph = .run ∧ s.token = none ∧ s.zi = s.zlen ∧
      s.inputIs [] = true ∧ (s.zaccn ≤ 7 ∧ s.zacc < 2 ^ s.zaccn) ∧ 7 < s.zbuf.length + (s.zaccn + 14) / 8 + 4) :=
  ⟨⟨{ zRun [0x61] with token := some (.lit 0x61), zi := 1, caps := { out := none, fbuf := none, zbuf := some 2 } },
      by decide +kernel⟩,
    ⟨{ zRun [] with caps := { out := none, fbuf := none, zbuf := some 7 } }, by decide⟩⟩

/-- A `BPUSH` from reset, a step that runs a command. -/
def pushing : State := { State.reset with cmds := [0x0000FFFE0010001C] }

theorem witness_StoresInvKept : (∃ t, step pushing = .next t) ∧ StorageInv pushing ∧ BitBufferInv pushing ∧ AccumulatorInv pushing :=
  ⟨⟨_, rfl⟩, ⟨by decide, by decide⟩, ⟨by decide, by intro p hp; cases hp⟩, fun _ => by decide⟩

theorem witness_FaultInvKept : FaultInv pushing ∧ FaultInv failedState ∧ ∃ t, step failedState = .next t :=
  ⟨⟨fun _ => by decide, fun h => by cases h⟩, ⟨fun h => absurd rfl h, fun _ => by decide⟩, _, rfl⟩

theorem jpegConfigInv_grayFull : JpegConfigInv grayFull := fun _ => ⟨by decide, rfl, rfl⟩

theorem witness_ConfigInvKept : (∃ t, step grayFull = .next t) ∧ JpegConfigInv grayFull ∧ ModeInv grayFull := by
  refine ⟨⟨_, rfl⟩, jpegConfigInv_grayFull, ?_⟩
  intro q hq
  cases hq
  exact ⟨by decide +kernel, by decide +kernel⟩

theorem witness_PngRowsInvKept : PngRowsInv pngHdr ∧ ∃ t, step pngHdr = .next t :=
  ⟨fun _ => ⟨by decide, rfl, by decide, 1, rfl, rfl⟩, _, rfl⟩

theorem compressorInv_start (data : List Byte) : CompressorInv (zRun data) := by
  intro _ _
  refine ⟨Nat.zero_le _, by show 5 ≤ (8 : Word).toNat; decide, fun h => ⟨Nat.zero_le _, fun p hp => by cases hp⟩, fun tok h => by cases h⟩

theorem witness_CompressorInvKept : CompressorInv (zRun [1, 2, 3]) ∧ ∃ t, step (zRun [1, 2, 3]) = .next t :=
  ⟨compressorInv_start _, _, rfl⟩

theorem witness_ConfigurationFrame : (∃ t, exec .jinit State.reset = .next t) ∧ (∀ r v, Instr.jinit ≠ .wrreg r v) ∧ Instr.jinit ≠ .sreset :=
  ⟨⟨_, rfl⟩, (fun _ _ h => by cases h), by decide⟩

theorem witness_OperationsFrame : (∃ t, exec .jinit State.reset = .next t) ∧ isJpegInstr .jinit = true ∧
    (∃ t, exec .psig State.reset = .next t) ∧ isPngInstr .psig = true := ⟨⟨_, rfl⟩, rfl, ⟨_, rfl⟩, rfl⟩

theorem witness_WhoWritesWhat : Instr.csub ≠ .sreset ∧ ∃ t, exec .csub State.reset = .next t := ⟨by decide, _, rfl⟩

theorem witness_WrregWrites : State.reset.phase ≠ .failed ∧ State.reset.phase = .idle ∧ (7 : Word).toNat < 2 ^ wregBits .pixfmt ∧
    pngHdr.phase ≠ .failed ∧ wregAnyPhase .ctype = true ∧ (0xFFFFFFFF : Word).toNat < 2 ^ wregBits .ctype := by decide

/-- A register that answers, an unwritten one, and one unwritten in `FAILED`. -/
theorem witness_RdregReads : (RReg.ro .status).indexOk 0 = true ∧ State.reset.readReg (.ro .status) 0 = some 0 ∧
    (RReg.arr .du).indexOk 63 = true ∧ State.reset.readReg (.arr .du) 63 = none ∧ State.reset.phase ≠ .failed ∧
    failedState.readReg (.arr .du) 63 = none ∧ failedState.phase = .failed := by decide

theorem witness_ValidateChecksInOrder : State.reset.phase = .idle := rfl

theorem witness_JqinitWrites : grayIdle.phase = .idle ∧ grayIdle.width.toNat ≤ 65535 := by decide

theorem witness_QuantiserEntries : grayIdle.phase = .idle ∧ 63 < 64 := by decide

/-- Inside the image and beyond its right and bottom edge. -/
theorem witness_EdgeReplication : 2 ≤ planarHdr.width.toNat ∧ 2 ≤ planarHdr.height.toNat ∧ planarHdr.width.toNat ≤ 65535 ∧
    planarHdr.mbx.toNat * 16 + 1 < planarHdr.width.toNat ∧ planarHdr.width.toNat ≤ planarHdr.mbx.toNat * 16 + 2 ∧
    planarHdr.mby.toNat * 8 + 0 < planarHdr.height.toNat / 2 ∧ planarHdr.height.toNat / 2 ≤ planarHdr.mby.toNat * 8 + 1 ∧
    planarHdr.mbx.toNat < blocksPerBand (quantOf planarHdr) ∧ planarHdr.mby.toNat < bandCount planarHdr (quantOf planarHdr) := by
  decide +kernel

theorem consistent_quantOf (s : State) (h : s.srckind = 0) : (quantOf s).consistent := by
  refine ⟨rfl, ?_⟩
  show writerVariant s = .full ↔ subsampleMode s = false
  cases hb : subsampleMode s <;> simp [writerVariant, h, srcNv12, srcYuv420p, hb]

theorem witness_Rgb2yuvConverts : colourHdr.phase.allowsKernel = true ∧ colourHdr.quant = some (quantOf colourHdr) ∧
    (quantOf colourHdr).consistent ∧ colourHdr.srckind = 0 ∧ channelOffsets colourHdr.pixfmt = some (0, 1, 2) ∧
    bytesPerPixel colourHdr.pixfmt = some 3 ∧ colourMapped colourHdr (quantOf colourHdr).block.side 3 (0, 1, 2) = true :=
  ⟨by decide, rfl, consistent_quantOf _ rfl, rfl, rfl, rfl, by decide +kernel⟩

theorem witness_Gray2yConverts : grayHdr.phase.allowsKernel = true ∧ grayHdr.quant = some (quantOf grayHdr) ∧
    grayHdr.srckind = 0 ∧ grayHdr.pixfmt = 1 ∧ grayMapped grayHdr (quantOf grayHdr).block.side = true :=
  ⟨by decide, rfl, rfl, rfl, by decide +kernel⟩

theorem witness_YuvloadLoads : planarHdr.phase.allowsKernel = true ∧ planarHdr.quant = some (quantOf planarHdr) ∧
    planarHdr.srckind = 1 ∧ planarMapped planarHdr (quantOf planarHdr).block.side = true :=
  ⟨by decide, rfl, rfl, by decide +kernel⟩

theorem witness_CsubAverages : ∃ (s : State) (q : Quant) (up vp : List F32), s.phase.allowsKernel = true ∧ s.quant = some q ∧
    q.wbvar = .subs ∧ s.up.toList = up.map some ∧ s.vp.toList = vp.map some :=
  ⟨{ colourHdr with up := Vector.replicate 256 (some 0), vp := Vector.replicate 256 (some 0) }, quantOf colourHdr,
    List.replicate 256 0, List.replicate 256 0, by decide, rfl, by decide +kernel,
    by rw [Vector.toList_replicate, List.map_replicate], by rw [Vector.toList_replicate, List.map_replicate]⟩

theorem witness_FdctTransforms : ∃ s : State, s.phase.allowsKernel = true ∧
    ∀ n, n < 64 → blockSample s .y3 (n / 8) (n % 8) = some 0xC3000000 :=
  ⟨{ grayHdr with yp := Vector.replicate 256 (some 0xC3000000) }, by decide, by decide +kernel⟩

theorem witness_QzzQuantises : ∃ (s : State) (q : Quant), s.phase.allowsKernel = true ∧ s.quant = some q ∧
    ∀ n, n < 64 → element s.cdu n = some (if n = 0 then 0xC6000000 else 0) :=
  ⟨{ grayHdr with cdu := blackCdu }, quantOf grayHdr, by decide, rfl, by decide +kernel⟩

/-- The coefficients of R168 example 5, as words. -/
def runWords (z : Nat) : Word := if z = 0 then 5 else if z = 40 then 1 else 0

def runState : State :=
  { grayHdr with du := Vector.ofFn fun z => some (runWords z.val), dc := { y := 2, u := 0, v := 0 } }

theorem witness_JhufCodes : runState.phase.allowsKernel = true ∧ runState.quant.isSome = true ∧
    (∀ z, z < 64 → element runState.du z = some (runWords z)) ∧
    category ((runWords 0).toInt - (runState.dc.get .y).toInt) ≤ 11 ∧ (∀ z, z < 64 → category (runWords z).toInt ≤ 10) ∧
    runState.bb.length + (jhufPairs .y (runState.dc.get .y).toInt ((List.range 64).map fun z => (runWords z).toInt)).length ≤ 2048 :=
  ⟨by decide, rfl, by decide +kernel, by decide, by decide +kernel, by decide +kernel⟩

theorem witness_JhufBounds : (List.replicate 64 (1 : Int)).length = 64 := by decide

theorem witness_JpduCompletes : ∃ (s : State) (q : Quant) (x : Nat → F32), s.phase.allowsKernel = true ∧ s.quant = some q ∧
    (∀ n, n < 64 → element s.cdu n = some (x n)) ∧
    unitInRange ((List.range 64).map (quantised ((List.range 64).map x) (recipTable q (compTable .y)))) = true ∧
    dcInRange (s.dc.get .y) = true ∧ s.bb.length + 128 ≤ 2048 :=
  ⟨{ grayHdr with cdu := blackCdu }, quantOf grayHdr, fun n => if n = 0 then 0xC6000000 else 0, by decide, rfl, by decide +kernel,
    by decide +kernel, by decide, by decide⟩

/-- One slot left, no slot left, and three slots left. -/
theorem witness_PushesAppend : ∃ s u v : State, s.phase.allowsKernel = true ∧ s.bb.length = 2047 ∧ u.phase.allowsKernel = true ∧
    u.bb.length = 2048 ∧ v.phase.allowsKernel = true ∧ v.bb.length = 2044 ∧ (16 : BitVec 16).toNat ≤ 16 ∧ 16 < (17 : BitVec 16).toNat :=
  ⟨{ State.reset with bb := List.replicate 2047 ⟨0, 0⟩ }, { State.reset with bb := List.replicate 2048 ⟨0, 0⟩ },
    { State.reset with bb := List.replicate 2044 ⟨0, 0⟩ }, rfl, List.length_replicate, rfl, List.length_replicate, rfl,
    List.length_replicate, by decide, by decide⟩

theorem accumulatorInv_of {s : State} (h : s.jaccn ≤ 7 ∧ s.jacc < 2 ^ s.jaccn ∧ s.zaccn ≤ 7 ∧ s.zacc < 2 ^ s.zaccn) :
    AccumulatorInv s := fun _ => h

theorem witness_BflushPacks : grayEnd.phase.allowsScan = true ∧ grayEnd.caps.out = none ∧ AccumulatorInv grayEnd :=
  ⟨rfl, rfl, accumulatorInv_of (by decide)⟩

/-- A queue cut inside, flushed in two parts. -/
def twoPairs : State := { State.reset with phase := .jHdr, bb := [⟨0x3E, 6⟩, ⟨0x7F, 8⟩] }

theorem witness_FlushPointsDoNotMatter : twoPairs.phase.allowsScan = true ∧ twoPairs.caps.out = none ∧ AccumulatorInv twoPairs ∧
    twoPairs.bb = [⟨0x3E, 6⟩] ++ [⟨0x7F, 8⟩] ∧
    ∃ t u, exec .bflush { twoPairs with bb := [⟨0x3E, 6⟩] } = .next t ∧ exec .bflush { t with bb := [⟨0x7F, 8⟩] } = .next u :=
  ⟨rfl, rfl, accumulatorInv_of (by decide), rfl, _, _, rfl, rfl⟩

/-- A black macroblock with no subsampling: its one data unit is -512 and zeros. -/
theorem witness_JwblkCompletes : grayFull.phase.allowsScan = true ∧ JpegConfigInv grayFull ∧ AccumulatorInv grayFull ∧
    grayFull.quant = some (quantOf grayFull) ∧ coderReady grayFull = true ∧ grayFull.mby.toNat < bandCount grayFull (quantOf grayFull) ∧
    macroblockReady grayFull (quantOf grayFull) = true :=
  ⟨rfl, jpegConfigInv_grayFull, accumulatorInv_of (by decide), rfl, by decide, by decide +kernel, by decide +kernel⟩

/-- The pure blue macroblock, whose U coefficient is 1020. -/
theorem witness_JwblkCompletes_blue : macroblockReady blueHdr (quantOf blueHdr) = true := by decide +kernel

theorem witness_JrowCompletes : grayFull.mbx = 0 ∧ blocksPerBand (quantOf grayFull) = 1 ∧
    macroblockReady (grayFull.atBlock 0 grayFull.mby.toNat) (quantOf grayFull) = true :=
  ⟨rfl, by decide +kernel, witness_JwblkCompletes.2.2.2.2.2.2⟩

theorem witness_JinitInitialises : grayIdle.phase = .idle ∧ checkFault grayIdle = none ∧ grayIdle.filetype = 5 ∧
    pngHdr.phase ≠ .idle ∧ pngHdr.phase ≠ .failed ∧ checkFault State.reset = some .paramZeroDim ∧ State.reset.phase = .idle ∧
    pngIdle.phase = .idle ∧ checkFault pngIdle = none ∧ pngIdle.filetype ≠ 5 := by decide

theorem witness_JhdrWrites : ∃ (s : State) (q : Quant), s.phase = .jInit ∧ s.quant = some q ∧ s.caps.out = none :=
  ⟨{ grayHdr with phase := .jInit }, quantOf grayHdr, rfl, rfl, rfl⟩

/-- The last row band is complete with four bits pending; and a state in which it is not. -/
theorem witness_JfinFinishes : grayEnd.quant = some (quantOf grayEnd) ∧ grayEnd.phase = .jBody ∧ grayEnd.mbx = 0 ∧
    grayEnd.mby.toNat = bandCount grayEnd (quantOf grayEnd) ∧ grayEnd.bb.length < 2048 ∧ grayEnd.caps.out = none ∧
    AccumulatorInv grayEnd ∧ grayHdr.phase ≠ .failed ∧ grayHdr.quant = some (quantOf grayHdr) ∧ grayHdr.phase ≠ .jBody ∧
    grayHdr.mby.toNat ≠ bandCount grayHdr (quantOf grayHdr) :=
  ⟨rfl, rfl, rfl, by decide +kernel, by decide, rfl, accumulatorInv_of (by decide), by decide, rfl, by decide, by decide +kernel⟩

/-- The black 1×1 image at quality 95. -/
def blackImage : State := { grayIdle with quality := 95 }

theorem witness_JencCompletes : blackImage.phase = .idle ∧ AccumulatorInv blackImage ∧ checkFault blackImage = none ∧
    blackImage.filetype = 5 ∧ blackImage.caps.out = none ∧ bandCount blackImage (quantOf blackImage) = 1 ∧
    blocksPerBand (quantOf blackImage) = 1 ∧ macroblockReady (blackImage.atBlock 0 0) (quantOf blackImage) = true :=
  ⟨rfl, accumulatorInv_of (by decide), by decide, rfl, rfl, by decide +kernel, by decide +kernel, by decide +kernel⟩

/-- The end of the parts is not `FAILED`. -/
def partsRun (is : List Instr) (s : State) : Bool :=
  match execAll is s with
  | some t => decide (t.phase ≠ .failed)
  | none => false

/-- `QZZ; JHUF` of a written block, which is `JPDU` (R159). -/
theorem witness_CompositesAreTheirParts_jpdu :
    partsRun [.qzz (compTable .y), .jhuf .y] { grayHdr with cdu := blackCdu } = true := by decide +kernel

/-- The parts of a macroblock, gray. -/
theorem witness_CompositesAreTheirParts_gray : grayFull.quant = some (quantOf grayFull) ∧ grayFull.phase.allowsScan = true ∧
    grayFull.mby.toNat < bandCount grayFull (quantOf grayFull) ∧
    partsRun (macroblockParts grayFull (quantOf grayFull)) grayFull = true :=
  ⟨rfl, rfl, by decide +kernel, by decide +kernel⟩

/-- The one macroblock of a row band. -/
theorem witness_CompositesAreTheirParts_jrow : grayFull.mbx = 0 ∧ 0 + 1 = blocksPerBand (quantOf grayFull) ∧
    partsRun (List.replicate (0 + 1) .jwblk) grayFull = true := ⟨rfl, by decide +kernel, by decide +kernel⟩

/-- The parts of the black image. -/
theorem witness_CompositesAreTheirParts_jenc :
    partsRun ([.jinit, .jhdr] ++ List.replicate (bandCount blackImage (quantOf blackImage)) .jrow ++ [.jfin]) blackImage = true := by
  decide +kernel

/-- A stream of one token. -/
theorem witness_CompositesAreTheirParts_zcomp :
    partsRun ([.zbegin .fbuf] ++ (List.replicate 1 [Instr.lzstep, .zemit]).flatten ++ [.zend]) { State.reset with fbuf := [0x61] } =
      true := by decide +kernel

/-- The PNG of R268 example 2. -/
theorem witness_CompositesAreTheirParts_penc :
    partsRun ([.psig] ++ List.replicate pngIdle.height.toNat .pfilt ++
      [.zcomp .fbuf, .wrreg .ctype 0x49444154, .pchunk .zbuf, .wrreg .ctype 0x49454E44, .pchunk .empty]) pngIdle = true := by
  decide +kernel

/-- A macroblock that leaves the bit buffer full. -/
theorem witness_CompositesAreTheirParts_flush :
    (match execAll (macroblockParts grayFull (quantOf grayFull)) { grayFull with bb := List.replicate 1280 ⟨0, 0⟩ } with
    | some t => decide (t.phase ≠ .failed) && decide (1280 < t.bb.length)
    | none => false) = true := by decide +kernel

/-- A row to filter, a capacity it does not fit, a row that is not mapped, and no row left. -/
theorem witness_PfiltFilters : pngHdr.phase.allowsPng = true ∧ pngHdr.row.toNat < pngHdr.height.toNat ∧
    bytesPerPixel pngHdr.pixfmt = some 1 ∧ rowMapped pngHdr pngHdr.row.toNat (pngHdr.width.toNat * 1) = true ∧
    fits pngHdr.caps.fbuf (pngHdr.fbuf.length + (1 + 1)) = true ∧ fits (some 1) (pngHdr.fbuf.length + (1 + 1)) = false ∧ rowMapped { pngHdr with src := [] } 0 1 = false ∧ State.reset.phase ≠ .failed ∧
    State.reset.phase.allowsPng = false ∧ State.reset.height.toNat ≤ State.reset.row.toNat := by decide

theorem witness_ZbeginStarts : State.reset.phase ≠ .failed ∧ State.reset.caps.zbuf = none := by decide

theorem witness_LzstepDecides : aState.phase ≠ .failed ∧ aState.zph = .run ∧ aState.token = none ∧
    aState.zi.toNat < aState.zlen.toNat ∧ aState.inputIs (List.replicate 10 0x61) = true ∧ CompressorInv aState := by
  refine ⟨by decide, rfl, rfl, by decide, by decide, ?_⟩
  intro _ _
  refine ⟨by decide, by decide, fun h => ?_, fun tok ht => by cases ht⟩
  simp only [aState, zRun, HashTable.get]
  split <;> simp

theorem witness_LzstepTokenSound : CompressorInv aState ∧ aState.inputIs (List.replicate 10 0x61) = true ∧ aState.phase ≠ .failed ∧
    gives .lzstep aState (fun t => decide (t.phase ≠ .failed ∧ t.token = some (.copy 9 1))) = true :=
  ⟨witness_LzstepDecides.2.2.2.2.2, witness_LzstepDecides.2.2.2.2.1, by decide, by decide +kernel⟩

theorem witness_ZemitAppends : ∃ (s : State) (tok : Token), s.phase ≠ .failed ∧ s.zph = .run ∧ s.token = some tok ∧ tok.legal ∧
    AccumulatorInv s ∧ s.caps.zbuf = none :=
  ⟨{ zRun [] with token := some (.copy 258 32767) }, .copy 258 32767, by decide, rfl, rfl, ⟨by decide, by decide, by decide⟩,
    accumulatorInv_of (by decide), rfl⟩

theorem witness_ZendFinishes : (zRun []).phase ≠ .failed ∧ (zRun []).zph = .run ∧ (zRun []).token = none ∧
    (zRun []).zi = (zRun []).zlen ∧ (zRun []).inputIs [] = true ∧ AccumulatorInv (zRun []) ∧ (zRun []).caps.zbuf = none :=
  ⟨by decide, rfl, rfl, rfl, by decide, accumulatorInv_of (by decide), rfl⟩

def rangeState : State := { State.reset with clen := 2, src := [(0, 0x61), (1, 0x62)] }

theorem witness_ZcompCompletes : rangeState.phase ≠ .failed ∧ rangeState.caps.zbuf = none ∧ [0x61, 0x62].length < 2 ^ 32 ∧
    rangeState.selects .src [0x61, 0x62] = true := by decide

/-- The same two bytes in FBUF and in SRC. -/
def bufferState : State := { State.reset with fbuf := [0x61, 0x62], mbx := 1 }

theorem witness_StreamDependsOnInputOnly : bufferState.selects .fbuf [0x61, 0x62] = true ∧
    rangeState.selects .src [0x61, 0x62] = true ∧ bufferState.quality = rangeState.quality ∧
    bufferState.hash3 = rangeState.hash3 ∧
    gives (.zcomp .fbuf) bufferState (fun t => decide (t.phase ≠ .failed)) = true ∧
    gives (.zcomp .src) rangeState (fun t => decide (t.phase ≠ .failed)) = true :=
  ⟨rfl, by decide, rfl, rfl, by decide +kernel, by decide +kernel⟩

/-- A mapped range, a range with an unmapped byte, and a word with selector 1. -/
theorem witness_AdlerComputes : rangeState.phase ≠ .failed ∧ rangeState.selects .src [0x61, 0x62] = true ∧
    1 < ({ rangeState with src := [(0, 0x61)] } : State).clen.toNat ∧
    Memory.read [(0, 0x61)] (rangeAddr rangeState 1).toNat = none ∧
    (0x0136 : Command).extractLsb' 0 8 = 0x36 ∧ (0x0136 : Command).extractLsb' 8 8 = 1 := by decide

theorem witness_CrcComputesAndCompares : rangeState.phase ≠ .failed ∧ rangeState.selects .src [0x61, 0x62] = true := by decide

theorem witness_PsigWrites : pngIdle.phase = .idle ∧ checkFault pngIdle = none ∧ pngIdle.filetype = 4 ∧ pngIdle.caps.out = none := by decide

/-- A finished stream for selector 2, and none. -/
theorem witness_PchunkWrites : pngHdr.phase.allowsPng = true ∧ pngHdr.caps.out = none ∧ pngHdr.zph ≠ .done ∧
    ∃ s : State, s.phase.allowsPng = true ∧ s.caps.out = none ∧ s.zph = .done :=
  ⟨rfl, rfl, by decide, { pngHdr with zph := .done }, by decide⟩

theorem witness_PencCompletes : pngIdle.phase = .idle ∧ checkFault pngIdle = none ∧ pngIdle.filetype = 4 ∧
    bytesPerPixel pngIdle.pixfmt = some 1 ∧ pngIdle.caps.out = none ∧ pngIdle.caps.fbuf = none ∧ pngIdle.caps.zbuf = none ∧
    pngIdle.height.toNat * (1 + pngIdle.width.toNat * 1) < 2 ^ 32 ∧
    ∀ r, r < pngIdle.height.toNat → rowMapped pngIdle r (pngIdle.width.toNat * 1) = true := by decide

end Sys2Proof.Tests
end

/-! The state's invariants and frames, 10_state.md. Part 1: bodies that keep a predicate on the way to a good end and leave a weaker
one at a fault, and one induction over the step for all invariants. -/

namespace Sys2Proof.Proofs

open Sys2Proof Sys2Proof.Machine Sys2Proof.Laws

variable {α β : Type} {E I : State → Prop}

/-! Bodies that keep a predicate. -/

/-- From `s` the body ends well in a state with `I`, or raises a fault in a state with `E`. -/
structure GuardsAt (E I : State → Prop) (b : Body α) (s : State) : Prop where
  ok : ∀ {a t}, b s = .ok a t → I t
  error : ∀ {c t}, b s = .error c t → E t

/-- From every state with `I` the body ends well with `I`, or raises a fault with `E`. -/
def Guards (E I : State → Prop) (b : Body α) : Prop := ∀ s, I s → GuardsAt E I b s

/-- Where a fault leaves nothing to show, only the good end counts. -/
theorem guardsAt_of_ok {b : Body α} {s : State} (h : ∀ a t, b s = .ok a t → I t) : GuardsAt (fun _ => True) I b s :=
  ⟨h _ _, fun _ => trivial⟩

/-- A body that keeps a relation under which `I` is stable keeps `I`. -/
theorem guardsAt_of_keeps {R : State → State → Prop} (hE : ∀ s, I s → E s) {b : Body α} (hb : Keeps R b) {s : State}
    (hI : ∀ t, R s t → I t) : GuardsAt E I b s where
  ok h := hI _ (by simpa [h, after] using hb s)
  error h := hE _ (hI _ (by simpa [h, after] using hb s))

theorem guards_of_keeps {R : State → State → Prop} (hE : ∀ s, I s → E s) (hI : ∀ s t, R s t → I s → I t) {b : Body α}
    (hb : Keeps R b) : Guards E I b := fun s hs => guardsAt_of_keeps hE hb fun t h => hI s t h hs

/-- A predicate guarded also at a fault is never lost. -/
theorem keeps_of_guards {b : Body α} (h : Guards I I b) : Keeps (fun s t => I s → I t) b := by
  intro s hs
  cases hr : b s with
  | ok a t => exact (h s hs).ok hr
  | error c t => exact (h s hs).error hr

theorem guards_pure (a : α) : Guards E I (pure a : Body α) := fun _ hs => ⟨fun h => by cases h; exact hs, nofun⟩

theorem guards_raise (hE : ∀ s, I s → E s) (c : FaultCode) : Guards E I (raise c : Body α) :=
  fun s hs => ⟨nofun, fun h => by cases h; exact hE s hs⟩

/-- Nothing follows a fault. -/
theorem guards_raise_bind (hE : ∀ s, I s → E s) (c : FaultCode) (f : α → Body β) : Guards E I ((raise c : Body α) >>= f) :=
  fun s hs => ⟨nofun, fun h => by cases h; exact hE s hs⟩

theorem guards_modify {f : State → State} (hf : ∀ s, I s → I (f s)) : Guards E I (modify f : Body Unit) :=
  fun s hs => ⟨fun h => by cases h; exact hf s hs, nofun⟩

theorem guards_require (hE : ∀ s, I s → E s) (ok : Bool) (c : FaultCode) : Guards E I (require ok c) := by
  cases ok
  · exact guards_raise hE c
  · exact guards_pure ()

theorem guards_bind {x : Body α} {f : α → Body β} (hx : Guards E I x) (hf : ∀ a, Guards E I (f a)) : Guards E I (x >>= f) := by
  intro s hs
  cases hr : x s with
  | ok a t =>
    have ht := hf a t ((hx s hs).ok hr)
    exact ⟨fun h => ht.ok (bind_ok hr ▸ h), fun h => ht.error (bind_ok hr ▸ h)⟩
  | error c t =>
    have ht := (hx s hs).error hr
    exact ⟨fun h => (by cases (bind_error hr).symm.trans h), fun h => (by cases (bind_error hr).symm.trans h; exact ht)⟩

/-- Reading the state first: what the rest does is shown for every state it may have read. -/
theorem guards_get_bind {f : State → Body β} (h : ∀ s, Guards E I (f s)) : Guards E I ((get : Body State) >>= f) :=
  fun s hs => ⟨(h s s hs).ok, (h s s hs).error⟩

/-- After a condition the rest may use it. -/
theorem guards_require_bind (hE : ∀ s, I s → E s) {ok : Bool} {c : FaultCode} {f : Unit → Body β}
    (h : ok = true → Guards E I (f ())) : Guards E I (require ok c >>= f) := by
  cases ok with
  | true => exact guards_bind (guards_pure ()) fun _ => h rfl
  | false => exact guards_raise_bind hE c f

theorem guards_forM {f : α → Body Unit} (h : ∀ a, Guards E I (f a)) (l : List α) : Guards E I (l.forM f) := by
  induction l with
  | nil => exact guards_pure ()
  | cons a l ih => exact guards_bind (h a) fun _ => ih

theorem guards_repeat {b : Body Unit} (h : Guards E I b) (n : Nat) : Guards E I (repeatBody n b) := by
  induction n with
  | zero => exact guards_pure ()
  | succ n ih => exact guards_bind h fun _ => ih

theorem guards_requirePhase (hE : ∀ s, I s → E s) (legal : Phase → Bool) : Guards E I (requirePhase legal) :=
  guards_get_bind fun s => guards_require hE (legal s.phase) .seqFault

/-! What a good end of a sequence says of its first parts. -/

/-- A body that begins with a condition on the phase ends well only if the condition holds. -/
theorem requirePhase_bind_ok {legal : Phase → Bool} {f : Unit → Body β} {s t : State} {b : β}
    (h : (requirePhase legal >>= f) s = .ok b t) : legal s.phase = true ∧ f () s = .ok b t := by
  rw [requirePhase_bind] at h
  split at h
  · exact ⟨‹_›, h⟩
  · cases h

theorem requirePhaseIs_bind_ok {p : Phase} {f : Unit → Body β} {s t : State} {b : β}
    (h : (requirePhaseIs p >>= f) s = .ok b t) : s.phase = p ∧ f () s = .ok b t := by
  rw [requirePhaseIs_bind] at h
  split at h
  · exact ⟨‹_›, h⟩
  · cases h

theorem require_bind_ok {ok : Bool} {c : FaultCode} {f : Unit → Body β} {s t : State} {b : β}
    (h : (require ok c >>= f) s = .ok b t) : ok = true ∧ f () s = .ok b t := by
  rw [require_bind] at h
  split at h
  · exact ⟨‹_›, h⟩
  · cases h

/-- At a good end the relation a body keeps holds of the end. -/
theorem keeps_ok {R : State → State → Prop} {b : Body α} (hb : Keeps R b) {s t : State} {a : α} (h : b s = .ok a t) : R s t := by
  have := hb s
  rwa [h] at this

/-- The relation of an observation that stays. -/
theorem chains_observation (f : State → β) : Chains fun s t => f t = f s := ⟨fun _ => rfl, fun _ _ _ h1 h2 => h2.trans h1⟩

/-! The step. -/

/-- An invariant of the step. Its bodies keep it or leave `E` at a fault, and taking the fault restores it from `E`. -/
structure StepInvariant (E I : State → Prop) : Prop where
  fault : ∀ s, I s → E s
  take : ∀ s, I s → I s.takeCommand
  respond : ∀ s v, I s → I (s.respond v)
  takeFault : ∀ s c op, E s → I (s.takeFault c op)
  sreset : ∀ s, I s → I s.sreset
  body : ∀ i s, s.phase ≠ .failed → I s → GuardsAt E I (bodyOf i) s

theorem StepInvariant.exec (h : StepInvariant E I) {i : Instr} {s t : State} (hs : I s) (he : exec i s = .next t) : I t := by
  cases ha : answersInFailed i with
  | false =>
    rcases exec_cases ha he with ⟨-, rfl⟩ | ⟨hp, u, hu, -, rfl⟩ | ⟨hp, c, u, hu, rfl⟩
    · exact h.respond s 0 hs
    · exact h.respond u 0 ((h.body i s hp hs).ok hu)
    · exact h.takeFault u c _ ((h.body i s hp hs).error hu)
  | true =>
    cases i <;> simp only [answersInFailed, Bool.false_eq_true] at ha
    case rdreg r b =>
      rcases exec_rdreg_cases he with ⟨v, rfl⟩ | ⟨-, c, rfl⟩
      · exact h.respond s v hs
      · exact h.takeFault s c _ (h.fault s hs)
    case sreset => cases he; exact h.sreset s hs

/-- Every step keeps such an invariant. -/
theorem StepInvariant.step (h : StepInvariant E I) {s t : State} (hs : I s) (he : step s = .next t) : I t := by
  rcases step_cases he with ⟨-, rfl⟩ | ⟨w, rest, i, -, -, he⟩ | ⟨w, rest, e, -, -, he⟩
  · exact hs
  · exact h.exec (h.take s hs) he
  · rcases malformed_cases he with ⟨-, rfl⟩ | ⟨-, rfl⟩
    · exact h.respond _ 0 (h.take s hs)
    · exact h.takeFault _ _ _ (h.fault _ (h.take s hs))

end Sys2Proof.Proofs

/-! The state's invariants and frames, 10_state.md. Part 2: which registers the operations of a family write. -/

namespace Sys2Proof.Proofs

open Sys2Proof Sys2Proof.Machine Sys2Proof.Laws

variable {R : State → State → Prop}

/-- The relation that a predicate is not lost. -/
theorem chains_implies (I : State → Prop) : Chains fun s t => I s → I t := ⟨fun _ h => h, fun _ _ _ h1 h2 h => h2 (h1 h)⟩

/-- The system operations write nothing but the host's registers. -/
theorem keeps_system (hR : Chains R) (write : ∀ s r v, R s (s.writeReg r v)) {i : Instr} (hj : isJpegInstr i = false)
    (hp : isPngInstr i = false) : Keeps R (bodyOf i) := by
  cases i <;> simp only [isJpegInstr, isPngInstr, Bool.true_eq_false] at hj hp
  case wrreg r v => exact keeps_wrregBody hR write r v
  case rdreg r b => exact keeps_pure hR ()
  case validate => exact keeps_validateBody hR
  case sreset => exact keeps_pure hR ()

/-- A relation is kept by every body if the families keep it. -/
theorem keeps_byFamily (hR : Chains R) (write : ∀ s r v, R s (s.writeReg r v)) {i : Instr}
    (jpeg : isJpegInstr i = true → Keeps R (bodyOf i)) (png : isPngInstr i = true → Keeps R (bodyOf i)) :
    Keeps R (bodyOf i) := by
  cases hj : isJpegInstr i with
  | true => exact jpeg hj
  | false =>
    cases hp : isPngInstr i with
    | true => exact png hp
    | false => exact keeps_system hR write hj hp

/-- A predicate is guarded by every body if the families guard it. -/
theorem guards_byFamily {E I : State → Prop} (hE : ∀ s, I s → E s) (write : ∀ s r v, I s → I (s.writeReg r v)) {i : Instr}
    (jpeg : isJpegInstr i = true → Guards E I (bodyOf i)) (png : isPngInstr i = true → Guards E I (bodyOf i)) :
    Guards E I (bodyOf i) := by
  cases hj : isJpegInstr i with
  | true => exact jpeg hj
  | false =>
    cases hp : isPngInstr i with
    | true => exact png hp
    | false => exact guards_of_keeps hE (fun _ _ h => h) (keeps_system (chains_implies I) write hj hp)

/-- A relation the body keeps holds over the command, `SRESET` apart. -/
theorem exec_keeps (hR : Chains R) (hE : EndsWell R) {i : Instr} {s t : State} (hi : i ≠ .sreset) (hb : Keeps R (bodyOf i))
    (h : exec i s = .next t) : R s t := by
  cases ha : answersInFailed i with
  | false => exact command_endsWell hR hE hb (exec_eq_command ha s ▸ h)
  | true =>
    cases i <;> simp only [answersInFailed, Bool.false_eq_true] at ha
    case rdreg r b =>
      rcases exec_rdreg_cases h with ⟨v, rfl⟩ | ⟨-, c, rfl⟩
      · exact hE.respond s v
      · exact hE.takeFault s c _
    case sreset => exact absurd rfl hi

/-! The operations within an image. -/

/-- The JPEG operations that start no image write what a macroblock writes. -/
theorem keeps_jpegWithin (hR : Chains R) (h : BlockWrites R) {i : Instr} (hi : isJpegInstr i = true) (hq : i ≠ .jqinit)
    (hs : i ≠ .jinit) (he : i ≠ .jenc) : Keeps R (bodyOf i) := by
  cases i <;> simp only [isJpegInstr, Bool.false_eq_true] at hi
  case jqinit => exact absurd rfl hq
  case jinit => exact absurd rfl hs
  case jenc => exact absurd rfl he
  case jhdr => exact keeps_jhdrBody hR h.out h.phase
  case rgb2yuv => exact keeps_rgb2yuvBody hR h.yp h.up h.vp h.uc h.vc
  case gray2y => exact keeps_gray2yBody hR h.yp
  case yuvload => exact keeps_yuvloadBody hR h.yp h.uc h.vc
  case csub => exact keeps_csubBody hR h.uc h.vc
  case fdct a => exact keeps_fdctBody hR h.cdu a
  case qzz a => exact keeps_qzzBody hR h.du a
  case jhuf a => exact keeps_jhufBody hR h.bb h.dc a
  case jpdu a => exact keeps_jpduBody hR h.du h.bb h.dc a
  case jgrayuv => exact keeps_jgrayuvBody hR h.bb
  case bpush b v => exact keeps_bpushBody hR h.bb b v
  case bflush => exact keeps_bflushBody hR h.toFlush
  case jwblk => exact keeps_jwblkBody hR h
  case jrow => exact keeps_jrowBody hR h
  case jfin => exact keeps_jfinBody hR h.toFlush h.phase

/-- The PNG, compressor and checksum operations that start no file and write no `CRCOK`. -/
theorem keeps_pngWithin (hR : Chains R) (hF : FilterWrites R) (hC : ChunkWrites R) (hZ : CompressorWrites R) {i : Instr}
    (hi : isPngInstr i = true) (hc : ∀ v, i ≠ .crcchk v) (hs : i ≠ .psig) (he : i ≠ .penc) : Keeps R (bodyOf i) := by
  cases i <;> simp only [isPngInstr, Bool.false_eq_true] at hi
  case crcchk v => exact absurd rfl (hc v)
  case psig => exact absurd rfl hs
  case penc => exact absurd rfl he
  case pfilt => exact keeps_pfiltBody hR hF
  case zbegin a => exact keeps_zbeginBody hR hZ a
  case lzstep => exact keeps_lzstepBody hR hZ.toMatcherWrites
  case zemit => exact keeps_zemitBody hR hZ.toBitWrites hZ.token
  case zend => exact keeps_zendBody hR hZ
  case zcomp a => exact keeps_zcompBody hR hZ a
  case adler a => exact keeps_adlerBody hR hZ.adlreg a
  case crc32 a => exact keeps_crc32Body hR hC.crcreg a
  case pchunk a => exact keeps_pchunkBody hR hC hF.phase a

/-- `ZEND` writes the bit output, the checksum and `ZPH`, and no register of the matcher. -/
theorem keeps_zendBody_bits (hR : Chains R) (h : BitWrites R) (adlreg : ∀ s v, R s { s with adlreg := v })
    (zph : ∀ s v, R s { s with zph := v }) : Keeps R zendBody := by
  refine keeps_bind hR (keeps_requirePhase hR _) fun _ => keeps_get_bind fun s => ?_
  exact keeps_bind hR (keeps_require hR _ _) (fun _ => keeps_bind hR (keeps_zBits hR h _ _) fun _ =>
    keeps_bind hR (keeps_padZbits hR h) fun _ => keeps_bind hR (keeps_readSelected hR _ _) fun _ =>
      keeps_bind hR (keeps_modify fun s => adlreg s _) fun _ =>
        keeps_bind hR (keeps_forM hR (fun b => keeps_appendZbuf hR b fun s => h.zbuf s _) _) fun _ =>
          keeps_modify fun s => zph s _) s

/-! The two halves of the engine. In the proofs of what a group of fields keeps, every goal is an equation of one field, true by
unfolding the update. -/

theorem chains_samePng : Chains SamePng :=
  ⟨fun _ => by simp [SamePng], fun _ _ _ h1 h2 => by simp_all [SamePng]⟩

theorem chains_sameJpeg : Chains SameJpeg :=
  ⟨fun _ => by simp [SameJpeg], fun _ _ _ h1 h2 => by simp_all [SameJpeg]⟩

theorem streamWrites_samePng : StreamWrites SamePng := by
  constructor <;> (try constructor) <;> (try constructor) <;> intros <;> simp [SamePng]

theorem pngWrites_sameJpeg : PngWrites SameJpeg := by
  constructor <;> (try constructor) <;> intros <;> simp [SameJpeg]

theorem compressorWrites_sameJpeg : CompressorWrites SameJpeg := by
  constructor <;> (try constructor) <;> intros <;> simp [SameJpeg]

theorem endsWell_samePng : EndsWell SamePng := by
  constructor <;> intros <;> simp [SamePng]

theorem endsWell_sameJpeg : EndsWell SameJpeg := by
  constructor <;> intros <;> simp [SameJpeg]

theorem crcok_sameJpeg (s : State) (v : Bool) : SameJpeg s { s with crcok := v } := by simp [SameJpeg]

theorem keeps_samePng {i : Instr} (hi : isJpegInstr i = true) : Keeps SamePng (bodyOf i) :=
  keeps_jpeg chains_samePng streamWrites_samePng hi

theorem keeps_sameJpeg {i : Instr} (hi : isPngInstr i = true) : Keeps SameJpeg (bodyOf i) :=
  keeps_png chains_sameJpeg pngWrites_sameJpeg compressorWrites_sameJpeg crcok_sameJpeg hi

/-- Settles O18: each family's bodies, the response and the fault entry write fields of their own half only. -/
theorem operationsFrame : Obligations.OperationsFrame := fun _ _ _ h =>
  ⟨fun hi => exec_jpeg_keeps chains_samePng endsWell_samePng streamWrites_samePng hi h,
   fun hi => exec_png_keeps chains_sameJpeg endsWell_sameJpeg pngWrites_sameJpeg compressorWrites_sameJpeg crcok_sameJpeg hi h⟩

/-! Who writes what. -/

/-- An observation that neither the host's registers, the response nor the fault entry hold stays over a command whose body keeps
it. -/
theorem exec_observes {β : Type} {f : State → β} (write : ∀ s r v, f (s.writeReg r v) = f s)
    (respond : ∀ s v, f (s.respond v) = f s) (takeFault : ∀ s c op, f (s.takeFault c op) = f s) {i : Instr} {s t : State}
    (hi : i ≠ .sreset) (h : exec i s = .next t) (jpeg : isJpegInstr i = true → Keeps (fun s t => f t = f s) (bodyOf i))
    (png : isPngInstr i = true → Keeps (fun s t => f t = f s) (bodyOf i)) : f t = f s :=
  exec_keeps (R := fun s t => f t = f s) (chains_observation f) ⟨respond, takeFault⟩ hi
    (keeps_byFamily (chains_observation f) write jpeg png) h

/-- A weaker relation is kept too. -/
theorem keeps_weaken {α : Type} {R' : State → State → Prop} {b : Body α} (h : Keeps R b) (hw : ∀ s t, R s t → R' s t) :
    Keeps R' b :=
  fun s => hw _ _ (h s)

theorem blockWrites_quant : BlockWrites fun s t => t.quant = s.quant := by
  constructor <;> (try constructor) <;> intros <;> rfl

/-- The tables and mode registers change only in `JQINIT`, alone or inside `JINIT` and `JENC`. -/
theorem exec_quant {i : Instr} {s t : State} (hr : i ≠ .sreset) (h : exec i s = .next t) (hq : i ≠ .jqinit) (hs : i ≠ .jinit)
    (he : i ≠ .jenc) : t.quant = s.quant :=
  exec_observes (f := State.quant) (fun _ r _ => by cases r <;> rfl) (fun _ _ => rfl) (fun _ _ _ => rfl) hr h
    (fun hi => keeps_jpegWithin (chains_observation _) blockWrites_quant hi hq hs he)
    (fun hi => keeps_weaken (keeps_sameJpeg hi) fun _ _ hJ => hJ.1)

theorem flushWrites_dc : FlushWrites fun s t => t.dc = s.dc := by
  constructor <;> intros <;> rfl

/-- The JPEG operations that hold no `JHUF` and no `JINIT`. -/
theorem keeps_dc {i : Instr} (hi : isJpegInstr i = true) (hs : i ≠ .jinit) (he : i ≠ .jenc) (hb : i ≠ .jwblk) (hr : i ≠ .jrow)
    (hh : ∀ c, i ≠ .jhuf c) (hp : ∀ c, i ≠ .jpdu c) : Keeps (fun s t => t.dc = s.dc) (bodyOf i) := by
  have hR := chains_observation State.dc
  cases i <;> simp only [isJpegInstr, Bool.false_eq_true] at hi
  case jinit => exact absurd rfl hs
  case jenc => exact absurd rfl he
  case jwblk => exact absurd rfl hb
  case jrow => exact absurd rfl hr
  case jhuf c => exact absurd rfl (hh c)
  case jpdu c => exact absurd rfl (hp c)
  case jqinit => exact keeps_jqinitBody hR fun _ => rfl
  case jhdr => exact keeps_jhdrBody hR (fun _ _ => rfl) (fun _ _ _ => rfl)
  case rgb2yuv => exact keeps_rgb2yuvBody hR (fun _ _ => rfl) (fun _ _ => rfl) (fun _ _ => rfl) (fun _ _ => rfl) (fun _ _ => rfl)
  case gray2y => exact keeps_gray2yBody hR fun _ _ => rfl
  case yuvload => exact keeps_yuvloadBody hR (fun _ _ => rfl) (fun _ _ => rfl) (fun _ _ => rfl)
  case csub => exact keeps_csubBody hR (fun _ _ => rfl) (fun _ _ => rfl)
  case fdct a => exact keeps_fdctBody hR (fun _ _ => rfl) a
  case qzz a => exact keeps_qzzBody hR (fun _ _ => rfl) a
  case jgrayuv => exact keeps_jgrayuvBody hR fun _ _ => rfl
  case bpush b v => exact keeps_bpushBody hR (fun _ _ => rfl) b v
  case bflush => exact keeps_bflushBody hR flushWrites_dc
  case jfin => exact keeps_jfinBody hR flushWrites_dc fun _ _ _ => rfl

/-- `DC` changes only in `JHUF` and `JINIT`, alone or inside a composite. -/
theorem exec_dc {i : Instr} {s t : State} (hr : i ≠ .sreset) (h : exec i s = .next t) (hs : i ≠ .jinit) (he : i ≠ .jenc)
    (hb : i ≠ .jwblk) (hw : i ≠ .jrow) (hh : ∀ c, i ≠ .jhuf c) (hp : ∀ c, i ≠ .jpdu c) : t.dc = s.dc :=
  exec_observes (f := State.dc) (fun _ r _ => by cases r <;> rfl) (fun _ _ => rfl) (fun _ _ _ => rfl) hr h
    (fun hi => keeps_dc hi hs he hb hw hh hp) (fun hi => keeps_weaken (keeps_sameJpeg hi) fun _ _ hJ => hJ.2.1)

theorem pngWrites_crcok : PngWrites fun s t => t.crcok = s.crcok := by
  constructor <;> (try constructor) <;> intros <;> rfl

theorem compressorWrites_crcok : CompressorWrites fun s t => t.crcok = s.crcok := by
  constructor <;> (try constructor) <;> intros <;> rfl

/-- The PNG, compressor and checksum operations but `CRCCHK`. -/
theorem keeps_crcok {i : Instr} (hi : isPngInstr i = true) (hc : ∀ v, i ≠ .crcchk v) :
    Keeps (fun s t => t.crcok = s.crcok) (bodyOf i) := by
  have hR := chains_observation State.crcok
  by_cases hs : i = .psig
  · exact hs ▸ keeps_psigBody hR pngWrites_crcok
  by_cases he : i = .penc
  · exact he ▸ keeps_pencBody hR pngWrites_crcok compressorWrites_crcok
  exact keeps_pngWithin hR pngWrites_crcok.toFilterWrites pngWrites_crcok.toChunkWrites compressorWrites_crcok hi hc hs he

/-- `CRCOK` changes only in `CRCCHK`. -/
theorem exec_crcok {i : Instr} {s t : State} (hr : i ≠ .sreset) (h : exec i s = .next t) (hc : ∀ v, i ≠ .crcchk v) :
    t.crcok = s.crcok :=
  exec_observes (f := State.crcok) (fun _ r _ => by cases r <;> rfl) (fun _ _ => rfl) (fun _ _ _ => rfl) hr h
    (fun hi => keeps_weaken (keeps_samePng hi) fun _ _ hP => by simp [SamePng] at hP; simp [hP])
    (fun hi => keeps_crcok hi hc)

theorem pngWrites_token : PngWrites fun s t => t.token = s.token := by
  constructor <;> (try constructor) <;> intros <;> rfl

theorem bitWrites_token : BitWrites fun s t => t.token = s.token := by
  constructor <;> intros <;> rfl

/-- The PNG and checksum operations, and `ZEND`, which finds no token waiting. -/
theorem keeps_token {i : Instr} (hi : isPngInstr i = true) (hl : i ≠ .lzstep) (hm : i ≠ .zemit) (he : i ≠ .penc)
    (hb : ∀ a, i ≠ .zbegin a) (hz : ∀ a, i ≠ .zcomp a) : Keeps (fun s t => t.token = s.token) (bodyOf i) := by
  have hR := chains_observation State.token
  have hP := pngWrites_token
  cases i <;> simp only [isPngInstr, Bool.false_eq_true] at hi
  case lzstep => exact absurd rfl hl
  case zemit => exact absurd rfl hm
  case penc => exact absurd rfl he
  case zbegin a => exact absurd rfl (hb a)
  case zcomp a => exact absurd rfl (hz a)
  case pfilt => exact keeps_pfiltBody hR hP.toFilterWrites
  case zend => exact keeps_zendBody_bits hR bitWrites_token (fun _ _ => rfl) (fun _ _ => rfl)
  case adler a => exact keeps_adlerBody hR (fun _ _ => rfl) a
  case crc32 a => exact keeps_crc32Body hR (fun _ _ => rfl) a
  case crcchk v => exact keeps_crcchkBody hR (fun _ _ => rfl) v
  case psig => exact keeps_psigBody hR hP
  case pchunk a => exact keeps_pchunkBody hR hP.toChunkWrites hP.phase a

/-- The waiting token changes only in the compressor operations. -/
theorem exec_token {i : Instr} {s t : State} (hr : i ≠ .sreset) (h : exec i s = .next t) (hl : i ≠ .lzstep) (hm : i ≠ .zemit)
    (he : i ≠ .penc) (hb : ∀ a, i ≠ .zbegin a) (hz : ∀ a, i ≠ .zcomp a) : t.token = s.token :=
  exec_observes (f := State.token) (fun _ r _ => by cases r <;> rfl) (fun _ _ => rfl) (fun _ _ _ => rfl) hr h
    (fun hi => keeps_weaken (keeps_samePng hi) fun _ _ hP => by simp [SamePng] at hP; simp [hP])
    (fun hi => keeps_token hi hl hm he hb hz)

/-- OUT is the old OUT with bytes after it. -/
def OutGrows (s t : State) : Prop := ∃ bs, t.out = s.out ++ bs

theorem outGrows_of_eq {s t : State} (h : t.out = s.out) : OutGrows s t := ⟨[], by simp [h]⟩

theorem outGrows_append (s : State) (bs : List Byte) : OutGrows s { s with out := s.out ++ bs } := ⟨bs, rfl⟩

theorem chains_outGrows : Chains OutGrows :=
  ⟨fun _ => outGrows_of_eq rfl, fun _ _ _ ⟨as, ha⟩ ⟨bs, hb⟩ => ⟨as ++ bs, by rw [hb, ha, List.append_assoc]⟩⟩

theorem blockWrites_outGrows : BlockWrites OutGrows := by
  constructor <;> (try constructor) <;> intros <;> simp [OutGrows]

theorem filterWrites_outGrows : FilterWrites OutGrows := by
  constructor <;> intros <;> exact outGrows_of_eq rfl

theorem chunkWrites_outGrows : ChunkWrites OutGrows := ⟨outGrows_append, fun _ _ => outGrows_of_eq rfl⟩

theorem compressorWrites_outGrows : CompressorWrites OutGrows := by
  constructor <;> (try constructor) <;> intros <;> exact outGrows_of_eq rfl

/-- Every body but those that hold `JINIT` or `PSIG` only appends to OUT. -/
theorem keeps_outGrows {i : Instr} (hj : i ≠ .jinit) (hs : i ≠ .psig) (he : i ≠ .jenc) (hp : i ≠ .penc) :
    Keeps OutGrows (bodyOf i) := by
  refine keeps_byFamily chains_outGrows (fun s r v => outGrows_of_eq (by cases r <;> rfl)) (fun hi => ?_) (fun hi => ?_)
  · by_cases hq : i = .jqinit
    · exact hq ▸ keeps_jqinitBody chains_outGrows fun _ => outGrows_of_eq rfl
    · exact keeps_jpegWithin chains_outGrows blockWrites_outGrows hi hq hj he
  · by_cases hc : ∃ v, i = .crcchk v
    · obtain ⟨v, rfl⟩ := hc
      exact keeps_crcchkBody chains_outGrows (fun _ _ => outGrows_of_eq rfl) v
    · exact keeps_pngWithin chains_outGrows filterWrites_outGrows chunkWrites_outGrows compressorWrites_outGrows hi
        (fun v hv => hc ⟨v, hv⟩) hs hp

/-- OUT only grows over a command that raises no fault and starts no file. -/
theorem exec_outGrows {i : Instr} {s t : State} (hr : i ≠ .sreset) (h : exec i s = .next t) (hj : i ≠ .jinit) (hs : i ≠ .psig)
    (he : i ≠ .jenc) (hp : i ≠ .penc) (ht : t.phase ≠ .failed) : OutGrows s t := by
  have hb := keeps_outGrows hj hs he hp s
  cases ha : answersInFailed i with
  | false =>
    rcases exec_cases ha h with ⟨-, rfl⟩ | ⟨-, u, hu, -, rfl⟩ | ⟨-, c, u, -, rfl⟩
    · exact outGrows_of_eq rfl
    · rw [hu] at hb; exact hb
    · exact absurd rfl ht
  | true =>
    cases i <;> simp only [answersInFailed, Bool.false_eq_true] at ha
    case rdreg r b =>
      rcases exec_rdreg_cases h with ⟨v, rfl⟩ | ⟨-, c, rfl⟩
      · exact outGrows_of_eq rfl
      · exact absurd rfl ht
    case sreset => exact absurd rfl hr

/-- Settles O19: one frame for each of the five pieces of state. -/
theorem whoWritesWhat : Obligations.WhoWritesWhat := fun _ _ _ hr h =>
  ⟨exec_quant hr h, exec_dc hr h, exec_crcok hr h, exec_token hr h, exec_outGrows hr h⟩

end Sys2Proof.Proofs

/-! The state's invariants and frames, 10_state.md. Part 3: the bit buffer and its accumulator. One walk over the JPEG operations
serves both invariants on them: the slots of `BB` (R30, R161), also after a fault, and the pending bits of `JACC` (R31). -/

namespace Sys2Proof.Proofs

open Sys2Proof Sys2Proof.Machine Sys2Proof.Laws

/-! The codes `JHUF` pushes fit a slot. -/

theorem mem_codesOfLength {len count code : Nat} {vals : List Nat} {c : HuffCode}
    (h : c ∈ codesOfLength len count code vals) : c.len = len ∧ c.sym ∈ vals := by
  induction count generalizing code vals with
  | zero => simp [codesOfLength] at h
  | succ count ih =>
    cases vals with
    | nil => simp [codesOfLength] at h
    | cons v vals =>
      rcases List.mem_cons.mp h with rfl | h
      · exact ⟨rfl, List.mem_cons_self⟩
      · exact ⟨(ih h).1, List.mem_cons_of_mem _ (ih h).2⟩

theorem mem_canonicalFrom {len code : Nat} {bits vals : List Nat} {c : HuffCode} (h : c ∈ canonicalFrom len code bits vals) :
    c.len < len + bits.length ∧ c.sym ∈ vals := by
  induction bits generalizing len code vals with
  | nil => simp [canonicalFrom] at h
  | cons n bits ih =>
    rcases List.mem_append.mp h with h | h
    · obtain ⟨hl, hv⟩ := mem_codesOfLength h
      exact ⟨by simp [hl], hv⟩
    · obtain ⟨hl, hv⟩ := ih h
      exact ⟨by simp only [List.length_cons]; omega, List.mem_of_mem_drop hv⟩

/-- A code of a table of 16 lengths is at most 16 bits long, and its symbol is in the table. -/
theorem huffPair_some {t : HuffTable} {sym : Nat} {p : BitPair} (ht : t.bits.length = 16) (h : huffPair t sym = some p) :
    p.len ≤ 16 ∧ sym ∈ t.vals := by
  simp only [huffPair, HuffTable.lookup, Option.map_eq_some_iff] at h
  obtain ⟨c, hc, rfl⟩ := h
  obtain ⟨hl, hv⟩ := mem_canonicalFrom (List.mem_of_find?_eq_some hc)
  have hs : c.sym = sym := by simpa using List.find?_some hc
  exact ⟨by show c.len ≤ 16; omega, hs ▸ hv⟩

theorem dcTable_bits (a : Comp) : (dcTable a).bits.length = 16 := by cases a <;> rfl

theorem acTable_bits (a : Comp) : (acTable a).bits.length = 16 := by cases a <;> rfl

theorem dcTable_vals_le {a : Comp} {v : Nat} (h : v ∈ (dcTable a).vals) : v ≤ 11 := by
  revert v
  cases a <;> decide

/-- The codes up to the first that is missing, which is where the pushing stops, are at most 16 bits long. -/
def CodesFit : List (Option BitPair) → Prop
  | [] => True
  | none :: _ => True
  | some p :: ps => p.len ≤ 16 ∧ CodesFit ps

theorem codesFit_cons {o : Option BitPair} {ps : List (Option BitPair)} (h : ∀ p, o = some p → p.len ≤ 16 ∧ CodesFit ps) :
    CodesFit (o :: ps) := by
  cases o with
  | none => trivial
  | some p => exact h p rfl

theorem codesFit_append {ps qs : List (Option BitPair)} (hp : CodesFit ps) (hq : CodesFit qs) : CodesFit (ps ++ qs) := by
  induction ps with
  | nil => exact hq
  | cons o ps ih =>
    cases o with
    | none => trivial
    | some p => exact ⟨hp.1, ih hp.2⟩

theorem codesFit_huffPair {t : HuffTable} (ht : t.bits.length = 16) (sym : Nat) {ps : List (Option BitPair)}
    (hp : CodesFit ps) : CodesFit (huffPair t sym :: ps) :=
  codesFit_cons fun _ h => ⟨(huffPair_some ht h).1, hp⟩

/-- A DC difference of a category above 11 has no code, so its bits are never reached (R104, R105, R158). -/
theorem codesFit_dcPairs (a : Comp) (diff : Int) : CodesFit (dcPairs (dcTable a) diff) := by
  unfold dcPairs
  split
  · exact codesFit_huffPair (dcTable_bits a) 0 trivial
  · refine codesFit_cons fun p h => ?_
    obtain ⟨hl, hv⟩ := huffPair_some (dcTable_bits a) h
    exact ⟨hl, le_trans (dcTable_vals_le hv) (by decide), trivial⟩

theorem codesFit_acCoefPairs {t : HuffTable} (ht : t.bits.length = 16) (run : Nat) (v : Int) :
    CodesFit (acCoefPairs t run v) := by
  refine codesFit_append ?_ (codesFit_cons fun p h => ?_)
  · induction run / 16 with
    | zero => trivial
    | succ n ih => exact codesFit_huffPair ht 0xF0 ih
  · unfold acSymbol at h
    split at h
    · cases h
    · exact ⟨(huffPair_some ht h).1, show category v ≤ 16 by omega, trivial⟩

theorem codesFit_acPairs {t : HuffTable} (ht : t.bits.length = 16) (vs : List Int) (run : Nat) : CodesFit (acPairs t run vs) := by
  induction vs generalizing run with
  | nil =>
    cases run with
    | zero => trivial
    | succ run => exact codesFit_huffPair ht 0x00 trivial
  | cons v vs ih =>
    rw [acPairs]
    split
    · exact ih (run + 1)
    · exact codesFit_append (codesFit_acCoefPairs ht run v) (ih 0)

theorem codesFit_duPairs (a : Comp) (dc : Int) (du : List Int) : CodesFit (duPairs a dc du) :=
  codesFit_append (codesFit_dcPairs a _) (codesFit_acPairs (acTable_bits a) _ 0)

theorem codesFit_grayPairs : CodesFit grayPairs :=
  codesFit_huffPair rfl 0 (codesFit_huffPair rfl 0 (codesFit_huffPair rfl 0 (codesFit_huffPair rfl 0 trivial)))

/-! The walk over the JPEG operations. -/

/-- The fields the two invariants speak of. -/
def SameScan (s t : State) : Prop := t.bb = s.bb ∧ t.jacc = s.jacc ∧ t.jaccn = s.jaccn

theorem chains_sameScan : Chains SameScan :=
  ⟨fun _ => ⟨rfl, rfl, rfl⟩, fun _ _ _ h1 h2 => by simp_all [SameScan]⟩

theorem SameJpeg.sameScan {s t : State} (h : SameJpeg s t) : SameScan s t := by
  simp only [SameJpeg] at h
  simp [SameScan, h]

/-- What a predicate on the scan's fields must bear to hold through the JPEG operations. -/
structure ScanRules (E I : State → Prop) : Prop where
  fault : ∀ s, I s → E s
  same : ∀ s t, SameScan s t → I s → I t
  push : ∀ p : BitPair, p.len ≤ 16 → Guards E I (push p)
  flush : Guards E I bflushBody
  clear : ∀ s, I s → I { s with jacc := 0, jaccn := 0 }
  start : ∀ s, I s → I s.startImage

section
variable {E I : State → Prop} (h : ScanRules E I)
include h

theorem guards_of_sameScan {α : Type} {b : Body α} (hb : Keeps SameScan b) : Guards E I b := guards_of_keeps h.fault h.same hb

theorem guards_pushCodes (ps : List (Option BitPair)) (hp : CodesFit ps) : Guards E I (pushCodes ps) := by
  induction ps with
  | nil => exact guards_pure ()
  | cons o ps ih =>
    cases o with
    | none => exact guards_raise_bind h.fault _ _
    | some p => exact guards_bind (h.push p hp.1) fun _ => ih hp.2

theorem guards_jhufBody (a : Comp) : Guards E I (jhufBody a) := by
  refine guards_bind (guards_requirePhase h.fault _) fun _ =>
    guards_bind (guards_of_sameScan h (keeps_requireQuant chains_sameScan)) fun _ => guards_get_bind fun s => ?_
  cases allWritten s.du.toList
  · exact guards_raise h.fault _
  · exact guards_bind (guards_pushCodes h _ (codesFit_duPairs a _ _)) fun _ =>
      guards_modify fun s => h.same s _ ⟨rfl, rfl, rfl⟩

theorem guards_jpduBody (a : Comp) : Guards E I (jpduBody a) :=
  guards_bind (guards_of_sameScan h (keeps_qzzBody chains_sameScan (fun _ _ => ⟨rfl, rfl, rfl⟩) _)) fun _ => guards_jhufBody h a

theorem guards_jgrayuvBody : Guards E I jgrayuvBody :=
  guards_bind (guards_requirePhase h.fault _) fun _ => guards_pushCodes h _ codesFit_grayPairs

theorem guards_bpushBody (b v : BitVec 16) : Guards E I (bpushBody b v) :=
  guards_require_bind h.fault fun hb => guards_bind (guards_requirePhase h.fault _) fun _ => h.push _ (of_decide_eq_true hb)

theorem guards_codeBlock (a : BlockSel) (c : Comp) : Guards E I (codeBlock a c) :=
  guards_bind (guards_of_sameScan h (keeps_fdctBody chains_sameScan (fun _ _ => ⟨rfl, rfl, rfl⟩) a)) fun _ => guards_jpduBody h c

theorem guards_codeLuma16 : Guards E I codeLuma16 :=
  guards_bind (guards_codeBlock h _ _) fun _ => guards_bind (guards_codeBlock h _ _) fun _ =>
    guards_bind (guards_codeBlock h _ _) fun _ => guards_codeBlock h _ _

theorem guards_codeChroma : Guards E I codeChroma :=
  guards_bind (guards_codeBlock h _ _) fun _ => guards_codeBlock h _ _

theorem guards_gray2yBody : Guards E I gray2yBody :=
  guards_of_sameScan h (keeps_gray2yBody chains_sameScan fun _ _ => ⟨rfl, rfl, rfl⟩)

theorem guards_rgb2yuvBody : Guards E I rgb2yuvBody :=
  guards_of_sameScan h (keeps_rgb2yuvBody chains_sameScan (fun _ _ => ⟨rfl, rfl, rfl⟩) (fun _ _ => ⟨rfl, rfl, rfl⟩)
    (fun _ _ => ⟨rfl, rfl, rfl⟩) (fun _ _ => ⟨rfl, rfl, rfl⟩) (fun _ _ => ⟨rfl, rfl, rfl⟩))

theorem guards_yuvloadBody : Guards E I yuvloadBody :=
  guards_of_sameScan h (keeps_yuvloadBody chains_sameScan (fun _ _ => ⟨rfl, rfl, rfl⟩) (fun _ _ => ⟨rfl, rfl, rfl⟩)
    (fun _ _ => ⟨rfl, rfl, rfl⟩))

theorem guards_csubBody : Guards E I csubBody :=
  guards_of_sameScan h (keeps_csubBody chains_sameScan (fun _ _ => ⟨rfl, rfl, rfl⟩) (fun _ _ => ⟨rfl, rfl, rfl⟩))

theorem guards_variantBody (v : WbVar) : Guards E I (variantBody v) := by
  have hplanar := guards_bind (guards_yuvloadBody h) fun _ => guards_bind (guards_codeLuma16 h) fun _ => guards_codeChroma h
  cases v with
  | subs =>
    refine guards_get_bind fun s => ?_
    split
    · exact guards_bind (guards_gray2yBody h) (fun _ => guards_bind (guards_codeLuma16 h) fun _ => guards_jgrayuvBody h)
    · exact guards_bind (guards_rgb2yuvBody h) (fun _ => guards_bind (guards_csubBody h) fun _ =>
        guards_bind (guards_codeLuma16 h) fun _ => guards_codeChroma h)
  | full =>
    refine guards_get_bind fun s => ?_
    split
    · exact guards_bind (guards_gray2yBody h) (fun _ => guards_bind (guards_codeBlock h _ _) fun _ => guards_jgrayuvBody h)
    · exact guards_bind (guards_rgb2yuvBody h) (fun _ => guards_bind (guards_codeBlock h _ _) fun _ => guards_codeChroma h)
  | nv12 => exact hplanar
  | yuv420p => exact hplanar

omit h in
theorem sameScan_nextMacroblock (s : State) (q : Quant) : SameScan s (s.nextMacroblock q) := by
  unfold State.nextMacroblock
  split <;> exact ⟨rfl, rfl, rfl⟩

theorem guards_jwblkBody : Guards E I jwblkBody := by
  refine guards_bind (guards_requirePhase h.fault _) fun _ =>
    guards_bind (guards_of_sameScan h (keeps_requireQuant chains_sameScan)) fun q => guards_get_bind fun s => ?_
  refine guards_bind (guards_require h.fault _ _) fun _ => guards_bind (guards_variantBody h _) fun _ =>
    guards_bind (guards_modify fun s => h.same s _ (sameScan_nextMacroblock s q)) fun _ => guards_get_bind fun s => ?_
  split
  · exact h.flush
  · exact guards_pure ()

theorem guards_jrowBody : Guards E I jrowBody :=
  guards_bind (guards_requirePhase h.fault _) fun _ =>
    guards_bind (guards_of_sameScan h (keeps_requireQuant chains_sameScan)) fun _ => guards_get_bind fun _ =>
      guards_bind (guards_require h.fault _ _) (fun _ => guards_repeat (guards_jwblkBody h) _)

theorem guards_jinitBody : Guards E I jinitBody :=
  guards_bind (guards_requirePhase h.fault _) fun _ =>
    guards_bind (guards_of_sameScan h (keeps_checksBody chains_sameScan)) fun _ =>
      guards_bind (guards_of_sameScan h (keeps_requireFiletype chains_sameScan _)) fun _ =>
        guards_bind (guards_modify fun s => h.same s _ ⟨rfl, rfl, rfl⟩) fun _ =>
          guards_bind (guards_of_sameScan h (keeps_jqinitBody chains_sameScan fun _ => ⟨rfl, rfl, rfl⟩)) fun _ =>
            guards_modify h.start

theorem guards_jhdrBody : Guards E I jhdrBody :=
  guards_of_sameScan h (keeps_jhdrBody chains_sameScan (fun _ _ => ⟨rfl, rfl, rfl⟩) (fun _ _ _ => ⟨rfl, rfl, rfl⟩))

theorem guards_jfinBody : Guards E I jfinBody :=
  guards_bind (guards_requirePhase h.fault _) fun _ =>
    guards_bind (guards_of_sameScan h (keeps_requireQuant chains_sameScan)) fun _ => guards_get_bind fun _ =>
      guards_bind (guards_require h.fault _ _) (fun _ => guards_bind (h.push _ (Nat.le_of_lt (by decide : (7 : Nat) < 16))) fun _ =>
        guards_bind h.flush fun _ => guards_bind (guards_modify h.clear) fun _ =>
          guards_bind (guards_of_sameScan h (keeps_outBytes chains_sameScan _ fun _ => ⟨rfl, rfl, rfl⟩)) fun _ =>
            guards_modify fun s => h.same s _ ⟨rfl, rfl, rfl⟩)

theorem guards_jencBody : Guards E I jencBody :=
  guards_bind (guards_jinitBody h) fun _ => guards_bind (guards_jhdrBody h) fun _ =>
    guards_bind (guards_of_sameScan h (keeps_requireQuant chains_sameScan)) fun _ => guards_get_bind fun _ =>
      guards_bind (guards_repeat (guards_jrowBody h) _) (fun _ => guards_jfinBody h)

theorem guards_scan_jpeg {i : Instr} (hi : isJpegInstr i = true) : Guards E I (bodyOf i) := by
  cases i <;> simp only [isJpegInstr, Bool.false_eq_true] at hi
  case jqinit => exact guards_of_sameScan h (keeps_jqinitBody chains_sameScan fun _ => ⟨rfl, rfl, rfl⟩)
  case jinit => exact guards_jinitBody h
  case jhdr => exact guards_jhdrBody h
  case rgb2yuv => exact guards_rgb2yuvBody h
  case gray2y => exact guards_gray2yBody h
  case yuvload => exact guards_yuvloadBody h
  case csub => exact guards_csubBody h
  case fdct a => exact guards_of_sameScan h (keeps_fdctBody chains_sameScan (fun _ _ => ⟨rfl, rfl, rfl⟩) a)
  case qzz a => exact guards_of_sameScan h (keeps_qzzBody chains_sameScan (fun _ _ => ⟨rfl, rfl, rfl⟩) a)
  case jhuf a => exact guards_jhufBody h a
  case jpdu a => exact guards_jpduBody h a
  case jgrayuv => exact guards_jgrayuvBody h
  case bpush b v => exact guards_bpushBody h b v
  case bflush => exact h.flush
  case jwblk => exact guards_jwblkBody h
  case jrow => exact guards_jrowBody h
  case jfin => exact guards_jfinBody h
  case jenc => exact guards_jencBody h

/-- Every operation: those outside the JPEG family leave the scan's fields alone. -/
theorem guards_scan (i : Instr) : Guards E I (bodyOf i) :=
  guards_byFamily h.fault (fun s r v => h.same s _ (by cases r <;> exact ⟨rfl, rfl, rfl⟩)) (guards_scan_jpeg h)
    fun hi => guards_of_sameScan h (keeps_weaken (keeps_sameJpeg hi) fun _ _ => SameJpeg.sameScan)

end

/-! The slots of the bit buffer. -/

theorem masked_lt (v : BitVec 16) (n : Nat) : (v &&& BitVec.ofNat 16 (2 ^ n - 1)).toNat < 2 ^ n := by
  have h1 : (v &&& BitVec.ofNat 16 (2 ^ n - 1)).toNat ≤ (2 ^ n - 1) % 2 ^ 16 := by
    rw [BitVec.toNat_and, BitVec.toNat_ofNat]
    exact Nat.and_le_right
  have h2 := Nat.mod_le (2 ^ n - 1) (2 ^ 16)
  have h3 := Nat.two_pow_pos n
  omega

theorem guards_push_bitBuffer (p : BitPair) (hp : p.len ≤ 16) : Guards BitBufferInv BitBufferInv (push p) := by
  refine guards_of_keeps (fun _ h => h) (fun _ _ h => h) (keeps_push (chains_implies BitBufferInv) p fun s hf hs => ?_)
  obtain ⟨hn, hv⟩ := hs
  refine ⟨by simp only [List.length_append, List.length_singleton]; omega, fun x hx => ?_⟩
  rcases List.mem_append.mp hx with hx | hx
  · exact hv x hx
  · rw [List.mem_singleton.mp hx]
    exact ⟨hp, masked_lt p.value p.len⟩

/-- One bit of a flush leaves the slots. -/
theorem keeps_flushBit_bb (b : Bool) : Keeps (fun s t => t.bb = s.bb) (flushBit b) := by
  have hR := chains_observation State.bb
  refine keeps_bind hR (keeps_modify fun _ => rfl) fun _ => keeps_get_bind fun s => ?_
  split
  · refine keeps_bind (R := fun s t => t.bb = s.bb) hR (keeps_outBytes hR _ fun _ => rfl) (fun _ => keeps_modify fun _ => ?_) s
    rfl
  · exact hR.same s

theorem bitBufferInv_of_bb {s t : State} (h : t.bb = s.bb) (hs : BitBufferInv s) : BitBufferInv t := by
  unfold BitBufferInv
  rw [h]
  exact hs

theorem bitBufferInv_of_empty {s : State} (h : s.bb = []) : BitBufferInv s := by simp [BitBufferInv, h]

theorem guards_bflushBody_bitBuffer : Guards BitBufferInv BitBufferInv bflushBody :=
  guards_bind (guards_requirePhase (fun _ h => h) _) fun _ => guards_get_bind fun _ =>
    guards_bind (guards_of_keeps (R := fun s t => t.bb = s.bb) (fun _ h => h) (fun _ _ => bitBufferInv_of_bb)
      (keeps_forM (chains_observation State.bb) keeps_flushBit_bb _))
      fun _ => guards_modify fun _ _ => bitBufferInv_of_empty rfl

theorem scanRules_bitBuffer : ScanRules BitBufferInv BitBufferInv where
  fault _ h := h
  same _ _ h := bitBufferInv_of_bb h.1
  push := guards_push_bitBuffer
  flush := guards_bflushBody_bitBuffer
  clear _ h := h
  start _ _ := bitBufferInv_of_empty rfl

theorem stepInvariant_bitBuffer : StepInvariant BitBufferInv BitBufferInv where
  fault _ h := h
  take _ h := h
  respond _ _ h := h
  takeFault _ _ _ h := h
  sreset s _ := bitBufferInv_of_empty (s := s.sreset) rfl
  body i s _ hs := guards_scan scanRules_bitBuffer i s hs

/-! The pending bits of the scan. -/

/-- `JACCN` is 0..7 and `JACC` holds that many bits (R31). -/
def ScanPending (s : State) : Prop := s.jaccn ≤ 7 ∧ s.jacc < 2 ^ s.jaccn

theorem scanPending_of_same {s t : State} (h : SameScan s t) (hs : ScanPending s) : ScanPending t := by
  obtain ⟨-, ha, hn⟩ := h
  unfold ScanPending
  rw [ha, hn]
  exact hs

theorem scanPending_empty {s : State} (ha : s.jacc = 0) (hn : s.jaccn = 0) : ScanPending s := by simp [ScanPending, ha, hn]

theorem guards_flushBit_pending (b : Bool) : Guards (fun _ => True) ScanPending (flushBit b) := by
  refine fun s hs => guardsAt_of_ok fun a t h => ?_
  obtain ⟨hn, ha⟩ := hs
  simp only [flushBit, modify_bind, get_bind] at h
  split at h
  · obtain ⟨_, u, -, h⟩ := bind_ok_inv h
    cases h
    exact scanPending_empty rfl rfl
  · cases h
    have hb : b.toNat ≤ 1 := by cases b <;> decide
    exact ⟨by show s.jaccn + 1 ≤ 7; omega, by show 2 * s.jacc + b.toNat < 2 ^ (s.jaccn + 1); rw [pow_succ]; omega⟩

theorem guards_bflushBody_pending : Guards (fun _ => True) ScanPending bflushBody :=
  guards_bind (guards_requirePhase (fun _ _ => trivial) _) fun _ => guards_get_bind fun _ =>
    guards_bind (guards_forM guards_flushBit_pending _) (fun _ => guards_modify fun _ h => h)

theorem scanRules_pending : ScanRules (fun _ => True) ScanPending where
  fault _ _ := trivial
  same _ _ := scanPending_of_same
  push p _ := guards_of_keeps (R := fun s t => t.jacc = s.jacc ∧ t.jaccn = s.jaccn) (fun _ _ => trivial)
    (fun s t h hs => by unfold ScanPending; rw [h.1, h.2]; exact hs)
    (keeps_push ⟨fun _ => ⟨rfl, rfl⟩, fun _ _ _ h1 h2 => ⟨h2.1.trans h1.1, h2.2.trans h1.2⟩⟩ p fun _ _ => ⟨rfl, rfl⟩)
  flush := guards_bflushBody_pending
  clear _ _ := scanPending_empty rfl rfl
  start _ _ := scanPending_empty rfl rfl

end Sys2Proof.Proofs

/-! The state's invariants and frames, 10_state.md. Part 4: the hash table and the accumulator of the zlib stream. One walk over the
compressor serves both invariants on them: the canonical form of HT (R35), also after a fault, and the pending bits of `ZACC` (R37). -/

namespace Sys2Proof.Proofs

open Sys2Proof Sys2Proof.Machine Sys2Proof.Laws

/-! The composites, over what their parts keep. -/

section
variable {E I : State → Prop}

theorem guards_compressLoop (step : Guards E I lzstepBody) (emit : Guards E I zemitBody) (n : Nat) :
    Guards E I (compressLoop n) := by
  induction n with
  | zero => exact guards_pure ()
  | succ n ih =>
    refine guards_get_bind fun s => ?_
    split
    · exact guards_bind step fun _ => guards_bind emit fun _ => ih
    · exact guards_pure ()

theorem guards_zcompBody (start : ∀ a, Guards E I (zbeginBody a)) (step : Guards E I lzstepBody) (emit : Guards E I zemitBody)
    (stop : Guards E I zendBody) (a : ZSel) : Guards E I (zcompBody a) :=
  guards_bind (start a) fun _ => guards_get_bind fun _ => guards_bind (guards_compressLoop step emit _) fun _ => stop

theorem guards_pencBody (sig : Guards E I psigBody) (filter : Guards E I pfiltBody) (comp : ∀ a, Guards E I (zcompBody a))
    (chunk : ∀ tag p, Guards E I (chunkBody tag p)) (done : ∀ s, I s → I { s with phase := .pDone }) : Guards E I pencBody :=
  guards_bind sig fun _ => guards_get_bind fun _ => guards_bind (guards_repeat filter _) fun _ =>
    guards_bind (comp .fbuf) fun _ => guards_get_bind fun _ => guards_bind (chunk _ _) fun _ =>
      guards_bind (chunk _ _) fun _ => guards_modify done

end

/-! The extra bits of a length and a distance fit their fields. -/

/-- The entry after the largest one that is at most `v` is above `v`, if the table has one. -/
theorem lt_of_largestIndex {table : List Nat} {v bound : Nat} (hv : v < bound) :
    v < table.getD (table.takeWhile fun b => decide (b ≤ v)).length bound := by
  induction table with
  | nil => simpa using hv
  | cons b table ih =>
    by_cases hb : b ≤ v
    · simpa [List.takeWhile_cons, hb] using ih
    · simp [hb]; omega

/-- Where no gap of a table is wider than the extra bits of its entry can count, the offset of a value from its entry fits. -/
theorem sub_largestIndex_lt {table extra : List Nat} {v bound : Nat} (hv : v < bound) (hne : 0 < table.length)
    (gap : ∀ j < table.length, table.getD (j + 1) bound ≤ table.getD j 0 + 2 ^ extra.getD j 0) :
    v - table.getD (largestIndex table v) 0 < 2 ^ extra.getD (largestIndex table v) 0 := by
  have hlt := lt_of_largestIndex (table := table) hv
  have hle := (List.takeWhile_sublist (l := table) fun b => decide (b ≤ v)).length_le
  unfold largestIndex
  generalize (table.takeWhile fun b => decide (b ≤ v)).length = n at hlt hle ⊢
  have hpos := Nat.two_pow_pos (extra.getD (n - 1) 0)
  cases n with
  | zero =>
    have hfirst : table.getD 0 0 = table.getD 0 bound := by simp [List.getD_eq_getElem?_getD, List.getElem?_eq_getElem hne]
    rw [Nat.zero_sub, hfirst, Nat.sub_eq_zero_of_le hlt.le]
    exact hpos
  | succ j =>
    have hj := gap j (by omega)
    rw [Nat.add_sub_cancel] at hpos ⊢
    omega

theorem length_offset_lt {len : Nat} (h : len ≤ 258) :
    len - lenBase.getD (largestIndex lenBase len) 0 < 2 ^ lenExtra.getD (largestIndex lenBase len) 0 :=
  sub_largestIndex_lt (bound := 259) (by omega) (by decide) (by decide)

theorem distance_offset_lt {dist : Nat} (h : dist ≤ 32767) :
    dist - distBase.getD (largestIndex distBase dist) 0 < 2 ^ distExtra.getD (largestIndex distBase dist) 0 :=
  sub_largestIndex_lt (bound := 32768) (by omega) (by decide) (by decide)

/-! The walk over the compressor. -/

/-- The fields the two invariants speak of. -/
def SameStream (s t : State) : Prop := t.ht = s.ht ∧ t.zacc = s.zacc ∧ t.zaccn = s.zaccn

theorem chains_sameStream : Chains SameStream :=
  ⟨fun _ => ⟨rfl, rfl, rfl⟩, fun _ _ _ h1 h2 => by simp_all [SameStream]⟩

theorem SamePng.sameStream {s t : State} (h : SamePng s t) : SameStream s t := by
  simp only [SamePng] at h
  simp [SameStream, h]

theorem pngWrites_sameStream : PngWrites SameStream := by
  constructor <;> (try constructor) <;> intros <;> exact ⟨rfl, rfl, rfl⟩

/-- What a predicate on the stream's fields must bear to hold through the compressor. -/
structure StreamRules (E I : State → Prop) : Prop where
  fault : ∀ s, I s → E s
  same : ∀ s t, SameStream s t → I s → I t
  start : ∀ s a, I s → I (s.startStream a)
  bits : ∀ v n, v < 2 ^ n → Guards E I (zBits v n)
  search : Guards E I lzstepBody

section
variable {E I : State → Prop} (h : StreamRules E I)
include h

theorem guards_of_sameStream {α : Type} {b : Body α} (hb : Keeps SameStream b) : Guards E I b := guards_of_keeps h.fault h.same hb

theorem guards_appendZbuf (b : Byte) : Guards E I (appendZbuf b) :=
  guards_of_sameStream h (keeps_appendZbuf chains_sameStream b fun _ => ⟨rfl, rfl, rfl⟩)

theorem guards_zbeginBody (a : ZSel) : Guards E I (zbeginBody a) :=
  guards_bind (guards_requirePhase h.fault _) fun _ => guards_bind (guards_modify fun s => h.start s a) fun _ =>
    guards_bind (guards_appendZbuf h _) fun _ => guards_bind (guards_appendZbuf h _) fun _ =>
      guards_bind (h.bits 1 1 (by decide)) fun _ => guards_bind (h.bits 1 2 (by decide)) fun _ =>
        guards_modify fun s => h.same s _ ⟨rfl, rfl, rfl⟩

theorem guards_zHuff (sym : Nat) : Guards E I (zHuff sym) := h.bits _ _ (bitRev_lt _ _)

theorem guards_zExtra {v n : Nat} (hv : v < 2 ^ n) : Guards E I (zExtra v n) := by
  unfold zExtra
  split
  · exact h.bits v n hv
  · exact guards_pure ()

theorem guards_emitMatch (len dist : Nat) : Guards E I (emitMatch len dist) := by
  refine guards_require_bind h.fault fun hc => ?_
  obtain ⟨hdist, hlen⟩ := (Bool.and_eq_true _ _).mp hc
  exact guards_bind (guards_zHuff h _) fun _ => guards_bind (guards_zExtra h (length_offset_lt (of_decide_eq_true hlen))) fun _ =>
    guards_bind (h.bits _ 5 (bitRev_lt 5 _)) fun _ => guards_zExtra h (distance_offset_lt (of_decide_eq_true hdist))

theorem guards_zemitBody : Guards E I zemitBody := by
  refine guards_bind (guards_requirePhase h.fault _) fun _ =>
    guards_bind (guards_of_sameStream h (keeps_requireToken chains_sameStream)) fun tok =>
      guards_bind ?_ fun _ => guards_modify fun s => h.same s _ ⟨rfl, rfl, rfl⟩
  cases tok with
  | lit b => exact guards_zHuff h _
  | copy len dist => exact guards_emitMatch h _ _

theorem guards_padZbits : Guards E I padZbits := by
  refine guards_get_bind fun s => ?_
  split
  · exact h.bits 0 _ (Nat.two_pow_pos _)
  · exact guards_pure ()

theorem guards_zendBody : Guards E I zendBody :=
  guards_bind (guards_requirePhase h.fault _) fun _ => guards_get_bind fun _ =>
    guards_bind (guards_require h.fault _ _) fun _ => guards_bind (guards_zHuff h _) fun _ =>
      guards_bind (guards_padZbits h) fun _ =>
        guards_bind (guards_of_sameStream h (keeps_readSelected chains_sameStream _ _)) fun _ =>
          guards_bind (guards_modify fun s => h.same s _ ⟨rfl, rfl, rfl⟩) fun _ =>
            guards_bind (guards_forM (guards_appendZbuf h) _) fun _ => guards_modify fun s => h.same s _ ⟨rfl, rfl, rfl⟩

theorem guards_stream_zcompBody (a : ZSel) : Guards E I (zcompBody a) :=
  guards_zcompBody (guards_zbeginBody h) h.search (guards_zemitBody h) (guards_zendBody h) a

theorem guards_stream_png {i : Instr} (hi : isPngInstr i = true) : Guards E I (bodyOf i) := by
  have hR := chains_sameStream
  have hP := pngWrites_sameStream
  have hfilter := guards_of_sameStream h (keeps_pfiltBody hR hP.toFilterWrites)
  have hsig := guards_of_sameStream h (keeps_psigBody hR hP)
  cases i <;> simp only [isPngInstr, Bool.false_eq_true] at hi
  case pfilt => exact hfilter
  case zbegin a => exact guards_zbeginBody h a
  case lzstep => exact h.search
  case zemit => exact guards_zemitBody h
  case zend => exact guards_zendBody h
  case zcomp a => exact guards_stream_zcompBody h a
  case adler a => exact guards_of_sameStream h (keeps_adlerBody hR (fun _ _ => ⟨rfl, rfl, rfl⟩) a)
  case crc32 a => exact guards_of_sameStream h (keeps_crc32Body hR (fun _ _ => ⟨rfl, rfl, rfl⟩) a)
  case crcchk v => exact guards_of_sameStream h (keeps_crcchkBody hR (fun _ _ => ⟨rfl, rfl, rfl⟩) v)
  case psig => exact hsig
  case pchunk a => exact guards_of_sameStream h (keeps_pchunkBody hR hP.toChunkWrites hP.phase a)
  case penc =>
    exact guards_pencBody hsig hfilter (guards_stream_zcompBody h)
      (fun tag p => guards_of_sameStream h (keeps_chunkBody hR hP.toChunkWrites tag p)) fun s => h.same s _ ⟨rfl, rfl, rfl⟩

/-- Every operation: those outside the PNG family leave the stream's fields alone. -/
theorem guards_stream (i : Instr) : Guards E I (bodyOf i) :=
  guards_byFamily h.fault (fun s r v => h.same s _ (by cases r <;> exact ⟨rfl, rfl, rfl⟩))
    (fun hi => guards_of_sameStream h (keeps_weaken (keeps_samePng hi) fun _ _ => SamePng.sameStream)) (guards_stream_png h)

end

/-! The hash table. -/

/-- HT is in its canonical form. -/
def TableInv (s : State) : Prop := s.ht.wf = true

theorem tableInv_of_ht {s t : State} (h : t.ht = s.ht) (hs : TableInv s) : TableInv t := by
  unfold TableInv
  rw [h]
  exact hs

theorem guards_insertBody {g i : Nat} (hg : g < 16384) : Guards TableInv TableInv (insertBody g i) :=
  guards_modify fun _ hs => put_wf _ hs hg (insertPosition_ne_nil _ _ _)

theorem guards_of_sameTable {α : Type} {b : Body α} (hb : Keeps (fun s t => t.ht = s.ht) b) : Guards TableInv TableInv b :=
  guards_of_keeps (R := fun s t => t.ht = s.ht) (fun _ h => h) (fun _ _ => tableInv_of_ht) hb

theorem guards_setToken_table (tok : Token) (zi : Nat) : Guards TableInv TableInv (setToken tok zi) :=
  guards_modify fun _ hs => hs

/-- `LZSTEP` replaces one bucket, below 16384, by a list that is not empty (R234, R236). -/
theorem guards_searchStep_table (i len : Nat) : Guards TableInv TableInv (searchStep i len) := by
  have hR := chains_observation State.ht
  have hread := fun j => guards_of_sameTable (keeps_dataAt hR j)
  refine guards_bind (hread _) fun d0 => guards_bind (hread _) fun d1 => guards_bind (hread _) fun d2 =>
    guards_get_bind fun s => guards_bind (guards_of_sameTable (keeps_searchMatch hR _ _ _ _ _)) fun found =>
      guards_bind (guards_insertBody (bucketOf_lt _ _ _ _)) fun _ => ?_
  rcases found with ⟨best, _ | loc⟩
  · exact guards_setToken_table _ _
  · refine guards_bind (hread _) fun d3 => guards_get_bind fun s =>
      guards_bind (guards_of_sameTable (keeps_lazyBeaten hR _ _ _ _)) fun beaten => ?_
    split
    · exact guards_setToken_table _ _
    · exact guards_setToken_table _ _

theorem guards_lzstepBody_table : Guards TableInv TableInv lzstepBody := by
  refine guards_bind (guards_requirePhase (fun _ h => h) _) fun _ => guards_get_bind fun s =>
    guards_bind (guards_require (fun _ h => h) _ _) fun _ => ?_
  dsimp only
  split
  · exact guards_bind (guards_of_sameTable (keeps_dataAt (chains_observation State.ht) _)) fun _ => guards_setToken_table _ _
  · exact guards_searchStep_table _ _

theorem bitWrites_ht : BitWrites fun s t => t.ht = s.ht := by
  constructor <;> intros <;> rfl

theorem streamRules_table : StreamRules TableInv TableInv where
  fault _ h := h
  same _ _ h := tableInv_of_ht h.1
  start _ _ _ := reset_ht_wf
  bits v n _ := guards_of_sameTable (keeps_zBits (chains_observation State.ht) bitWrites_ht v n)
  search := guards_lzstepBody_table

/-- The source space and the parameters, which no operation writes. -/
def SameParameters (s t : State) : Prop := t.src = s.src ∧ t.caps = s.caps ∧ t.hash3 = s.hash3

theorem chains_sameParameters : Chains SameParameters :=
  ⟨fun _ => ⟨rfl, rfl, rfl⟩, fun _ _ _ h1 h2 => by simp_all [SameParameters]⟩

theorem keeps_sameParameters (i : Instr) : Keeps SameParameters (bodyOf i) := by
  refine keeps_bodyOf chains_sameParameters ?_ ?_ ?_ (fun _ _ => ⟨rfl, rfl, rfl⟩)
    (fun _ r _ => by cases r <;> exact ⟨rfl, rfl, rfl⟩) i
  · constructor <;> (try constructor) <;> (try constructor) <;> intros <;> exact ⟨rfl, rfl, rfl⟩
  · constructor <;> (try constructor) <;> intros <;> exact ⟨rfl, rfl, rfl⟩
  · constructor <;> (try constructor) <;> intros <;> exact ⟨rfl, rfl, rfl⟩

theorem guards_storage (i : Instr) : Guards StorageInv StorageInv (bodyOf i) := by
  refine guards_of_keeps (R := fun s t => SameParameters s t ∧ (TableInv s → TableInv t)) (fun _ h => h) ?_
    fun s => ⟨keeps_sameParameters i s, keeps_of_guards (guards_stream streamRules_table i) s⟩
  rintro s t ⟨⟨hsrc, -, hhash⟩, hht⟩ ⟨h1, h2, h3⟩
  exact ⟨hsrc ▸ h1, hht h2, hhash ▸ h3⟩

theorem stepInvariant_storage : StepInvariant StorageInv StorageInv where
  fault _ h := h
  take _ h := h
  respond _ _ h := h
  takeFault _ _ _ h := h
  sreset _ h := ⟨h.1, reset_ht_wf, h.2.2⟩
  body i s _ hs := guards_storage i s hs

/-! The pending bits of the stream. -/

/-- `ZACCN` is 0..7 and `ZACC` holds that many bits (R37). -/
def StreamPending (s : State) : Prop := s.zaccn ≤ 7 ∧ s.zacc < 2 ^ s.zaccn

theorem streamPending_of_same {s t : State} (ha : t.zacc = s.zacc) (hn : t.zaccn = s.zaccn) (hs : StreamPending s) :
    StreamPending t := by
  unfold StreamPending
  rw [ha, hn]
  exact hs

theorem streamPending_empty {s : State} (ha : s.zacc = 0) (hn : s.zaccn = 0) : StreamPending s := by
  simp [StreamPending, ha, hn]

/-- A byte that leaves the accumulator takes eight of its bits. -/
theorem drainByte_ok {s t : State} {u : Unit} {m : Nat} (h : drainByte s = .ok u t) (hn : s.zaccn = m + 8)
    (ha : s.zacc < 2 ^ (m + 8)) : t.zaccn = m ∧ t.zacc < 2 ^ m := by
  obtain ⟨_, v, hv, h⟩ := bind_ok_inv (show (appendZbuf _ >>= fun _ => modify _) s = .ok u t from h)
  obtain ⟨-, hza, hzn⟩ := keeps_ok (keeps_appendZbuf chains_sameStream _ fun _ => ⟨rfl, rfl, rfl⟩) hv
  cases h
  refine ⟨by show v.zaccn - 8 = m; omega, ?_⟩
  show v.zacc / 2 ^ 8 < 2 ^ m
  rw [pow_add] at ha
  omega

theorem drainBytes_ok (k : Nat) {m : Nat} : ∀ {s t : State} {u : Unit}, repeatBody k drainByte s = .ok u t →
    s.zaccn = m + 8 * k → s.zacc < 2 ^ (m + 8 * k) → t.zaccn = m ∧ t.zacc < 2 ^ m := by
  induction k with
  | zero => intro s t u h hn ha; cases h; exact ⟨hn, ha⟩
  | succ k ih =>
    intro s t u h hn ha
    rw [repeat_succ_apply] at h
    obtain ⟨_, v, hv, h⟩ := bind_ok_inv h
    obtain ⟨hvn, hva⟩ := drainByte_ok (m := m + 8 * k) hv hn ha
    exact ih h hvn hva

/-- The bits that fill no byte are left, fewer than eight. -/
theorem guards_zBits_pending {v n : Nat} (hv : v < 2 ^ n) : Guards (fun _ => True) StreamPending (zBits v n) := by
  refine fun s hs => guardsAt_of_ok fun u t h => ?_
  simp only [zBits, modify_bind, get_bind] at h
  have hsplit : s.zaccn + n = (s.zaccn + n) % 8 + 8 * ((s.zaccn + n) / 8) := by omega
  obtain ⟨hn, ha⟩ := drainBytes_ok ((s.zaccn + n) / 8) (m := (s.zaccn + n) % 8) h hsplit
    (hsplit ▸ or_shift_lt _ _ _ _ hs.2 hv)
  exact ⟨by omega, hn ▸ ha⟩

theorem matcherWrites_zacc : MatcherWrites fun s t => t.zacc = s.zacc ∧ t.zaccn = s.zaccn := by
  constructor <;> intros <;> exact ⟨rfl, rfl⟩

theorem streamRules_pending : StreamRules (fun _ => True) StreamPending where
  fault _ _ := trivial
  same _ _ h := streamPending_of_same h.2.1 h.2.2
  start _ _ _ := streamPending_empty rfl rfl
  bits _ _ hv := guards_zBits_pending hv
  search := guards_of_keeps (fun _ _ => trivial) (fun _ _ h => streamPending_of_same h.1 h.2)
    (keeps_lzstepBody ⟨fun _ => ⟨rfl, rfl⟩, fun _ _ _ h1 h2 => ⟨h2.1.trans h1.1, h2.2.trans h1.2⟩⟩ matcherWrites_zacc)

/-! Both accumulators, and the statement. -/

theorem accumulatorInv_iff (s : State) : AccumulatorInv s ↔ (s.phase ≠ .failed → ScanPending s ∧ StreamPending s) := by
  simp only [AccumulatorInv, ScanPending, StreamPending, and_assoc]

theorem stepInvariant_accumulator : StepInvariant (fun _ => True) AccumulatorInv where
  fault _ _ := trivial
  take _ h := h
  respond _ _ h := h
  takeFault _ _ _ _ := fun hp => absurd rfl hp
  sreset _ _ := fun _ => ⟨Nat.zero_le 7, Nat.one_pos, Nat.zero_le 7, Nat.one_pos⟩
  body i s hp hs := by
    obtain ⟨hscan, hstream⟩ := (accumulatorInv_iff s).mp hs hp
    exact guardsAt_of_ok fun u t h => (accumulatorInv_iff t).mpr fun _ =>
      ⟨(guards_scan scanRules_pending i s hscan).ok h, (guards_stream streamRules_pending i s hstream).ok h⟩

/-- Settles O11: the three invariants are kept by every body, each by the walk over the family that writes its fields. -/
theorem storesInvKept : Obligations.StoresInvKept := fun _ _ h =>
  ⟨fun hs => stepInvariant_storage.step hs h, fun hs => stepInvariant_bitBuffer.step hs h,
   fun hs => stepInvariant_accumulator.step hs h⟩

end Sys2Proof.Proofs

/-! The state's invariants and frames, 10_state.md. Part 5: the configuration of a JPEG stays the one that passed the checks, the mode
registers stay consistent, and the fault registers agree with the phase. -/

namespace Sys2Proof.Proofs

open Sys2Proof Sys2Proof.Machine Sys2Proof.Laws

/-! The mode registers. -/

/-- The modes `JQINIT` computes agree: a planar source always subsamples (R134, R191). -/
theorem quantOf_consistent (s : State) : (quantOf s).consistent := by
  refine ⟨rfl, ?_⟩
  show writerVariant s = .full ↔ subsampleMode s = false
  have hplanar : s.srckind ≠ srcPixel → subsampleMode s = true := fun h => by simp [subsampleMode, h]
  unfold writerVariant
  split
  · rename_i h
    simp [hplanar (h ▸ by decide)]
  split
  · rename_i h
    simp [hplanar (h ▸ by decide)]
  split <;> simp_all

theorem modeInv_of_quant {s t : State} (h : t.quant = s.quant) (hs : ModeInv s) : ModeInv t := fun q hq => hs q (h ▸ hq)

theorem modeInv_quantOf {s : State} (u : State) (h : s.quant = some (quantOf u)) : ModeInv s := by
  intro q hq
  rw [← Option.some.inj (h.symm.trans hq)]
  exact quantOf_consistent u

theorem streamWrites_mode : StreamWrites fun s t => ModeInv s → ModeInv t where
  toBlockWrites := by constructor <;> (try constructor) <;> intros <;> assumption
  quant s _ := modeInv_quantOf s rfl
  clear _ h := h

theorem keeps_mode (i : Instr) : Keeps (fun s t => ModeInv s → ModeInv t) (bodyOf i) :=
  keeps_byFamily (chains_implies ModeInv) (fun _ r _ h => by cases r <;> exact h)
    (keeps_jpeg (chains_implies ModeInv) streamWrites_mode)
    fun hi => keeps_weaken (keeps_sameJpeg hi) fun _ _ hJ => modeInv_of_quant hJ.1

theorem stepInvariant_mode : StepInvariant ModeInv ModeInv where
  fault _ h := h
  take _ h := h
  respond _ _ h := h
  takeFault _ _ _ h := h
  sreset _ _ := nofun
  body i _ _ hs := guards_of_keeps (fun _ h => h) (fun _ _ h => h) (keeps_mode i) _ hs

/-! The configuration and the tables. -/

/-- The configuration has passed the checks and the tables are its own. -/
def Admitted (s : State) : Prop := checkFault s = none ∧ s.filetype = 5 ∧ s.quant = some (quantOf s)

/-- What the checks and the tables read stays, and the tables too. -/
def SameSetup (s t : State) : Prop :=
  checkFault t = checkFault s ∧ t.filetype = s.filetype ∧ quantOf t = quantOf s ∧ t.quant = s.quant

theorem chains_sameSetup : Chains SameSetup :=
  ⟨fun _ => ⟨rfl, rfl, rfl, rfl⟩, fun _ _ _ h1 h2 => by simp_all [SameSetup]⟩

theorem admitted_of_same {s t : State} (h : SameSetup s t) (hs : Admitted s) : Admitted t := by
  obtain ⟨hc, hf, hq, ht⟩ := h
  unfold Admitted
  rw [hc, hf, hq, ht]
  exact hs

theorem blockWrites_sameSetup : BlockWrites SameSetup := by
  constructor <;> (try constructor) <;> intros <;> exact ⟨rfl, rfl, rfl, rfl⟩

theorem pngWrites_sameSetup : PngWrites SameSetup := by
  constructor <;> (try constructor) <;> intros <;> exact ⟨rfl, rfl, rfl, rfl⟩

theorem compressorWrites_sameSetup : CompressorWrites SameSetup := by
  constructor <;> (try constructor) <;> intros <;> exact ⟨rfl, rfl, rfl, rfl⟩

/-- Only `WRREG` writes the configuration, and only `JQINIT`, `JINIT` and `JENC` the tables. -/
theorem keeps_sameSetup {i : Instr} (hw : ∀ r v, i ≠ .wrreg r v) (hq : i ≠ .jqinit) (hs : i ≠ .jinit) (he : i ≠ .jenc) :
    Keeps SameSetup (bodyOf i) := by
  cases hj : isJpegInstr i with
  | true => exact keeps_jpegWithin chains_sameSetup blockWrites_sameSetup hj hq hs he
  | false =>
    cases hp : isPngInstr i with
    | true =>
      exact keeps_png chains_sameSetup pngWrites_sameSetup compressorWrites_sameSetup (fun _ _ => ⟨rfl, rfl, rfl, rfl⟩) hp
    | false =>
      cases i <;> simp only [isJpegInstr, isPngInstr, Bool.true_eq_false] at hj hp
      case wrreg r v => exact absurd rfl (hw r v)
      case rdreg r b => exact keeps_pure chains_sameSetup ()
      case validate => exact keeps_validateBody chains_sameSetup
      case sreset => exact keeps_pure chains_sameSetup ()

theorem checksBody_ok {s t : State} {u : Unit} (h : checksBody s = .ok u t) : checkFault s = none ∧ t = s := by
  simp only [checksBody, get_bind] at h
  cases hc : checkFault s with
  | none => rw [hc] at h; cases h; exact ⟨rfl, rfl⟩
  | some c => rw [hc] at h; cases h

theorem requireFiletype_ok {ft : BitVec 3} {s t : State} {u : Unit} (h : requireFiletype ft s = .ok u t) :
    s.filetype = ft ∧ t = s := by
  simp only [requireFiletype, get_bind, require_apply] at h
  split at h
  · cases h; exact ⟨of_decide_eq_true ‹_›, rfl⟩
  · cases h

theorem jqinitBody_ok {s t : State} {u : Unit} (h : jqinitBody s = .ok u t) :
    s.phase = .idle ∧ t = { s with quant := some (quantOf s) } := by
  obtain ⟨hp, h⟩ := requirePhaseIs_bind_ok h
  cases h
  exact ⟨hp, rfl⟩

/-- What a `JINIT` that raises no fault found and leaves (R201). -/
theorem jinitBody_ok {s t : State} {u : Unit} (h : jinitBody s = .ok u t) :
    checkFault s = none ∧ s.filetype = fileJpeg ∧ t = State.startImage { s with out := [], quant := some (quantOf s) } := by
  obtain ⟨-, h⟩ := requirePhaseIs_bind_ok h
  obtain ⟨_, s1, h1, hrest⟩ := bind_ok_inv h
  obtain ⟨hc, rfl⟩ := checksBody_ok h1
  obtain ⟨_, s2, h2, htables⟩ := bind_ok_inv hrest
  obtain ⟨hf, rfl⟩ := requireFiletype_ok h2
  rw [modify_bind] at htables
  obtain ⟨_, s3, h3, hstart⟩ := bind_ok_inv htables
  obtain ⟨-, rfl⟩ := jqinitBody_ok h3
  cases hstart
  exact ⟨hc, hf, rfl⟩

theorem jinitBody_admits {s t : State} {u : Unit} (h : jinitBody s = .ok u t) : Admitted t := by
  obtain ⟨hc, hf, rfl⟩ := jinitBody_ok h
  exact ⟨hc, hf, rfl⟩

/-- After its `JINIT`, `JENC` leaves the configuration and the tables. -/
theorem jencBody_admits {s t : State} {u : Unit} (h : jencBody s = .ok u t) : Admitted t := by
  have hR := chains_sameSetup
  have hB := blockWrites_sameSetup
  obtain ⟨_, s1, h1, h⟩ := bind_ok_inv h
  refine admitted_of_same (keeps_ok ?_ h) (jinitBody_admits h1)
  exact keeps_bind hR (keeps_jhdrBody hR hB.out hB.phase) fun _ => keeps_bind hR (keeps_requireQuant hR) fun _ =>
    keeps_get_bind fun s => keeps_bind hR (keeps_repeat hR (keeps_jrowBody hR hB) _)
      (fun _ => keeps_jfinBody hR hB.toFlush hB.phase) s

theorem wrregBody_ok {r : WReg} {v : Word} {s t : State} {u : Unit} (h : wrregBody r v s = .ok u t) :
    (wregAnyPhase r = true ∨ s.phase = .idle) ∧ t = s.writeReg r v := by
  rw [wrregBody, get_bind] at h
  obtain ⟨hp, h⟩ := require_bind_ok h
  obtain ⟨-, h⟩ := require_bind_ok h
  cases h
  exact ⟨by simpa using hp, rfl⟩

theorem writeReg_phase (s : State) (r : WReg) (v : Word) : (s.writeReg r v).phase = s.phase := by cases r <;> rfl

/-- The registers that may be written in any phase are not part of the setup. -/
theorem sameSetup_writeReg {r : WReg} (hr : wregAnyPhase r = true) (s : State) (v : Word) : SameSetup s (s.writeReg r v) := by
  cases r <;> simp only [wregAnyPhase, Bool.false_eq_true] at hr
  case cbase => exact ⟨rfl, rfl, rfl, rfl⟩
  case clen => exact ⟨rfl, rfl, rfl, rfl⟩
  case ctype => exact ⟨rfl, rfl, rfl, rfl⟩

/-! Only `JINIT` and `JENC` lead into the phases of a JPEG. -/

/-- Every good end of the body satisfies `Q`. -/
def EndsIn {α : Type} (Q : State → Prop) (b : Body α) : Prop := ∀ s a t, b s = .ok a t → Q t

section
variable {α β : Type} {Q : State → Prop}

theorem endsIn_bind {x : Body α} {f : α → Body β} (h : ∀ a, EndsIn Q (f a)) : EndsIn Q (x >>= f) := by
  intro s b t hb
  obtain ⟨a, u, -, hu⟩ := bind_ok_inv hb
  exact h a u b t hu

theorem endsIn_modify {f : State → State} (h : ∀ s, Q (f s)) : EndsIn Q (modify f : Body Unit) := by
  intro s _ t ht
  cases ht
  exact h s

end

theorem pfiltBody_ends : EndsIn (fun t => t.phase = .pBody) pfiltBody :=
  endsIn_bind fun _ => endsIn_bind fun _ => endsIn_bind fun _ => endsIn_bind fun _ => endsIn_bind fun _ =>
    endsIn_bind fun _ => endsIn_bind fun _ => endsIn_bind fun _ => endsIn_modify fun _ => rfl

theorem psigBody_ends : EndsIn (fun t => t.phase = .pHdr) psigBody :=
  endsIn_bind fun _ => endsIn_bind fun _ => endsIn_bind fun _ => endsIn_bind fun _ => endsIn_bind fun _ =>
    endsIn_bind fun _ => endsIn_bind fun _ => endsIn_modify fun _ => rfl

theorem pencBody_ends : EndsIn (fun t => t.phase = .pDone) pencBody :=
  endsIn_bind fun _ => endsIn_bind fun _ => endsIn_bind fun _ => endsIn_bind fun _ => endsIn_bind fun _ =>
    endsIn_bind fun _ => endsIn_bind fun _ => endsIn_modify fun _ => rfl

theorem chunkWrites_phase : ChunkWrites fun s t => t.phase = s.phase := by
  constructor <;> intros <;> rfl

theorem pchunkBody_phase {a : PaySel} {s t : State} {u : Unit} (h : pchunkBody a s = .ok u t) :
    t.phase = .pDone ∨ t.phase = s.phase := by
  obtain ⟨-, h⟩ := requirePhase_bind_ok h
  rw [get_bind] at h
  obtain ⟨-, h⟩ := require_bind_ok h
  obtain ⟨_, v, hv, h⟩ := bind_ok_inv h
  have hphase := keeps_ok (keeps_chunkBody (chains_observation State.phase) chunkWrites_phase _ _) hv
  split at h
  · cases h; exact .inl rfl
  · cases h; exact .inr hphase

/-- The operations that write no `PHASE`. -/
def keepsPhase : Instr → Bool
  | .jinit | .jhdr | .jwblk | .jrow | .jfin | .jenc | .pfilt | .psig | .pchunk _ | .penc | .sreset => false
  | _ => true

theorem compressorWrites_phase : CompressorWrites fun s t => t.phase = s.phase := by
  constructor <;> (try constructor) <;> intros <;> rfl

theorem flushWrites_phase : FlushWrites fun s t => t.phase = s.phase := by
  constructor <;> intros <;> rfl

theorem kernelWrites_phase : KernelWrites fun s t => t.phase = s.phase := by
  constructor <;> intros <;> rfl

theorem keeps_phase {i : Instr} (hi : keepsPhase i = true) : Keeps (fun s t => t.phase = s.phase) (bodyOf i) := by
  have hR := chains_observation State.phase
  have hK := kernelWrites_phase
  have hZ := compressorWrites_phase
  cases i <;> simp only [keepsPhase, Bool.false_eq_true] at hi
  case wrreg r v => exact keeps_wrregBody hR writeReg_phase r v
  case rdreg r b => exact keeps_pure hR ()
  case validate => exact keeps_validateBody hR
  case jqinit => exact keeps_jqinitBody hR fun _ => rfl
  case rgb2yuv => exact keeps_rgb2yuvBody hR hK.yp hK.up hK.vp hK.uc hK.vc
  case gray2y => exact keeps_gray2yBody hR hK.yp
  case yuvload => exact keeps_yuvloadBody hR hK.yp hK.uc hK.vc
  case csub => exact keeps_csubBody hR hK.uc hK.vc
  case fdct a => exact keeps_fdctBody hR hK.cdu a
  case qzz a => exact keeps_qzzBody hR hK.du a
  case jhuf a => exact keeps_jhufBody hR hK.bb hK.dc a
  case jpdu a => exact keeps_jpduBody hR hK.du hK.bb hK.dc a
  case jgrayuv => exact keeps_jgrayuvBody hR hK.bb
  case bpush b v => exact keeps_bpushBody hR hK.bb b v
  case bflush => exact keeps_bflushBody hR flushWrites_phase
  case zbegin a => exact keeps_zbeginBody hR hZ a
  case lzstep => exact keeps_lzstepBody hR hZ.toMatcherWrites
  case zemit => exact keeps_zemitBody hR hZ.toBitWrites hZ.token
  case zend => exact keeps_zendBody hR hZ
  case zcomp a => exact keeps_zcompBody hR hZ a
  case adler a => exact keeps_adlerBody hR hZ.adlreg a
  case crc32 a => exact keeps_crc32Body hR chunkWrites_phase.crcreg a
  case crcchk v => exact keeps_crcchkBody hR (fun _ _ => rfl) v

theorem isJpeg_of_allowsScan {p : Phase} (h : p.allowsScan = true) : p.isJpeg = true := by
  cases p <;> simp_all [Phase.allowsScan, Phase.isJpeg]

/-- An operation other than `JINIT` and `JENC` that ends well in a phase of a JPEG began in one. -/
theorem isJpeg_before {i : Instr} (hj : i ≠ .jinit) (he : i ≠ .jenc) {s t : State} {u : Unit} (h : bodyOf i s = .ok u t)
    (ht : t.phase.isJpeg = true) : s.phase.isJpeg = true := by
  cases hk : keepsPhase i with
  | true => exact keeps_ok (keeps_phase hk) h ▸ ht
  | false =>
    cases i <;> simp only [keepsPhase, Bool.true_eq_false] at hk
    case jinit => exact absurd rfl hj
    case jenc => exact absurd rfl he
    case jhdr => rw [(requirePhaseIs_bind_ok h).1]; rfl
    case jfin => rw [(requirePhaseIs_bind_ok h).1]; rfl
    case jwblk => exact isJpeg_of_allowsScan (requirePhase_bind_ok h).1
    case jrow => exact isJpeg_of_allowsScan (requirePhase_bind_ok h).1
    case pfilt => rw [pfiltBody_ends s u t h] at ht; cases ht
    case psig => rw [psigBody_ends s u t h] at ht; cases ht
    case penc => rw [pencBody_ends s u t h] at ht; cases ht
    case pchunk a =>
      rcases pchunkBody_phase h with hp | hp
      · rw [hp] at ht; cases ht
      · exact hp ▸ ht
    case sreset => cases h; exact ht

/-- A body that ends well in a phase of a JPEG leaves an admitted configuration, if it found one. -/
theorem body_admitted {i : Instr} {s t : State} {u : Unit} (hs : JpegConfigInv s) (h : bodyOf i s = .ok u t)
    (ht : t.phase.isJpeg = true) : Admitted t := by
  by_cases hj : i = .jinit
  · subst hj; exact jinitBody_admits h
  by_cases he : i = .jenc
  · subst he; exact jencBody_admits h
  have hbefore := isJpeg_before hj he h ht
  have hidle : s.phase ≠ .idle := fun hp => by rw [hp] at hbefore; cases hbefore
  by_cases hq : i = .jqinit
  · subst hq; exact absurd (jqinitBody_ok h).1 hidle
  by_cases hw : ∃ r v, i = .wrreg r v
  · obtain ⟨r, v, rfl⟩ := hw
    obtain ⟨hr, rfl⟩ := wrregBody_ok h
    exact admitted_of_same (sameSetup_writeReg (hr.resolve_right hidle) s v) (hs hbefore)
  exact admitted_of_same (keeps_ok (keeps_sameSetup (fun r v hi => hw ⟨r, v, hi⟩) hq hj he) h) (hs hbefore)

theorem stepInvariant_jpegConfig : StepInvariant (fun _ => True) JpegConfigInv where
  fault _ _ := trivial
  take _ h := h
  respond _ _ h := h
  takeFault _ _ _ _ := nofun
  sreset _ _ := nofun
  body _ _ _ hs := guardsAt_of_ok fun _ _ h ht => body_admitted hs h ht

/-- Settles O13: `JINIT` admits the configuration and nothing in a phase of a JPEG changes it; `JQINIT` alone writes modes. -/
theorem configInvKept : Obligations.ConfigInvKept := fun _ _ h =>
  ⟨fun hs => stepInvariant_jpegConfig.step hs h, fun hs => stepInvariant_mode.step hs h⟩

/-! The fault registers. -/

theorem keeps_faultRegisters (i : Instr) : Keeps (fun s t => (t.fail, t.finfo) = (s.fail, s.finfo)) (bodyOf i) := by
  refine keeps_bodyOf (chains_observation fun s => (s.fail, s.finfo)) ?_ ?_ ?_ (fun _ _ => rfl)
    (fun _ r _ => by cases r <;> rfl) i
  · constructor <;> (try constructor) <;> (try constructor) <;> intros <;> rfl
  · constructor <;> (try constructor) <;> intros <;> rfl
  · constructor <;> (try constructor) <;> intros <;> rfl

/-- The codes of R301 are 1 to 13. -/
theorem code_range (c : FaultCode) : 1 ≤ c.code.toNat ∧ c.code.toNat ≤ 13 := by cases c <;> decide

theorem faultInv_takeFault (s : State) (c : FaultCode) (op : Byte) : FaultInv (s.takeFault c op) := by
  refine ⟨fun hp => absurd rfl hp, fun _ => ⟨(code_range c).1, (code_range c).2, ?_, rfl⟩⟩
  have hop := op.isLt
  rw [takeFault_finfo, BitVec.toNat_setWidth]
  omega

theorem stepInvariant_fault : StepInvariant (fun _ => True) FaultInv where
  fault _ _ := trivial
  take _ h := h
  respond _ _ h := h
  takeFault s c op _ := faultInv_takeFault s c op
  sreset _ _ := ⟨fun _ => ⟨rfl, rfl⟩, nofun⟩
  body i s hp hs := guardsAt_of_ok fun u t h => by
    have ht := body_phase hp h
    have hregs := keeps_ok (keeps_faultRegisters i) h
    simp only [Prod.mk.injEq] at hregs
    exact ⟨fun _ => by rw [hregs.1, hregs.2]; exact hs.1 hp, fun hf => absurd hf ht⟩

/-- Settles O12: no body writes the fault registers, and taking a fault sets them all. -/
theorem faultInvKept : Obligations.FaultInvKept := fun _ _ hs h => stepInvariant_fault.step hs h

end Sys2Proof.Proofs

/-! The state's invariants and frames, 10_state.md. Part 6: the compressor between its commands (R24, R35, R234, R239). -/

namespace Sys2Proof.Proofs

open Sys2Proof Sys2Proof.Machine Sys2Proof.Laws

/-! What the invariant says of a running compressor. -/

/-- The positions recorded in a table lie before `zi` and outside the tail, at most `2 * q` in a bucket. -/
def TableBounds (ht : HashTable) (q zi zlen : Nat) : Prop :=
  ∀ h, (ht.get h).length ≤ 2 * q ∧ ∀ p ∈ ht.get h, p < zi ∧ p + 3 < zlen

/-- The position, the buckets and the waiting token are in range. -/
def MatcherInv (s : State) : Prop :=
  s.zi.toNat ≤ s.zlen.toNat ∧ 5 ≤ s.zq.toNat ∧ TableBounds s.ht s.zq.toNat s.zi.toNat s.zlen.toNat ∧
    ∀ tok, s.token = some tok → tok.legal

/-- While a stream runs, the matcher is in range. -/
def RunInv (s : State) : Prop := s.zph = .run → MatcherInv s

theorem compressorInv_iff (s : State) : CompressorInv s ↔ (s.phase ≠ .failed → RunInv s) := Iff.rfl

/-- The fields the invariant speaks of. -/
def SameRun (s t : State) : Prop :=
  t.zph = s.zph ∧ t.zi = s.zi ∧ t.zlen = s.zlen ∧ t.zq = s.zq ∧ t.ht = s.ht ∧ t.token = s.token

theorem chains_sameRun : Chains SameRun :=
  ⟨fun _ => ⟨rfl, rfl, rfl, rfl, rfl, rfl⟩, fun _ _ _ h1 h2 => by simp_all [SameRun]⟩

theorem SamePng.sameRun {s t : State} (h : SamePng s t) : SameRun s t := by
  simp only [SamePng] at h
  simp [SameRun, h]

theorem runInv_of_same {s t : State} (h : SameRun s t) (hs : RunInv s) : RunInv t := by
  obtain ⟨hph, hzi, hzlen, hzq, hht, htok⟩ := h
  unfold RunInv MatcherInv
  rw [hph, hzi, hzlen, hzq, hht, htok]
  exact hs

theorem pngWrites_sameRun : PngWrites SameRun := by
  constructor <;> (try constructor) <;> intros <;> exact ⟨rfl, rfl, rfl, rfl, rfl, rfl⟩

theorem bitWrites_sameRun : BitWrites SameRun := by
  constructor <;> intros <;> exact ⟨rfl, rfl, rfl, rfl, rfl, rfl⟩

theorem guards_of_sameRun {α : Type} {b : Body α} (hb : Keeps SameRun b) : Guards (fun _ => True) RunInv b :=
  guards_of_keeps (R := SameRun) (fun _ _ => trivial) (fun _ _ h => runInv_of_same h) hb

/-! A stream begins. -/

/-- `q_eff` is at least 5 (R231). -/
theorem effectiveQuality_ge (quality : Word) : 5 ≤ (effectiveQuality quality).toNat := by
  have hlt := quality.toInt_lt
  rw [effectiveQuality, BitVec.toNat_ofInt]
  omega

theorem matcherInv_startStream (s : State) (a : ZSel) : MatcherInv (s.startStream a) :=
  ⟨Nat.zero_le _, effectiveQuality_ge _, fun _ => ⟨Nat.zero_le _, nofun⟩, nofun⟩

/-- The fields of the matcher; the header of the stream leaves them. -/
def SameMatcher (s t : State) : Prop := t.zi = s.zi ∧ t.zlen = s.zlen ∧ t.zq = s.zq ∧ t.ht = s.ht ∧ t.token = s.token

theorem chains_sameMatcher : Chains SameMatcher :=
  ⟨fun _ => ⟨rfl, rfl, rfl, rfl, rfl⟩, fun _ _ _ h1 h2 => by simp_all [SameMatcher]⟩

theorem matcherInv_of_same {s t : State} (h : SameMatcher s t) (hs : MatcherInv s) : MatcherInv t := by
  obtain ⟨hzi, hzlen, hzq, hht, htok⟩ := h
  unfold MatcherInv
  rw [hzi, hzlen, hzq, hht, htok]
  exact hs

theorem bitWrites_sameMatcher : BitWrites SameMatcher := by
  constructor <;> intros <;> exact ⟨rfl, rfl, rfl, rfl, rfl⟩

/-- A stream that begins is in range, whatever stood before. -/
theorem zbeginBody_ok {a : ZSel} {s t : State} {u : Unit} (h : zbeginBody a s = .ok u t) : MatcherInv t := by
  have hR := chains_sameMatcher
  have hB := bitWrites_sameMatcher
  obtain ⟨-, h⟩ := requirePhase_bind_ok h
  rw [modify_bind] at h
  refine matcherInv_of_same (keeps_ok ?_ h) (matcherInv_startStream s a)
  exact keeps_bind hR (keeps_appendZbuf hR _ fun s => hB.zbuf s _) fun _ =>
    keeps_bind hR (keeps_appendZbuf hR _ fun s => hB.zbuf s _) fun _ => keeps_bind hR (keeps_zBits hR hB _ _) fun _ =>
      keeps_bind hR (keeps_zBits hR hB _ _) fun _ => keeps_modify fun _ => ⟨rfl, rfl, rfl, rfl, rfl⟩

theorem guards_zbeginBody_run (a : ZSel) : Guards (fun _ => True) RunInv (zbeginBody a) :=
  fun _ _ => guardsAt_of_ok fun _ _ h _ => zbeginBody_ok h

/-! What a step of the matcher finds. -/

/-- The relation of a body that only reads. -/
theorem chains_same : Chains fun s t : State => t = s := ⟨fun _ => rfl, fun _ _ _ h1 h2 => h2.trans h1⟩

theorem countEqual_ok {n p q : Nat} {s t : State} {k : Nat} (h : countEqual n p q s = .ok k t) : k ≤ n := by
  induction n generalizing p q s t k with
  | zero => cases h; exact Nat.le_refl 0
  | succ n ih =>
    obtain ⟨a, s1, -, h1⟩ := bind_ok_inv h
    obtain ⟨b, s2, -, h2⟩ := bind_ok_inv h1
    split at h2
    · obtain ⟨d, s3, hd, h3⟩ := bind_ok_inv h2
      cases h3
      exact Nat.succ_le_succ (ih hd)
    · cases h2
      exact Nat.zero_le _

/-- A match of length `best` at `loc` is in the window, no shorter than `least`, and within the length limit and the input (R235,
R236). -/
def MatchInRange (i len least best loc : Nat) : Prop := i < loc + 32768 ∧ least ≤ best ∧ best ≤ 258 ∧ best ≤ len - i

/-- The search of a bucket answers what it began with, or a match in range at one of the bucket's positions. -/
theorem searchMatch_ok {i len : Nat} {ps : List Nat} {best : Nat} {loc : Option Nat} {s t : State} {found : Nat × Option Nat}
    (h : searchMatch i len ps best loc s = .ok found t) :
    found = (best, loc) ∨ ∃ p ∈ ps, found.2 = some p ∧ MatchInRange i len best found.1 p := by
  induction ps generalizing best loc s with
  | nil => cases h; exact .inl rfl
  | cons p ps ih =>
    have hskip : ∀ {v : State}, searchMatch i len ps best loc v = .ok found t →
        found = (best, loc) ∨ ∃ x ∈ p :: ps, found.2 = some x ∧ MatchInRange i len best found.1 x := fun h' =>
      (ih h').imp_right fun ⟨x, hx, hm⟩ => ⟨x, List.mem_cons_of_mem _ hx, hm⟩
    unfold searchMatch at h
    split at h
    · rename_i hwin
      obtain ⟨d, v, hd, h'⟩ := bind_ok_inv h
      have hdle : d ≤ min (len - i) 258 := countEqual_ok hd
      split at h'
      · rename_i hbest
        right
        rcases ih h' with hf | ⟨x, hx, hf, hin, hle, hmax⟩
        · rw [hf]
          exact ⟨p, List.mem_cons_self, rfl, hwin, hbest, by omega, by omega⟩
        · exact ⟨x, List.mem_cons_of_mem _ hx, hf, hin, le_trans hbest hle, hmax⟩
      · exact hskip h'
    · exact hskip h

/-- The token and the next position `LZSTEP` may choose at `i`, from a bucket's positions: a literal, or a match in range. -/
inductive Chosen (i len : Nat) (ps : List Nat) : Token → Nat → Prop where
  | lit (b : Byte) : Chosen i len ps (.lit b) (i + 1)
  | copy {best loc : Nat} (mem : loc ∈ ps) (range : MatchInRange i len 3 best loc) :
    Chosen i len ps (.copy (BitVec.ofNat 9 best) (BitVec.ofNat 15 (i - loc))) (i + best)

/-- Outside the tail `LZSTEP` inserts the position in a bucket and leaves a token chosen from the positions it found there. -/
theorem searchStep_ok {i len : Nat} {s t : State} {u : Unit} (h : searchStep i len s = .ok u t) :
    ∃ g tok z, Chosen i len (s.ht.get g) tok z ∧
      t = { s with ht := s.ht.put g (insertPosition s.zq.toNat (s.ht.get g) i), token := some tok, zi := BitVec.ofNat 32 z } := by
  have hread := fun j => keeps_dataAt chains_same j
  obtain ⟨d0, s0, h0, hs0⟩ := bind_ok_inv h
  obtain rfl := keeps_ok (hread _) h0
  obtain ⟨d1, s1, h1, hs1⟩ := bind_ok_inv hs0
  obtain rfl := keeps_ok (hread _) h1
  obtain ⟨d2, s2, h2, hs2⟩ := bind_ok_inv hs1
  obtain rfl := keeps_ok (hread _) h2
  rw [get_bind] at hs2
  obtain ⟨found, s3, hfound, hs3⟩ := bind_ok_inv hs2
  obtain rfl := keeps_ok (keeps_searchMatch chains_same _ _ _ _ _) hfound
  rw [insertBody, modify_bind] at hs3
  refine ⟨bucketOf s3.hash3 d0 d1 d2, ?_⟩
  rcases found with ⟨best, _ | loc⟩
  · cases hs3
    exact ⟨_, _, .lit d0, rfl⟩
  · have hrange : loc ∈ s3.ht.get (bucketOf s3.hash3 d0 d1 d2) ∧ MatchInRange i len 3 best loc := by
      rcases searchMatch_ok hfound with hf | ⟨p, hp, hf, hm⟩
      · cases hf
      · cases hf
        exact ⟨hp, hm⟩
    obtain ⟨d3, s4, h4, hs4⟩ := bind_ok_inv hs3
    obtain rfl := keeps_ok (hread _) h4
    rw [get_bind] at hs4
    obtain ⟨beaten, s5, h5, hs5⟩ := bind_ok_inv hs4
    obtain rfl := keeps_ok (keeps_lazyBeaten chains_same _ _ _ _) h5
    split at hs5
    · cases hs5
      exact ⟨_, _, .lit d0, rfl⟩
    · cases hs5
      exact ⟨_, _, .copy hrange.1 hrange.2, rfl⟩

/-- What an `LZSTEP` that raises no fault found and leaves (R236). -/
theorem lzstepBody_ok {s t : State} {u : Unit} (h : lzstepBody s = .ok u t) :
    lzReady s = true ∧
    ((∃ b, t = { s with token := some (.lit b), zi := BitVec.ofNat 32 (s.zi.toNat + 1) }) ∨
      s.zi.toNat + 3 < s.zlen.toNat ∧ searchStep s.zi.toNat s.zlen.toNat s = .ok u t) := by
  obtain ⟨-, h⟩ := requirePhase_bind_ok h
  rw [get_bind] at h
  obtain ⟨hready, h⟩ := require_bind_ok h
  refine ⟨hready, ?_⟩
  dsimp only at h
  split at h
  · obtain ⟨b, v, hb, hv⟩ := bind_ok_inv h
    obtain rfl := keeps_ok (keeps_dataAt chains_same _) hb
    cases hv
    exact .inl ⟨b, rfl⟩
  · exact .inr ⟨Nat.lt_of_not_le ‹_›, h⟩

/-! The step keeps the ranges. -/

theorem tableBounds_later {ht : HashTable} {q zi zi' zlen : Nat} (h : TableBounds ht q zi zlen) (hz : zi ≤ zi') :
    TableBounds ht q zi' zlen :=
  fun g => ⟨(h g).1, fun p hp => ⟨lt_of_lt_of_le ((h g).2 p hp).1 hz, ((h g).2 p hp).2⟩⟩

/-- Inserting the position into a bucket keeps the bounds for a later position (R234). -/
theorem tableBounds_insert {ht : HashTable} {q i zi' zlen : Nat} (g : Nat) (h : TableBounds ht q i zlen) (hq : 1 ≤ q)
    (hz : i < zi') (hl : i + 3 < zlen) : TableBounds (ht.put g (insertPosition q (ht.get g) i)) q zi' zlen := by
  intro g'
  rw [get_put]
  split
  · refine ⟨insertPosition_length q _ i hq (h g).1, fun p hp => ?_⟩
    rcases mem_insertPosition hp with hp | rfl
    · exact tableBounds_later h hz.le g |>.2 p hp
    · exact ⟨hz, hl⟩
  · exact tableBounds_later h hz.le g'

/-- A chosen token is legal, and the next position is after `i` and within the input (R239, R324). -/
theorem chosen_inRange {i len z : Nat} {ps : List Nat} {tok : Token} (h : Chosen i len ps tok z) (hps : ∀ p ∈ ps, p < i)
    (hi : i < len) : tok.legal ∧ i < z ∧ z ≤ len := by
  cases h with
  | lit b => exact ⟨trivial, Nat.lt_succ_self i, hi⟩
  | @copy best loc mem range =>
    have hloc := hps loc mem
    obtain ⟨hwin, hmin, hmax, hlen⟩ := range
    refine ⟨?_, by omega, by omega⟩
    simp only [Token.legal, BitVec.toNat_ofNat]
    omega

theorem toNat_ofNat_le {z : Nat} {w : Word} (h : z ≤ w.toNat) : (BitVec.ofNat 32 z).toNat = z := by
  rw [BitVec.toNat_ofNat]
  exact Nat.mod_eq_of_lt (lt_of_le_of_lt h w.isLt)

theorem lzstepBody_matcherInv {s t : State} {u : Unit} (h : lzstepBody s = .ok u t) (hs : RunInv s) : MatcherInv t := by
  obtain ⟨hready, hstep⟩ := lzstepBody_ok h
  simp only [lzReady, Bool.and_eq_true, decide_eq_true_eq] at hready
  obtain ⟨⟨hrun, -⟩, hlt⟩ := hready
  obtain ⟨-, hq, htable, -⟩ := hs hrun
  rcases hstep with ⟨b, rfl⟩ | ⟨htail, hsearch⟩
  · have hz := toNat_ofNat_le (z := s.zi.toNat + 1) (w := s.zlen) hlt
    refine ⟨hz.trans_le hlt, hq, ?_, fun tok ht => by cases ht; trivial⟩
    show TableBounds s.ht s.zq.toNat (BitVec.ofNat 32 (s.zi.toNat + 1)).toNat s.zlen.toNat
    rw [hz]
    exact tableBounds_later htable (Nat.le_succ _)
  · obtain ⟨g, tok, z, hchosen, rfl⟩ := searchStep_ok hsearch
    obtain ⟨hlegal, hafter, hwithin⟩ := chosen_inRange hchosen (fun p hp => ((htable g).2 p hp).1) hlt
    have hz := toNat_ofNat_le hwithin
    refine ⟨hz.trans_le hwithin, hq, ?_, fun tok' ht => by cases ht; exact hlegal⟩
    show TableBounds (s.ht.put g _) s.zq.toNat (BitVec.ofNat 32 z).toNat s.zlen.toNat
    rw [hz]
    exact tableBounds_insert g htable (by omega) hafter htail

theorem guards_lzstepBody_run : Guards (fun _ => True) RunInv lzstepBody :=
  fun _ hs => guardsAt_of_ok fun _ _ h _ => lzstepBody_matcherInv h hs

/-! The other operations. -/

theorem guards_zemitBody_run : Guards (fun _ => True) RunInv zemitBody := by
  have hclear : ∀ s : State, RunInv s → RunInv { s with token := none } := fun s hs hrun =>
    have ⟨hzi, hq, htable, _⟩ := hs hrun
    ⟨hzi, hq, htable, nofun⟩
  exact guards_bind (guards_requirePhase (fun _ _ => trivial) _) fun _ =>
    guards_bind (guards_of_sameRun (keeps_requireToken chains_sameRun)) fun tok =>
      guards_bind (guards_of_sameRun (keeps_emitToken chains_sameRun bitWrites_sameRun tok)) fun _ => guards_modify hclear

theorem zendBody_ends : EndsIn (fun t => t.zph = .done) zendBody :=
  endsIn_bind fun _ => endsIn_bind fun _ => endsIn_bind fun _ => endsIn_bind fun _ => endsIn_bind fun _ =>
    endsIn_bind fun _ => endsIn_bind fun _ => endsIn_bind fun _ => endsIn_modify fun _ => rfl

theorem guards_zendBody_run : Guards (fun _ => True) RunInv zendBody :=
  fun s _ => guardsAt_of_ok fun u t h hrun => by rw [zendBody_ends s u t h] at hrun; cases hrun

theorem guards_zcompBody_run (a : ZSel) : Guards (fun _ => True) RunInv (zcompBody a) :=
  guards_zcompBody guards_zbeginBody_run guards_lzstepBody_run guards_zemitBody_run guards_zendBody_run a

theorem guards_run_png {i : Instr} (hi : isPngInstr i = true) : Guards (fun _ => True) RunInv (bodyOf i) := by
  have hR := chains_sameRun
  have hP := pngWrites_sameRun
  have hfilter := guards_of_sameRun (keeps_pfiltBody hR hP.toFilterWrites)
  have hsig := guards_of_sameRun (keeps_psigBody hR hP)
  cases i <;> simp only [isPngInstr, Bool.false_eq_true] at hi
  case pfilt => exact hfilter
  case zbegin a => exact guards_zbeginBody_run a
  case lzstep => exact guards_lzstepBody_run
  case zemit => exact guards_zemitBody_run
  case zend => exact guards_zendBody_run
  case zcomp a => exact guards_zcompBody_run a
  case adler a => exact guards_of_sameRun (keeps_adlerBody hR (fun _ _ => ⟨rfl, rfl, rfl, rfl, rfl, rfl⟩) a)
  case crc32 a => exact guards_of_sameRun (keeps_crc32Body hR hP.crcreg a)
  case crcchk v => exact guards_of_sameRun (keeps_crcchkBody hR (fun _ _ => ⟨rfl, rfl, rfl, rfl, rfl, rfl⟩) v)
  case psig => exact hsig
  case pchunk a => exact guards_of_sameRun (keeps_pchunkBody hR hP.toChunkWrites hP.phase a)
  case penc =>
    exact guards_pencBody hsig hfilter guards_zcompBody_run
      (fun tag p => guards_of_sameRun (keeps_chunkBody hR hP.toChunkWrites tag p)) fun _ h => h

theorem guards_run (i : Instr) : Guards (fun _ => True) RunInv (bodyOf i) :=
  guards_byFamily (fun _ _ => trivial) (fun _ r _ h => by cases r <;> exact h)
    (fun hi => guards_of_sameRun (keeps_weaken (keeps_samePng hi) fun _ _ => SamePng.sameRun)) guards_run_png

theorem stepInvariant_compressor : StepInvariant (fun _ => True) CompressorInv where
  fault _ _ := trivial
  take _ h := h
  respond _ _ h := h
  takeFault _ _ _ _ := fun hp => absurd rfl hp
  sreset _ _ := fun _ => nofun
  body i s hp hs := guardsAt_of_ok fun _ t h => (compressorInv_iff t).mpr fun _ =>
    (guards_run i s ((compressorInv_iff s).mp hs hp)).ok h

/-- Settles O15: `ZBEGIN` starts in range, `LZSTEP` chooses a legal token and a later position, and the rest leaves the matcher. -/
theorem compressorInvKept : Obligations.CompressorInvKept := fun _ _ hs h => stepInvariant_compressor.step hs h

end Sys2Proof.Proofs

/-! The state's invariants and frames, 10_state.md. Part 7: the state right after reset (R41) and the fields of `STATUS` (R25). -/

namespace Sys2Proof.Proofs

open Sys2Proof Sys2Proof.Machine Sys2Proof.Laws

/-! Reset. -/

/-- Settles O16: every store is empty, no record is present and no phase but `IDLE` is entered. -/
theorem invariantsAtReset : Obligations.InvariantsAtReset :=
  ⟨⟨rfl, rfl, rfl⟩, bitBufferInv_of_empty rfl,
   (accumulatorInv_iff _).mpr fun _ => ⟨scanPending_empty rfl rfl, streamPending_empty rfl rfl⟩,
   ⟨fun _ => ⟨rfl, rfl⟩, nofun⟩, nofun, nofun, nofun, fun _ => nofun⟩

/-- An array none of whose marks is set holds no element. -/
theorem element_unwritten {α : Type} (n i : Nat) : element (Vector.replicate n (none : Option α)) i = none := by
  unfold element
  by_cases hi : i < n
  · simp [hi]
  · simp [hi]

theorem status_reset : State.reset.status = 0 := by decide

theorem resetTable_sreset (s : State) : ResetTable s.sreset := by
  refine ⟨⟨rfl, rfl, rfl, rfl, rfl, rfl, rfl⟩, ⟨rfl, rfl, rfl, rfl, rfl, rfl, rfl, rfl, rfl⟩, rfl, ⟨rfl, rfl, rfl, rfl⟩,
    ⟨status_reset, rfl, rfl⟩, ⟨rfl, rfl, rfl⟩, ⟨rfl, rfl, rfl, rfl, rfl⟩, ⟨rfl, rfl, rfl⟩, fun _ => rfl,
    ⟨rfl, rfl, rfl, rfl, rfl, rfl⟩, rfl, fun i => ?_⟩
  exact ⟨element_unwritten 256 i, element_unwritten 256 i, element_unwritten 256 i, element_unwritten 64 i,
    element_unwritten 64 i, element_unwritten 64 i, element_unwritten 64 i⟩

/-- Settles O20: reset is the `SRESET` of the state after reset, and `SRESET` takes the table from any state. -/
theorem sresetResets : Obligations.SresetResets :=
  ⟨resetTable_sreset State.reset, fun s => ⟨s.sreset, rfl, resetTable_sreset s, rfl, rfl, rfl, rfl, rfl⟩⟩

/-! STATUS. -/

theorem bbFull_eq (s : State) : s.bbFull = decide (1280 < s.bb.length) := by
  unfold State.bbFull Config.bbSlots Config.bbHeadroom
  exact decide_eq_decide.mpr (by omega)

/-- The fields of a word put together as R25 lays `STATUS` out. -/
theorem packed_status_fields (qvalid tokv failed crcok bbfull : Bool) (zph : BitVec 2) (phase : BitVec 4) 
    (w : BitVec (21 + 1 + 2 + 1 + 1 + 1 + 1 + 4))
    (h : w = 0#21 ++ bit qvalid ++ zph ++ bit tokv ++ bit failed ++ bit crcok ++ bit bbfull ++ phase) :
    w.extractLsb' 0 4 = phase ∧ w.getLsbD 4 = bbfull ∧ w.getLsbD 5 = crcok ∧ w.getLsbD 6 = failed ∧ w.getLsbD 7 = tokv ∧
      w.extractLsb' 8 2 = zph ∧ w.getLsbD 10 = qvalid ∧ w.toNat < 2 ^ 11 := by
  subst h
  refine ⟨?_, ?_, ?_, ?_, ?_, ?_, ?_, ?_⟩
  · ext i hi
    simp only [BitVec.getElem_extractLsb', BitVec.getLsbD_append]
    simp [hi]
  · simp only [BitVec.getLsbD_append]; simp [bit]
  · simp only [BitVec.getLsbD_append]; simp [bit]
  · simp only [BitVec.getLsbD_append]; simp [bit]
  · simp only [BitVec.getLsbD_append]; simp [bit]
  · ext i hi
    simp only [BitVec.getElem_extractLsb', BitVec.getLsbD_append]
    interval_cases i <;> simp [BitVec.getLsbD_eq_getElem]
  · simp only [BitVec.getLsbD_append]; simp [bit]
  · refine Nat.lt_pow_two_of_testBit _ fun i hi => ?_
    rw [BitVec.testBit_toNat]
    simp only [BitVec.getLsbD_append]
    repeat rw [if_neg (by omega)]
    exact BitVec.getLsbD_zero

/-- Settles O23: `STATUS` is the fields of R25 side by side. -/
theorem statusFields : Obligations.StatusFields := by
  intro s
  obtain ⟨hphase, hfull, hcrc, hfailed, htok, hzph, hq, hlt⟩ := packed_status_fields s.qvalid s.tokv (decide (s.phase = .failed))
    s.crcok s.bbFull s.zph.code s.phase.code s.status rfl
  exact ⟨hphase, hfull.trans (bbFull_eq s), hcrc, hfailed, htok, hzph, hq, hlt⟩

end Sys2Proof.Proofs

/-! The source space, the parameters and the bit flush, 20_memory.md. -/

namespace Sys2Proof.Proofs

open Sys2Proof Sys2Proof.Machine Sys2Proof.Laws

variable {R : State → State → Prop}

/-! What no command writes, and what only the host writes. -/

/-- Without `WRREG` the system operations write nothing, so a relation is kept by the body if the two families keep it. -/
theorem keeps_withoutWrreg (hR : Chains R) {i : Instr} (hw : ∀ r v, i ≠ .wrreg r v)
    (jpeg : isJpegInstr i = true → Keeps R (bodyOf i)) (png : isPngInstr i = true → Keeps R (bodyOf i)) :
    Keeps R (bodyOf i) := by
  cases hj : isJpegInstr i with
  | true => exact jpeg hj
  | false =>
    cases hp : isPngInstr i with
    | true => exact png hp
    | false =>
      cases i <;> simp only [isJpegInstr, isPngInstr, Bool.true_eq_false] at hj hp
      case wrreg r v => exact absurd rfl (hw r v)
      case rdreg r b => exact keeps_pure hR ()
      case validate => exact keeps_validateBody hR
      case sreset => exact keeps_pure hR ()

theorem endsWell_sameParameters : EndsWell SameParameters := ⟨fun _ _ => ⟨rfl, rfl, rfl⟩, fun _ _ _ => ⟨rfl, rfl, rfl⟩⟩

/-- SRC and the parameters stay over every command, `SRESET` included (R320). -/
theorem exec_sameParameters {i : Instr} {s t : State} (h : exec i s = .next t) : SameParameters s t := by
  by_cases hi : i = .sreset
  · subst hi
    cases h
    exact ⟨sreset_src s, sreset_caps s, sreset_hash3 s⟩
  · exact exec_keeps chains_sameParameters endsWell_sameParameters hi (keeps_sameParameters i) h

theorem chains_sameConfig : Chains SameConfig :=
  ⟨fun _ => by simp [SameConfig], fun _ _ _ h1 h2 => by simp_all [SameConfig]⟩

theorem endsWell_sameConfig : EndsWell SameConfig := by
  constructor <;> intros <;> simp [SameConfig]

theorem streamWrites_sameConfig : StreamWrites SameConfig := by
  constructor <;> (try constructor) <;> (try constructor) <;> intros <;> simp [SameConfig]

theorem pngWrites_sameConfig : PngWrites SameConfig := by
  constructor <;> (try constructor) <;> intros <;> simp [SameConfig]

theorem compressorWrites_sameConfig : CompressorWrites SameConfig := by
  constructor <;> (try constructor) <;> intros <;> simp [SameConfig]

/-- No body but that of `WRREG` writes a configuration or pointer register. -/
theorem keeps_sameConfig {i : Instr} (hw : ∀ r v, i ≠ .wrreg r v) : Keeps SameConfig (bodyOf i) :=
  keeps_withoutWrreg chains_sameConfig hw (keeps_jpeg chains_sameConfig streamWrites_sameConfig)
    (keeps_png chains_sameConfig pngWrites_sameConfig compressorWrites_sameConfig fun _ _ => by simp [SameConfig])

theorem exec_sameConfig {i : Instr} {s t : State} (hw : ∀ r v, i ≠ .wrreg r v) (hr : i ≠ .sreset) (h : exec i s = .next t) :
    SameConfig s t :=
  exec_keeps chains_sameConfig endsWell_sameConfig hr (keeps_sameConfig hw) h

/-- Settles O17: no body writes SRC or a parameter and `SRESET` leaves them; the configuration is written by `WRREG` and reset. -/
theorem configurationFrame : Obligations.ConfigurationFrame := by
  intro i s t h
  obtain ⟨hsrc, hcaps, hhash⟩ := exec_sameParameters h
  exact ⟨hsrc, hcaps, hhash, fun hw hr => exec_sameConfig hw hr h⟩

/-! The flush. -/

theorem allowsScan_ne_failed {p : Phase} (h : p.allowsScan = true) : p ≠ .failed := by
  rintro rfl
  cases h

/-- What `BFLUSH` leaves: the bits of the scan gone through the accumulator, and the queue empty. -/
theorem exec_bflush {s : State} (hp : s.phase.allowsScan = true) (hc : s.caps.out = none) (hs : ScanPending s) :
    exec .bflush s = .next (State.respond { flushed s s.scanBits with bb := [] } 0) :=
  command_ok (allowsScan_ne_failed hp) (bflushBody_spec hp hc hs.1 hs.2)

/-- Settles O38: the accumulator is in range in a phase of the scan, so its bits and the queued ones go out in order, and the
state left is the one the statement writes out. -/
theorem bflushPacks : Obligations.BflushPacks := by
  intro s hp hc hs
  obtain ⟨hscan, -⟩ := (accumulatorInv_iff s).mp hs (allowsScan_ne_failed hp)
  exact exec_bflush hp hc hscan

end Sys2Proof.Proofs

/-! The encoding, 30_encoding.md R90 to R97: a word decodes to an instruction exactly when the instruction is well-formed and the
word is its encoding. Each operand shape of R92 is inverted once, and both directions go through those inversions. -/

namespace Sys2Proof.Proofs

open Sys2Proof Sys2Proof.Laws

/-! The operand shapes of R92: what each operand decoder accepts, and what it reads. -/

theorem ite_error_eq_ok_iff {p : Prop} [Decidable p] {x : Except DecodeError Instr} {e : DecodeError} {j : Instr} :
    (if p then x else .error e) = .ok j ↔ p ∧ x = .ok j := by
  split <;> simp [*]

theorem decodePlain_eq_ok_iff {i j : Instr} {a : Byte} {b : BitVec 16} {imm : Word} :
    decodePlain i a b imm = .ok j ↔ (a = 0 ∧ b = 0 ∧ imm = 0) ∧ i = j := by
  simp only [decodePlain, ite_error_eq_ok_iff, Except.ok.injEq]

theorem decodeSel_eq_ok_iff {i : Option Instr} {j : Instr} {b : BitVec 16} {imm : Word} :
    decodeSel i b imm = .ok j ↔ (b = 0 ∧ imm = 0) ∧ i = some j := by
  cases i <;> simp [decodeSel, ite_error_eq_ok_iff]

theorem decodeWrreg_eq_ok_iff {a : Byte} {b : BitVec 16} {imm : Word} {j : Instr} :
    decodeWrreg a b imm = .ok j ↔ b = 0 ∧ ∃ r, WReg.ofId a = some r ∧ .wrreg r imm = j := by
  rw [decodeWrreg, ite_error_eq_ok_iff]
  cases WReg.ofId a <;> simp

theorem decodeRdreg_eq_ok_iff {a : Byte} {b : BitVec 16} {imm : Word} {j : Instr} :
    decodeRdreg a b imm = .ok j ↔ imm = 0 ∧ ∃ r, RReg.ofId a = some r ∧ r.indexOk b = true ∧ .rdreg r b = j := by
  rw [decodeRdreg, ite_error_eq_ok_iff]
  cases RReg.ofId a <;> simp [ite_error_eq_ok_iff]

/-- `BPUSH`'s value field: `imm[31:16]` is zero exactly when `imm` is `imm[15:0]` extended with zeros (R91, R161). -/
theorem high_eq_zero_iff_eq_setWidth {imm : Word} {v : BitVec 16} :
    imm.extractLsb' 16 16 = 0 ∧ imm.extractLsb' 0 16 = v ↔ v.setWidth 32 = imm := by
  simp only [← BitVec.toNat_inj, BitVec.extractLsb'_toNat, BitVec.toNat_setWidth, BitVec.ofNat_eq_ofNat, BitVec.toNat_ofNat]
  omega

theorem decodeBpush_eq_ok_iff {a : Byte} {b : BitVec 16} {imm : Word} {j : Instr} :
    decodeBpush a b imm = .ok j ↔ a = 0 ∧ b.toNat ≤ 16 ∧ ∃ v : BitVec 16, v.setWidth 32 = imm ∧ .bpush b v = j := by
  simp only [decodeBpush, ite_error_eq_ok_iff, Except.ok.injEq, ← high_eq_zero_iff_eq_setWidth]
  constructor
  · rintro ⟨⟨ha, hhigh⟩, hb, hj⟩
    exact ⟨ha, hb, _, ⟨hhigh, rfl⟩, hj⟩
  · rintro ⟨ha, hb, v, ⟨hhigh, rfl⟩, hj⟩
    exact ⟨⟨ha, hhigh⟩, hb, hj⟩

theorem decodeCrcchk_eq_ok_iff {a : Byte} {b : BitVec 16} {imm : Word} {j : Instr} :
    decodeCrcchk a b imm = .ok j ↔ (a = 0 ∧ b = 0) ∧ .crcchk imm = j := by
  simp only [decodeCrcchk, ite_error_eq_ok_iff, Except.ok.injEq]

/-! The decoder on a packed word, and the two directions. -/

theorem decode_packCommand (o : Opcode) (a : Byte) (b : BitVec 16) (imm : Word) :
    decode (packCommand o a b imm) = decodeOperands o a b imm := by
  simp [decode]

/-- Each row's operand decoder accepts the fields the encoder packs, and reads the operands back. -/
theorem decode_encode {i : Instr} (h : i.wf = true) : decode (encode i) = .ok i := by
  cases i <;> refine (decode_packCommand ..).trans ?_
  case wrreg r imm => exact decodeWrreg_eq_ok_iff.mpr ⟨rfl, r, wreg_ofId_id r, rfl⟩
  case rdreg r b => exact decodeRdreg_eq_ok_iff.mpr ⟨rfl, r, rreg_ofId_id r, h, rfl⟩
  case bpush b v => exact decodeBpush_eq_ok_iff.mpr ⟨rfl, of_decide_eq_true h, v, rfl, rfl⟩
  case crcchk imm => exact decodeCrcchk_eq_ok_iff.mpr ⟨⟨rfl, rfl⟩, rfl⟩
  case fdct | qzz | jhuf | jpdu | zbegin | zcomp | adler | crc32 | pchunk =>
    exact decodeSel_eq_ok_iff.mpr ⟨⟨rfl, rfl⟩, by simp⟩
  all_goals exact decodePlain_eq_ok_iff.mpr ⟨⟨rfl, rfl, rfl⟩, rfl⟩

/-- A selector row reads back to its word: the number in `a` is the one of the selector read, and `b` and `imm` are zero. -/
theorem encode_of_decodeSel {α : Type} {o : Opcode} {a : Byte} {b : BitVec 16} {imm : Word} {i : Instr} {sel : Option α}
    {num : α → Byte} {mk : α → Instr} (hnum : ∀ {c}, sel = some c → num c = a)
    (hmk : ∀ c, (mk c).wf = true ∧ encode (mk c) = packCommand o (num c) 0 0)
    (h : decodeSel (sel.map mk) b imm = .ok i) : i.wf = true ∧ encode i = packCommand o a b imm := by
  obtain ⟨⟨rfl, rfl⟩, hsel⟩ := decodeSel_eq_ok_iff.mp h
  obtain ⟨c, hc, rfl⟩ := Option.map_eq_some_iff.mp hsel
  exact hnum hc ▸ hmk c

/-- The fields an operand decoder accepts are the ones the encoder packs for the instruction it reads. -/
theorem encode_of_decodeOperands {o : Opcode} {a : Byte} {b : BitVec 16} {imm : Word} {i : Instr}
    (h : decodeOperands o a b imm = .ok i) : i.wf = true ∧ encode i = packCommand o a b imm := by
  cases o
  case wrreg =>
    obtain ⟨rfl, r, hr, rfl⟩ := decodeWrreg_eq_ok_iff.mp h
    exact ⟨rfl, wreg_id_of_ofId hr ▸ rfl⟩
  case rdreg =>
    obtain ⟨rfl, r, hr, hb, rfl⟩ := decodeRdreg_eq_ok_iff.mp h
    exact ⟨hb, rreg_id_of_ofId hr ▸ rfl⟩
  case bpush =>
    obtain ⟨rfl, hb, v, rfl, rfl⟩ := decodeBpush_eq_ok_iff.mp h
    exact ⟨decide_eq_true hb, rfl⟩
  case crcchk =>
    obtain ⟨⟨rfl, rfl⟩, rfl⟩ := decodeCrcchk_eq_ok_iff.mp h
    exact ⟨rfl, rfl⟩
  case fdct => exact encode_of_decodeSel blockSel_num_of_ofNum (fun _ => ⟨rfl, rfl⟩) h
  case qzz => exact encode_of_decodeSel qSel_num_of_ofNum (fun _ => ⟨rfl, rfl⟩) h
  case jhuf | jpdu => exact encode_of_decodeSel comp_num_of_ofNum (fun _ => ⟨rfl, rfl⟩) h
  case zbegin | zcomp | adler => exact encode_of_decodeSel zSel_num_of_ofNum (fun _ => ⟨rfl, rfl⟩) h
  case crc32 => exact encode_of_decodeSel msgSel_num_of_ofNum (fun _ => ⟨rfl, rfl⟩) h
  case pchunk => exact encode_of_decodeSel paySel_num_of_ofNum (fun _ => ⟨rfl, rfl⟩) h
  all_goals
    obtain ⟨⟨rfl, rfl, rfl⟩, rfl⟩ := decodePlain_eq_ok_iff.mp h
    exact ⟨rfl, rfl⟩

theorem encode_of_decode {w : Command} {i : Instr} (h : decode w = .ok i) : i.wf = true ∧ encode i = w := by
  unfold decode at h
  split at h
  next o ho =>
    obtain ⟨hwf, henc⟩ := encode_of_decodeOperands h
    exact ⟨hwf, henc.trans (packCommand_fields o w (opcode_byte_of_ofByte ho).symm)⟩
  next => cases h

/-- The decoder and the encoder are inverse to each other between the accepted words and the well-formed instructions. -/
theorem decode_eq_ok_iff {w : Command} {i : Instr} : decode w = .ok i ↔ i.wf = true ∧ encode i = w :=
  ⟨encode_of_decode, fun ⟨hwf, henc⟩ => henc ▸ decode_encode hwf⟩

/-- Settles O1: the encoder packs fields that the row's operand decoder reads back. -/
theorem decodeEncode : Obligations.DecodeEncode := fun _ => decode_encode

/-- Settles O2: every field of an accepted word is an operand's or zero, so packing the operands gives the word. -/
theorem encodeDecode : Obligations.EncodeDecode := fun _ _ => encode_of_decode

/-- Settles O3: each word is the encoding of the well-formed command beside it. -/
theorem decodeSampleWords : Obligations.DecodeSampleWords := by
  simp only [Obligations.DecodeSampleWords, decode_eq_ok_iff]
  decide

end Sys2Proof.Proofs

/-! The JPEG quantisation and table initialiser, 40_jpeg_quant_init.md: what `JQINIT` leaves, the modes and the aligned width it
computes, and the entries of its tables read as the integers of R131 to R133. -/

namespace Sys2Proof.Proofs

open Sys2Proof Sys2Proof.Machine Sys2Proof.Laws

theorem exec_jqinit {s : State} (hp : s.phase = .idle) :
    exec .jqinit s = .next (State.respond { s with quant := some (quantOf s) } 0) :=
  command_ok (by simp [hp]) (u := ()) (by rw [jqinitBody, requirePhaseIs_bind, if_pos hp]; rfl)

/-! The mode registers (R134, R191). -/

theorem subsampleMode_iff (s : State) : subsampleMode s = true ↔ s.quality.toInt ≤ 90 ∨ s.srckind ≠ 0 := by
  rw [subsampleMode, Bool.or_eq_true, decide_eq_true_iff, decide_eq_true_iff]
  rfl

theorem blockSide_side (b : BlockSide) : b.side = 8 ∨ b.side = 16 := by cases b <;> simp [BlockSide.side]

/-- The 32 bits of `AWIDTH` hold the aligned width of every image a JPEG can have (R211). -/
theorem alignedWidth_toNat {w : Word} (hw : w.toNat ≤ 65535) (b : BlockSide) :
    (alignedWidth w b.side).toNat = (w.toNat + b.side - 1) / b.side * b.side := by
  have hfit : (w.toNat + b.side - 1) / b.side * b.side < 2 ^ 32 := by
    have := Nat.div_mul_le_self (w.toNat + b.side - 1) b.side
    have := blockSide_side b
    omega
  exact (BitVec.toNat_ofNat _ _).trans (Nat.mod_eq_of_lt hfit)

/-- Rounding up to a multiple of `n` gives the least multiple of `n` not below `m`. -/
theorem roundUp_least {n : Nat} (hn : 0 < n) (m : Nat) :
    (m + n - 1) / n * n % n = 0 ∧ m ≤ (m + n - 1) / n * n ∧ (m + n - 1) / n * n < m + n := by
  have hdiv := Nat.div_add_mod' (m + n - 1) n
  have hmod := Nat.mod_lt (m + n - 1) hn
  exact ⟨Nat.mul_mod_left _ _, by omega, by omega⟩

theorem alignedWidth_least {w : Word} (hw : w.toNat ≤ 65535) (b : BlockSide) :
    (alignedWidth w b.side).toNat % b.side = 0 ∧ w.toNat ≤ (alignedWidth w b.side).toNat ∧
      (alignedWidth w b.side).toNat < w.toNat + b.side := by
  rw [alignedWidth_toNat hw]
  exact roundUp_least (by have := blockSide_side b; omega) _

/-- Settles O25: in `IDLE` the body is one write of `quantOf`, whose modes are the rule's and whose width is rounded up. -/
theorem jqinitWrites : Obligations.JqinitWrites := fun s hp =>
  ⟨exec_jqinit hp, subsampleMode_iff s, rfl, rfl, fun hw => alignedWidth_least hw _⟩

/-! The table entries: the naturals of the model are the integers of R131 to R133. -/

theorem clampedQuality_cast (w : Word) : (clampedQuality w : Int) = min (max w.toInt 1) 100 :=
  Int.toNat_of_nonneg (by omega)

/-- No quality above 100 reaches the scale, so its subtraction never goes below zero. -/
theorem qualityScale_cast {q : Nat} (hq : q ≤ 100) :
    (qualityScale q : Int) = if (q : Int) < 50 then 5000 / (q : Int) else 200 - 2 * (q : Int) := by
  unfold qualityScale
  split
  · rw [if_pos (by omega)]; rfl
  · rw [if_neg (by omega)]; omega

theorem qualityScale_clampedQuality (w : Word) :
    (qualityScale (clampedQuality w) : Int) =
      if min (max w.toInt 1) 100 < 50 then 5000 / min (max w.toInt 1) 100 else 200 - 2 * min (max w.toInt 1) 100 := by
  have hcast := clampedQuality_cast w
  rw [← hcast]
  exact qualityScale_cast (by omega)

theorem quantAt_cast (base : List Nat) (scale n : Nat) :
    (quantAt base scale n : Int) = min (max ((((base.getD n 0 : Nat) : Int) * scale + 50) / 100) 1) 255 := by
  simp [quantAt, quantEntry]

/-- An entry fits its byte, so the stored table holds the entries themselves (R135). -/
theorem quantBytes_toNat (base : List Nat) (scale : Nat) {z : Nat} (hz : z < 64) :
    (quantBytes base scale)[z].toNat = quantAt base scale (natIndex z) := by
  have hbyte : quantAt base scale (natIndex z) ≤ 255 := Nat.min_le_right _ _
  simp only [quantBytes, Vector.getElem_ofFn, BitVec.toNat_ofNat]
  omega

theorem quantRecips_get (base : List Nat) (scale : Nat) {n : Nat} (hn : n < 64) :
    (quantRecips base scale)[n] = recip (quantAt base scale n) (n / 8) (n % 8) := by
  simp [quantRecips]

/-- Settles O26: the stated scale is the model's, so each stated entry is the table's entry, and the reciprocals are taken of it. -/
theorem quantiserEntries : Obligations.QuantiserEntries := by
  intro s hp
  dsimp only
  simp only [← qualityScale_clampedQuality, ← quantAt_cast, Int.toNat_natCast, Nat.cast_inj]
  exact ⟨quantOf s, exec_jqinit hp, fun _ hz => ⟨quantBytes_toNat baseY _ hz, quantBytes_toNat baseUv _ hz⟩,
    fun _ hn => ⟨quantRecips_get baseY _ hn, quantRecips_get baseUv _ hn⟩⟩

end Sys2Proof.Proofs

/-! The forward transform, 41_jpeg_fdct.md: what each pass leaves at natural index `n`, whose row is `n / 8` and whose column is
`n % 8` (R19), and the block they leave in `CDU`. -/

namespace Sys2Proof.Proofs

open Sys2Proof Sys2Proof.Machine Sys2Proof.Laws

/-! Lists. -/

theorem allWritten_map_some {α : Type} (xs : List α) : allWritten (xs.map some) = some xs := by
  induction xs with
  | nil => rfl
  | cons x xs ih => simp [allWritten, ih]

/-- The entries of `m` rows of width `w`, one row after another. -/
theorem getElem?_flatMap_range {α : Type} {f : Nat → List α} {w : Nat} (hw : ∀ r, (f r).length = w) {m n : Nat}
    (hn : n < w * m) : ((List.range m).flatMap f)[n]? = (f (n / w))[n % w]? := by
  induction m with
  | zero => omega
  | succ m ih =>
    have hlen : ((List.range m).flatMap f).length = w * m := by simp [hw, Nat.mul_comm]
    rw [List.range_succ, List.flatMap_append, List.flatMap_singleton]
    by_cases hm : n < w * m
    · rw [List.getElem?_append_left (hlen ▸ hm), ih hm]
    · obtain ⟨k, rfl⟩ := Nat.exists_eq_add_of_le (Nat.le_of_not_lt hm)
      have hk : k < w := by rw [Nat.mul_succ] at hn; omega
      rw [List.getElem?_append_right (by omega), hlen, Nat.add_sub_cancel_left, Nat.mul_add_div (by omega),
        Nat.div_eq_of_lt hk, Nat.mul_add_mod, Nat.mod_eq_of_lt hk, Nat.add_zero]

/-! The passes. -/

theorem dctPassAt_length (x : Nat → F32) : (dctPassAt x).length = 8 := rfl

/-- A pass reads its entries 0 to 7 only. -/
theorem dctPassAt_congr {x y : Nat → F32} (h : ∀ k, k < 8 → x k = y k) : dctPassAt x = dctPassAt y := by
  simp only [dctPassAt, h, Nat.reduceLT]

/-- Index `n` of a block with entries `x` after the pass over its row. -/
def rowOutput (x : Nat → F32) (n : Nat) : F32 := (dctPassAt fun k => x (8 * (n / 8) + k)).getD (n % 8) 0

/-- Index `n` of a block with entries `x` after the pass over its column. -/
def columnOutput (x : Nat → F32) (n : Nat) : F32 := (dctPassAt fun k => x (8 * k + n % 8)).getD (n / 8) 0

theorem rowOutput_congr {x y : Nat → F32} (h : ∀ n, n < 64 → x n = y n) {n : Nat} (hn : n < 64) :
    rowOutput x n = rowOutput y n :=
  congrArg (·.getD (n % 8) 0) (dctPassAt_congr fun k hk => h _ (by omega))

theorem columnOutput_congr {x y : Nat → F32} (h : ∀ n, n < 64 → x n = y n) (n : Nat) :
    columnOutput x n = columnOutput y n :=
  congrArg (·.getD (n / 8) 0) (dctPassAt_congr fun k hk => h _ (by omega))

theorem dctRows_getD (xs : List F32) {n : Nat} (hn : n < 64) : (dctRows xs).getD n 0 = rowOutput (xs.getD · 0) n := by
  rw [List.getD_eq_getElem?_getD, dctRows, getElem?_flatMap_range (fun _ => dctPassAt_length _) hn,
    ← List.getD_eq_getElem?_getD, rowOutput]

theorem dctColumns_getElem? (xs : List F32) {n : Nat} (hn : n < 64) :
    (dctColumns xs)[n]? = some (columnOutput (xs.getD · 0) n) := by
  rw [dctColumns, getElem?_flatMap_range (w := 8) (fun _ => by simp) hn]
  simp [columnOutput, Nat.mod_lt]

/-- Rows first, then columns (R143): the column passes read what the row passes left. -/
theorem dctBlock_getElem? {xs : List F32} {x : Nat → F32} (hx : ∀ n, n < 64 → xs.getD n 0 = x n) {n : Nat} (hn : n < 64) :
    (dctBlock xs)[n]? = some (columnOutput (rowOutput x) n) := by
  have hrows : ∀ m, m < 64 → (dctRows xs).getD m 0 = rowOutput x m := fun m hm =>
    (dctRows_getD xs hm).trans (rowOutput_congr hx hm)
  rw [dctBlock, dctColumns_getElem? _ hn, columnOutput_congr hrows]

/-! The command. -/

theorem allowsKernel_ne_failed {p : Phase} (h : p.allowsKernel = true) : p ≠ .failed := by
  rintro rfl
  cases h

theorem blockSamples_written {s : State} {a : BlockSel} {x : Nat → F32}
    (h : ∀ n, n < 64 → blockSample s a (n / 8) (n % 8) = some (x n)) :
    blockSamples s a = ((List.range 64).map x).map some := by
  rw [blockSamples, List.map_map]
  exact List.map_congr_left fun n hn => h n (List.mem_range.mp hn)

theorem vectorOf_map_some {α : Type} {m : Nat} {xs : List α} {f : Nat → α} (h : ∀ n, n < m → xs[n]? = some (f n)) :
    vectorOf m (xs.map some) none = Vector.ofFn fun n => some (f n.val) := by
  rw [vectorOf]
  congr 1
  funext n
  simp [List.getD_eq_getElem?_getD, h n n.isLt]

/-- `FDCT` on a block that is written: one write of its transform. -/
theorem exec_fdct {s : State} {a : BlockSel} {block : List F32} (hp : s.phase.allowsKernel = true)
    (hb : blockSamples s a = block.map some) :
    exec (.fdct a) s = .next (State.respond { s with cdu := vectorOf 64 ((dctBlock block).map some) none } 0) :=
  command_ok (allowsKernel_ne_failed hp) (u := ()) (by
    rw [fdctBody, requirePhase_bind, if_pos hp, get_bind, hb, allWritten_map_some]
    rfl)

/-- Settles O32: the written block is loaded whole, and each place of `CDU` is the column pass over the row passes. -/
theorem fdctTransforms : Obligations.FdctTransforms := by
  intro s a x hp hx
  rw [exec_fdct hp (blockSamples_written hx),
    vectorOf_map_some fun n hn => dctBlock_getElem? (x := x) (fun n hn => by simp [hn]) hn]
  rfl

end Sys2Proof.Proofs

/-! The data-unit coder, 42_jpeg_du_coder.md. Part 1: categories and magnitude bits (R152), and what the list of codes of a data unit
holds: how long it is (R166), where a symbol is missing (R158), and that every code fits its length. -/

namespace Sys2Proof.Proofs

open Sys2Proof Sys2Proof.Machine Sys2Proof.Laws

/-! Categories. -/

theorem bitLength_le_iff (v k : Nat) : bitLength v ≤ k ↔ v < 2 ^ k := by
  unfold bitLength
  split
  · simp [*]
  · rw [Nat.succ_le_iff, Nat.log2_lt ‹_›]

theorem category_le_iff (v : Int) (k : Nat) : category v ≤ k ↔ v.natAbs < 2 ^ k := bitLength_le_iff _ k

@[simp] theorem category_zero : category 0 = 0 := rfl

theorem category_pos {v : Int} (h : v ≠ 0) : 1 ≤ category v := by
  have hv : ¬ category v ≤ 0 := by rw [category_le_iff]; omega
  omega

theorem magnitude_lt (v : Int) : magnitude v < 2 ^ category v := by
  have hpos : 0 < 2 ^ category v := Nat.two_pow_pos _
  have hlt := Int.emod_lt_of_pos (if v < 0 then v - 1 else v) (Int.natCast_pos.mpr hpos)
  unfold magnitude
  omega

/-! The codes of a data unit. -/

/-- A code, where there is one, fits its length. -/
def ValueFits (o : Option BitPair) : Prop := ∀ p, o = some p → p.value.toNat < 2 ^ p.len

theorem valueFits_calcBits (v : Int) : ValueFits (some (calcBits v)) := by
  rintro _ ⟨⟩
  rw [calcBits, BitVec.toNat_ofNat]
  exact (Nat.mod_le _ _).trans_lt (magnitude_lt v)

theorem valueFits_huffPair {t : HuffTable} (ht : codesFit t = true) (sym : Nat) : ValueFits (huffPair t sym) :=
  fun _ hp => (huffPair_fit ht hp).2

theorem valueFits_acSymbol {t : HuffTable} (ht : codesFit t = true) (run cat : Nat) : ValueFits (acSymbol t run cat) := by
  unfold acSymbol
  split
  · nofun
  · exact valueFits_huffPair ht _

theorem valueFits_dcPairs {t : HuffTable} (ht : codesFit t = true) (diff : Int) : ∀ o ∈ dcPairs t diff, ValueFits o := by
  unfold dcPairs
  split
  · simp [valueFits_huffPair ht]
  · simp [valueFits_huffPair ht, valueFits_calcBits]

theorem valueFits_acCoefPairs {t : HuffTable} (ht : codesFit t = true) (run : Nat) (v : Int) :
    ∀ o ∈ acCoefPairs t run v, ValueFits o := by
  rw [acCoefPairs, List.forall_mem_append]
  constructor
  · intro o ho
    rw [List.eq_of_mem_replicate ho]
    exact valueFits_huffPair ht _
  · simp [valueFits_acSymbol ht, valueFits_calcBits]

theorem valueFits_acPairs {t : HuffTable} (ht : codesFit t = true) (vs : List Int) (run : Nat) :
    ∀ o ∈ acPairs t run vs, ValueFits o := by
  induction vs generalizing run with
  | nil =>
    cases run with
    | zero => nofun
    | succ run => simp [acPairs, valueFits_huffPair ht]
  | cons v vs ih =>
    rw [acPairs]
    split
    · exact ih (run + 1)
    · exact List.forall_mem_append.mpr ⟨valueFits_acCoefPairs ht run v, ih 0⟩

theorem valueFits_duPairs (a : Comp) (dc : Int) (du : List Int) : ∀ o ∈ duPairs a dc du, ValueFits o :=
  List.forall_mem_append.mpr ⟨valueFits_dcPairs (dcTable_fit a) _, valueFits_acPairs (acTable_fit a) _ 0⟩

/-- Two codes at most for the DC difference. -/
theorem dcPairs_length_le (t : HuffTable) (diff : Int) : (dcPairs t diff).length ≤ 2 := by
  unfold dcPairs
  split <;> simp

/-- Two codes at most for each coefficient, and one at most for each zero before them. -/
theorem acPairs_length_le (t : HuffTable) (vs : List Int) (run : Nat) : (acPairs t run vs).length ≤ 2 * vs.length + run := by
  induction vs generalizing run with
  | nil => cases run <;> simp [acPairs]
  | cons v vs ih =>
    rw [acPairs, List.length_cons]
    split
    · have := ih (run + 1)
      omega
    · have := ih 0
      simp only [acCoefPairs, List.length_append, List.length_replicate, List.length_cons, List.length_nil]
      omega

theorem duPairs_length_le (a : Comp) (dc : Int) (du : List Int) : (duPairs a dc du).length ≤ 2 + 2 * du.tail.length := by
  have hd := dcPairs_length_le (dcTable a) (du.headD 0 - dc)
  have ha := acPairs_length_le (acTable a) du.tail 0
  rw [duPairs, List.length_append]
  omega

/-! Unused symbols, R158. -/

theorem huffPair_dc_eq_none_iff (a : Comp) (n : Nat) : none = huffPair (dcTable a) n ↔ 11 < n := by
  constructor
  · intro h
    by_contra hn
    exact Option.isSome_iff_ne_none.mp (dcTable_present a n (by omega)) h.symm
  · exact fun h => (dcTable_absent a h).symm

theorem acSymbol_eq_none_iff (a : Comp) (run : Nat) {cat : Nat} (hc : 1 ≤ cat) :
    none = acSymbol (acTable a) (run % 16) cat ↔ 10 < cat := by
  unfold acSymbol
  split
  · simp [*]
  · have hs := Option.isSome_iff_ne_none.mp (acTable_present a (run % 16) (by omega) cat (by omega) hc)
    simp [hs.symm, *]

theorem none_mem_dcPairs_iff (a : Comp) (diff : Int) : none ∈ dcPairs (dcTable a) diff ↔ 11 < category diff := by
  unfold dcPairs
  split
  · simp [huffPair_dc_eq_none_iff, *]
  · simp [huffPair_dc_eq_none_iff]

theorem none_mem_acCoefPairs_iff (a : Comp) (run : Nat) {v : Int} (hv : v ≠ 0) :
    none ∈ acCoefPairs (acTable a) run v ↔ 10 < category v := by
  simp [acCoefPairs, (Option.isSome_iff_ne_none.mp (acTable_zrl a)).symm, acSymbol_eq_none_iff a run (category_pos hv)]

theorem none_mem_acPairs_iff (a : Comp) (vs : List Int) (run : Nat) :
    none ∈ acPairs (acTable a) run vs ↔ ∃ v ∈ vs, 10 < category v := by
  induction vs generalizing run with
  | nil => cases run <;> simp [acPairs, (Option.isSome_iff_ne_none.mp (acTable_eob a)).symm]
  | cons v vs ih =>
    rw [acPairs]
    split
    · simp [*]
    · simp [ih, none_mem_acCoefPairs_iff a run ‹_›]

theorem none_mem_duPairs_iff (a : Comp) (dc : Int) (du : List Int) :
    none ∈ duPairs a dc du ↔ 11 < category (du.headD 0 - dc) ∨ ∃ v ∈ du.tail, 10 < category v := by
  rw [duPairs, List.mem_append, none_mem_dcPairs_iff, none_mem_acPairs_iff]

/-- The entries of the tail are those at the indices from 1 on. -/
theorem exists_mem_tail_iff {α : Type} (xs : List α) (d : α) (P : α → Prop) :
    (∃ v ∈ xs.tail, P v) ↔ ∃ z, 1 ≤ z ∧ z < xs.length ∧ P (xs.getD z d) := by
  constructor
  · rintro ⟨v, hv, hP⟩
    obtain ⟨i, hi, rfl⟩ := List.mem_iff_getElem.mp hv
    rw [List.length_tail] at hi
    have hz : i + 1 < xs.length := by omega
    exact ⟨i + 1, by omega, hz, by rwa [List.getD_eq_getElem _ _ hz, ← List.getElem_tail]⟩
  · rintro ⟨z, hz, hlt, hP⟩
    obtain ⟨i, rfl⟩ := Nat.exists_eq_add_of_le' hz
    rw [List.getD_eq_getElem _ _ hlt] at hP
    have hi : i < xs.tail.length := by rw [List.length_tail]; omega
    exact ⟨xs.tail[i], List.getElem_mem hi, by rwa [List.getElem_tail]⟩

/-- Settles O35: two codes at most for each of the 64 coefficients, and the only missing symbols are those of the two categories. -/
theorem jhufBounds : Obligations.JhufBounds := by
  intro a dc du hlen
  constructor
  · have h := duPairs_length_le a dc du
    rw [List.length_tail, hlen] at h
    exact h
  · rw [none_mem_duPairs_iff, exists_mem_tail_iff du 0, List.headD_eq_getD, hlen]

end Sys2Proof.Proofs

/-! The data-unit coder, 42_jpeg_du_coder.md. Part 2: the loop of R153 pushes the codes of `duPairs`. The loop and the list walk the
same coefficients: a round of the loop skips the zeros to the next coefficient, as the list counts them. -/

namespace Sys2Proof.Proofs

open Sys2Proof Sys2Proof.Machine Sys2Proof.Laws

theorem getLastD_filter_range (P : Nat → Prop) [DecidablePred P] (n : Nat) :
    ((List.range (n + 1)).filter fun z => decide (1 ≤ z) && decide (P z)).getLastD 0 = Nat.findGreatest P n := by
  induction n with
  | zero => rfl
  | succ n ih =>
    rw [List.range_succ, List.filter_append, Nat.findGreatest_succ]
    by_cases h : P (n + 1)
    · simp [h, List.getLastD_eq_getLast?]
    · simpa [h] using ih

/-- `end0` of R153 is the greatest position of a coefficient that is not zero. -/
theorem lastNonZero_eq (du : List Int) : lastNonZero du = Nat.findGreatest (fun z => du.getD z 0 ≠ 0) 63 :=
  getLastD_filter_range _ 63

theorem lastNonZero_le (du : List Int) : lastNonZero du ≤ 63 := by
  rw [lastNonZero_eq]
  exact Nat.findGreatest_le 63

theorem getD_lastNonZero {du : List Int} (h : lastNonZero du ≠ 0) : du.getD (lastNonZero du) 0 ≠ 0 := by
  rw [lastNonZero_eq] at h ⊢
  exact Nat.findGreatest_of_ne_zero (P := fun z => du.getD z 0 ≠ 0) rfl h

theorem getD_after_lastNonZero {du : List Int} {z : Nat} (h : lastNonZero du < z) (hz : z ≤ 63) : du.getD z 0 = 0 := by
  rw [lastNonZero_eq] at h
  exact not_not.mp (Nat.findGreatest_is_greatest h hz)

theorem drop_eq_getD_cons {du : List Int} {z : Nat} (h : z < du.length) : du.drop z = du.getD z 0 :: du.drop (z + 1) := by
  rw [List.drop_eq_getElem_cons h, List.getD_eq_getElem _ _ h]

/-- Trailing zeros are one `EOB` (R156). -/
theorem acPairs_zeros (t : HuffTable) {vs : List Int} (h : ∀ v ∈ vs, v = 0) (run : Nat) :
    acPairs t run vs = if run + vs.length = 0 then [] else [huffPair t 0x00] := by
  induction vs generalizing run with
  | nil => cases run <;> rfl
  | cons v vs ih =>
    obtain ⟨hv, hvs⟩ := List.forall_mem_cons.mp h
    rw [acPairs, if_pos hv, ih hvs]
    simp

/-- The zeros from `z` on end before any position whose coefficient is not zero. -/
theorem zerosFrom_le {du : List Int} {e : Nat} (he : du.getD e 0 ≠ 0) (n : Nat) {z : Nat} (hz : z ≤ e) :
    z + zerosFrom du n z ≤ e := by
  induction n generalizing z with
  | zero => exact hz
  | succ n ih =>
    rw [zerosFrom]
    split
    · next h0 =>
      have hne : z ≠ e := fun h => he (h ▸ h0)
      have := ih (z := z + 1) (by omega)
      omega
    · exact hz

/-- From `z` on, where a coefficient that is not zero is still to come: the codes of the next one, after its zeros, and then the
codes of the rest. -/
theorem acPairs_drop {t : HuffTable} {du : List Int} {e : Nat} (he : du.getD e 0 ≠ 0) (hlen : e < du.length) (n run : Nat) {z : Nat}
    (hz : z ≤ e) (hn : e < z + n) :
    acPairs t run (du.drop z) = acCoefPairs t (run + zerosFrom du n z) (du.getD (z + zerosFrom du n z) 0) ++
      acPairs t 0 (du.drop (z + zerosFrom du n z + 1)) := by
  induction n generalizing z run with
  | zero => omega
  | succ n ih =>
    rw [drop_eq_getD_cons (by omega), acPairs, zerosFrom]
    split
    · next h0 =>
      have hne : z ≠ e := fun h => he (h ▸ h0)
      rw [ih (run + 1) (by omega) (by omega), Nat.add_right_comm run, Nat.add_right_comm z, Nat.add_assoc, Nat.add_assoc z]
    · rfl

/-- A round of the loop that has a symbol pushes the codes of the coefficient. -/
theorem acCoefPairs_eq {t : HuffTable} {v : Int} (hv : category v ≤ 10) (run : Nat) : acCoefPairs t run v =
    List.replicate (run / 16) (huffPair t 0xF0) ++ [huffPair t (16 * (run % 16) + category v), some (calcBits v)] := by
  rw [acCoefPairs, acSymbol, if_neg (by omega)]

/-- The loop of R153 from `z` on, with the `EOB` after it, pushes the codes of the coefficients from `z` on. -/
theorem acPairs_eq_acLoop (t : HuffTable) {du : List Int} (hlen : du.length = 64)
    (hcat : ∀ z, 1 ≤ z → z < 64 → category (du.getD z 0) ≤ 10) (n : Nat) {z : Nat} (h1 : 1 ≤ z) (hz : z ≤ lastNonZero du + 1)
    (hn : 64 ≤ z + n) :
    acPairs t 0 (du.drop z) = acLoop t du (lastNonZero du) n z ++ if lastNonZero du = 63 then [] else [huffPair t 0x00] := by
  have hend := lastNonZero_le du
  induction n generalizing z with
  | zero => rw [List.drop_eq_nil_of_le (by omega), if_pos (by omega), acPairs, acLoop, List.append_nil]
  | succ n ih =>
    rw [acLoop]
    split
    · next hle =>
      have he := getD_lastNonZero (du := du) (by omega)
      have hr := zerosFrom_le he 64 hle
      rw [acPairs_drop he (by omega) 64 0 hle (by omega), ih (by omega) (by omega) (by omega),
        acCoefPairs_eq (hcat _ (by omega) (by omega)), Nat.zero_add]
      simp only [List.append_assoc]
    · have hzero : ∀ v ∈ du.drop z, v = 0 := by
        intro v hv
        obtain ⟨i, hi, rfl⟩ := List.mem_iff_getElem.mp hv
        rw [List.length_drop] at hi
        rw [List.getElem_drop, ← List.getD_eq_getElem _ 0]
        exact getD_after_lastNonZero (by omega) (by omega)
      rw [acPairs_zeros t hzero, List.length_drop, List.nil_append]
      congr 1
      simp only [eq_iff_iff]
      omega

/-- The codes of R153 are those of `duPairs`, where every AC coefficient has a category with a symbol. -/
theorem jhufPairs_eq_duPairs (a : Comp) (dc : Int) {du : List Int} (hlen : du.length = 64)
    (hcat : ∀ z, 1 ≤ z → z < 64 → category (du.getD z 0) ≤ 10) : jhufPairs a dc du = duPairs a dc du := by
  have hac := acPairs_eq_acLoop (acTable a) hlen hcat 63 (le_refl 1) (by omega) (by omega)
  rw [jhufPairs, duPairs, List.headD_eq_getD, ← List.drop_one, hac, dcPairs]
  congr 1
  split
  · next h0 => simp [h0, acLoop]
  · rfl

end Sys2Proof.Proofs

/-! The data-unit coder, 42_jpeg_du_coder.md. Part 3: the commands. -/

namespace Sys2Proof.Proofs

open Sys2Proof Sys2Proof.Machine Sys2Proof.Laws

/-! Written arrays. -/

theorem allWritten_of_element {α : Type} {n : Nat} {v : Vector (Option α) n} {x : Nat → α}
    (h : ∀ i, i < n → element v i = some (x i)) : allWritten v.toList = some ((List.range n).map x) := by
  rw [← allWritten_map_some]
  congr 1
  refine List.ext_getElem (by simp) fun i hi _ => ?_
  have hin : i < n := by simpa using hi
  simpa [element, hin] using h i hin

/-! `QZZ`, R150. -/

theorem natIndex_lt {z : Nat} (hz : z < 64) : natIndex z < 64 := by
  have key : ∀ z, z < 64 → natIndex z < 64 := by decide
  exact key z hz

/-- `DU` as `QZZ` leaves it. -/
def quantisedUnit (cdu : List F32) (f : Vector F32 64) : Vector (Option Word) 64 :=
  Vector.ofFn fun z => some (s32OfInt (quantised cdu f z.val))

theorem element_quantisedUnit (cdu : List F32) (f : Vector F32 64) {z : Nat} (hz : z < 64) :
    element (quantisedUnit cdu f) z = some (s32OfInt (quantised cdu f z)) := by
  simp [element, quantisedUnit, hz]

theorem allWritten_quantisedUnit (cdu : List F32) (f : Vector F32 64) :
    allWritten (quantisedUnit cdu f).toList = some ((List.range 64).map fun z => s32OfInt (quantised cdu f z)) :=
  allWritten_of_element fun _ hz => element_quantisedUnit cdu f hz

theorem requireQuant_bind {α : Type} {s : State} {q : Quant} (h : s.quant = some q) (f : Quant → Body α) :
    (requireQuant >>= f) s = f q s := bind_ok (by rw [requireQuant, h])

theorem qzzBody_spec {s : State} {q : Quant} {cdu : List F32} (a : QSel) (hp : s.phase.allowsKernel = true)
    (hq : s.quant = some q) (hc : allWritten s.cdu.toList = some cdu) :
    qzzBody a s = .ok () { s with du := quantisedUnit cdu (recipTable q a) } := by
  rw [qzzBody, requirePhase_bind, if_pos hp, requireQuant_bind hq, get_bind, hc]
  rfl

theorem quantisedUnit_written (x : Nat → F32) (f : Vector F32 64) :
    quantisedUnit ((List.range 64).map x) f = Vector.ofFn fun z =>
      some (s32OfInt (roundHalfAway (fmul (x (natIndex z.val)) (f.toList.getD (natIndex z.val) 0)))) := by
  rw [quantisedUnit]
  congr 1
  funext z
  simp [quantised, natIndex_lt z.isLt]

/-- `QZZ` on written coefficients: one write of the data unit. -/
theorem exec_qzz {s : State} {q : Quant} {cdu : List F32} (a : QSel) (hp : s.phase.allowsKernel = true)
    (hq : s.quant = some q) (hc : allWritten s.cdu.toList = some cdu) :
    exec (.qzz a) s = .next (State.respond { s with du := quantisedUnit cdu (recipTable q a) } 0) :=
  command_ok (allowsKernel_ne_failed hp) (qzzBody_spec a hp hq hc)

/-- Settles O33: the written coefficients are read whole, and each place of `DU` is the rounded product at its natural index. -/
theorem qzzQuantises : Obligations.QzzQuantises := by
  intro s a q x hp hq hx
  rw [exec_qzz a hp hq (allWritten_of_element hx), quantisedUnit_written]
  cases a <;> rfl

/-! `JHUF`, R153. -/

theorem exists_map_some {α : Type} {os : List (Option α)} (h : none ∉ os) : ∃ xs : List α, xs.map some = os := by
  rw [← Set.mem_range, Set.range_list_map]
  exact fun o ho => Option.ne_none_iff_exists.mp fun h0 => h (h0 ▸ ho)

theorem len_le_of_codesFit {ps : List BitPair} (h : CodesFit (ps.map some)) : ∀ p ∈ ps, p.len ≤ 16 := by
  induction ps with
  | nil => nofun
  | cons p ps ih => exact List.forall_mem_cons.mpr ⟨h.1, ih h.2⟩

/-- The codes of a data unit are stored as they stand (R161). -/
theorem map_stored_duPairs {a : Comp} {dc : Int} {du : List Int} {ps : List BitPair} (h : duPairs a dc du = ps.map some) :
    ps.map stored = ps := by
  have hlen := len_le_of_codesFit (h ▸ codesFit_duPairs a dc du)
  have hval := h ▸ valueFits_duPairs a dc du
  calc ps.map stored = ps.map id :=
        List.map_congr_left fun p hp => stored_eq (hlen p hp) (hval _ (List.mem_map_of_mem hp) p rfl)
    _ = ps := List.map_id ps

theorem jhufBody_spec {s : State} {a : Comp} {ws : List Word} {ps : List BitPair} (hp : s.phase.allowsKernel = true)
    (hq : s.quant.isSome = true) (hw : allWritten s.du.toList = some ws)
    (hps : duPairs a (s.dc.get a).toInt (ws.map BitVec.toInt) = ps.map some) (hroom : s.bb.length + ps.length ≤ 2048) :
    jhufBody a s = .ok () { s with bb := s.bb ++ ps, dc := s.dc.set a (ws.headD 0) } := by
  obtain ⟨q, hq⟩ := Option.isSome_iff_exists.mp hq
  rw [jhufBody, requirePhase_bind, if_pos hp, requireQuant_bind hq, get_bind, hw]
  refine (bind_ok (hps ▸ pushCodes_room ps hroom)).trans ?_
  rw [map_stored_duPairs hps]
  rfl

/-- Settles O34: the codes of R153 are those of `duPairs`; every category has a symbol (R158), so they all exist, and the buffer
has room for them. -/
theorem jhufCodes : Obligations.JhufCodes := by
  intro s a w hp hq hw du hdc hac hroom
  have hlen : du.length = 64 := by simp [du]
  have hpairs := jhufPairs_eq_duPairs a (s.dc.get a).toInt hlen hac
  have hnone : none ∉ duPairs a (s.dc.get a).toInt du := by
    rw [none_mem_duPairs_iff, exists_mem_tail_iff du 0, List.headD_eq_getD, hlen]
    rintro (h | ⟨z, h1, hz, h⟩)
    · omega
    · exact absurd (hac z h1 hz) (by omega)
  obtain ⟨ps, hps⟩ := exists_map_some hnone
  rw [hpairs, ← hps, List.length_map] at hroom
  refine ⟨ps, hpairs.trans hps.symm, ?_⟩
  have hdu : ((List.range 64).map w).map BitVec.toInt = du := by simp [du]
  exact command_ok (allowsKernel_ne_failed hp) (jhufBody_spec hp hq (allWritten_of_element hw) (hdu ▸ hps.symm) hroom)

/-! `JPDU`, R159. -/

theorem toInt_s32OfInt {v : Int} (h1 : -(2 ^ 31) ≤ v) (h2 : v < 2 ^ 31) : (s32OfInt v).toInt = v := by
  rw [s32OfInt, if_pos ⟨h1, h2⟩, BitVec.toInt_ofInt]
  exact Int.bmod_eq_of_le (by omega) (by omega)

theorem unitInRange_iff (du : List Int) :
    unitInRange du = true ↔ (-1024 ≤ du.headD 0 ∧ du.headD 0 ≤ 1020) ∧ ∀ v ∈ du.tail, category v ≤ 10 := by
  simp [unitInRange]

/-- A data unit of an 8-bit source fits the registers it is written to. -/
theorem toInt_s32OfInt_of_unitInRange {du : List Int} (h : unitInRange du = true) : ∀ v ∈ du, (s32OfInt v).toInt = v := by
  obtain ⟨hdc, hac⟩ := (unitInRange_iff du).mp h
  cases du with
  | nil => nofun
  | cons d vs =>
    simp only [List.headD_cons, List.tail_cons] at hdc hac
    refine List.forall_mem_cons.mpr ⟨toInt_s32OfInt (by omega) (by omega), fun v hv => ?_⟩
    have habs := (category_le_iff v 10).mp (hac v hv)
    exact toInt_s32OfInt (by omega) (by omega)

/-- Every code of a data unit of an 8-bit source exists: the DC difference is at most 2044 in absolute value (R167). -/
theorem none_notMem_duPairs_of_inRange {a : Comp} {w : Word} {du : List Int} (hdu : unitInRange du = true)
    (hw : dcInRange w = true) : none ∉ duPairs a w.toInt du := by
  obtain ⟨hdc, hac⟩ := (unitInRange_iff du).mp hdu
  simp only [dcInRange, Bool.and_eq_true, decide_eq_true_eq] at hw
  have hdiff : category (du.headD 0 - w.toInt) ≤ 11 := (category_le_iff _ 11).mpr (by omega)
  rw [none_mem_duPairs_iff]
  rintro (h | ⟨v, hv, h⟩)
  · omega
  · exact absurd (hac v hv) (by omega)

/-- `JPDU` is `QZZ` and then `JHUF` on the data unit it left. -/
theorem jpduBody_spec {s : State} {q : Quant} {a : Comp} {cdu : List F32} {du : List Int} {ps : List BitPair}
    (hp : s.phase.allowsKernel = true) (hq : s.quant = some q) (hc : allWritten s.cdu.toList = some cdu)
    (hdu : du = (List.range 64).map (quantised cdu (recipTable q (compTable a))))
    (hfit : ∀ v ∈ du, (s32OfInt v).toInt = v) (hps : duPairs a (s.dc.get a).toInt du = ps.map some)
    (hroom : s.bb.length + ps.length ≤ 2048) :
    jpduBody a s = .ok () { s with
      du := quantisedUnit cdu (recipTable q (compTable a)), bb := s.bb ++ ps,
      dc := s.dc.set a (s32OfInt (du.getD 0 0)) } := by
  have hwords := calc
    ((List.range 64).map fun z => s32OfInt (quantised cdu (recipTable q (compTable a)) z)).map BitVec.toInt
        = du.map fun v => (s32OfInt v).toInt := by rw [hdu, List.map_map, List.map_map]; rfl
    _ = du := (List.map_congr_left hfit).trans (List.map_id' du)
  have hcodes := jhufBody_spec (s := { s with du := quantisedUnit cdu (recipTable q (compTable a)) }) hp
    (Option.isSome_of_eq_some hq) (allWritten_quantisedUnit _ _) (hwords.symm ▸ hps) hroom
  rw [jpduBody, bind_ok (qzzBody_spec _ hp hq hc), hcodes, hdu]
  rfl

/-- Settles O36: the data unit fits its registers, every one of its codes exists, and at most 128 of them go in (R166, R167). -/
theorem jpduCompletes : Obligations.JpduCompletes := by
  intro s q a x hp hq hx du hdu hdc hroom
  obtain ⟨ps, hps⟩ := exists_map_some (none_notMem_duPairs_of_inRange (a := a) hdu hdc)
  have hlen : ps.length ≤ 128 := by
    have h := duPairs_length_le a (s.dc.get a).toInt du
    rw [← hps, List.length_map, List.length_tail] at h
    simpa [du] using h
  have hfit := toInt_s32OfInt_of_unitInRange hdu
  have hfirst : s32OfInt (du.getD 0 0) = BitVec.ofInt 32 (du.getD 0 0) := by
    obtain ⟨hrange, -⟩ := (unitInRange_iff du).mp hdu
    rw [List.headD_eq_getD] at hrange
    rw [s32OfInt, if_pos (by omega)]
  have hbody := jpduBody_spec hp hq (allWritten_of_element hx) rfl hfit hps.symm (by omega)
  rw [hfirst] at hbody
  exact ⟨ps, _, hps.symm, command_ok (allowsKernel_ne_failed hp) hbody⟩

/-! `BPUSH` and `JGRAYUV`, R160 and R161. -/

/-- Masking to a length is the remainder by its power of two. -/
theorem masked_eq_mod (v : BitVec 16) {n : Nat} (hn : n ≤ 16) :
    v &&& BitVec.ofNat 16 (2 ^ n - 1) = BitVec.ofNat 16 (v.toNat % 2 ^ n) := by
  have hm : 2 ^ n ≤ 2 ^ 16 := Nat.pow_le_pow_right (by omega) hn
  have hv : v.toNat % 2 ^ n < 2 ^ n := Nat.mod_lt _ (Nat.two_pow_pos n)
  apply BitVec.eq_of_toNat_eq
  rw [BitVec.toNat_and, BitVec.toNat_ofNat, BitVec.toNat_ofNat, Nat.mod_eq_of_lt (by omega), Nat.mod_eq_of_lt (by omega),
    Nat.and_two_pow_sub_one_eq_mod]

theorem bpushBody_push {s : State} {b : BitVec 16} (v : BitVec 16) (hp : s.phase.allowsKernel = true) (hb : b.toNat ≤ 16) :
    bpushBody b v s = push { value := v, len := b.toNat } s := by
  rw [bpushBody, require_bind, if_pos (decide_eq_true hb), requirePhase_bind, if_pos hp]

theorem bpushBody_illegal {s : State} {b : BitVec 16} (v : BitVec 16) (hb : 16 < b.toNat) :
    bpushBody b v s = .error .illegalOp s := by
  rw [bpushBody, require_bind, if_neg (by simpa using hb)]

/-- More codes than there is room for fill the buffer and overflow it (R161). -/
theorem pushCodes_overflow (ps : List BitPair) {s : State} (hs : s.bb.length ≤ 2048) (h : 2048 < s.bb.length + ps.length) :
    ∃ bb, pushCodes (ps.map some) s = .error .bitBufOverflow { s with bb := bb } := by
  induction ps generalizing s with
  | nil => simp only [List.length_nil] at h; omega
  | cons p ps ih =>
    simp only [List.length_cons] at h
    unfold pushCodes
    rw [List.map_cons, forM_cons_apply]
    by_cases hfull : s.bb.length = 2048
    · exact ⟨s.bb, bind_error (push_full p hfull)⟩
    · have hp : pushCode (some p) s = .ok () { s with bb := s.bb ++ [stored p] } := push_room p (by omega)
      rw [bind_ok hp]
      obtain ⟨bb, hbb⟩ := ih (s := { s with bb := s.bb ++ [stored p] })
        (by simp only [List.length_append, List.length_singleton]; omega)
        (by simp only [List.length_append, List.length_singleton]; omega)
      exact ⟨bb, hbb⟩

theorem grayPairs_eq : grayPairs = (List.replicate 4 { value := 0, len := 2 }).map some := by decide

theorem jgrayuvBody_push {s : State} (hp : s.phase.allowsKernel = true) :
    jgrayuvBody s = pushCodes ((List.replicate 4 { value := 0, len := 2 }).map some) s := by
  rw [jgrayuvBody, requirePhase_bind, if_pos hp, grayPairs_eq]

/-- Settles O37: after the checks both commands only push, into a buffer that has room or overflows. -/
theorem pushesAppend : Obligations.PushesAppend := by
  intro s hp
  have hf := allowsKernel_ne_failed hp
  refine ⟨fun b v hb hroom => ?_, fun b v hb hfull => ?_, fun b v hb => command_error hf (bpushBody_illegal v hb),
    fun hroom => ?_, fun hover hs => ?_⟩
  · have hbody := (bpushBody_push v hp hb).trans (push_room _ hroom)
    rw [masked_eq_mod v hb] at hbody
    exact command_ok hf hbody
  · exact command_error hf ((bpushBody_push v hp hb).trans (push_full _ hfull))
  · exact command_ok hf ((jgrayuvBody_push hp).trans (pushCodes_room _ (by simpa using hroom)))
  · obtain ⟨bb, hbb⟩ := pushCodes_overflow (List.replicate 4 { value := 0, len := 2 }) hs
      (by rw [List.length_replicate]; omega)
    exact ⟨_, command_error hf ((jgrayuvBody_push hp).trans hbb), rfl, rfl, rfl, rfl⟩

/-! Flush points, R165. -/

/-- What a flush leaves in the accumulator is in range. -/
theorem scanPending_flushed (s : State) (bits : List Bool) : ScanPending (flushed s bits) :=
  ⟨Nat.le_of_lt_succ (leftBits_length_lt bits), bitsValue_lt _⟩

/-- The bits pending after a flush are those that did not fill a byte. -/
theorem msbBits_flushed (s : State) (bits : List Bool) :
    msbBits (flushed s bits).jaccn (flushed s bits).jacc = leftBits bits := msbBits_bitsValue _

/-- Bits that go through the accumulator in two parts leave what they leave in one. -/
theorem flushed_flushed (s : State) (l r : List Bool) : flushed (flushed s l) (leftBits l ++ r) = flushed s (l ++ r) := by
  simp [flushed, fullBytes_append l r, leftBits_append l r]

theorem scanBits_append {s : State} {p r : List BitPair} (h : s.bb = p ++ r) :
    s.scanBits = State.scanBits { s with bb := p } ++ r.flatMap fun x => msbBits x.len x.value.toNat := by
  simp [State.scanBits, h]

/-- The state after `BFLUSH`. -/
def afterFlush (s : State) : State := State.respond { flushed s s.scanBits with bb := [] } 0

/-- The second flush finds in the accumulator the bits of the first part that did not fill a byte. -/
theorem scanBits_afterFlush (s : State) (r : List BitPair) : State.scanBits { afterFlush s with bb := r } =
    leftBits s.scanBits ++ r.flatMap fun x => msbBits x.len x.value.toNat :=
  congrArg (· ++ _) (msbBits_flushed s s.scanBits)

theorem afterFlush_afterFlush {s : State} {p r : List BitPair} (h : s.bb = p ++ r) :
    afterFlush { afterFlush { s with bb := p } with bb := r } = afterFlush s := by
  have hone : afterFlush s = State.respond { flushed (flushed s (State.scanBits { s with bb := p }))
      (leftBits (State.scanBits { s with bb := p }) ++ r.flatMap fun x => msbBits x.len x.value.toNat) with bb := [] } 0 := by
    rw [flushed_flushed, ← scanBits_append h]
    rfl
  rw [hone, afterFlush, scanBits_afterFlush]
  rfl

/-- Settles O39: each flush does what `exec_bflush` says, and the two together leave what the one leaves. -/
theorem flushPointsDoNotMatter : Obligations.FlushPointsDoNotMatter := by
  intro s t u p r hp hc hs hbb ht hu
  obtain ⟨hscan, -⟩ := (accumulatorInv_iff s).mp hs (allowsScan_ne_failed hp)
  have hfirst : exec .bflush { s with bb := p } = .next (afterFlush { s with bb := p }) := exec_bflush hp hc hscan
  obtain rfl := Host.Outcome.next.inj (hfirst.symm.trans ht)
  have hsecond : exec .bflush { afterFlush { s with bb := p } with bb := r } =
      .next (afterFlush { afterFlush { s with bb := p } with bb := r }) := exec_bflush hp hc (scanPending_flushed s _)
  rw [← hu, hsecond, afterFlush_afterFlush hbb]
  exact exec_bflush hp hc hscan

end Sys2Proof.Proofs

/-! The macroblock, 43_jpeg_macroblock.md. Part 1: the coordinates (R181), what a loop over the samples of a block leaves in an
array, and the four conversion kernels (R182 to R185). -/

namespace Sys2Proof.Proofs

open Sys2Proof Sys2Proof.Machine Sys2Proof.Laws

/-! Coordinates, R181. -/

/-- Of the blocks of `b` places that cover `a` places, each begins among them. -/
theorem mul_lt_of_lt_roundUp_div {a b m : Nat} (hb : 0 < b) (h : m < (a + b - 1) / b) : m * b < a := by
  have := (Nat.le_div_iff_mul_le hb).mp h
  rw [Nat.succ_mul] at this
  omega

theorem blockSide_pos (b : BlockSide) : 0 < b.side := by cases b <;> decide

/-- The macroblocks of a row band are as many as it takes to cover the width. -/
theorem blocksPerBand_quantOf {s : State} (hw : s.width.toNat ≤ 65535) :
    blocksPerBand (quantOf s) = (s.width.toNat + (quantOf s).block.side - 1) / (quantOf s).block.side :=
  calc (alignedWidth s.width (quantOf s).block.side).toNat / (quantOf s).block.side
    _ = (s.width.toNat + (quantOf s).block.side - 1) / (quantOf s).block.side * (quantOf s).block.side /
          (quantOf s).block.side := by rw [alignedWidth_toNat hw]
    _ = _ := Nat.mul_div_cancel _ (blockSide_pos _)

/-- Settles O27: a coordinate is the smaller of the sample's own and the last of the image, and a macroblock within the count that
covers the image begins inside it. -/
theorem edgeReplication : Obligations.EdgeReplication := by
  intro s hw hh
  refine ⟨fun side i j => ?_, fun i j => ?_, fun hfit hx => ?_, fun hy => mul_lt_of_lt_roundUp_div (blockSide_pos _) hy⟩
  · simp only [pixelX, pixelY, natOf]
    rw [← Nat.cast_mul, ← Nat.cast_mul]
    omega
  · simp only [chromaX, chromaY, natOf]
    omega
  · exact mul_lt_of_lt_roundUp_div (blockSide_pos _) (blocksPerBand_quantOf hfit ▸ hx)

/-! Loops over the samples of a block. -/

theorem raster_div {w i : Nat} (j : Nat) (hi : i < w) : (w * j + i) / w = j := by
  rw [Nat.mul_add_div (by omega), Nat.div_eq_of_lt hi, Nat.add_zero]

theorem raster_mod {w i : Nat} (j : Nat) (hi : i < w) : (w * j + i) % w = i := by
  rw [Nat.mul_add_mod, Nat.mod_eq_of_lt hi]

/-- An array of rows of width `w` while its top-left region of `cols` columns is filled in raster order: the samples before
`(j, i)` are written. -/
def filledTo {len : Nat} (w cols : Nat) (f : Nat → Nat → F32) (old : Vector (Option F32) len) (j i : Nat) :
    Vector (Option F32) len :=
  Vector.ofFn fun n =>
    if n.val % w < cols ∧ (n.val / w < j ∨ n.val / w = j ∧ n.val % w < i) then some (f (n.val / w) (n.val % w)) else old[n]

section
variable {len w cols : Nat} {f : Nat → Nat → F32} {old : Vector (Option F32) len}

@[simp] theorem filledTo_start : filledTo w cols f old 0 0 = old := by
  ext n hn
  simp [filledTo]

theorem filledTo_sample {j i : Nat} (hi : i < cols) (hw : cols ≤ w) :
    (filledTo w cols f old j i).setIfInBounds (w * j + i) (some (f j i)) = filledTo w cols f old j (i + 1) := by
  ext n hn
  have hiw : i < w := by omega
  rw [Vector.getElem_setIfInBounds]
  by_cases h : w * j + i = n
  · subst h
    simp [filledTo, raster_div j hiw, raster_mod j hiw, hi]
  · have hne : ¬ (n / w = j ∧ n % w = i) := by
      rintro ⟨rfl, rfl⟩
      exact h (Nat.div_add_mod n w)
    have hsame : (n / w < j ∨ n / w = j ∧ n % w < i) ↔ (n / w < j ∨ n / w = j ∧ n % w < i + 1) := by omega
    simp [filledTo, h, hsame]

theorem filledTo_row (j : Nat) : filledTo w cols f old j cols = filledTo w cols f old (j + 1) 0 := by
  ext n hn
  have hsame : (n % w < cols ∧ (n / w < j ∨ n / w = j ∧ n % w < cols)) ↔
      (n % w < cols ∧ (n / w < j + 1 ∨ n / w = j + 1 ∧ n % w < 0)) := by omega
  simp only [filledTo, Vector.getElem_ofFn, hsame]

end

theorem filledTo_plane (side : Nat) (f : Nat → Nat → F32) (old : Vector (Option F32) 256) :
    filledTo 16 side f old side 0 = writePlane side f old := by
  ext n hn
  simp [filledTo, writePlane, and_comm]

theorem filledTo_block (f : Nat → Nat → F32) (old : Vector (Option F32) 64) : filledTo 8 8 f old 8 0 = writeBlock f := by
  ext n hn
  have h : n % 8 < 8 ∧ (n / 8 < 8 ∨ n / 8 = 8 ∧ n % 8 < 0) := by omega
  simp only [filledTo, writeBlock, Vector.getElem_ofFn, if_pos h]

theorem allGrid_iff {rows cols : Nat} {f : Nat → Nat → Bool} :
    allGrid rows cols f = true ↔ ∀ j i, j < rows → i < cols → f j i = true := by
  simp only [allGrid, List.all_eq_true, List.mem_range]
  exact ⟨fun h j i hj hi => h j hj i hi, fun h j hj i hi => h j i hj hi⟩

/-! What the kernels read. -/

theorem memRead_srcMapped {s : State} {a : Word} (h : s.srcMapped a = true) : memRead a s = .ok (s.srcByte a) s := by
  obtain ⟨b, hb⟩ := Option.isSome_iff_exists.mp h
  rw [memRead_mapped hb, State.srcByte, hb]
  rfl

theorem pixelByte_mapped {s : State} {side bpp k j i : Nat} (h : s.srcMapped (sampleAddr s side bpp k j i) = true) :
    pixelByte side bpp k j i s = .ok (s.srcByte (sampleAddr s side bpp k j i)) s := memRead_srcMapped h

theorem conversionStart_bind {α : Type} {s : State} {q : Quant} (hp : s.phase.allowsKernel = true) (hq : s.quant = some q)
    (f : Quant → Body α) : (conversionStart >>= f) s = f q s := by
  refine bind_ok ?_
  rw [conversionStart, requirePhase_bind, if_pos hp, requireQuant, hq]

theorem blockSide_le (b : BlockSide) : b.side ≤ 16 := by cases b <;> decide

/-! `GRAY2Y`, R183. -/

/-- A gray sample reads nothing that the samples before it wrote. -/
theorem graySample_mapped {s : State} {q : Quant} {j i : Nat} (yp : Vector (Option F32) 256)
    (hm : s.srcMapped (sampleAddr s q.block.side 1 0 j i) = true) :
    graySample q j i { s with yp := yp } =
      .ok () { s with yp := yp.setIfInBounds (16 * j + i) (some (graySampleOf s q.block.side j i)) } :=
  bind_ok (pixelByte_mapped (s := { s with yp := yp }) hm)

theorem gray2yBody_spec {s : State} {q : Quant} (hp : s.phase.allowsKernel = true) (hq : s.quant = some q)
    (hk : s.srckind = srcPixel) (hf : s.pixfmt = pixGray8) (hm : grayMapped s q.block.side = true) :
    gray2yBody s = .ok () (s.grayLoaded q) := by
  have hloop := forGrid_states (f := graySample q) q.block.side q.block.side
    (fun j i => { s with yp := filledTo 16 q.block.side (graySampleOf s q.block.side) s.yp j i })
    (fun j i hj hi => (graySample_mapped _ (allGrid_iff.mp hm j i hj hi)).trans
      (by rw [filledTo_sample hi (blockSide_le q.block)]))
    (fun j _ => by rw [filledTo_row])
  rw [filledTo_start, filledTo_plane] at hloop
  rw [gray2yBody, conversionStart_bind hp hq, get_bind, require_bind, if_pos (by simp [hk, hf])]
  exact hloop

/-- Settles O29: after the checks the body is one loop over the samples, which leaves the luma plane loaded. -/
theorem gray2yConverts : Obligations.Gray2yConverts := fun _ _ hp hq hk hf hm =>
  command_ok (allowsKernel_ne_failed hp) (gray2yBody_spec hp hq hk hf hm)

/-! `RGB2YUV`, R182. -/

/-- The three bytes of a colour sample are mapped. -/
def sampleMapped (s : State) (side bpp : Nat) (k : Nat × Nat × Nat) (j i : Nat) : Bool :=
  s.srcMapped (sampleAddr s side bpp k.1 j i) && s.srcMapped (sampleAddr s side bpp k.2.1 j i) &&
    s.srcMapped (sampleAddr s side bpp k.2.2 j i)

theorem colourMapped_iff {s : State} {side bpp : Nat} {k : Nat × Nat × Nat} :
    colourMapped s side bpp k = true ↔ ∀ j i, j < side → i < side → sampleMapped s side bpp k j i = true := allGrid_iff

/-- A colour sample is three reads and one store. -/
theorem colourSample_eq_storeColour {s : State} {q : Quant} {bpp : Nat} {k : Nat × Nat × Nat} {j i : Nat}
    (hm : sampleMapped s q.block.side bpp k j i = true) :
    colourSample q bpp k j i s = storeColour q.subsample j i (colourSampleOf lumaOf s q.block.side bpp k j i)
      (colourSampleOf chromaUOf s q.block.side bpp k j i) (colourSampleOf chromaVOf s q.block.side bpp k j i) s := by
  simp only [sampleMapped, Bool.and_eq_true, and_assoc] at hm
  obtain ⟨hr, hg, hb⟩ := hm
  rw [colourSample, bind_ok (pixelByte_mapped hr), bind_ok (pixelByte_mapped hg), bind_ok (pixelByte_mapped hb)]
  rfl

theorem colourSample_subsampled {s : State} {q : Quant} {bpp : Nat} {k : Nat × Nat × Nat} {j i : Nat}
    (yp up vp : Vector (Option F32) 256) (hq : q.subsample = true) (hm : sampleMapped s q.block.side bpp k j i = true) :
    colourSample q bpp k j i { s with yp := yp, up := up, vp := vp } = .ok () { s with
      yp := yp.setIfInBounds (16 * j + i) (some (colourSampleOf lumaOf s q.block.side bpp k j i))
      up := up.setIfInBounds (16 * j + i) (some (colourSampleOf chromaUOf s q.block.side bpp k j i))
      vp := vp.setIfInBounds (16 * j + i) (some (colourSampleOf chromaVOf s q.block.side bpp k j i)) } := by
  rw [colourSample_eq_storeColour (s := { s with yp := yp, up := up, vp := vp }) hm, hq]
  rfl

theorem colourSample_full {s : State} {q : Quant} {bpp : Nat} {k : Nat × Nat × Nat} {j i : Nat}
    (yp : Vector (Option F32) 256) (uc vc : Vector (Option F32) 64) (hq : q.subsample = false)
    (hm : sampleMapped s q.block.side bpp k j i = true) :
    colourSample q bpp k j i { s with yp := yp, uc := uc, vc := vc } = .ok () { s with
      yp := yp.setIfInBounds (16 * j + i) (some (colourSampleOf lumaOf s q.block.side bpp k j i))
      uc := uc.setIfInBounds (8 * j + i) (some (colourSampleOf chromaUOf s q.block.side bpp k j i))
      vc := vc.setIfInBounds (8 * j + i) (some (colourSampleOf chromaVOf s q.block.side bpp k j i)) } := by
  rw [colourSample_eq_storeColour (s := { s with yp := yp, uc := uc, vc := vc }) hm, hq]
  rfl

theorem forGrid_colourSample {s : State} {q : Quant} {bpp : Nat} {k : Nat × Nat × Nat} (hc : q.consistent)
    (hm : colourMapped s q.block.side bpp k = true) :
    forGrid q.block.side q.block.side (colourSample q bpp k) s = .ok () (s.colourLoaded q bpp k) := by
  have hmapped := colourMapped_iff.mp hm
  rw [State.colourLoaded]
  cases hsub : q.subsample with
  | true =>
    have hside : q.block.side = 16 := by rw [hc.1, hsub]; rfl
    have hloop := forGrid_states (f := colourSample q bpp k) q.block.side q.block.side
      (fun j i => { s with
        yp := filledTo 16 q.block.side (colourSampleOf lumaOf s q.block.side bpp k) s.yp j i
        up := filledTo 16 q.block.side (colourSampleOf chromaUOf s q.block.side bpp k) s.up j i
        vp := filledTo 16 q.block.side (colourSampleOf chromaVOf s q.block.side bpp k) s.vp j i })
      (fun j i hj hi => (colourSample_subsampled _ _ _ hsub (hmapped j i hj hi)).trans
        (by simp only [filledTo_sample hi hside.le]))
      (fun j _ => by simp only [filledTo_row])
    simp only [filledTo_start, filledTo_plane, hside] at hloop
    rw [hside]
    exact hloop
  | false =>
    have hside : q.block.side = 8 := by rw [hc.1, hsub]; rfl
    have hloop := forGrid_states (f := colourSample q bpp k) q.block.side q.block.side
      (fun j i => { s with
        yp := filledTo 16 q.block.side (colourSampleOf lumaOf s q.block.side bpp k) s.yp j i
        uc := filledTo 8 q.block.side (colourSampleOf chromaUOf s q.block.side bpp k) s.uc j i
        vc := filledTo 8 q.block.side (colourSampleOf chromaVOf s q.block.side bpp k) s.vc j i })
      (fun j i hj hi => (colourSample_full _ _ _ hsub (hmapped j i hj hi)).trans
        (by simp only [filledTo_sample hi (blockSide_le q.block), filledTo_sample hi hside.le]))
      (fun j _ => by simp only [filledTo_row])
    simp only [filledTo_start, filledTo_plane, filledTo_block, hside] at hloop
    rw [hside]
    exact hloop

theorem requireColour_bind {α : Type} {s : State} {k : Nat × Nat × Nat} (hk : s.srckind = srcPixel)
    (hf : channelOffsets s.pixfmt = some k) (f : Nat × Nat × Nat → Body α) : (requireColour >>= f) s = f k s :=
  bind_ok (by rw [requireColour, hf, decide_eq_true hk])

theorem rgb2yuvBody_spec {s : State} {q : Quant} {bpp : Nat} {k : Nat × Nat × Nat} (hp : s.phase.allowsKernel = true)
    (hq : s.quant = some q) (hc : q.consistent) (hk : s.srckind = srcPixel) (hf : channelOffsets s.pixfmt = some k)
    (hb : bytesPerPixel s.pixfmt = some bpp) (hm : colourMapped s q.block.side bpp k = true) :
    rgb2yuvBody s = .ok () (s.colourLoaded q bpp k) := by
  rw [rgb2yuvBody, conversionStart_bind hp hq, requireColour_bind hk hf, get_bind, hb]
  exact forGrid_colourSample hc hm

/-- Settles O28: after the checks the body is one loop over the samples, and in either mode that loop leaves the loaded planes. -/
theorem rgb2yuvConverts : Obligations.Rgb2yuvConverts := fun _ _ _ _ hp hq hc hk hf hb hm =>
  command_ok (allowsKernel_ne_failed hp) (rgb2yuvBody_spec hp hq hc hk hf hb hm)

/-! `YUVLOAD`, R184. -/

theorem planarLuma_mapped {s : State} {q : Quant} {j i : Nat} (yp : Vector (Option F32) 256)
    (hm : s.srcMapped (yAddr s (pixelX s q.block.side i) (pixelY s q.block.side j)) = true) :
    planarLuma q j i { s with yp := yp } =
      .ok () { s with yp := yp.setIfInBounds (16 * j + i) (some (planarLumaOf s q.block.side j i)) } :=
  bind_ok (memRead_srcMapped (s := { s with yp := yp }) hm)

theorem planarChroma_mapped {s : State} {j i : Nat} (uc vc : Vector (Option F32) 64)
    (hu : s.srcMapped (planarUAddr s j i) = true) (hv : s.srcMapped (planarVAddr s j i) = true) :
    planarChroma j i { s with uc := uc, vc := vc } = .ok () { s with
      uc := uc.setIfInBounds (8 * j + i) (some (levelShift (s.srcByte (planarUAddr s j i))))
      vc := vc.setIfInBounds (8 * j + i) (some (levelShift (s.srcByte (planarVAddr s j i)))) } := by
  refine (bind_ok (memRead_srcMapped (s := { s with uc := uc, vc := vc }) hu)).trans ?_
  rw [modify_bind]
  exact bind_ok (memRead_srcMapped (s := { s with uc := uc.setIfInBounds _ _, vc := vc }) hv)

theorem forGrid_planarLuma {s : State} {q : Quant}
    (hm : (allGrid 16 16 fun j i => s.srcMapped (yAddr s (pixelX s q.block.side i) (pixelY s q.block.side j))) = true) :
    forGrid 16 16 (planarLuma q) s = .ok () { s with yp := writePlane 16 (planarLumaOf s q.block.side) s.yp } := by
  have hloop := forGrid_states (f := planarLuma q) 16 16
    (fun j i => { s with yp := filledTo 16 16 (planarLumaOf s q.block.side) s.yp j i })
    (fun j i hj hi => (planarLuma_mapped _ (allGrid_iff.mp hm j i hj hi)).trans (by rw [filledTo_sample hi le_rfl]))
    (fun j _ => by rw [filledTo_row])
  rwa [filledTo_start, filledTo_plane] at hloop

theorem forGrid_planarChroma {s : State}
    (hm : (allGrid 8 8 fun j i => s.srcMapped (planarUAddr s j i) && s.srcMapped (planarVAddr s j i)) = true) :
    forGrid 8 8 planarChroma s = .ok () { s with
      uc := writeBlock fun j i => levelShift (s.srcByte (planarUAddr s j i))
      vc := writeBlock fun j i => levelShift (s.srcByte (planarVAddr s j i)) } := by
  have hmapped := allGrid_iff.mp hm
  simp only [Bool.and_eq_true] at hmapped
  have hloop := forGrid_states (f := planarChroma) 8 8
    (fun j i => { s with
      uc := filledTo 8 8 (fun j i => levelShift (s.srcByte (planarUAddr s j i))) s.uc j i
      vc := filledTo 8 8 (fun j i => levelShift (s.srcByte (planarVAddr s j i))) s.vc j i })
    (fun j i hj hi => (planarChroma_mapped _ _ (hmapped j i hj hi).1 (hmapped j i hj hi).2).trans
      (by rw [← filledTo_sample hi le_rfl, ← filledTo_sample hi le_rfl]))
    (fun j _ => by simp only [filledTo_row])
  simp only [filledTo_start, filledTo_block] at hloop
  exact hloop

theorem yuvloadBody_spec {s : State} {q : Quant} (hp : s.phase.allowsKernel = true) (hq : s.quant = some q)
    (hk : s.srckind = srcNv12 ∨ s.srckind = srcYuv420p) (hm : planarMapped s q.block.side = true) :
    yuvloadBody s = .ok () (s.planarLoaded q) := by
  obtain ⟨hluma, hchroma⟩ := (Bool.and_eq_true _ _).mp hm
  rw [yuvloadBody, conversionStart_bind hp hq, get_bind, require_bind, if_pos (by simpa using hk),
    bind_ok (forGrid_planarLuma hluma), State.planarLoaded]
  generalize writePlane 16 (planarLumaOf s q.block.side) s.yp = yp
  exact forGrid_planarChroma (s := { s with yp := yp }) hchroma

/-- Settles O30: after the checks the body is the luma loop and then the chroma loop, and neither reads what the loops write. -/
theorem yuvloadLoads : Obligations.YuvloadLoads := fun _ _ hp hq hk hm =>
  command_ok (allowsKernel_ne_failed hp) (yuvloadBody_spec hp hq hk hm)

/-! `CSUB`, R185. -/

theorem csubBody_spec {s : State} {q : Quant} {up vp : List F32} (hp : s.phase.allowsKernel = true) (hq : s.quant = some q)
    (hv : q.wbvar = .subs) (hup : s.up.toList = up.map some) (hvp : s.vp.toList = vp.map some) :
    csubBody s = .ok () { s with uc := writeBlock (boxAverage up), vc := writeBlock (boxAverage vp) } := by
  rw [csubBody, conversionStart_bind hp hq, require_bind, if_pos (decide_eq_true hv), get_bind, hup, hvp,
    allWritten_map_some, allWritten_map_some]
  rfl

theorem exec_csub {s : State} {q : Quant} {up vp : List F32} (hp : s.phase.allowsKernel = true) (hq : s.quant = some q)
    (hv : q.wbvar = .subs) (hup : s.up.toList = up.map some) (hvp : s.vp.toList = vp.map some) :
    exec .csub s = .next (State.respond { s with uc := writeBlock (boxAverage up), vc := writeBlock (boxAverage vp) } 0) :=
  command_ok (allowsKernel_ne_failed hp) (csubBody_spec hp hq hv hup hvp)

/-- Settles O31: both planes are written whole, so the body is one write of the two averaged blocks. -/
theorem csubAverages : Obligations.CsubAverages := by
  intro s q up vp hp hq hv hup hvp
  rw [exec_csub hp hq hv hup hvp]
  rfl

end Sys2Proof.Proofs

/-! The macroblock, 43_jpeg_macroblock.md. Part 2: coding a list of blocks (R187 to R189), what the conversions leave for
them to code, and `JWBLK` (R186, R192). -/

namespace Sys2Proof.Proofs

open Sys2Proof Sys2Proof.Machine Sys2Proof.Laws

/-! One block: `FDCT` and then `JPDU`. -/

theorem dctBlock_length (xs : List F32) : (dctBlock xs).length = 64 := by simp [dctBlock, dctColumns]

theorem allWritten_vectorOf {α : Type} {n : Nat} {xs : List α} (h : xs.length = n) :
    allWritten (vectorOf n (xs.map some) none).toList = some xs := by
  have hlist : (vectorOf n (xs.map some) none).toList = xs.map some :=
    List.ext_getElem (by simp [h]) fun i hi hj => by
      have hi' : i < xs.length := by simpa using hj
      simp [vectorOf, hi']
  rw [hlist, allWritten_map_some]

theorem fdctBody_spec {s : State} {a : BlockSel} {block : List F32} (hp : s.phase.allowsKernel = true)
    (hb : blockSamples s a = block.map some) :
    fdctBody a s = .ok () { s with cdu := vectorOf 64 ((dctBlock block).map some) none } := by
  rw [fdctBody, requirePhase_bind, if_pos hp, get_bind, hb, allWritten_map_some]
  rfl

/-- All three predictors are in range. -/
def DcInRange (d : DcPred) : Prop := ∀ c, dcInRange (d.get c) = true

theorem dcInRange_set {d : DcPred} {c : Comp} {w : Word} (hd : DcInRange d) (hw : dcInRange w = true) : DcInRange (d.set c w) := by
  intro e
  have hy := hd .y
  have hu := hd .u
  have hv := hd .v
  cases c <;> cases e <;> assumption

/-- The data unit of a block with the samples `x` (R140, R150); `unitCoefficients` is this at the macroblock's own samples. -/
def coefficients (q : Quant) (c : Comp) (x : Nat → F32) : List Int :=
  (List.range 64).map (quantised (dctBlock ((List.range 64).map x)) (recipTable q (compTable c)))

theorem codeBlock_spec {s : State} {q : Quant} {a : BlockSel} {c : Comp} {x : Nat → F32} (hp : s.phase.allowsKernel = true)
    (hq : s.quant = some q) (hx : ∀ n, n < 64 → blockSample s a (n / 8) (n % 8) = some (x n))
    (hdu : unitInRange (coefficients q c x) = true) (hdc : DcInRange s.dc) (hroom : s.bb.length + 128 ≤ 2048) :
    ∃ cdu du ps dc, codeBlock a c s = .ok () { s with cdu := cdu, du := du, bb := s.bb ++ ps, dc := dc } ∧
      ps.length ≤ 128 ∧ DcInRange dc := by
  obtain ⟨ps, hps⟩ := exists_map_some (none_notMem_duPairs_of_inRange hdu (hdc c))
  have hlen : ps.length ≤ 128 := by
    have hbound := (jhufBounds c (s.dc.get c).toInt (coefficients q c x) (by simp [coefficients])).1
    rwa [← hps, List.length_map] at hbound
  have hfit := toInt_s32OfInt_of_unitInRange hdu
  have hfirst : dcInRange (s32OfInt ((coefficients q c x).getD 0 0)) = true := by
    obtain ⟨hrange, -⟩ := (unitInRange_iff _).mp hdu
    rw [List.headD_eq_getD] at hrange
    rw [dcInRange, toInt_s32OfInt (by omega) (by omega)]
    simpa only [Bool.and_eq_true, decide_eq_true_eq] using hrange
  have hblock := fdctBody_spec hp (blockSamples_written hx)
  have hspace : s.bb.length + ps.length ≤ 2048 := by omega
  refine ⟨_, _, ps, _, (bind_ok hblock).trans (jpduBody_spec (du := coefficients q c x) hp hq
    (allWritten_vectorOf (dctBlock_length _)) rfl hfit hps.symm hspace), hlen, dcInRange_set hdc hfirst⟩

/-! A list of blocks. -/

/-- Code the blocks of a list in order. -/
def codeUnits (us : List (BlockSel × Comp)) : Body Unit := us.forM fun u => codeBlock u.1 u.2

/-- Blocks that are loaded and whose data units are in range are coded while there is room, 128 codes for each (R166). -/
theorem codeUnits_completes {q : Quant} {x : BlockSel → Nat → F32} (us : List (BlockSel × Comp)) {s : State}
    (hp : s.phase.allowsKernel = true) (hq : s.quant = some q)
    (hx : ∀ u ∈ us, ∀ n, n < 64 → blockSample s u.1 (n / 8) (n % 8) = some (x u.1 n))
    (hdu : ∀ u ∈ us, unitInRange (coefficients q u.2 (x u.1)) = true) (hdc : DcInRange s.dc)
    (hroom : s.bb.length + 128 * us.length ≤ 2048) :
    ∃ cdu du ps dc, codeUnits us s = .ok () { s with cdu := cdu, du := du, bb := s.bb ++ ps, dc := dc } ∧
      ps.length ≤ 128 * us.length ∧ DcInRange dc := by
  induction us generalizing s with
  | nil => exact ⟨s.cdu, s.du, [], s.dc, by rw [List.append_nil]; rfl, Nat.zero_le _, hdc⟩
  | cons u us ih =>
    rw [List.length_cons] at hroom
    obtain ⟨cdu, du, ps, dc, hblock, hlen, hdc'⟩ := codeBlock_spec hp hq (hx u List.mem_cons_self)
      (hdu u List.mem_cons_self) hdc (by omega)
    obtain ⟨cdu', du', ps', dc', hrest, hlen', hdc''⟩ := ih (s := { s with cdu := cdu, du := du, bb := s.bb ++ ps, dc := dc })
      hp hq (fun v hv => hx v (List.mem_cons_of_mem u hv)) (fun v hv => hdu v (List.mem_cons_of_mem u hv)) hdc'
      (by simp only [List.length_append]; omega)
    refine ⟨cdu', du', ps ++ ps', dc', ?_, by simp only [List.length_append, List.length_cons]; omega, hdc''⟩
    rw [codeUnits, forM_cons_apply, bind_ok hblock, ← List.append_assoc]
    exact hrest

theorem codeLuma16_eq : codeLuma16 = codeUnits [(.y0, .y), (.y1, .y), (.y2, .y), (.y3, .y)] := by
  simp [codeLuma16, codeUnits]

theorem codeBlock_eq (a : BlockSel) (c : Comp) : codeBlock a c = codeUnits [(a, c)] := by
  simp [codeUnits]

theorem codeChroma_eq : codeChroma = codeUnits [(.uc, .u), (.vc, .v)] := by
  simp [codeChroma, codeUnits]

theorem codeUnits_append (us vs : List (BlockSel × Comp)) :
    codeUnits (us ++ vs) = (codeUnits us >>= fun _ => codeUnits vs) := by
  simp [codeUnits]

/-! What the conversions leave. -/

theorem element_writePlane {side j i : Nat} (f : Nat → Nat → F32) (old : Vector (Option F32) 256) (hj : j < side)
    (hi : i < side) (hs : side ≤ 16) : element (writePlane side f old) (16 * j + i) = some (f j i) := by
  have hlt : 16 * j + i < 256 := by omega
  have hi16 : i < 16 := by omega
  simp [element, writePlane, hlt, raster_div j hi16, raster_mod j hi16, hj, hi]

theorem element_writeBlock {j i : Nat} (f : Nat → Nat → F32) (hj : j < 8) (hi : i < 8) :
    element (writeBlock f) (8 * j + i) = some (f j i) := by
  have hlt : 8 * j + i < 64 := by omega
  simp [element, writeBlock, hlt, raster_div j hi, raster_mod j hi]

/-- The entries of a whole plane. -/
def planeEntries (f : Nat → Nat → F32) : List F32 := (List.range 256).map fun n => f (n / 16) (n % 16)

theorem toList_writePlane (f : Nat → Nat → F32) (old : Vector (Option F32) 256) :
    (writePlane 16 f old).toList = (planeEntries f).map some := by
  refine List.ext_getElem (by simp [planeEntries]) fun n hn _ => ?_
  have hn : n < 256 := by simpa using hn
  have hdiv : n / 16 < 16 := by omega
  simp [writePlane, planeEntries, hdiv, Nat.mod_lt]

theorem planeEntries_getD (f : Nat → Nat → F32) {j i : Nat} (hj : j < 16) (hi : i < 16) :
    (planeEntries f).getD (16 * j + i) 0 = f j i := by
  have hlt : 16 * j + i < 256 := by omega
  simp [planeEntries, hlt, raster_div j hi, raster_mod j hi]

theorem boxAverage_planeEntries (f : Nat → Nat → F32) {j i : Nat} (hj : j < 8) (hi : i < 8) :
    boxAverage (planeEntries f) j i =
      fmul (fadd (fadd (fadd (f (2 * j) (2 * i)) (f (2 * j) (2 * i + 1))) (f (2 * j + 1) (2 * i)))
        (f (2 * j + 1) (2 * i + 1))) fQuarter := by
  simp only [boxAverage]
  rw [planeEntries_getD f (by omega) (by omega), planeEntries_getD f (by omega) (by omega),
    planeEntries_getD f (by omega) (by omega), planeEntries_getD f (by omega) (by omega)]

/-- The luma sample `(j, i)` of the macroblock, whatever the source. -/
def lumaAt (s : State) (q : Quant) (j i : Nat) : F32 :=
  if s.srckind ≠ srcPixel then planarLumaOf s q.block.side j i
  else if s.pixfmt = pixGray8 then graySampleOf s q.block.side j i
  else colourSampleOf lumaOf s q.block.side ((bytesPerPixel s.pixfmt).getD 0) ((channelOffsets s.pixfmt).getD (0, 0, 0)) j i

/-- Block `a` of `t` holds the samples of the macroblock that `s` points at. -/
def BlockLoaded (s : State) (q : Quant) (t : State) (a : BlockSel) : Prop :=
  ∀ n, n < 64 → blockSample t a (n / 8) (n % 8) = some (unitSample s q a n)

/-- The planes of `t` hold the samples of the macroblock that `s` points at, and `t` is `s` in all that coding a block reads or
writes besides. -/
structure Loaded (s : State) (q : Quant) (t : State) : Prop where
  phase : t.phase = s.phase
  quant : t.quant = s.quant
  bb : t.bb = s.bb
  dc : t.dc = s.dc
  yp : t.yp = writePlane q.block.side (lumaAt s q) s.yp
  chroma : ¬ (s.srckind = srcPixel ∧ s.pixfmt = pixGray8) → BlockLoaded s q t .uc ∧ BlockLoaded s q t .vc

/-- The luma blocks the mode has lie in the region of the plane that is loaded. -/
theorem Loaded.luma {s t : State} {q : Quant} (h : Loaded s q t) (hc : q.consistent) :
    BlockLoaded s q t .y0 ∧
      (q.subsample = true → BlockLoaded s q t .y1 ∧ BlockLoaded s q t .y2 ∧ BlockLoaded s q t .y3) := by
  have hat : ∀ j i, j < q.block.side → i < q.block.side → element t.yp (16 * j + i) = some (lumaAt s q j i) :=
    fun j i hj hi => by rw [h.yp, element_writePlane _ _ hj hi (blockSide_le _)]
  have hside : 8 ≤ q.block.side := by cases q.block <;> decide
  refine ⟨fun n hn => hat _ _ (by omega) (by omega), fun hsub => ?_⟩
  have h16 : q.block.side = 16 := by rw [hc.1, hsub]; rfl
  exact ⟨fun n hn => hat _ _ (by omega) (by omega), fun n hn => hat _ _ (by omega) (by omega),
    fun n hn => hat _ _ (by omega) (by omega)⟩

theorem Loaded.samples {s t : State} {q : Quant} (h : Loaded s q t) (hc : q.consistent) :
    ∀ u ∈ unitsOf s q, BlockLoaded s q t u.1 := by
  obtain ⟨h0, h123⟩ := h.luma hc
  by_cases hgray : s.srckind = srcPixel ∧ s.pixfmt = pixGray8 <;> cases hsub : q.subsample
  case pos.false => simp [unitsOf, hgray, hsub, h0]
  case pos.true => simp [unitsOf, hgray, hsub, h0, h123 hsub]
  case neg.false => simp [unitsOf, hgray, hsub, h0, h.chroma hgray]
  case neg.true => simp [unitsOf, hgray, hsub, h0, h123 hsub, h.chroma hgray]

/-! The loads, source by source. Each writes planes of samples and nothing else. -/

theorem loaded_of_luma {s : State} {q : Quant} {yp : Vector (Option F32) 256} (hgray : s.srckind = srcPixel ∧ s.pixfmt = pixGray8)
    (hy : yp = writePlane q.block.side (lumaAt s q) s.yp) : Loaded s q { s with yp := yp } :=
  ⟨rfl, rfl, rfl, rfl, hy, fun h => absurd hgray h⟩

theorem loaded_of_planes {s : State} {q : Quant} {yp : Vector (Option F32) 256} {fu fv : Nat → Nat → F32}
    (up vp : Vector (Option F32) 256) (hy : yp = writePlane q.block.side (lumaAt s q) s.yp)
    (hu : ∀ n, n < 64 → unitSample s q .uc n = fu (n / 8) (n % 8))
    (hv : ∀ n, n < 64 → unitSample s q .vc n = fv (n / 8) (n % 8)) :
    Loaded s q { s with yp := yp, up := up, vp := vp, uc := writeBlock fu, vc := writeBlock fv } :=
  ⟨rfl, rfl, rfl, rfl, hy, fun _ => ⟨fun n hn => hu n hn ▸ element_writeBlock fu (by omega) (by omega),
    fun n hn => hv n hn ▸ element_writeBlock fv (by omega) (by omega)⟩⟩

theorem loaded_gray {s : State} {q : Quant} (hk : s.srckind = srcPixel) (hf : s.pixfmt = pixGray8) :
    Loaded s q (s.grayLoaded q) := by
  have hluma : lumaAt s q = graySampleOf s q.block.side := by
    funext j i
    rw [lumaAt, if_neg (by simp [hk]), if_pos hf]
  exact loaded_of_luma ⟨hk, hf⟩ (by rw [hluma])

theorem loaded_planar {s : State} {q : Quant} (hk : s.srckind ≠ srcPixel) (hside : q.block.side = 16) :
    Loaded s q (s.planarLoaded q) := by
  have hluma : lumaAt s q = planarLumaOf s q.block.side := by
    funext j i
    rw [lumaAt, if_pos hk]
  exact loaded_of_planes s.up s.vp (by rw [hluma, hside]) (fun _ _ => if_pos hk) (fun _ _ => if_pos hk)

theorem ne_gray_of_channelOffsets {p : BitVec 3} {k : Nat × Nat × Nat} (h : channelOffsets p = some k) : p ≠ pixGray8 := by
  rintro rfl
  cases h

section
variable {s : State} {q : Quant} {bpp : Nat} {k : Nat × Nat × Nat} (hk : s.srckind = srcPixel)
  (hf : channelOffsets s.pixfmt = some k) (hb : bytesPerPixel s.pixfmt = some bpp)
include hk hf hb

theorem lumaAt_colour : lumaAt s q = colourSampleOf lumaOf s q.block.side bpp k := by
  funext j i
  rw [lumaAt, if_neg (by simp [hk]), if_neg (ne_gray_of_channelOffsets hf), hf, hb]
  rfl

theorem loaded_colour_full (hc : q.consistent) (hsub : q.subsample = false) : Loaded s q (s.colourLoaded q bpp k) := by
  have hside : q.block.side = 8 := by rw [hc.1, hsub]; rfl
  simp only [State.colourLoaded, hsub, Bool.false_eq_true, if_false]
  refine loaded_of_planes s.up s.vp (by rw [lumaAt_colour hk hf hb, hside]) (fun n _ => ?_) (fun n _ => ?_)
  all_goals simp [unitSample, hk, hf, hb, hsub, hside]

/-- With subsampling the chroma blocks are those `CSUB` averages from the full planes. -/
theorem loaded_colour_subsampled (hc : q.consistent) (hsub : q.subsample = true) :
    Loaded s q { s.colourLoaded q bpp k with
      uc := writeBlock (boxAverage (planeEntries (colourSampleOf chromaUOf s 16 bpp k)))
      vc := writeBlock (boxAverage (planeEntries (colourSampleOf chromaVOf s 16 bpp k))) } := by
  have hside : q.block.side = 16 := by rw [hc.1, hsub]; rfl
  simp only [State.colourLoaded, hsub, if_true]
  refine loaded_of_planes _ _ (by rw [lumaAt_colour hk hf hb, hside]) (fun n hn => ?_) (fun n hn => ?_)
  all_goals
    rw [boxAverage_planeEntries _ (by omega) (by omega)]
    simp [unitSample, hk, hf, hb, hsub, hside]

end

theorem csubBody_colourLoaded {s : State} {q : Quant} {bpp : Nat} {k : Nat × Nat × Nat}
    (hp : s.phase.allowsKernel = true) (hq : s.quant = some q) (hsub : q.subsample = true) (hv : q.wbvar = .subs) :
    csubBody (s.colourLoaded q bpp k) = .ok () { s.colourLoaded q bpp k with
      uc := writeBlock (boxAverage (planeEntries (colourSampleOf chromaUOf s 16 bpp k)))
      vc := writeBlock (boxAverage (planeEntries (colourSampleOf chromaVOf s 16 bpp k))) } := by
  refine csubBody_spec ?_ ?_ hv ?_ ?_
  all_goals simp only [State.colourLoaded, hsub, if_true, hp, hq, toList_writePlane]

/-! The variants. -/

/-- What the checks say of the source (R282). -/
theorem checkFault_source {s : State} (h : checkFault s = none) :
    s.srckind ≠ 3 ∧
      (s.srckind = srcPixel → [pixGray8, pixBgr24, pixBgra32, pixRgb24, pixRgba32].contains s.pixfmt = true) := by
  simp only [checkFault] at h
  split_ifs at h with _ hformat _ _ _ hengine
  refine ⟨fun h3 => hengine (by simp [h3]), fun hk => ?_⟩
  by_contra hp
  exact hformat (by simp only [hk, hp]; decide)

theorem pixelFormat_cases : ∀ p : BitVec 3, [pixGray8, pixBgr24, pixBgra32, pixRgb24, pixRgba32].contains p = true →
    p = pixGray8 ∨ (channelOffsets p).isSome = true ∧ (bytesPerPixel p).isSome = true := by decide

/-- What a configuration that passed the checks reads: planar data, gray pixels or colour pixels (R282). -/
theorem source_cases {s : State} (h : checkFault s = none) :
    (s.srckind = srcNv12 ∨ s.srckind = srcYuv420p) ∨ (s.srckind = srcPixel ∧ s.pixfmt = pixGray8) ∨
      (s.srckind = srcPixel ∧ ∃ k bpp, channelOffsets s.pixfmt = some k ∧ bytesPerPixel s.pixfmt = some bpp) := by
  obtain ⟨h3, hformat⟩ := checkFault_source h
  have hkind : ∀ k : BitVec 2, k ≠ 3 → (k = srcNv12 ∨ k = srcYuv420p) ∨ k = srcPixel := by decide
  refine (hkind _ h3).imp_right fun hk => ?_
  refine (pixelFormat_cases _ (hformat hk)).imp (And.intro hk) fun ⟨hoff, hbytes⟩ => ?_
  obtain ⟨k, hk'⟩ := Option.isSome_iff_exists.mp hoff
  obtain ⟨bpp, hb⟩ := Option.isSome_iff_exists.mp hbytes
  exact ⟨hk, k, bpp, hk', hb⟩

theorem quantOf_pixel {s : State} (hk : s.srckind = srcPixel) :
    (quantOf s).wbvar = if (quantOf s).subsample then .subs else .full := by
  have hvariant : (quantOf s).wbvar = writerVariant s := rfl
  rw [hvariant, writerVariant, hk]
  rfl

theorem quantOf_planar {s : State} (hk : s.srckind = srcNv12 ∨ s.srckind = srcYuv420p) :
    (quantOf s).subsample = true ∧ variantBody (quantOf s).wbvar = planarBody := by
  have hvariant : (quantOf s).wbvar = writerVariant s := rfl
  rw [hvariant, writerVariant]
  rcases hk with h | h <;> rw [h] <;> exact ⟨(subsampleMode_iff s).mpr (.inr (by rw [h]; decide)), rfl⟩

/-- What follows the blocks: the placeholder codes for a gray source (R187, R188). -/
def codeRest (s : State) : Body Unit := if s.srckind = srcPixel ∧ s.pixfmt = pixGray8 then jgrayuvBody else pure ()

/-- The body of the variant leaves the samples of the macroblock loaded and then codes its blocks. -/
def LoadsThenCodes (s : State) (q : Quant) : Prop :=
  ∃ t, Loaded s q t ∧ variantBody q.wbvar s = (do codeUnits (unitsOf s q); codeRest s) t

section
variable {s : State} {q : Quant} (hp : s.phase.allowsKernel = true) (hq : s.quant = some q)
  (hqs : q = quantOf s) (hm : macroblockMapped s q = true)
include hp hq hqs hm

theorem variantBody_planar (hk : s.srckind = srcNv12 ∨ s.srckind = srcYuv420p) : LoadsThenCodes s q := by
  have hpixel : s.srckind ≠ srcPixel := by rcases hk with h | h <;> rw [h] <;> decide
  obtain ⟨hsub, hbody⟩ := hqs ▸ quantOf_planar hk
  have hc : q.consistent := hqs ▸ quantOf_consistent s
  have hside : q.block.side = 16 := by rw [hc.1, hsub]; rfl
  rw [macroblockMapped, if_pos hpixel] at hm
  refine ⟨s.planarLoaded q, loaded_planar hpixel hside, ?_⟩
  rw [hbody, planarBody, bind_ok (yuvloadBody_spec hp hq hk hm), codeLuma16_eq, codeChroma_eq, ← codeUnits_append]
  simp [unitsOf, codeRest, hpixel, hsub]

theorem variantBody_gray (hk : s.srckind = srcPixel) (hf : s.pixfmt = pixGray8) : LoadsThenCodes s q := by
  rw [macroblockMapped, if_neg (by simp [hk]), if_pos hf] at hm
  have hload := gray2yBody_spec hp hq hk hf hm
  refine ⟨s.grayLoaded q, loaded_gray hk hf, ?_⟩
  have hv := hqs ▸ quantOf_pixel hk
  cases hsub : q.subsample with
  | true =>
    rw [hv, hsub, if_pos rfl, variantBody, subsBody, get_bind, if_pos hf, bind_ok hload, codeLuma16_eq]
    simp [unitsOf, codeRest, hk, hf, hsub]
  | false =>
    rw [hv, hsub, if_neg Bool.false_ne_true, variantBody, fullBody, get_bind, if_pos hf, bind_ok hload, codeBlock_eq]
    simp [unitsOf, codeRest, hk, hf, hsub]

theorem variantBody_colour {k : Nat × Nat × Nat} {bpp : Nat} (hk : s.srckind = srcPixel)
    (hf : channelOffsets s.pixfmt = some k) (hb : bytesPerPixel s.pixfmt = some bpp) : LoadsThenCodes s q := by
  have hgray := ne_gray_of_channelOffsets hf
  have hc := hqs ▸ quantOf_consistent s
  rw [macroblockMapped, if_neg (by simp [hk]), if_neg hgray, hf, hb] at hm
  have hv := hqs ▸ quantOf_pixel hk
  cases hsub : q.subsample with
  | true =>
    rw [hsub, if_pos rfl] at hv
    refine ⟨_, loaded_colour_subsampled hk hf hb hc hsub, ?_⟩
    rw [hv, variantBody, subsBody, get_bind, if_neg hgray, bind_ok (rgb2yuvBody_spec hp hq hc hk hf hb hm),
      bind_ok (csubBody_colourLoaded hp hq hsub hv), codeLuma16_eq,
      codeChroma_eq, ← codeUnits_append]
    simp [unitsOf, codeRest, hk, hgray, hsub]
  | false =>
    rw [hsub, if_neg Bool.false_ne_true] at hv
    refine ⟨_, loaded_colour_full hk hf hb hc hsub, ?_⟩
    rw [hv, variantBody, fullBody, get_bind, if_neg hgray, bind_ok (rgb2yuvBody_spec hp hq hc hk hf hb hm), codeBlock_eq,
      codeChroma_eq, ← codeUnits_append]
    simp [unitsOf, codeRest, hk, hgray, hsub]

theorem variantBody_loads (hc : checkFault s = none) : LoadsThenCodes s q := by
  rcases source_cases hc with hk | ⟨hk, hf⟩ | ⟨hk, k, bpp, hf, hb⟩
  · exact variantBody_planar hp hq hqs hm hk
  · exact variantBody_gray hp hq hqs hm hk hf
  · exact variantBody_colour hp hq hqs hm hk hf hb

end

theorem unitsOf_length_le (s : State) (q : Quant) :
    (unitsOf s q).length ≤ if s.srckind = srcPixel ∧ s.pixfmt = pixGray8 then 4 else 6 := by
  by_cases hgray : s.srckind = srcPixel ∧ s.pixfmt = pixGray8 <;> cases hsub : q.subsample <;>
    simp [unitsOf, hgray, hsub]

theorem codeRest_completes (s : State) {t : State} (hp : t.phase.allowsKernel = true)
    (hroom : s.srckind = srcPixel ∧ s.pixfmt = pixGray8 → t.bb.length + 4 ≤ 2048) :
    ∃ bb, codeRest s t = .ok () { t with bb := bb } := by
  unfold codeRest
  split
  · rename_i hgray
    exact ⟨_, (jgrayuvBody_push hp).trans (pushCodes_room _ (by simpa using hroom hgray))⟩
  · exact ⟨t.bb, rfl⟩

/-- With the bit buffer not full there is room for all the codes of a macroblock (R166, R186). -/
theorem variantBody_completes {s : State} {q : Quant} (hp : s.phase.allowsKernel = true) (hq : s.quant = some q)
    (hqs : q = quantOf s) (hc : checkFault s = none) (hready : macroblockReady s q = true) (hdc : DcInRange s.dc)
    (hroom : s.bb.length ≤ 1280) : ∃ t, variantBody q.wbvar s = .ok () t ∧ DcInRange t.dc := by
  obtain ⟨hm, hdu⟩ := (Bool.and_eq_true _ _).mp hready
  obtain ⟨t, hload, hbody⟩ := variantBody_loads hp hq hqs hm hc
  have hcount := unitsOf_length_le s q
  have hsix : (unitsOf s q).length ≤ 6 := by split at hcount <;> omega
  obtain ⟨cdu, du, ps, dc, hunits, hlen, hdc'⟩ := codeUnits_completes (unitsOf s q) (hload.phase ▸ hp)
    (hload.quant.trans hq) (hload.samples (hqs ▸ quantOf_consistent s)) (List.all_eq_true.mp hdu) (hload.dc ▸ hdc)
    (by rw [hload.bb]; omega)
  obtain ⟨bb, hrest⟩ := codeRest_completes s (t := { t with cdu := cdu, du := du, bb := t.bb ++ ps, dc := dc })
    (hload.phase ▸ hp) fun hgray => by
      rw [if_pos hgray] at hcount
      simp only [List.length_append, hload.bb]
      omega
  exact ⟨_, hbody.trans ((bind_ok hunits).trans hrest), hdc'⟩

/-! `JWBLK`, R186 and R192. -/

theorem coderReady_iff (s : State) :
    coderReady s = true ↔ DcInRange s.dc ∧ s.bb.length ≤ 1280 ∧ s.caps.out = none := by
  have hdc : DcInRange s.dc ↔ dcInRange s.dc.y = true ∧ dcInRange s.dc.u = true ∧ dcInRange s.dc.v = true :=
    ⟨fun h => ⟨h .y, h .u, h .v⟩, fun ⟨hy, hu, hv⟩ c => by cases c <;> assumption⟩
  simp only [hdc, coderReady, Bool.and_eq_true, decide_eq_true_eq, and_assoc]

theorem allowsKernel_of_allowsScan {p : Phase} (h : p.allowsScan = true) : p.allowsKernel = true := by
  cases p <;> simp_all [Phase.allowsScan, Phase.allowsKernel]

theorem nextMacroblock_counters (s : State) (q : Quant) : ((s.nextMacroblock q).mbx, (s.nextMacroblock q).mby) =
    if (s.mbx + 1).toNat = blocksPerBand q then (0, s.mby + 1) else (s.mbx + 1, s.mby) := by
  unfold State.nextMacroblock
  split <;> rfl

theorem nextMacroblock_rest (s : State) (q : Quant) :
    (s.nextMacroblock q).phase = .jBody ∧ (s.nextMacroblock q).dc = s.dc ∧ (s.nextMacroblock q).caps = s.caps := by
  unfold State.nextMacroblock
  split <;> exact ⟨rfl, rfl, rfl⟩

/-- The flush of a bit buffer that is full (R162, R186). -/
def flushIfFull (s : State) : State := if s.bbFull then { flushed s s.scanBits with bb := [] } else s

theorem flushIfFull_same (s : State) : (flushIfFull s).phase = s.phase ∧ (flushIfFull s).dc = s.dc ∧
    (flushIfFull s).caps = s.caps ∧ (flushIfFull s).mbx = s.mbx ∧ (flushIfFull s).mby = s.mby := by
  unfold flushIfFull
  split <;> exact ⟨rfl, rfl, rfl, rfl, rfl⟩

theorem flushIfFull_bb_length (s : State) : (flushIfFull s).bb.length ≤ 1280 := by
  unfold flushIfFull
  split
  · exact Nat.zero_le _
  · rename_i h
    rw [bbFull_eq, decide_eq_true_eq] at h
    omega

/-- After the body of its variant, `JWBLK` steps the counters and flushes a full bit buffer. -/
theorem jwblkBody_spec {s t : State} {q : Quant} (hp : s.phase.allowsScan = true) (hq : s.quant = some q)
    (hrow : s.mby.toNat < bandCount s q) (hv : variantBody q.wbvar s = .ok () t) (hc : t.caps.out = none)
    (ht : ScanPending t) : jwblkBody s = .ok () (flushIfFull (t.nextMacroblock q)) := by
  obtain ⟨hphase, -, hcaps⟩ := nextMacroblock_rest t q
  obtain ⟨hn, ha⟩ := scanPending_of_same (sameScan_nextMacroblock t q) ht
  rw [jwblkBody, requirePhase_bind, if_pos hp, requireQuant_bind hq, get_bind, require_bind, if_pos (decide_eq_true hrow),
    bind_ok hv, modify_bind, get_bind, flushIfFull]
  split
  · exact bflushBody_spec (by rw [hphase]; rfl) (hcaps ▸ hc) hn ha
  · rfl

/-- What the body of a variant leaves alone. -/
def SamePosition (s t : State) : Prop := t.mbx = s.mbx ∧ t.mby = s.mby ∧ t.caps = s.caps

theorem variantBody_samePosition {v : WbVar} {s t : State} (h : variantBody v s = .ok () t) : SamePosition s t :=
  keeps_ok (keeps_variantBody ⟨fun _ => ⟨rfl, rfl, rfl⟩, fun _ _ _ h1 h2 => by simp_all [SamePosition]⟩
    (by constructor <;> intros <;> exact ⟨rfl, rfl, rfl⟩) v) h

theorem jwblkBody_sameFault {s t : State} (h : jwblkBody s = .ok () t) : t.fail = s.fail ∧ t.finfo = s.finfo :=
  keeps_ok (R := fun s t => t.fail = s.fail ∧ t.finfo = s.finfo)
    (keeps_jwblkBody ⟨fun _ => ⟨rfl, rfl⟩, fun _ _ _ h1 h2 => ⟨h2.1.trans h1.1, h2.2.trans h1.2⟩⟩
      (by constructor <;> (try constructor) <;> intros <;> exact ⟨rfl, rfl⟩)) h

/-- `JWBLK` on a macroblock that can be coded ends well, at the next macroblock and with the coder ready for it. -/
theorem jwblkBody_completes {s : State} {q : Quant} (hp : s.phase.allowsScan = true) (hcfg : JpegConfigInv s)
    (hscan : ScanPending s) (hq : s.quant = some q) (hcoder : coderReady s = true) (hrow : s.mby.toNat < bandCount s q)
    (hready : macroblockReady s q = true) :
    ∃ u, jwblkBody s = .ok () u ∧ u.phase = .jBody ∧ coderReady u = true ∧
      (u.mbx, u.mby) = if (s.mbx + 1).toNat = blocksPerBand q then (0, s.mby + 1) else (s.mbx + 1, s.mby) := by
  obtain ⟨hcheck, -, hquant⟩ := hcfg (isJpeg_of_allowsScan hp)
  obtain ⟨hdc, hroom, hcap⟩ := (coderReady_iff s).mp hcoder
  obtain ⟨t, hv, hdct⟩ := variantBody_completes (allowsKernel_of_allowsScan hp) hq (Option.some.inj (hq.symm.trans hquant))
    hcheck hready hdc hroom
  obtain ⟨hmbx, hmby, hcaps⟩ := variantBody_samePosition hv
  obtain ⟨hphase, hdcn, hcapsn⟩ := nextMacroblock_rest t q
  obtain ⟨hphasef, hdcf, hcapsf, hmbxf, hmbyf⟩ := flushIfFull_same (t.nextMacroblock q)
  refine ⟨_, jwblkBody_spec hp hq hrow hv (hcaps ▸ hcap) ((guards_variantBody scanRules_pending _ s hscan).ok hv),
    hphasef.trans hphase, (coderReady_iff _).mpr ⟨?_, flushIfFull_bb_length _, ?_⟩, ?_⟩
  · rw [hdcf, hdcn]
    exact hdct
  · rw [hcapsf, hcapsn, hcaps, hcap]
  · rw [hmbxf, hmbyf, nextMacroblock_counters, hmbx, hmby]

/-- Settles O40: the load and the coding of the blocks complete, the counters and the flush follow, and the rest is what no
macroblock operation writes. -/
theorem jwblkCompletes : Obligations.JwblkCompletes := by
  intro s q hp hcfg hacc hq hcoder hrow hready
  have hf := allowsScan_ne_failed hp
  obtain ⟨hscan, -⟩ := (accumulatorInv_iff s).mp hacc hf
  obtain ⟨u, hbody, hphase, hcoderu, hcounters⟩ := jwblkBody_completes hp hcfg hscan hq hcoder hrow hready
  have hexec : exec .jwblk s = .next (u.respond 0) := command_ok hf hbody
  have hquant : u.quant = s.quant :=
    keeps_ok (R := fun s t => t.quant = s.quant) (keeps_jwblkBody (chains_observation _) blockWrites_quant) hbody
  have hconfig : SameConfig s u := keeps_ok (keeps_sameConfig (i := .jwblk) nofun) hbody
  have hpng : SamePng s u := keeps_ok (keeps_samePng (i := .jwblk) rfl) hbody
  have hout : OutGrows s u := keeps_ok (keeps_jwblkBody chains_outGrows blockWrites_outGrows) hbody
  obtain ⟨hfail, hfinfo⟩ := jwblkBody_sameFault hbody
  exact ⟨_, hexec, hphase, stepInvariant_accumulator.exec hacc hexec, hcoderu, hquant, hcounters, hconfig, hpng, hfail, hfinfo,
    hout⟩

end Sys2Proof.Proofs

/-! The JPEG stream, 44_jpeg_stream.md. Part 1: the start of the image (R201), its header (R202, R203) and its end (R209). -/

namespace Sys2Proof.Proofs

open Sys2Proof Sys2Proof.Machine Sys2Proof.Laws

/-! `JINIT`, R201. -/

theorem checksBody_bind {α : Type} (f : Unit → Body α) (s : State) :
    (checksBody >>= f) s = match checkFault s with | some c => .error c s | none => f () s := by
  cases h : checkFault s with
  | none => exact bind_ok (by rw [checksBody, get_bind, h]; rfl)
  | some c => exact bind_error (by rw [checksBody, get_bind, h]; rfl)

theorem requireFiletype_bind {α : Type} (ft : BitVec 3) (f : Unit → Body α) (s : State) :
    (requireFiletype ft >>= f) s = if s.filetype = ft then f () s else .error .paramEngineUnsupported s := by
  by_cases h : s.filetype = ft
  · rw [if_pos h]
    exact bind_ok (by rw [requireFiletype, get_bind, require_apply, if_pos (decide_eq_true h)])
  · rw [if_neg h]
    exact bind_error (by rw [requireFiletype, get_bind, require_apply, if_neg (by simpa using h)])

/-- The state `JINIT` leaves. -/
def jpegInitialised (s : State) : State := State.startImage { s with out := [], quant := some (quantOf s) }

/-- The checks of `JINIT`, in their order, and what it does when they pass. -/
theorem jinitBody_apply (s : State) : jinitBody s =
    if s.phase = .idle then
      match checkFault s with
      | some c => .error c s
      | none => if s.filetype = fileJpeg then .ok () (jpegInitialised s) else .error .paramEngineUnsupported s
    else .error .seqFault s := by
  rw [jinitBody, requirePhaseIs_bind]
  by_cases hp : s.phase = .idle
  · rw [if_pos hp, if_pos hp, checksBody_bind, requireFiletype_bind, modify_bind]
    have htables : jqinitBody { s with out := [] } = .ok () { s with out := [], quant := some (quantOf s) } := by
      rw [jqinitBody, requirePhaseIs_bind, if_pos hp]
      rfl
    rw [bind_ok htables]
    rfl
  · rw [if_neg hp, if_neg hp]

theorem jinitBody_spec {s : State} (hp : s.phase = .idle) (hc : checkFault s = none) (hf : s.filetype = fileJpeg) :
    jinitBody s = .ok () (jpegInitialised s) := by
  rw [jinitBody_apply, if_pos hp, hc]
  exact if_pos hf

/-- Settles O42: the four clauses are the four outcomes of the checks, and no check writes anything. -/
theorem jinitInitialises : Obligations.JinitInitialises := by
  intro s
  have hne : s.phase = .idle → s.phase ≠ .failed := fun hp hf => by rw [hp] at hf; cases hf
  refine ⟨fun hp hc hf => command_ok (hne hp) (jinitBody_spec hp hc hf), fun hp hfail => command_error hfail ?_,
    fun c hp hc => command_error (hne hp) ?_, fun hp hc hf => command_error (hne hp) ?_⟩
  · rw [jinitBody_apply, if_neg hp]
  · rw [jinitBody_apply, if_pos hp, hc]
  · rw [jinitBody_apply, if_pos hp, hc]
    exact if_neg hf

/-! `JHDR`, R202 to R207. -/

theorem bytesOf_length (ns : List Nat) : (bytesOf ns).length = ns.length := List.length_map _

theorem headerDqt_length (q : Quant) : (headerDqt q).length = 134 := by simp [headerDqt, bytesOf_length]

theorem headerSof0_length (s : State) (q : Quant) : (headerSof0 s q).length = 19 := by simp [headerSof0, bytesOf_length]

theorem headerDht_length : headerDht.length = 420 := by decide +kernel

theorem jpegHeader_length (s : State) (q : Quant) : (jpegHeader s q).length = 607 := by
  have happ0 : headerApp0.length = 20 := rfl
  have hsos : headerSos.length = 14 := rfl
  simp only [jpegHeader, List.length_append, happ0, headerDqt_length, headerSof0_length, headerDht_length, hsos]

theorem jhdrBody_spec {s : State} {q : Quant} (hp : s.phase = .jInit) (hq : s.quant = some q) (hc : s.caps.out = none) :
    jhdrBody s = .ok () { s with out := s.out ++ jpegHeader s q, phase := .jHdr } := by
  rw [jhdrBody, requirePhaseIs_bind, if_pos hp, requireQuant_bind hq, get_bind, bind_ok (outBytes_unlimited _ hc)]
  rfl

/-- Settles O43: the segments of R203 to R207 have 20, 134, 19, 420 and 14 bytes, and the first begins with SOI and APP0. -/
theorem jhdrWrites : Obligations.JhdrWrites := fun s q hp hq hc =>
  ⟨command_ok (by rw [hp]; decide) (jhdrBody_spec hp hq hc), jpegHeader_length s q, rfl⟩

/-! `JFIN`, R209. -/

/-- The ones that fill the last byte of a bit string, R209. -/
def onesPadding (bits : List Bool) : List Bool :=
  if bits.length % 8 = 0 then [] else List.replicate (8 - bits.length % 8) true

/-- Of seven ones after a bit string, those that fill its last byte go out, and the others are left. -/
theorem fullBytes_sevenOnes (bits : List Bool) :
    fullBytes (bits ++ List.replicate 7 true) = fullBytes (bits ++ onesPadding bits) := by
  rw [fullBytes_append, fullBytes_append bits (onesPadding bits)]
  congr 1
  have hleft := leftBits_length bits
  unfold onesPadding
  split
  · rename_i hp
    have hnil : leftBits bits = [] := List.eq_nil_of_length_eq_zero (hleft.trans hp)
    rw [hnil]
    rfl
  · rename_i hp
    have hsplit : 7 = (8 - bits.length % 8) + (bits.length % 8 - 1) := by omega
    have hbyte : (leftBits bits ++ List.replicate (8 - bits.length % 8) true).length = 8 := by
      rw [List.length_append, List.length_replicate, hleft]
      omega
    have hshort : (List.replicate (bits.length % 8 - 1) true).length < 8 := by
      rw [List.length_replicate]
      omega
    conv_lhs => rw [hsplit, List.replicate_add, ← List.append_assoc, fullBytes_eight _ _ hbyte, fullBytes_short _ hshort]
    conv_rhs => rw [← List.append_nil (leftBits bits ++ _), fullBytes_eight _ _ hbyte, fullBytes_short _ (by decide)]

/-- The state `JFIN` leaves. -/
def jpegFinished (s : State) : State :=
  { s with
    out := s.out ++ stuffed (fullBytes (s.scanBits ++ onesPadding s.scanBits)) ++ [0xFF, 0xD9],
    jacc := 0, jaccn := 0, bb := [], phase := .jDone }

theorem jfinBody_spec {s : State} {q : Quant} (hq : s.quant = some q) (hp : s.phase = .jBody) (hx : s.mbx = 0)
    (hy : s.mby.toNat = bandCount s q) (hroom : s.bb.length < 2048) (hc : s.caps.out = none) (hs : ScanPending s) :
    jfinBody s = .ok () (jpegFinished s) := by
  have hones : State.scanBits { s with bb := s.bb ++ [⟨0x7F, 7⟩] } = s.scanBits ++ List.replicate 7 true :=
    scanBits_append (s := { s with bb := s.bb ++ [⟨0x7F, 7⟩] }) rfl
  have hpush : push ⟨0x7F, 7⟩ s = .ok () { s with bb := s.bb ++ [⟨0x7F, 7⟩] } := push_room _ hroom
  have hscan : Phase.allowsScan s.phase = true := by rw [hp]; rfl
  have hflush := bflushBody_spec (s := { s with bb := s.bb ++ [⟨0x7F, 7⟩] }) hscan hc hs.1 hs.2
  rw [hones] at hflush
  rw [jfinBody, requirePhaseIs_bind, if_pos hp, requireQuant_bind hq, get_bind, require_bind, if_pos (by simp [hx, hy]),
    bind_ok hpush, bind_ok hflush, modify_bind]
  refine (bind_ok (outBytes_unlimited _ (by exact hc))).trans ?_
  rw [jpegFinished, ← fullBytes_sevenOnes]
  rfl

/-- Where the phase or the counters are not those of a complete scan, `JFIN` raises its fault before any write. -/
theorem jfinBody_early {s : State} {q : Quant} (hq : s.quant = some q)
    (h : s.phase ≠ .jBody ∨ s.mbx ≠ 0 ∨ s.mby.toNat ≠ bandCount s q) : jfinBody s = .error .seqFault s := by
  rw [jfinBody, requirePhaseIs_bind]
  split
  · rename_i hp
    have hcounters : ¬ (decide (s.mbx = 0) && decide (s.mby.toNat = bandCount s q)) = true := by
      simpa [hp, imp_iff_not_or] using h
    rw [requireQuant_bind hq, get_bind, require_bind, if_neg hcounters]
  · rfl

/-- Settles O44: the seven ones are as many as it can take to fill the last byte, and the checks come before any write. -/
theorem jfinFinishes : Obligations.JfinFinishes := by
  intro s q hq
  refine ⟨fun hp hx hy hroom hc hacc => ?_, fun hfail h => command_error hfail (jfinBody_early hq h)⟩
  have hfail : s.phase ≠ .failed := by rw [hp]; decide
  obtain ⟨hscan, -⟩ := (accumulatorInv_iff s).mp hacc hfail
  exact command_ok hfail (jfinBody_spec hq hp hx hy hroom hc hscan)

end Sys2Proof.Proofs

/-! The JPEG stream, 44_jpeg_stream.md. Part 2: a row band is its macroblocks (R208), an image its row bands (R210). One predicate says
what stands at the start of each macroblock; `JWBLK` takes it from one position to the next. -/

namespace Sys2Proof.Proofs

open Sys2Proof Sys2Proof.Machine Sys2Proof.Laws

/-! What the readiness of a macroblock depends on. -/

/-- The registers a macroblock's samples are read by, and SRC, in a state that is otherwise that after reset. -/
def sampleView (s : State) : State :=
  { State.reset with
    src := s.src, width := s.width, height := s.height, pixfmt := s.pixfmt, srckind := s.srckind,
    src0Base := s.src0Base, src0Stride := s.src0Stride, src1Base := s.src1Base, src1Stride := s.src1Stride,
    src2Base := s.src2Base, src2Stride := s.src2Stride, mbx := s.mbx, mby := s.mby }

theorem macroblockReady_sampleView (s : State) (q : Quant) : macroblockReady (sampleView s) q = macroblockReady s q := rfl

/-- A macroblock that can be coded can be coded in every state with the same configuration that points at it. -/
theorem macroblockReady_of_sameConfig {s t : State} (q : Quant) {x y : Nat} (h : SameConfig s t) (hx : t.mbx = BitVec.ofNat 32 x)
    (hy : t.mby = BitVec.ofNat 32 y) : macroblockReady t q = macroblockReady (s.atBlock x y) q := by
  have hview : sampleView t = sampleView (s.atBlock x y) := by
    simp only [SameConfig] at h
    simp [sampleView, State.atBlock, h, hx, hy]
  rw [← macroblockReady_sampleView t, hview, macroblockReady_sampleView]

theorem bandCount_of_sameConfig {s t : State} (q : Quant) (h : SameConfig s t) : bandCount t q = bandCount s q := by
  simp only [SameConfig] at h
  simp [bandCount, h]

/-! The size of an image that passed the checks. -/

theorem checkFault_size {s : State} (h : checkFault s = none) (hf : s.filetype = 5) :
    s.width ≠ 0 ∧ s.height ≠ 0 ∧ s.width.toNat ≤ 65535 := by
  simp only [checkFault] at h
  split_ifs at h with hzero _ _ _ _ hengine
  obtain ⟨hw, hh⟩ := not_or.mp hzero
  refine ⟨hw, hh, Nat.le_of_not_lt fun hwide => hengine ?_⟩
  simp [hf, fileJpeg, hwide]

theorem roundUp_div_pos {a b : Nat} (ha : 0 < a) (hb : 0 < b) : 0 < (a + b - 1) / b := Nat.div_pos (by omega) hb

theorem blocksPerBand_pos {s : State} (h : checkFault s = none) (hf : s.filetype = 5) : 0 < blocksPerBand (quantOf s) := by
  obtain ⟨hw, -, hwide⟩ := checkFault_size h hf
  rw [blocksPerBand_quantOf hwide]
  exact roundUp_div_pos (BitVec.toNat_pos_of_ne_zero hw) (blockSide_pos _)

theorem bandCount_pos {s : State} (q : Quant) (h : checkFault s = none) (hf : s.filetype = 5) : 0 < bandCount s q := by
  obtain ⟨-, hh, -⟩ := checkFault_size h hf
  exact roundUp_div_pos (BitVec.toNat_pos_of_ne_zero hh) (blockSide_pos _)

theorem blocksPerBand_lt (q : Quant) : blocksPerBand q < 2 ^ 32 := (Nat.div_le_self _ _).trans_lt q.awidth.isLt

theorem bandCount_lt (s : State) (q : Quant) : bandCount s q < 2 ^ 32 := by
  have hh := s.height.isLt
  unfold bandCount
  rcases blockSide_side q.block with h | h <;> rw [h] <;> omega

/-! The macroblocks one after another. -/

/-- The coder stands at macroblock `(x, y)` of the image with the configuration of `s` and the tables `q`, ready to code it. -/
structure CodingAt (s : State) (q : Quant) (x y : Nat) (t : State) : Prop where
  phase : t.phase.allowsScan = true
  config : SameConfig s t
  admitted : Admitted t
  quant : t.quant = some q
  pending : ScanPending t
  coder : coderReady t = true
  mbx : t.mbx = BitVec.ofNat 32 x
  mby : t.mby = BitVec.ofNat 32 y

/-- The macroblocks of row band `y` can be coded. -/
def BandReady (s : State) (q : Quant) (y : Nat) : Prop :=
  ∀ x, x < blocksPerBand q → macroblockReady (s.atBlock x y) q = true

theorem word_succ (n : Nat) : BitVec.ofNat 32 n + 1 = BitVec.ofNat 32 (n + 1) := (BitVec.ofNat_add n 1).symm

/-- The comparison with the end of the row band is exact: the count of macroblocks fits its register. -/
theorem nextColumn_eq_blocksPerBand_iff {q : Quant} {x : Nat} (hx : x < blocksPerBand q) :
    (BitVec.ofNat 32 (x + 1)).toNat = blocksPerBand q ↔ x + 1 = blocksPerBand q := by
  have hlt := blocksPerBand_lt q
  rw [BitVec.toNat_ofNat, Nat.mod_eq_of_lt (by omega)]

theorem CodingAt.row_lt {s t : State} {q : Quant} {x y : Nat} (h : CodingAt s q x y t) (hy : y < bandCount s q) :
    t.mby.toNat < bandCount t q := by
  rw [bandCount_of_sameConfig q h.config, h.mby, BitVec.toNat_ofNat]
  exact (Nat.mod_le _ _).trans_lt hy

theorem jwblkBody_codes {s t : State} {q : Quant} {x y : Nat} (h : CodingAt s q x y t) (hx : x < blocksPerBand q)
    (hy : y < bandCount s q) (hready : macroblockReady (s.atBlock x y) q = true) :
    ∃ u, jwblkBody t = .ok () u ∧ u.phase = .jBody ∧
      if x + 1 = blocksPerBand q then CodingAt s q 0 (y + 1) u else CodingAt s q (x + 1) y u := by
  obtain ⟨u, hbody, hphase, hcoder, hcounters⟩ := jwblkBody_completes h.phase (fun _ => h.admitted) h.pending h.quant h.coder
    (h.row_lt hy) (macroblockReady_of_sameConfig q h.config h.mbx h.mby ▸ hready)
  have hsetup : SameSetup t u := keeps_ok (keeps_sameSetup (i := .jwblk) nofun nofun nofun nofun) hbody
  have hat : ∀ x' y', u.mbx = BitVec.ofNat 32 x' → u.mby = BitVec.ofNat 32 y' → CodingAt s q x' y' u := fun _ _ hmbx hmby =>
    { phase := by rw [hphase]; rfl
      config := chains_sameConfig.trans _ _ _ h.config (keeps_ok (keeps_sameConfig (i := .jwblk) nofun) hbody)
      admitted := admitted_of_same hsetup h.admitted
      quant := have ⟨_, _, _, hquant⟩ := hsetup; hquant.trans h.quant
      pending := (guards_jwblkBody scanRules_pending t h.pending).ok hbody
      coder := hcoder
      mbx := hmbx
      mby := hmby }
  refine ⟨u, hbody, hphase, ?_⟩
  simp only [h.mbx, h.mby, word_succ, nextColumn_eq_blocksPerBand_iff hx] at hcounters
  split <;> rename_i hend
  · rw [if_pos hend, Prod.mk.injEq] at hcounters
    exact hat _ _ hcounters.1 hcounters.2
  · rw [if_neg hend, Prod.mk.injEq] at hcounters
    exact hat _ _ hcounters.1 hcounters.2

/-- The `n + 1` macroblocks left in a row band are coded. -/
theorem repeat_jwblkBody_codes {s : State} {q : Quant} {y : Nat} (hy : y < bandCount s q) (hready : BandReady s q y) (n : Nat)
    {x : Nat} {t : State} (h : CodingAt s q x y t) (hx : x + (n + 1) = blocksPerBand q) :
    ∃ u, repeatBody (n + 1) jwblkBody t = .ok () u ∧ u.phase = .jBody ∧ CodingAt s q 0 (y + 1) u := by
  have hlt : x < blocksPerBand q := by omega
  induction n generalizing x t with
  | zero =>
    obtain ⟨u, hbody, hphase, hnext⟩ := jwblkBody_codes h hlt hy (hready x hlt)
    rw [if_pos hx] at hnext
    exact ⟨u, bind_ok hbody, hphase, hnext⟩
  | succ n ih =>
    obtain ⟨u, hbody, -, hnext⟩ := jwblkBody_codes h hlt hy (hready x hlt)
    rw [if_neg (by omega)] at hnext
    obtain ⟨v, hrest, hphase, hend⟩ := ih hnext (by omega) (by omega)
    exact ⟨v, (bind_ok hbody).trans hrest, hphase, hend⟩

/-! `JROW`, R208. -/

theorem jrowBody_codes {s t : State} {q : Quant} {y : Nat} (h : CodingAt s q 0 y t) (hy : y < bandCount s q)
    (hready : BandReady s q y) : ∃ u, jrowBody t = .ok () u ∧ u.phase = .jBody ∧ CodingAt s q 0 (y + 1) u := by
  obtain ⟨hcheck, hfile, hquant⟩ := h.admitted
  have hpos : 0 < blocksPerBand q := Option.some.inj (hquant.symm.trans h.quant) ▸ blocksPerBand_pos hcheck hfile
  obtain ⟨n, hn⟩ : ∃ n, blocksPerBand q = n + 1 := ⟨_, (Nat.succ_pred_eq_of_pos hpos).symm⟩
  obtain ⟨u, hbody, hphase, hend⟩ := repeat_jwblkBody_codes hy hready n h (by omega)
  refine ⟨u, ?_, hphase, hend⟩
  rw [jrowBody, requirePhase_bind, if_pos h.phase, requireQuant_bind h.quant, get_bind, require_bind,
    if_pos (by simp [h.mbx, h.row_lt hy]), hn, hbody]

/-- Settles O41: the macroblocks of the band are coded in order, and the rest is what no macroblock operation writes. -/
theorem jrowCompletes : Obligations.JrowCompletes := by
  intro s q hp hcfg hacc hq hcoder hx hy hready
  have hf := allowsScan_ne_failed hp
  obtain ⟨hscan, -⟩ := (accumulatorInv_iff s).mp hacc hf
  have hmby : s.mby = BitVec.ofNat 32 s.mby.toNat := by simp
  have hstart : CodingAt s q 0 s.mby.toNat s :=
    ⟨hp, chains_sameConfig.same s, hcfg (isJpeg_of_allowsScan hp), hq, hscan, hcoder, hx, hmby⟩
  obtain ⟨u, hbody, hphase, hend⟩ := jrowBody_codes hstart hy hready
  have hexec : exec .jrow s = .next (u.respond 0) := command_ok hf hbody
  have hpng : SamePng s u := keeps_ok (keeps_samePng (i := .jrow) rfl) hbody
  have hout : OutGrows s u := keeps_ok (keeps_jrowBody chains_outGrows blockWrites_outGrows) hbody
  obtain ⟨hfail, hfinfo⟩ := Prod.mk.inj (keeps_ok (keeps_faultRegisters .jrow) hbody)
  have hnext : u.mby = s.mby + 1 := by rw [hend.mby, ← word_succ, ← hmby]
  exact ⟨_, hexec, hphase, stepInvariant_accumulator.exec hacc hexec, hend.coder, hend.quant.trans hq.symm, hend.mbx, hnext,
    hend.config, hpng, hfail, hfinfo, hout⟩

/-! `JENC`, R210. -/

/-- The `n + 1` row bands left in an image are coded. -/
theorem repeat_jrowBody_codes {s : State} {q : Quant} (hready : ∀ y, y < bandCount s q → BandReady s q y) (n : Nat) {y : Nat}
    {t : State} (h : CodingAt s q 0 y t) (hy : y + (n + 1) = bandCount s q) :
    ∃ u, repeatBody (n + 1) jrowBody t = .ok () u ∧ u.phase = .jBody ∧ CodingAt s q 0 (bandCount s q) u := by
  have hlt : y < bandCount s q := by omega
  induction n generalizing y t with
  | zero =>
    obtain ⟨u, hbody, hphase, hnext⟩ := jrowBody_codes h hlt (hready y hlt)
    exact ⟨u, bind_ok hbody, hphase, hy ▸ hnext⟩
  | succ n ih =>
    obtain ⟨u, hbody, -, hnext⟩ := jrowBody_codes h hlt (hready y hlt)
    obtain ⟨v, hrest, hphase, hend⟩ := ih hnext (by omega) (by omega)
    exact ⟨v, (bind_ok hbody).trans hrest, hphase, hend⟩

/-- The state after `JINIT` and `JHDR`. -/
def jpegHeaded (s : State) : State := { jpegInitialised s with out := jpegHeader s (quantOf s), phase := .jHdr }

theorem jhdrBody_jpegInitialised {s : State} (hcap : s.caps.out = none) : jhdrBody (jpegInitialised s) = .ok () (jpegHeaded s) :=
  jhdrBody_spec rfl rfl hcap

/-- The first macroblock finds cleared predictors, an empty bit buffer and no pending bits (R201). -/
theorem codingAt_jpegHeaded {s : State} (hc : checkFault s = none) (hf : s.filetype = 5) (hcap : s.caps.out = none) :
    CodingAt s (quantOf s) 0 0 (jpegHeaded s) where
  phase := rfl
  config := by simp [SameConfig, jpegHeaded, jpegInitialised]
  admitted := ⟨hc, hf, rfl⟩
  quant := rfl
  pending := scanPending_empty rfl rfl
  coder := (coderReady_iff _).mpr ⟨fun c => by cases c <;> rfl, Nat.zero_le _, hcap⟩
  mbx := rfl
  mby := rfl

/-- `JENC` on an image that can be coded: the row bands leave a complete scan after the header, and `JFIN` ends it. -/
theorem jencBody_completes {s : State} (hp : s.phase = .idle) (hc : checkFault s = none) (hf : s.filetype = 5)
    (hcap : s.caps.out = none) (hready : ∀ y, y < bandCount s (quantOf s) → BandReady s (quantOf s) y) :
    ∃ u scan, jencBody s = .ok () (jpegFinished u) ∧ CodingAt s (quantOf s) 0 (bandCount s (quantOf s)) u ∧
      u.out = jpegHeader s (quantOf s) ++ scan := by
  have hpos : 0 < bandCount s (quantOf s) := bandCount_pos _ hc hf
  obtain ⟨n, hn⟩ : ∃ n, bandCount s (quantOf s) = n + 1 := ⟨_, (Nat.succ_pred_eq_of_pos hpos).symm⟩
  obtain ⟨u, hrows, hphase, hend⟩ := repeat_jrowBody_codes hready n (codingAt_jpegHeaded hc hf hcap) (by omega)
  rw [← hn] at hrows
  obtain ⟨scan, hout⟩ : OutGrows (jpegHeaded s) u :=
    keeps_ok (keeps_repeat chains_outGrows (keeps_jrowBody chains_outGrows blockWrites_outGrows) _) hrows
  obtain ⟨-, hroom, hcapu⟩ := (coderReady_iff u).mp hend.coder
  have hlast : u.mby.toNat = bandCount u (quantOf s) := by
    rw [bandCount_of_sameConfig _ hend.config, hend.mby, BitVec.toNat_ofNat, Nat.mod_eq_of_lt (bandCount_lt s _)]
  have hfin : jfinBody u = .ok () (jpegFinished u) :=
    jfinBody_spec hend.quant hphase hend.mbx hlast (by omega) hcapu hend.pending
  refine ⟨u, scan, ?_, hend, hout⟩
  rw [jencBody, bind_ok (jinitBody_spec hp hc hf), bind_ok (jhdrBody_jpegInitialised hcap)]
  exact (bind_ok hrows).trans hfin

/-- Settles O45: the image is coded to its end, and the rest is what no JPEG operation writes. -/
theorem jencCompletes : Obligations.JencCompletes := by
  intro s hp _ hc hf hcap hready
  obtain ⟨u, scan, hbody, hend, hout⟩ := jencBody_completes hp hc hf hcap fun y hy x hx => hready y x hy hx
  have hexec : exec .jenc s = .next ((jpegFinished u).respond 0) := command_ok (by rw [hp]; decide) hbody
  have hconfig : SameConfig s (jpegFinished u) := keeps_ok (keeps_sameConfig (i := .jenc) nofun) hbody
  have hpng : SamePng s (jpegFinished u) := keeps_ok (keeps_samePng (i := .jenc) rfl) hbody
  obtain ⟨hfail, -⟩ := Prod.mk.inj (keeps_ok (keeps_faultRegisters .jenc) hbody)
  have hrows : (jpegFinished u).mby.toNat = bandCount s (quantOf s) := by
    rw [← Nat.mod_eq_of_lt (bandCount_lt s (quantOf s)), ← BitVec.toNat_ofNat, ← hend.mby]
    rfl
  have hfile : (jpegFinished u).out = jpegHeader s (quantOf s) ++
      (scan ++ stuffed (fullBytes (u.scanBits ++ onesPadding u.scanBits))) ++ [0xFF, 0xD9] := by
    rw [jpegFinished, hout, List.append_assoc (jpegHeader s _)]
  exact ⟨_, _, hexec, rfl, hfail, hend.mbx, hrows, hfile, hconfig, hpng⟩

end Sys2Proof.Proofs

/-! The PNG filter, 45_png_filter.md. Part 1: the choice of the filter (R224 to R226, R228) and the filtered bytes by index (R221,
R222). -/

namespace Sys2Proof.Proofs

open Sys2Proof Sys2Proof.Machine Sys2Proof.Laws

/-! The choice. -/

theorem cheapest_mem (cost : FilterType → Nat) (ts : List FilterType) (best : FilterType) :
    cheapest cost best ts ∈ best :: ts := by
  induction ts generalizing best with
  | nil => exact List.mem_singleton_self best
  | cons u us ih =>
    rw [cheapest]
    split
    · exact List.mem_cons_of_mem _ (ih u)
    · rcases List.mem_cons.mp (ih best) with h | h <;> simp [h]

theorem cost_cheapest_le (cost : FilterType → Nat) (ts : List FilterType) (best : FilterType) :
    ∀ t ∈ best :: ts, cost (cheapest cost best ts) ≤ cost t := by
  induction ts generalizing best with
  | nil => exact fun t ht => List.mem_singleton.mp ht ▸ le_rfl
  | cons u us ih =>
    rw [cheapest]
    intro t ht
    split
    · rename_i hlt
      rcases List.mem_cons.mp ht with rfl | ht
      · exact (ih u u List.mem_cons_self).trans hlt.le
      · exact ih u t ht
    · rename_i hge
      have hbest := ih best best List.mem_cons_self
      rcases List.mem_cons.mp ht with rfl | ht
      · exact hbest
      · rcases List.mem_cons.mp ht with rfl | ht
        · exact hbest.trans (Nat.le_of_not_lt hge)
        · exact ih best t (List.mem_cons_of_mem _ ht)

/-- Where the candidates come in the order of their numbers, an earlier one than the one chosen costs more: a later candidate
replaces the best only when it is strictly cheaper (R226). -/
theorem cost_cheapest_lt (cost : FilterType → Nat) (ts : List FilterType) (best : FilterType)
    (hord : (best :: ts).Pairwise fun t u => t.num.toNat < u.num.toNat) :
    ∀ t ∈ best :: ts, t.num.toNat < (cheapest cost best ts).num.toNat → cost (cheapest cost best ts) < cost t := by
  induction ts generalizing best with
  | nil => exact fun t ht h => absurd (List.mem_singleton.mp ht ▸ h) (Nat.lt_irrefl _)
  | cons u us ih =>
    obtain ⟨hbest, htail⟩ := List.pairwise_cons.mp hord
    rw [cheapest]
    intro t ht h
    split at h <;> rename_i hcost
    · rw [if_pos hcost]
      rcases List.mem_cons.mp ht with rfl | ht
      · exact (cost_cheapest_le cost us u u List.mem_cons_self).trans_lt hcost
      · exact ih u htail t ht h
    · rw [if_neg hcost]
      have hrest : (best :: us).Pairwise fun t u => t.num.toNat < u.num.toNat :=
        hord.sublist ((List.sublist_cons_self u us).cons_cons best)
      rcases List.mem_cons.mp ht with rfl | ht
      · exact ih t hrest t List.mem_cons_self h
      rcases List.mem_cons.mp ht with rfl | ht
      · have hfirst := ih best hrest best List.mem_cons_self ((hbest t List.mem_cons_self).trans h)
        exact hfirst.trans_le (Nat.le_of_not_lt hcost)
      · exact ih best hrest t (List.mem_cons_of_mem _ ht) h

/-- The candidates of a row in evaluation order, R224. -/
theorem none_cons_laterCandidates (row : Nat) : FilterType.none :: laterCandidates row =
    if row = 0 then [.none, .sub] else [.none, .sub, .up, .average, .paeth] := by
  unfold laterCandidates
  split <;> rfl

theorem candidates_pairwise (row : Nat) :
    (FilterType.none :: laterCandidates row).Pairwise fun t u => t.num.toNat < u.num.toNat := by
  rw [none_cons_laterCandidates]
  split <;> decide

/-- Settles O48: the scan keeps the cheapest candidate it has met, and the first of them on a tie. -/
theorem filterChoice : Obligations.FilterChoice := by
  intro row bpp cur prev cost best cands
  have hcands : cands = .none :: laterCandidates row := (none_cons_laterCandidates row).symm
  rw [hcands]
  exact ⟨cheapest_mem cost _ _, cost_cheapest_le cost _ _, cost_cheapest_lt cost _ _ (candidates_pairwise row)⟩

/-! The filtered row. -/

theorem filterBytes_eq (t : FilterType) {cur left up upLeft : List Byte} (hl : cur.length ≤ left.length)
    (hu : cur.length ≤ up.length) (hul : cur.length ≤ upLeft.length) :
    filterBytes t cur left up upLeft = (List.range cur.length).map fun i =>
      cur.getD i 0 - predict t (left.getD i 0) (up.getD i 0) (upLeft.getD i 0) := by
  induction cur generalizing left up upLeft with
  | nil => simp [filterBytes]
  | cons c cur ih =>
    obtain ⟨l, left, rfl⟩ := List.exists_cons_of_length_pos (Nat.lt_of_lt_of_le (Nat.succ_pos _) hl)
    obtain ⟨u, up, rfl⟩ := List.exists_cons_of_length_pos (Nat.lt_of_lt_of_le (Nat.succ_pos _) hu)
    obtain ⟨ul, upLeft, rfl⟩ := List.exists_cons_of_length_pos (Nat.lt_of_lt_of_le (Nat.succ_pos _) hul)
    simp only [List.length_cons, Nat.add_le_add_iff_right] at hl hu hul
    simp only [filterBytes, ih hl hu hul, List.length_cons, List.range_succ_eq_map, List.map_cons, List.map_map,
      List.getD_cons_zero, Function.comp_def, List.getD_cons_succ]

theorem shiftRow_getD (bpp : Nat) (row : List Byte) (i : Nat) :
    (shiftRow bpp row).getD i 0 = if bpp ≤ i then row.getD (i - bpp) 0 else 0 := by
  unfold shiftRow
  split
  · rw [List.getD_append_right _ _ _ _ (by simpa), List.length_replicate]
  · rw [List.getD_append _ _ _ _ (by simp; omega), List.getD_replicate _ (by omega)]

theorem predAt_eq_predict (t : FilterType) (bpp : Nat) (cur prev : List Byte) (i : Nat) :
    predAt t bpp cur prev i =
      predict t ((shiftRow bpp cur).getD i 0) (prev.getD i 0) ((shiftRow bpp prev).getD i 0) := by
  rw [shiftRow_getD, shiftRow_getD]
  cases t <;> rfl

/-- The filtered bytes by index, R222, of two rows of one length. -/
theorem filterRow_eq (t : FilterType) (bpp : Nat) {cur prev : List Byte} (h : prev.length = cur.length) :
    filterRow t bpp cur prev = (List.range cur.length).map fun i => cur.getD i 0 - predAt t bpp cur prev i := by
  have hshift : ∀ row : List Byte, row.length ≤ (shiftRow bpp row).length := fun row => by simp [shiftRow]
  rw [filterRow, filterBytes_eq t (hshift cur) h.ge (h ▸ hshift prev)]
  exact List.map_congr_left fun i _ => by rw [predAt_eq_predict]

end Sys2Proof.Proofs

/-! The PNG filter, 45_png_filter.md. Part 2: the command (R220). -/

namespace Sys2Proof.Proofs

open Sys2Proof Sys2Proof.Machine Sys2Proof.Laws

/-! Reading the two rows. -/

theorem memRead_srcUnmapped {s : State} {a : Word} (h : s.srcMapped a = false) : memRead a s = .error .srcAccess s :=
  memRead_unmapped (by simpa [State.srcMapped] using h)

theorem readRow_from (s : State) (r i n : Nat) :
    readRow r i n s =
      if (List.range' i n).all fun k => s.srcMapped (rowAddr s r k) then
        .ok ((List.range' i n).map fun k => s.srcByte (rowAddr s r k)) s
      else .error .srcAccess s := by
  induction n generalizing i with
  | zero => rfl
  | succ n ih =>
    rw [readRow, get_bind, List.range'_succ, List.all_cons, List.map_cons]
    cases hm : s.srcMapped (rowAddr s r i) with
    | false => exact bind_error (memRead_srcUnmapped hm)
    | true =>
      rw [bind_ok (memRead_srcMapped hm), Bool.true_and]
      split <;> rename_i hrest
      · exact bind_ok ((ih (i + 1)).trans (if_pos hrest))
      · exact bind_error ((ih (i + 1)).trans (if_neg hrest))

theorem readRow_apply (s : State) (r n : Nat) :
    readRow r 0 n s = if rowMapped s r n then .ok (sourceRow s r n) s else .error .srcAccess s := by
  rw [readRow_from, ← List.range_eq_range']
  rfl

theorem readAbove_apply (s : State) (r n : Nat) :
    readAbove r n s =
      if 0 < r → rowMapped s (r - 1) n = true then .ok (rowAbove s r n) s else .error .srcAccess s := by
  unfold readAbove rowAbove
  cases r with
  | zero => rfl
  | succ r => simp [readRow_apply]

theorem sourceRow_length (s : State) (r n : Nat) : (sourceRow s r n).length = n := by simp [sourceRow]

theorem rowAbove_length (s : State) (r n : Nat) : (rowAbove s r n).length = n := by
  unfold rowAbove
  split
  · exact List.length_replicate
  · exact sourceRow_length s _ n

/-! Appending to FBUF. -/

theorem forM_cons_bind {α β : Type} (f : α → Body Unit) (a : α) (l : List α) (g : Unit → Body β) (s : State) :
    ((a :: l).forM f >>= g) s = (f a >>= fun _ => l.forM f >>= g) s :=
  congrFun (bind_assoc (f a) (fun _ => l.forM f) g) s

theorem fits_mono {cap : Option Nat} {m n : Nat} (h : fits cap n = true) (hmn : m ≤ n) : fits cap m = true := by
  cases cap with
  | none => rfl
  | some c => exact decide_eq_true (hmn.trans (of_decide_eq_true h))

theorem appendFbuf_apply (b : Byte) (s : State) : appendFbuf b s =
    if fits s.caps.fbuf (s.fbuf.length + 1) then .ok () { s with fbuf := s.fbuf ++ [b] } else .error .outOverflow s := rfl

theorem forM_appendFbuf_fits (bs : List Byte) {s : State} (h : fits s.caps.fbuf (s.fbuf.length + bs.length) = true) :
    bs.forM appendFbuf s = .ok () { s with fbuf := s.fbuf ++ bs } := by
  induction bs generalizing s with
  | nil => simp
  | cons b bs ih =>
    rw [List.length_cons] at h
    rw [forM_cons_apply, bind_ok ((appendFbuf_apply b s).trans (if_pos (fits_mono h (by omega)))),
      ih (by simpa [Nat.add_assoc, Nat.add_comm 1] using h)]
    simp

/-- What fits is appended before the fault. -/
theorem forM_appendFbuf_overflow (bs : List Byte) {s : State} (hne : bs ≠ [])
    (h : fits s.caps.fbuf (s.fbuf.length + bs.length) = false) :
    ∃ v, bs.forM appendFbuf s = .error .outOverflow { s with fbuf := v } := by
  induction bs generalizing s with
  | nil => exact absurd rfl hne
  | cons b bs ih =>
    rw [forM_cons_apply]
    by_cases hb : fits s.caps.fbuf (s.fbuf.length + 1) = true
    · rw [bind_ok ((appendFbuf_apply b s).trans (if_pos hb))]
      refine ih (s := { s with fbuf := s.fbuf ++ [b] }) (fun hnil => ?_) ?_
      · rw [hnil] at h
        exact absurd hb (Bool.eq_false_iff.mp h)
      · rw [List.length_append, Nat.add_assoc, Nat.add_comm [b].length]
        exact h
    · exact ⟨s.fbuf, bind_error ((appendFbuf_apply b s).trans (if_neg hb))⟩

/-! `PFILT`, R220. -/

/-- The two rows `PFILT` reads are mapped. -/
abbrev RowsMapped (s : State) (n : Nat) : Prop :=
  rowMapped s s.row.toNat n = true ∧ (0 < s.row.toNat → rowMapped s (s.row.toNat - 1) n = true)

/-- The filter of scanline `ROW`, of `n` bytes. -/
def rowFilter (s : State) (bpp n : Nat) : FilterType :=
  chooseFilter s.row.toNat bpp (sourceRow s s.row.toNat n) (rowAbove s s.row.toNat n)

/-- What `PFILT` appends: the selector byte and the filtered row (R222, R227). -/
def filteredLine (s : State) (bpp n : Nat) : List Byte :=
  (rowFilter s bpp n).num :: (List.range n).map fun i =>
    (sourceRow s s.row.toNat n).getD i 0 -
      predAt (rowFilter s bpp n) bpp (sourceRow s s.row.toNat n) (rowAbove s s.row.toNat n) i

/-- The state a `PFILT` that raises no fault leaves. -/
def pngFiltered (s : State) (bpp : Nat) : State :=
  { s with fbuf := s.fbuf ++ filteredLine s bpp (s.width.toNat * bpp), row := s.row + 1, phase := .pBody }

theorem filteredLine_length (s : State) (bpp n : Nat) : (filteredLine s bpp n).length = 1 + n := by
  simp [filteredLine, Nat.add_comm]

theorem filteredLine_eq (s : State) (bpp n : Nat) : filteredLine s bpp n =
    (rowFilter s bpp n).num ::
      filterRow (rowFilter s bpp n) bpp (sourceRow s s.row.toNat n) (rowAbove s s.row.toNat n) := by
  rw [filterRow_eq _ _ (by rw [rowAbove_length, sourceRow_length]), sourceRow_length]
  rfl

/-- Out of sequence, before anything is read. -/
theorem pfiltBody_early {s : State} (h : s.phase.allowsPng = false ∨ s.height.toNat ≤ s.row.toNat) :
    pfiltBody s = .error .seqFault s := by
  rw [pfiltBody, requirePhase_bind]
  split <;> rename_i hp
  · have hrow : ¬ s.row.toNat < s.height.toNat := Nat.not_lt.mpr (h.resolve_left (by simp [hp]))
    rw [get_bind, require_bind, decide_eq_false hrow]
    rfl
  · rfl

section
variable {s : State} {bpp : Nat} (hp : s.phase.allowsPng = true) (hr : s.row.toNat < s.height.toNat)
  (hb : bytesPerPixel s.pixfmt = some bpp)
include hp hr hb

/-- In sequence `PFILT` reads its two rows, appends the selector byte and the filtered row, and advances. -/
theorem pfiltBody_apply : pfiltBody s =
    if RowsMapped s (s.width.toNat * bpp) then
      ((filteredLine s bpp (s.width.toNat * bpp)).forM appendFbuf >>= fun _ =>
        modify fun s => { s with row := s.row + 1, phase := .pBody }) s
    else .error .srcAccess s := by
  have hpixel : requirePixel s = .ok bpp s := by rw [requirePixel, hb]
  rw [pfiltBody, requirePhase_bind, if_pos hp, get_bind, require_bind, if_pos (decide_eq_true hr), bind_ok hpixel]
  by_cases hcur : rowMapped s s.row.toNat (s.width.toNat * bpp) = true
  · rw [bind_ok ((readRow_apply s _ _).trans (if_pos hcur))]
    by_cases hprev : 0 < s.row.toNat → rowMapped s (s.row.toNat - 1) (s.width.toNat * bpp) = true
    · rw [bind_ok ((readAbove_apply s _ _).trans (if_pos hprev)), if_pos ⟨hcur, hprev⟩, filteredLine_eq]
      exact (forM_cons_bind _ _ _ _ _).symm
    · rw [bind_error ((readAbove_apply s _ _).trans (if_neg hprev)), if_neg fun h => hprev h.2]
  · rw [bind_error ((readRow_apply s _ _).trans (if_neg hcur)), if_neg fun h => hcur h.1]

theorem pfiltBody_unmapped (hm : ¬ RowsMapped s (s.width.toNat * bpp)) : pfiltBody s = .error .srcAccess s :=
  (pfiltBody_apply hp hr hb).trans (if_neg hm)

theorem pfiltBody_fits (hm : RowsMapped s (s.width.toNat * bpp))
    (hfit : fits s.caps.fbuf (s.fbuf.length + (1 + s.width.toNat * bpp)) = true) :
    pfiltBody s = .ok () (pngFiltered s bpp) := by
  rw [pfiltBody_apply hp hr hb, if_pos hm, bind_ok (forM_appendFbuf_fits _ (by rwa [filteredLine_length]))]
  rfl

theorem pfiltBody_overflow (hm : RowsMapped s (s.width.toNat * bpp))
    (hfit : fits s.caps.fbuf (s.fbuf.length + (1 + s.width.toNat * bpp)) = false) :
    ∃ v, pfiltBody s = .error .outOverflow { s with fbuf := v } := by
  obtain ⟨v, hv⟩ := forM_appendFbuf_overflow (filteredLine s bpp (s.width.toNat * bpp)) (List.cons_ne_nil _ _)
    (by rwa [filteredLine_length])
  exact ⟨v, by rw [pfiltBody_apply hp hr hb, if_pos hm, bind_error hv]⟩

end

theorem allowsPng_ne_failed {p : Phase} (h : p.allowsPng = true) : p ≠ .failed := by
  rintro rfl
  cases h

/-- Settles O47: the checks come first, then the reads, and the appends last, so each fault leaves what came before it. -/
theorem pfiltFilters : Obligations.PfiltFilters := by
  intro s bpp n r cur prev best mapped
  refine ⟨fun hp hr hb => ⟨fun hm hfit => ?_, fun hm hfit => ?_, fun hm => ?_⟩, fun hfail h => ?_⟩
  · exact command_ok (allowsPng_ne_failed hp) (pfiltBody_fits hp hr hb hm hfit)
  · obtain ⟨v, hv⟩ := pfiltBody_overflow hp hr hb hm hfit
    exact ⟨_, command_error (allowsPng_ne_failed hp) hv, rfl, rfl, rfl, rfl⟩
  · exact command_error (allowsPng_ne_failed hp) (pfiltBody_unmapped hp hr hb hm)
  · exact command_error hfail (pfiltBody_early h)

/-- What a `PFILT` that raises no fault found and leaves. -/
theorem pfiltBody_ok {s t : State} {u : Unit} (h : pfiltBody s = .ok u t) :
    s.row.toNat < s.height.toNat ∧ ∃ bpp, bytesPerPixel s.pixfmt = some bpp ∧ t = pngFiltered s bpp := by
  obtain ⟨hp, hrest⟩ := requirePhase_bind_ok h
  rw [get_bind] at hrest
  obtain ⟨hr, hrest⟩ := require_bind_ok hrest
  obtain ⟨bpp, v, hpixel, -⟩ := bind_ok_inv hrest
  replace hr := of_decide_eq_true hr
  have hb : bytesPerPixel s.pixfmt = some bpp := by
    unfold requirePixel at hpixel
    split at hpixel <;> cases hpixel
    assumption
  refine ⟨hr, bpp, hb, ?_⟩
  by_cases hm : RowsMapped s (s.width.toNat * bpp)
  · cases hfit : fits s.caps.fbuf (s.fbuf.length + (1 + s.width.toNat * bpp)) with
    | true => cases (pfiltBody_fits hp hr hb hm hfit).symm.trans h; rfl
    | false =>
      obtain ⟨v, hv⟩ := pfiltBody_overflow hp hr hb hm hfit
      cases hv.symm.trans h
  · cases (pfiltBody_unmapped hp hr hb hm).symm.trans h

end Sys2Proof.Proofs

/-! The PNG filter, 45_png_filter.md. Part 3: FBUF holds one selector byte and one row for each scanline filtered (R227). -/

namespace Sys2Proof.Proofs

open Sys2Proof Sys2Proof.Machine Sys2Proof.Laws

/-! What the invariant says of a PNG in progress, and what it reads. -/

/-- The configuration has passed the checks for a PNG, and FBUF holds `ROW` lines. -/
def RowsFiltered (s : State) : Prop :=
  checkFault s = none ∧ s.filetype = 4 ∧ s.row.toNat ≤ s.height.toNat ∧
    ∃ bpp, bytesPerPixel s.pixfmt = some bpp ∧ s.fbuf.length = s.row.toNat * (1 + s.width.toNat * bpp)

theorem pngRowsInv_iff (s : State) : PngRowsInv s ↔ (s.phase.isPng = true → RowsFiltered s) := Iff.rfl

/-- The registers `RowsFiltered` reads, in a state that is otherwise that after reset. -/
def rowsView (s : State) : State :=
  { State.reset with
    width := s.width, height := s.height, pixfmt := s.pixfmt, filetype := s.filetype, yuvtype := s.yuvtype,
    srckind := s.srckind, row := s.row, fbuf := s.fbuf }

/-- The registers `RowsFiltered` reads stay. -/
def SameRows (s t : State) : Prop := rowsView t = rowsView s

theorem rowsFiltered_rowsView (s : State) : RowsFiltered (rowsView s) ↔ RowsFiltered s := Iff.rfl

theorem rowsFiltered_of_same {s t : State} (h : SameRows s t) (hs : RowsFiltered s) : RowsFiltered t := by
  rw [← rowsFiltered_rowsView, h]
  exact hs

theorem guards_of_sameRows {α : Type} {b : Body α} (hb : Keeps SameRows b) : Guards (fun _ => True) RowsFiltered b :=
  guards_of_keeps (R := SameRows) (fun _ _ => trivial) (fun _ _ => rowsFiltered_of_same) hb

theorem chains_sameRows : Chains SameRows := chains_observation rowsView

theorem streamWrites_sameRows : StreamWrites SameRows := by
  constructor <;> (try constructor) <;> (try constructor) <;> intros <;> rfl

theorem compressorWrites_sameRows : CompressorWrites SameRows := by
  constructor <;> (try constructor) <;> intros <;> rfl

theorem chunkWrites_sameRows : ChunkWrites SameRows := by
  constructor <;> intros <;> rfl

theorem phase_sameRows (s : State) (v : Phase) : SameRows s { s with phase := v } := rfl

theorem sameRows_writeReg {r : WReg} (hr : wregAnyPhase r = true) (s : State) (v : Word) : SameRows s (s.writeReg r v) := by
  cases r <;> simp only [wregAnyPhase, Bool.false_eq_true] at hr <;> rfl

/-- Only `WRREG`, `PFILT`, `PSIG` and `PENC` write one of them. -/
theorem keeps_sameRows {i : Instr} (hw : ∀ r v, i ≠ .wrreg r v) (hf : i ≠ .pfilt) (hs : i ≠ .psig) (he : i ≠ .penc) :
    Keeps SameRows (bodyOf i) := by
  have hR := chains_sameRows
  have hZ := compressorWrites_sameRows
  refine keeps_withoutWrreg hR hw (keeps_jpeg hR streamWrites_sameRows) fun hi => ?_
  cases i <;> simp only [isPngInstr, Bool.false_eq_true] at hi
  case pfilt => exact absurd rfl hf
  case psig => exact absurd rfl hs
  case penc => exact absurd rfl he
  case zbegin a => exact keeps_zbeginBody hR hZ a
  case lzstep => exact keeps_lzstepBody hR hZ.toMatcherWrites
  case zemit => exact keeps_zemitBody hR hZ.toBitWrites hZ.token
  case zend => exact keeps_zendBody hR hZ
  case zcomp a => exact keeps_zcompBody hR hZ a
  case adler a => exact keeps_adlerBody hR hZ.adlreg a
  case crc32 a => exact keeps_crc32Body hR chunkWrites_sameRows.crcreg a
  case crcchk v => exact keeps_crcchkBody hR (fun _ _ => rfl) v
  case pchunk a => exact keeps_pchunkBody hR chunkWrites_sameRows (fun s v _ => phase_sameRows s v) a

/-! `PFILT` adds one line, `PSIG` starts with none, `PENC` is made of both. -/

theorem rowsFiltered_pngFiltered {s : State} {bpp : Nat} (hs : RowsFiltered s) (hr : s.row.toNat < s.height.toNat)
    (hb : bytesPerPixel s.pixfmt = some bpp) : RowsFiltered (pngFiltered s bpp) := by
  obtain ⟨hc, hf, -, bpp', hb', hlen⟩ := hs
  obtain rfl : bpp' = bpp := Option.some.inj (hb'.symm.trans hb)
  have hrow : (s.row + 1).toNat = s.row.toNat + 1 := by have := s.height.isLt; bv_omega
  refine ⟨hc, hf, ?_, bpp', hb, ?_⟩
  · show (s.row + 1).toNat ≤ s.height.toNat
    omega
  · show (s.fbuf ++ filteredLine s bpp' _).length = (s.row + 1).toNat * (1 + s.width.toNat * bpp')
    rw [List.length_append, hlen, filteredLine_length, hrow, Nat.succ_mul]

theorem guards_pfiltBody_rows : Guards (fun _ => True) RowsFiltered pfiltBody := fun _ hs => guardsAt_of_ok fun _ _ h => by
  obtain ⟨hr, bpp, hb, rfl⟩ := pfiltBody_ok h
  exact rowsFiltered_pngFiltered hs hr hb

/-- A PNG has pixels, of a format with a size (R62, R282). -/
theorem checkFault_png {s : State} (h : checkFault s = none) (hf : s.filetype = filePng) :
    ∃ bpp, bytesPerPixel s.pixfmt = some bpp := by
  rcases source_cases h with hk | ⟨-, hg⟩ | ⟨-, k, bpp, -, hb⟩
  · simp only [checkFault] at h
    split_ifs at h with _ _ _ _ _ hengine
    have hplanar : s.srckind ≠ srcPixel := by rcases hk with hk | hk <;> rw [hk] <;> decide
    exact absurd (by simp [hplanar, hf, filePng, fileJpeg]) hengine
  · exact ⟨1, by rw [hg]; rfl⟩
  · exact ⟨bpp, hb⟩

theorem psigBody_rows {s t : State} {u : Unit} (h : psigBody s = .ok u t) : RowsFiltered t := by
  have hR := chains_sameRows
  have hC := chunkWrites_sameRows
  obtain ⟨-, hchecks⟩ := requirePhaseIs_bind_ok h
  obtain ⟨_, s1, h1, hfile⟩ := bind_ok_inv hchecks
  obtain ⟨hc, rfl⟩ := checksBody_ok h1
  obtain ⟨_, s2, h2, hstart⟩ := bind_ok_inv hfile
  obtain ⟨hf, rfl⟩ := requireFiletype_ok h2
  obtain ⟨bpp, hb⟩ := checkFault_png hc hf
  rw [modify_bind] at hstart
  refine rowsFiltered_of_same (keeps_ok (R := SameRows) ?_ hstart) ⟨hc, hf, Nat.zero_le _, bpp, hb, (Nat.zero_mul _).symm⟩
  exact keeps_bind hR (keeps_outBytes hR _ fun s => hC.out s _) fun _ => keeps_get_bind fun s =>
    keeps_bind hR (keeps_chunkBody hR hC _ _) (fun _ => keeps_modify fun s => phase_sameRows s _) s

theorem pencBody_rows {s t : State} {u : Unit} (h : pencBody s = .ok u t) : RowsFiltered t := by
  have hchunk := fun tag p => guards_of_sameRows (keeps_chunkBody chains_sameRows chunkWrites_sameRows tag p)
  obtain ⟨_, v, hsig, h⟩ := bind_ok_inv h
  refine (guards_get_bind fun s => ?_ : Guards (fun _ => True) RowsFiltered _) v (psigBody_rows hsig) |>.ok h
  exact guards_bind (guards_repeat guards_pfiltBody_rows _) fun _ =>
    guards_bind (guards_of_sameRows (keeps_zcompBody chains_sameRows compressorWrites_sameRows _)) fun _ => guards_get_bind fun _ =>
      guards_bind (hchunk _ _) fun _ => guards_bind (hchunk _ _) fun _ => guards_modify fun s => rowsFiltered_of_same rfl

/-! Only `PSIG` and `PENC` lead into the phases of a PNG. -/

theorem isPng_eq_false_of_isJpeg {p : Phase} (h : p.isJpeg = true) : p.isPng = false := by
  cases p <;> simp_all [Phase.isJpeg, Phase.isPng]

theorem isPng_of_allowsPng {p : Phase} (h : p.allowsPng = true) : p.isPng = true := by
  cases p <;> simp_all [Phase.allowsPng, Phase.isPng]

/-- A body that writes no `PHASE` stays within the phases of a JPEG. -/
theorem guards_isJpeg_of_phase {α : Type} {b : Body α} (hb : Keeps (fun s t => t.phase = s.phase) b) :
    Guards (fun _ => True) (fun s => s.phase.isJpeg = true) b :=
  guards_of_keeps (R := fun s t => t.phase = s.phase) (fun _ _ => trivial) (fun _ _ h hs => h ▸ hs) hb

theorem guards_jwblkBody_isJpeg : Guards (fun _ => True) (fun s => s.phase.isJpeg = true) jwblkBody := by
  have hR := chains_observation State.phase
  refine guards_bind (guards_isJpeg_of_phase (keeps_requirePhase hR _)) fun _ =>
    guards_bind (guards_isJpeg_of_phase (keeps_requireQuant hR)) fun q => guards_get_bind fun _ =>
      guards_bind (guards_isJpeg_of_phase (keeps_require hR _ _)) fun _ =>
        guards_bind (guards_isJpeg_of_phase (keeps_variantBody hR kernelWrites_phase _)) fun _ =>
          guards_bind (guards_modify fun s _ => ?_) fun _ => guards_get_bind fun _ => ?_
  · rw [(nextMacroblock_rest s q).1]
    rfl
  · split
    · exact guards_isJpeg_of_phase (keeps_bflushBody hR flushWrites_phase)
    · exact guards_pure ()

theorem guards_jrowBody_isJpeg : Guards (fun _ => True) (fun s => s.phase.isJpeg = true) jrowBody := by
  have hR := chains_observation State.phase
  exact guards_bind (guards_isJpeg_of_phase (keeps_requirePhase hR _)) fun _ =>
    guards_bind (guards_isJpeg_of_phase (keeps_requireQuant hR)) fun _ => guards_get_bind fun _ =>
      guards_bind (guards_isJpeg_of_phase (keeps_require hR _ _)) fun _ => guards_repeat guards_jwblkBody_isJpeg _

theorem jhdrBody_ends : EndsIn (fun t => t.phase = .jHdr) jhdrBody :=
  endsIn_bind fun _ => endsIn_bind fun _ => endsIn_bind fun _ => endsIn_bind fun _ => endsIn_modify fun _ => rfl

theorem jfinBody_ends : EndsIn (fun t => t.phase = .jDone) jfinBody :=
  endsIn_bind fun _ => endsIn_bind fun _ => endsIn_bind fun _ => endsIn_bind fun _ => endsIn_bind fun _ =>
    endsIn_bind fun _ => endsIn_bind fun _ => endsIn_bind fun _ => endsIn_modify fun _ => rfl

theorem jencBody_ends : EndsIn (fun t => t.phase = .jDone) jencBody :=
  endsIn_bind fun _ => endsIn_bind fun _ => endsIn_bind fun _ => endsIn_bind fun _ => endsIn_bind fun _ => jfinBody_ends

/-- The JPEG operations that write `PHASE` end in a phase of a JPEG. -/
theorem isJpeg_after {i : Instr} (hi : isJpegInstr i = true) (hk : keepsPhase i = false) {s t : State} {u : Unit}
    (h : bodyOf i s = .ok u t) : t.phase.isJpeg = true := by
  cases i <;> simp only [isJpegInstr, keepsPhase, Bool.false_eq_true, Bool.true_eq_false] at hi hk
  case jinit => obtain ⟨-, -, rfl⟩ := jinitBody_ok h; rfl
  case jhdr => rw [jhdrBody_ends s u t h]; rfl
  case jwblk => exact (guards_jwblkBody_isJpeg s (isJpeg_of_allowsScan (requirePhase_bind_ok h).1)).ok h
  case jrow => exact (guards_jrowBody_isJpeg s (isJpeg_of_allowsScan (requirePhase_bind_ok h).1)).ok h
  case jfin => rw [jfinBody_ends s u t h]; rfl
  case jenc => rw [jencBody_ends s u t h]; rfl

/-- An operation other than `PSIG` and `PENC` that ends well in a phase of a PNG began in one. -/
theorem isPng_before {i : Instr} (hs : i ≠ .psig) (he : i ≠ .penc) {s t : State} {u : Unit} (h : bodyOf i s = .ok u t)
    (ht : t.phase.isPng = true) : s.phase.isPng = true := by
  cases hk : keepsPhase i with
  | true => exact keeps_ok (keeps_phase hk) h ▸ ht
  | false =>
    cases hj : isJpegInstr i with
    | true => exact absurd ht (by simp [isPng_eq_false_of_isJpeg (isJpeg_after hj hk h)])
    | false =>
      cases i <;> simp only [keepsPhase, isJpegInstr, Bool.true_eq_false] at hk hj
      case pfilt => exact isPng_of_allowsPng (requirePhase_bind_ok h).1
      case psig => exact absurd rfl hs
      case pchunk a => exact isPng_of_allowsPng (requirePhase_bind_ok h).1
      case penc => exact absurd rfl he
      case sreset => cases h; exact ht

/-! The step. -/

/-- A body that ends well in a phase of a PNG leaves `ROW` lines in FBUF, if it found as many. -/
theorem body_rowsFiltered {i : Instr} {s t : State} {u : Unit} (hs : PngRowsInv s) (h : bodyOf i s = .ok u t)
    (ht : t.phase.isPng = true) : RowsFiltered t := by
  by_cases hsig : i = .psig
  · subst hsig; exact psigBody_rows h
  by_cases henc : i = .penc
  · subst henc; exact pencBody_rows h
  have hbefore := isPng_before hsig henc h ht
  by_cases hfilt : i = .pfilt
  · subst hfilt; exact (guards_pfiltBody_rows s (hs hbefore)).ok h
  by_cases hw : ∃ r v, i = .wrreg r v
  · obtain ⟨r, v, rfl⟩ := hw
    obtain ⟨hr, rfl⟩ := wrregBody_ok h
    have hidle : s.phase ≠ .idle := fun hp => by rw [hp] at hbefore; cases hbefore
    exact rowsFiltered_of_same (sameRows_writeReg (hr.resolve_right hidle) s v) (hs hbefore)
  exact rowsFiltered_of_same (keeps_ok (keeps_sameRows (fun r v hi => hw ⟨r, v, hi⟩) hfilt hsig henc) h) (hs hbefore)

theorem stepInvariant_pngRows : StepInvariant (fun _ => True) PngRowsInv where
  fault _ _ := trivial
  take _ h := h
  respond _ _ h := h
  takeFault _ _ _ _ := nofun
  sreset _ _ := nofun
  body _ _ _ hs := guardsAt_of_ok fun _ t h => (pngRowsInv_iff t).mpr (body_rowsFiltered hs h)

/-- Settles O14: `PSIG` starts with no line, `PFILT` adds one and advances `ROW`, and nothing else in a phase of a PNG writes what
the invariant reads. -/
theorem pngRowsInvKept : Obligations.PngRowsInvKept := fun _ _ hs h => stepInvariant_pngRows.step hs h

end Sys2Proof.Proofs

/-! The compressor, 46_zlib_deflate.md. Part 1: the byte sequence of a selector read whole (R62, R65), and `ADLER` (R246, R247). -/

namespace Sys2Proof.Proofs

open Sys2Proof Sys2Proof.Machine Sys2Proof.Laws

/-! Reading a byte sequence. -/

theorem readRange_mapped {s : State} (bs : List Byte) (j : Nat)
    (h : ∀ k, k < bs.length → s.src.read (rangeAddr s (j + k)).toNat = some (bs.getD k 0)) :
    readRange j bs.length s = .ok bs s := by
  induction bs generalizing j with
  | nil => rfl
  | cons b bs ih =>
    have hrest : readRange (j + 1) bs.length s = .ok bs s :=
      ih (j + 1) fun k hk => by rw [Nat.add_right_comm]; exact h (k + 1) (Nat.succ_lt_succ hk)
    have hfirst : memRead (rangeAddr s j) s = .ok b s := memRead_mapped (h 0 (Nat.succ_pos _))
    rw [List.length_cons, readRange, get_bind, bind_ok hfirst, bind_ok hrest]
    rfl

/-- A byte of the range that is not mapped stops the read, which changes nothing. -/
theorem readRange_unmapped {s : State} (n : Nat) {i j : Nat} (hi : i ≤ j) (hj : j < i + n)
    (h : s.src.read (rangeAddr s j).toNat = none) : readRange i n s = .error .srcAccess s := by
  induction n generalizing i with
  | zero => omega
  | succ n ih =>
    rw [readRange, get_bind]
    rcases memRead_cases (rangeAddr s i) s with ⟨b, hb⟩ | hfault
    · have hne : i ≠ j := by
        rintro rfl
        cases hb.symm.trans (memRead_unmapped h)
      rw [bind_ok hb, bind_error (ih (by omega) (by omega))]
    · exact bind_error hfault

theorem selects_src_iff {s : State} {data : List Byte} : s.selects .src data = true ↔
    data.length = s.clen.toNat ∧ ∀ j, j < data.length → s.src.read (rangeAddr s j).toNat = some (data.getD j 0) := by
  simp [State.selects]

theorem readWhole_selects {s : State} {a : ZSel} {data : List Byte} (h : s.selects a data = true) :
    readWhole a s = .ok data s := by
  rw [readWhole, get_bind]
  cases a with
  | fbuf =>
    obtain rfl := of_decide_eq_true h
    rfl
  | src =>
    obtain ⟨hlen, hread⟩ := selects_src_iff.mp h
    rw [← hlen]
    exact readRange_mapped data 0 fun k hk => by rw [Nat.zero_add]; exact hread k hk

/-! The two sums of Adler-32, R246. -/

/-- Each byte times the number of prefixes it stands in: what the second sum has gathered of the bytes. -/
def weightedSum (data : List Byte) : Nat :=
  ((List.range data.length).map fun k => (data.length - k) * (data.getD k 0).toNat).sum

theorem weightedSum_cons (b : Byte) (data : List Byte) :
    weightedSum (b :: data) = (data.length + 1) * b.toNat + weightedSum data := by
  simp [weightedSum, List.range_succ_eq_map, Function.comp_def]

/-- From any two sums in range, the bytes add as R246 says. -/
theorem foldl_adlerByte (data : List Byte) {lo hi : Nat} (hlo : lo < 65521) (hhi : hi < 65521) :
    data.foldl adlerByte (lo, hi) =
      ((lo + (data.map (·.toNat)).sum) % 65521, (hi + data.length * lo + weightedSum data) % 65521) := by
  induction data generalizing lo hi with
  | nil => simp [weightedSum, Nat.mod_eq_of_lt, *]
  | cons b data ih =>
    have hmod : ∀ n, n % 65521 < 65521 := fun n => Nat.mod_lt n (by decide)
    rw [List.foldl_cons, adlerByte, Config.adlerMod, ih (hmod _) (hmod _), List.map_cons, List.sum_cons, List.length_cons,
      weightedSum_cons, Prod.mk.injEq]
    constructor
    · rw [Nat.mod_add_mod, Nat.add_assoc]
    · have hstep : (hi + (lo + b.toNat) % 65521) % 65521 + data.length * ((lo + b.toNat) % 65521) + weightedSum data ≡
          hi + (lo + b.toNat) + data.length * (lo + b.toNat) + weightedSum data [MOD 65521] :=
        (((Nat.mod_modEq _ _).trans ((Nat.mod_modEq _ _).add_left hi)).add ((Nat.mod_modEq _ _).mul_left _)).add_right _
      refine hstep.trans ?_
      rw [show hi + (lo + b.toNat) + data.length * (lo + b.toNat) + weightedSum data =
        hi + (data.length + 1) * lo + ((data.length + 1) * b.toNat + weightedSum data) by ring]

theorem adler32_toNat (data : List Byte) : (adler32 data).toNat =
    (data.length + weightedSum data) % 65521 * 2 ^ 16 + (1 + (data.map (·.toNat)).sum) % 65521 := by
  rw [adler32, foldl_adlerByte data (by decide) (by decide), BitVec.toNat_ofNat, Nat.zero_add, Nat.mul_one]
  omega

/-! The command. -/

theorem live_of_ne_failed {p : Phase} (h : p ≠ .failed) : p.live = true := decide_eq_true h

/-- A body that begins with the condition on the phase that the compressor and the checksums share goes on outside `FAILED`. -/
theorem requireLive_bind {α : Type} {s : State} (hp : s.phase ≠ .failed) (f : Unit → Body α) :
    (requirePhase Phase.live >>= f) s = f () s := by
  rw [requirePhase_bind, if_pos (live_of_ne_failed hp)]

theorem adlerBody_spec {s : State} {a : ZSel} {data : List Byte} (hp : s.phase ≠ .failed) (h : s.selects a data = true) :
    adlerBody a s = .ok () { s with adlreg := adler32 data } := by
  rw [adlerBody, requireLive_bind hp, bind_ok (readWhole_selects h)]
  rfl

theorem adlerBody_unmapped {s : State} {j : Nat} (hp : s.phase ≠ .failed) (hj : j < s.clen.toNat)
    (h : s.src.read (rangeAddr s j).toNat = none) : adlerBody .src s = .error .srcAccess s := by
  rw [adlerBody, requireLive_bind hp]
  exact bind_error (readRange_unmapped s.clen.toNat (Nat.zero_le j) (by omega) h)

/-- The selectors of an input are 0 and 3 (R97). -/
theorem zSel_ofNum_eq_none {a : Byte} (h0 : a ≠ 0) (h3 : a ≠ 3) : ZSel.ofNum a = none := by
  cases h : ZSel.ofNum a with
  | none => rfl
  | some c =>
    have hnum := zSel_num_of_ofNum h
    cases c with
    | fbuf => exact absurd hnum.symm h0
    | src => exact absurd hnum.symm h3

theorem decode_adler_selector {w : Command} (hop : Command.op w = 0x36) (h0 : Command.a w ≠ 0) (h3 : Command.a w ≠ 3) :
    ∃ e, decode w = .error e := by
  have hrow : Opcode.ofByte (Command.op w) = some .adler := hop ▸ rfl
  rw [decode, hrow]
  simp only [decodeOperands, zSel_ofNum_eq_none h0 h3, Option.map_none, decodeSel]
  split
  · exact ⟨_, rfl⟩
  · exact ⟨_, rfl⟩

/-- Settles O56: the bytes are read whole or the first one missing is the fault, the sums are the closed forms of the fold, and the
row's decoder knows two selectors. -/
theorem adlerComputes : Obligations.AdlerComputes := by
  refine fun s hp => ⟨fun a data h => ⟨command_ok hp (adlerBody_spec hp h), ?_, ?_⟩,
    fun j hj h => command_error hp (adlerBody_unmapped hp hj h), fun w => decode_adler_selector⟩
  · rw [adler32_toNat]
    omega
  · rw [adler32_toNat, weightedSum]
    omega

end Sys2Proof.Proofs

/-! The compressor, 46_zlib_deflate.md. Part 2: `LZSTEP` is the decision of R236, and a decision is sound (R235, R239). -/

namespace Sys2Proof.Proofs

open Sys2Proof Sys2Proof.Machine Sys2Proof.Laws

/-! The decision as a function of the input, the table and the position. -/

/-- The table after position `i` is inserted (R234). -/
def insertedTable (f : HashFunction) (q : Nat) (data : List Byte) (ht : HashTable) (i : Nat) : HashTable :=
  ht.put (bucketAt f data i) (insertPosition q (ht.get (bucketAt f data i)) i)

/-- The token and the next position outside the tail, from the positions `ps` of the bucket of `i` and the table `ht` after the
insertion (R236). -/
def searchDecision (f : HashFunction) (data : List Byte) (i : Nat) (ps : List Nat) (ht : HashTable) : Token × Nat :=
  match bestMatch data i ps with
  | (_, none) => (.lit (data.getD i 0), i + 1)
  | (best, some loc) =>
    if longerNext data i best (ht.get (bucketAt f data (i + 1))) then (.lit (data.getD i 0), i + 1)
    else (.copy (BitVec.ofNat 9 best) (BitVec.ofNat 15 (i - loc)), i + best)

/-- The token and the next position at `i`, and the table left (R236). -/
def lzDecision (f : HashFunction) (q : Nat) (data : List Byte) (ht : HashTable) (i : Nat) : (Token × Nat) × HashTable :=
  if data.length ≤ i + 3 then ((.lit (data.getD i 0), i + 1), ht)
  else (searchDecision f data i (ht.get (bucketAt f data i)) (insertedTable f q data ht i), insertedTable f q data ht i)

/-- The decision a state takes. -/
def stateDecision (s : State) (data : List Byte) : (Token × Nat) × HashTable :=
  lzDecision s.hash3 s.zq.toNat data s.ht s.zi.toNat

/-- The state once a decision is taken. -/
def decided (s : State) (d : (Token × Nat) × HashTable) : State :=
  { s with ht := d.2, token := some d.1.1, zi := BitVec.ofNat 32 d.1.2 }

theorem lzStepped_eq (s : State) (data : List Byte) : s.lzStepped data = decided s (stateDecision s data) := by
  rw [stateDecision, lzDecision]
  split <;> rename_i htail
  · exact if_pos htail
  · exact if_neg htail

/-! A decision is sound. -/

/-- What a token chosen at `i` stands for, with the position after it: the byte at `i`, or the bytes that stand as far before them
as the distance says, in the window and within the input (R235, R236, R239). -/
inductive Sound (data : List Byte) (i : Nat) : Token → Nat → Prop where
  | lit : Sound data i (.lit (data.getD i 0)) (i + 1)
  | copy {best loc : Nat} (before : loc < i) (range : MatchInRange i data.length 3 best loc)
      (equal : ∀ k, k < best → data.getD (loc + k) 0 = data.getD (i + k) 0) :
      Sound data i (.copy (BitVec.ofNat 9 best) (BitVec.ofNat 15 (i - loc))) (i + best)

theorem searchDecision_sound (f : HashFunction) {data : List Byte} {i : Nat} {ps : List Nat} (ht : HashTable)
    (hps : ∀ p ∈ ps, p < i) : Sound data i (searchDecision f data i ps ht).1 (searchDecision f data i ps ht).2 := by
  unfold searchDecision
  split
  · exact .lit
  · next best loc hfound =>
    obtain ⟨hloc, hwin, hmin, hcount⟩ := bestMatch_spec data i ps best loc hfound
    have hle := countOf_le data (min (data.length - i) 258) loc i
    split
    · exact .lit
    · exact .copy (hps loc hloc) ⟨hwin, hmin, by omega, by omega⟩ fun k hk =>
        countOf_equal data _ loc i k (hcount ▸ hk)

theorem lzDecision_sound (f : HashFunction) (q : Nat) {data : List Byte} {ht : HashTable} {i : Nat}
    (hps : ∀ p ∈ ht.get (bucketAt f data i), p < i) :
    Sound data i (lzDecision f q data ht i).1.1 (lzDecision f q data ht i).1.2 := by
  unfold lzDecision
  split
  · exact .lit
  · exact searchDecision_sound f _ hps

/-- A sound token is one the matcher may choose. -/
theorem Sound.inRange {data : List Byte} {i z : Nat} {tok : Token} (h : Sound data i tok z) (hi : i < data.length) :
    tok.legal ∧ i < z ∧ z ≤ data.length := by
  cases h with
  | lit => exact chosen_inRange (ps := []) (.lit _) nofun hi
  | @copy best loc before range _ =>
    exact chosen_inRange (.copy (List.mem_singleton_self loc) range) (by simpa using before) hi

/-! `LZSTEP`, R236. -/

theorem lzReady_iff (s : State) : lzReady s = true ↔ s.zph = .run ∧ s.token = none ∧ s.zi.toNat < s.zlen.toNat := by
  simp [lzReady, State.tokv, and_assoc]

theorem inputIs_length {s : State} {data : List Byte} (h : s.inputIs data = true) : data.length = s.zlen.toNat :=
  of_decide_eq_true ((Bool.and_eq_true _ _).mp h).1

/-- Outside the tail every byte the search reads is in the input, so it takes the decision and writes nothing else. -/
theorem searchStep_spec {s : State} {data : List Byte} {i : Nat} (hin : s.inputIs data = true) (hi : i + 3 < data.length)
    (hps : ∀ g, ∀ p ∈ s.ht.get g, p < i) :
    searchStep i data.length s = .ok () (decided s
      (searchDecision s.hash3 data i (s.ht.get (bucketAt s.hash3 data i)) (insertedTable s.hash3 s.zq.toNat data s.ht i),
        insertedTable s.hash3 s.zq.toNat data s.ht i)) := by
  have hsearch : searchMatch i data.length (s.ht.get (bucketAt s.hash3 data i)) Config.minMatch none s =
      .ok (bestMatch data i (s.ht.get (bucketAt s.hash3 data i))) s := searchMatch_spec hin (by omega) _ _ _ (hps _)
  have hinsert : insertBody (bucketAt s.hash3 data i) i s =
      .ok () { s with ht := insertedTable s.hash3 s.zq.toNat data s.ht i } := rfl
  have hlater : ∀ g, ∀ p ∈ (insertedTable s.hash3 s.zq.toNat data s.ht i).get g, p < i + 1 := by
    intro g p hp
    rw [insertedTable, get_put] at hp
    split at hp
    · rcases mem_insertPosition hp with hp | rfl
      · exact (hps _ p hp).trans (Nat.lt_succ_self i)
      · exact Nat.lt_succ_self _
    · exact (hps _ p hp).trans (Nat.lt_succ_self i)
  rw [searchStep, bind_ok (dataAt_spec hin (by omega)), bind_ok (dataAt_spec hin (by omega)),
    bind_ok (dataAt_spec hin (by omega)), get_bind]
  refine (bind_ok hsearch).trans ((bind_ok hinsert).trans ?_)
  rw [searchDecision]
  generalize insertedTable s.hash3 s.zq.toNat data s.ht i = ht at hlater ⊢
  rcases bestMatch data i (s.ht.get (bucketAt s.hash3 data i)) with ⟨best, _ | loc⟩
  · rfl
  · have hin' : State.inputIs { s with ht := ht } data = true := hin
    have hbeaten := lazyBeaten_spec hin' (i := i) (by omega) best (ht.get (bucketAt s.hash3 data (i + 1))) (hlater _)
    refine (bind_ok (dataAt_spec hin' hi)).trans ((bind_ok hbeaten).trans ?_)
    dsimp only
    cases longerNext data i best (ht.get (bucketAt s.hash3 data (i + 1))) <;> rfl

/-- `LZSTEP` on a readable input that it may step through takes the decision of R236. -/
theorem lzstepBody_spec {s : State} {data : List Byte} (hp : s.phase ≠ .failed) (hready : lzReady s = true)
    (hin : s.inputIs data = true) (hs : MatcherInv s) : lzstepBody s = .ok () (decided s (stateDecision s data)) := by
  obtain ⟨-, -, hlt⟩ := (lzReady_iff s).mp hready
  obtain ⟨-, -, htable, -⟩ := hs
  have hlen := inputIs_length hin
  rw [lzstepBody, requireLive_bind hp, get_bind, require_bind, if_pos hready, ← hlen, stateDecision, lzDecision]
  split <;> rename_i htail
  · rw [bind_ok (dataAt_spec hin (by omega))]
    rfl
  · exact searchStep_spec hin (by omega) fun g p hp => ((htable g).2 p hp).1

/-- Settles O50: every byte read is in the input, and the model's two searches are the ones the pseudocode writes out. -/
theorem lzstepDecides : Obligations.LzstepDecides := by
  intro s data hp hrun htok hlt hin hs
  rw [lzStepped_eq]
  exact command_ok hp (lzstepBody_spec hp ((lzReady_iff s).mpr ⟨hrun, htok, hlt⟩) hin (hs hp hrun))

/-- The numbers of a sound match, read back from the token's fields (R36, R239). -/
theorem Sound.copy_fields {data : List Byte} {i z : Nat} {len : BitVec 9} {dist : BitVec 15}
    (h : Sound data i (.copy len dist) z) :
    (3 ≤ len.toNat ∧ len.toNat ≤ 258) ∧ (1 ≤ dist.toNat ∧ dist.toNat ≤ 32767 ∧ dist.toNat ≤ i) ∧ z = i + len.toNat ∧
      ∀ k, k < len.toNat → data.getD (i + k) 0 = data.getD (i + k - dist.toNat) 0 := by
  cases h with
  | @copy best loc before range equal =>
    obtain ⟨hwin, hmin, hmax, -⟩ := range
    have hlen : (BitVec.ofNat 9 best).toNat = best := by rw [BitVec.toNat_ofNat]; omega
    have hdist : (BitVec.ofNat 15 (i - loc)).toNat = i - loc := by rw [BitVec.toNat_ofNat]; omega
    rw [hlen, hdist]
    refine ⟨⟨hmin, hmax⟩, by omega, rfl, fun k hk => ?_⟩
    rw [← equal k hk]
    congr 1
    omega

/-- A command that leaves the engine outside `FAILED` ran its body to a good end. -/
theorem exec_ok {i : Instr} {s t : State} (hi : answersInFailed i = false) (h : exec i s = .next t) (hs : s.phase ≠ .failed)
    (ht : t.phase ≠ .failed) : ∃ u, bodyOf i s = .ok () u ∧ t = u.respond 0 := by
  rcases exec_cases hi h with ⟨hfailed, -⟩ | ⟨-, u, hbody, -, hu⟩ | ⟨-, c, u, -, rfl⟩
  · exact absurd hfailed hs
  · exact ⟨u, hbody, hu⟩
  · exact absurd rfl ht

/-- Settles O51: an `LZSTEP` that ends well has taken the decision of R236, and a decision is sound. -/
theorem lzstepTokenSound : Obligations.LzstepTokenSound := by
  intro s t data hs hin hp hexec ht
  obtain ⟨u, hbody, rfl⟩ := exec_ok rfl hexec hp ht
  obtain ⟨hready, -⟩ := lzstepBody_ok hbody
  obtain ⟨hrun, -, hlt⟩ := (lzReady_iff s).mp hready
  obtain ⟨-, -, htable, -⟩ := hs hp hrun
  cases (lzstepBody_spec hp hready hin (hs hp hrun)).symm.trans hbody
  have hlen := inputIs_length hin
  have hsound : Sound data s.zi.toNat (stateDecision s data).1.1 (stateDecision s data).1.2 :=
    lzDecision_sound s.hash3 s.zq.toNat fun p hp => ((htable _).2 p hp).1
  generalize stateDecision s data = d at hsound ⊢
  obtain ⟨⟨tok, z⟩, ht'⟩ := d
  obtain ⟨-, -, hle⟩ := hsound.inRange (hlen ▸ hlt)
  have hzi : (BitVec.ofNat 32 z).toNat = z := toNat_ofNat_le (hlen ▸ hle)
  refine ⟨fun b hb => ?_, fun len dist hcopy => ?_⟩
  · cases hb
    cases hsound
    exact ⟨rfl, hzi⟩
  · cases hcopy
    obtain ⟨⟨hmin, hmax⟩, ⟨hpos, hdist, hfrom⟩, rfl, hequal⟩ := hsound.copy_fields
    exact ⟨hmin, hmax, hpos, hdist, hfrom, hzi, hzi.trans_le (hlen ▸ hle), hequal⟩

end Sys2Proof.Proofs

/-! The compressor, 46_zlib_deflate.md. Part 3: what the bit output appends (R244), and `ZBEGIN`, `ZEMIT` and `ZEND` from it. Every
capacity of ZBUF is covered: a body does what is said of it, or overflows. -/

namespace Sys2Proof.Proofs

open Sys2Proof Sys2Proof.Machine Sys2Proof.Laws

variable {α β : Type}

/-! Bodies that can only fail by the capacity of ZBUF. -/

/-- From `s` the body ends well, as `Q` says and with the capacities as they were, or it overflows the capacity of ZBUF. -/
def Yields (b : Body α) (s : State) (Q : α → State → Prop) : Prop :=
  (∃ a t, b s = .ok a t ∧ t.caps = s.caps ∧ Q a t) ∨ (s.caps.zbuf ≠ none ∧ ∃ t, b s = .error .outOverflow t)

theorem yields_of_ok {b : Body α} {s t : State} {a : α} {Q : α → State → Prop} (h : b s = .ok a t) (hcaps : t.caps = s.caps)
    (hQ : Q a t) : Yields b s Q := .inl ⟨a, t, h, hcaps, hQ⟩

theorem yields_bind {x : Body α} {f : α → Body β} {s : State} {P : α → State → Prop} {Q : β → State → Prop}
    (hx : Yields x s P) (hf : ∀ a t, P a t → Yields (f a) t Q) : Yields (x >>= f) s Q := by
  rcases hx with ⟨a, t, h, hcaps, hP⟩ | ⟨hcap, t, h⟩
  · rcases hf a t hP with ⟨b, u, hu, hcapu, hQ⟩ | ⟨hcap, u, hu⟩
    · exact .inl ⟨b, u, (bind_ok h).trans hu, hcapu.trans hcaps, hQ⟩
    · exact .inr ⟨hcaps ▸ hcap, u, (bind_ok h).trans hu⟩
  · exact .inr ⟨hcap, t, bind_error h⟩

/-- Reading the state first: the rest may use what it read. -/
theorem yields_get_bind {f : State → Body β} {s : State} {Q : β → State → Prop} (h : Yields (f s) s Q) :
    Yields ((get : Body State) >>= f) s Q := h

theorem yields_modify_bind {g : State → State} {f : Unit → Body β} {s : State} {Q : β → State → Prop}
    (hcaps : (g s).caps = s.caps) (h : Yields (f ()) (g s) Q) : Yields ((modify g : Body Unit) >>= f) s Q := by
  unfold Yields at h ⊢
  rw [modify_bind, ← hcaps]
  exact h

theorem Yields.imp {b : Body α} {s : State} {P Q : α → State → Prop} (h : Yields b s P) (hPQ : ∀ a t, P a t → Q a t) :
    Yields b s Q := h.imp_left fun ⟨a, t, hb, hcaps, hP⟩ => ⟨a, t, hb, hcaps, hPQ a t hP⟩

/-- Without a capacity the body ends well. -/
theorem Yields.unlimited {b : Body α} {s : State} {Q : α → State → Prop} (h : Yields b s Q) (hc : s.caps.zbuf = none) :
    ∃ a t, b s = .ok a t ∧ Q a t := by
  rcases h with ⟨a, t, hb, -, hQ⟩ | ⟨hcap, -⟩
  · exact ⟨a, t, hb, hQ⟩
  · exact absurd hc hcap

/-- If the body ended well, it did what is said of it. -/
theorem Yields.of_ok {b : Body α} {s t : State} {a : α} {Q : α → State → Prop} (h : Yields b s Q) (hb : b s = .ok a t) :
    Q a t := by
  rcases h with ⟨a', t', hb', -, hQ⟩ | ⟨-, t', hb'⟩
  · cases hb'.symm.trans hb
    exact hQ
  · cases hb'.symm.trans hb

/-! The fields the bit output writes, and appends to ZBUF. -/

@[simp] theorem withBits_zbuf (s : State) (zbuf : List Byte) (zacc zaccn : Nat) : (withBits s zbuf zacc zaccn).zbuf = zbuf := rfl

@[simp] theorem withBits_zacc (s : State) (zbuf : List Byte) (zacc zaccn : Nat) : (withBits s zbuf zacc zaccn).zacc = zacc := rfl

@[simp] theorem withBits_zaccn (s : State) (zbuf : List Byte) (zacc zaccn : Nat) : (withBits s zbuf zacc zaccn).zaccn = zaccn :=
  rfl

@[simp] theorem withBits_withBits (s : State) (zbuf zbuf' : List Byte) (zacc zacc' zaccn zaccn' : Nat) :
    withBits (withBits s zbuf zacc zaccn) zbuf' zacc' zaccn' = withBits s zbuf' zacc' zaccn' := rfl

theorem yields_appendZbuf (b : Byte) (s : State) :
    Yields (appendZbuf b) s fun _ t => t = withBits s (s.zbuf ++ [b]) s.zacc s.zaccn := by
  unfold Yields appendZbuf
  cases hfit : fits s.caps.zbuf (s.zbuf.length + 1) with
  | true => exact .inl ⟨(), _, rfl, rfl, rfl⟩
  | false => exact .inr ⟨fun hc => by simp [fits, hc] at hfit, s, rfl⟩

theorem yields_forM_appendZbuf (bs : List Byte) (s : State) :
    Yields (bs.forM appendZbuf) s fun _ t => t = withBits s (s.zbuf ++ bs) s.zacc s.zaccn := by
  induction bs generalizing s with
  | nil => exact yields_of_ok rfl rfl (by rw [List.append_nil]; rfl)
  | cons b bs ih =>
    refine yields_bind (yields_appendZbuf b s) fun _ t ht => (ih t).imp fun _ u hu => ?_
    simp [hu, ht]

/-! `ZBits`, R244. -/

/-- The state with no capacity on ZBUF. -/
def uncapped (s : State) : State := { s with caps := { s.caps with zbuf := none } }

/-- A byte that leaves the accumulator under a capacity leaves as it would without one. -/
theorem yields_drainByte (s : State) :
    Yields drainByte s fun _ t => drainByte (uncapped s) = .ok () (uncapped t) := by
  have hfree : appendZbuf (BitVec.ofNat 8 s.zacc) (uncapped s) =
      .ok () (uncapped (withBits s (s.zbuf ++ [BitVec.ofNat 8 s.zacc]) s.zacc s.zaccn)) := appendZbuf_unlimited _ rfl
  refine yields_get_bind (yields_bind (yields_appendZbuf (BitVec.ofNat 8 s.zacc) s) fun _ t ht => ?_)
  subst ht
  exact yields_of_ok rfl rfl ((get_bind _ _).trans (bind_ok hfree))

theorem yields_drainBytes (k : Nat) (s : State) :
    Yields (repeatBody k drainByte) s fun _ t => repeatBody k drainByte (uncapped s) = .ok () (uncapped t) := by
  induction k generalizing s with
  | zero => exact yields_of_ok rfl rfl rfl
  | succ k ih => exact yields_bind (yields_drainByte s) fun _ t ht => (ih t).imp fun _ u hu => (bind_ok ht).trans hu

/-- `t` is `s` with `bits` appended to its stream, the pending ones in range again; nothing else differs. -/
def Appended (s : State) (bits : List Bool) (t : State) : Prop :=
  ∃ zbuf zacc zaccn, t = withBits s zbuf zacc zaccn ∧ StreamPending t ∧ t.streamBits = s.streamBits ++ bits

theorem Appended.trans {s t u : State} {x y : List Bool} (h : Appended s x t) (h' : Appended t y u) : Appended s (x ++ y) u := by
  obtain ⟨_, _, _, rfl, -, hx⟩ := h
  obtain ⟨zbuf, zacc, zaccn, rfl, hpend, hy⟩ := h'
  exact ⟨zbuf, zacc, zaccn, rfl, hpend, by rw [hy, hx, List.append_assoc]⟩

theorem Appended.pending {s t : State} {bits : List Bool} (h : Appended s bits t) : StreamPending t := by
  obtain ⟨_, _, _, -, hpend, -⟩ := h
  exact hpend

/-- The body appends `bits` to the stream. -/
def Emits (b : Body Unit) (bits : List Bool) : Prop := ∀ s, StreamPending s → Yields b s fun _ => Appended s bits

theorem emits_pure : Emits (pure ()) [] := fun s hs =>
  yields_of_ok rfl rfl ⟨s.zbuf, s.zacc, s.zaccn, rfl, hs, (List.append_nil _).symm⟩

theorem emits_bind {b c : Body Unit} {x y : List Bool} (hb : Emits b x) (hc : Emits c y) : Emits (b >>= fun _ => c) (x ++ y) :=
  fun s hs => yields_bind (hb s hs) fun _ t ht => (hc t ht.pending).imp fun _ _ hu => ht.trans hu

theorem emits_require_bind {ok : Bool} {c : FaultCode} {b : Body Unit} {x : List Bool} (hok : ok = true) (hb : Emits b x) :
    Emits (require ok c >>= fun _ => b) x := by
  subst hok
  exact hb

/-- `ZBits(v, n)` appends the `n` low bits of `v`, bit 0 first. -/
theorem emits_zBits {v n : Nat} (hv : v < 2 ^ n) : Emits (zBits v n) (lsbBits n v) := by
  intro s hs
  have hrun : Yields (zBits v n) s fun _ t => zBits v n (uncapped s) = .ok () (uncapped t) :=
    yields_drainBytes ((s.zaccn + n) / 8) { s with zacc := s.zacc ||| (v <<< s.zaccn), zaccn := s.zaccn + n }
  obtain ⟨t', ht', heq, hbits, hacc⟩ := zBits_spec (s := uncapped s) rfl hs.2 hv
  rcases hrun with ⟨_, t, ht, hcaps, hlift⟩ | hover
  · cases ht'.symm.trans hlift
    have hsame : t = { t with caps := s.caps } := by rw [← hcaps]
    have hwith : t = withBits s t.zbuf t.zacc ((s.zaccn + n) % 8) :=
      hsame.trans (congrArg (fun u : State => { u with caps := s.caps }) heq)
    have hn : t.zaccn = (s.zaccn + n) % 8 := congrArg State.zaccn hwith
    exact yields_of_ok ht hcaps ⟨t.zbuf, t.zacc, _, hwith, ⟨by omega, hn ▸ hacc⟩, hbits⟩
  · exact .inr hover

/-! Codes and tokens, R241 to R243. -/

/-- `ZHuff(sym)` appends the code of the symbol, most significant bit first. -/
theorem emits_zHuff (sym : Nat) : Emits (zHuff sym) (symbolBits sym) := by
  have h := emits_zBits (bitRev_lt (fixedCode sym).2 (fixedCode sym).1)
  rwa [lsbBits_bitRev] at h

theorem emits_zExtra {v n : Nat} (hv : v < 2 ^ n) : Emits (zExtra v n) (lsbBits n v) := by
  unfold zExtra
  split
  · exact emits_zBits hv
  · obtain rfl : n = 0 := by omega
    exact emits_pure

theorem emits_emitToken {tok : Token} (h : tok.legal) : Emits (emitToken tok) (tokenBits tok) := by
  cases tok with
  | lit b => exact emits_zHuff _
  | copy len dist =>
    obtain ⟨-, hlen, -⟩ := h
    have hdist : dist.toNat ≤ 32767 := Nat.le_of_lt_succ dist.isLt
    have hcheck : (decide (dist.toNat ≤ Config.maxDist) && decide (len.toNat ≤ Config.maxMatch)) = true := by
      simp [Config.maxDist, Config.maxMatch, hlen, hdist]
    have hcode := emits_zBits (bitRev_lt 5 (largestIndex distBase dist.toNat))
    rw [lsbBits_bitRev] at hcode
    have hpair := emits_bind (emits_zHuff (257 + largestIndex lenBase len.toNat))
      (emits_bind (emits_zExtra (length_offset_lt hlen)) (emits_bind hcode (emits_zExtra (distance_offset_lt hdist))))
    refine emits_require_bind hcheck ?_
    simpa only [tokenBits, List.append_assoc] using hpair

/-! `ZBEGIN`, R232. -/

/-- Bits that fill no byte go to the accumulator only. -/
theorem zBits_pending {s : State} {z m v n : Nat} (ha : s.zacc = z) (hn : s.zaccn = m) (h : m + n < 8) :
    zBits v n s = .ok () (withBits s s.zbuf (z ||| v <<< m) (m + n)) := by
  subst ha hn
  simp only [zBits, modify_bind, get_bind, Nat.div_eq_of_lt h]
  rfl

/-- The three bits of the block header, 1, 1, 0, on an empty accumulator. -/
theorem blockHeader_bits {s : State} (ha : s.zacc = 0) (hn : s.zaccn = 0) (f : Unit → Body β) :
    (zBits 1 1 >>= fun _ => zBits 1 2 >>= f) s = f () (withBits s s.zbuf 3 3) := by
  have hlast : zBits 1 1 s = .ok () (withBits s s.zbuf 1 1) := zBits_pending ha hn (by decide)
  have htype : zBits 1 2 (withBits s s.zbuf 1 1) = .ok () (withBits s s.zbuf 3 3) :=
    zBits_pending (z := 1) (m := 1) (v := 1) (n := 2) rfl rfl (by decide)
  rw [bind_ok hlast, bind_ok htype]

/-- The state after `ZBEGIN a`: a stream that starts, with the zlib header and three bits of the block header. -/
def streamBegun (s : State) (a : ZSel) : State :=
  { s with zsrc := a, zlen := inputLength s a, zq := effectiveQuality s.quality, ht := [], zi := 0, token := none,
           zbuf := [0x78, 0x5E], zacc := 3, zaccn := 3, zph := .run }

theorem zbeginBody_yields {s : State} (a : ZSel) (hp : s.phase ≠ .failed) :
    Yields (zbeginBody a) s fun _ t => t = streamBegun s a := by
  unfold Yields
  rw [zbeginBody, requireLive_bind hp]
  refine yields_modify_bind rfl <| yields_bind (yields_appendZbuf 0x78 (s.startStream a)) fun _ t ht =>
    yields_bind (yields_appendZbuf 0x5E t) fun _ u hu => ?_
  have hheader : u = withBits (s.startStream a) [0x78, 0x5E] 0 0 := by simp [hu, ht]
  subst hheader
  exact yields_of_ok (blockHeader_bits rfl rfl _) rfl (by simp [streamBegun, withBits, State.startStream])

/-- Settles O49: without a capacity the header goes in whole, and the three bits wait in the accumulator. -/
theorem zbeginStarts : Obligations.ZbeginStarts := by
  intro s a hp hc
  obtain ⟨_, t, hbody, rfl⟩ := (zbeginBody_yields a hp).unlimited hc
  cases a <;> exact command_ok hp hbody

/-! `ZEMIT`, R241. -/

/-- `ZEMIT` appends the bits of the token that waits and clears it. -/
theorem zemitBody_yields {s : State} {tok : Token} (hp : s.phase ≠ .failed) (hrun : s.zph = .run) (htok : s.token = some tok)
    (hlegal : tok.legal) (hs : StreamPending s) :
    Yields zemitBody s fun _ t => ∃ u, Appended s (tokenBits tok) u ∧ t = { u with token := none } := by
  have hwaits : requireToken s = .ok tok s := by simp [requireToken, hrun, htok]
  unfold Yields
  rw [zemitBody, requireLive_bind hp, bind_ok hwaits]
  exact yields_bind (emits_emitToken hlegal s hs) fun _ u hu => yields_of_ok rfl rfl ⟨u, hu, rfl⟩

theorem streamPending_of_accumulatorInv {s : State} (hp : s.phase ≠ .failed) (h : AccumulatorInv s) : StreamPending s :=
  ((accumulatorInv_iff s).mp h hp).2

/-- Settles O52: a legal token passes the check, and each part of its code is one output of bits. -/
theorem zemitAppends : Obligations.ZemitAppends := by
  intro s tok hp hrun htok hlegal hacc hc
  obtain ⟨_, t, hbody, u, ⟨zbuf, zacc, zaccn, rfl, ⟨hn, ha⟩, hbits⟩, rfl⟩ :=
    (zemitBody_yields hp hrun htok hlegal (streamPending_of_accumulatorInv hp hacc)).unlimited hc
  exact ⟨zbuf, zacc, zaccn, command_ok hp hbody, hn, ha, hbits⟩

/-! `ZEND`, R245. -/

/-- The bits of bytes in the stream, least significant first (R69). -/
def byteBits (bs : List Byte) : List Bool := bs.flatMap fun b => lsbBits 8 b.toNat

theorem byteBits_length (bs : List Byte) : (byteBits bs).length = 8 * bs.length := by
  simp [byteBits, List.length_flatMap, Nat.mul_comm]

theorem streamBits_eq (s : State) : s.streamBits = byteBits s.zbuf ++ lsbBits s.zaccn s.zacc := rfl

theorem streamBits_length (s : State) : s.streamBits.length = 8 * s.zbuf.length + s.zaccn := by
  rw [streamBits_eq, List.length_append, byteBits_length, lsbBits_length]

theorem lsbBits_zero (n : Nat) : lsbBits n 0 = List.replicate n false := by simp [lsbBits]

/-- Padding fills the last byte with zeros, and nothing is left pending. -/
theorem padZbits_yields {s : State} (hs : StreamPending s) :
    Yields padZbits s fun _ t => ∃ zbuf pad, t = withBits s zbuf 0 0 ∧ pad < 8 ∧
      byteBits zbuf = s.streamBits ++ List.replicate pad false := by
  refine yields_get_bind ?_
  obtain ⟨hn, ha⟩ := hs
  by_cases hpos : 0 < s.zaccn
  · rw [if_pos hpos]
    refine (emits_zBits (Nat.two_pow_pos (8 - s.zaccn)) s ⟨hn, ha⟩).imp ?_
    rintro _ t ⟨zbuf, zacc, zaccn, rfl, ⟨hle, hlt⟩, hbits⟩
    change zaccn ≤ 7 at hle
    change zacc < 2 ^ zaccn at hlt
    have hlen := congrArg List.length hbits
    rw [List.length_append, streamBits_length, streamBits_length, lsbBits_length] at hlen
    change 8 * zbuf.length + zaccn = _ at hlen
    obtain rfl : zaccn = 0 := by omega
    obtain rfl : zacc = 0 := by omega
    refine ⟨zbuf, 8 - s.zaccn, rfl, by omega, ?_⟩
    rw [← lsbBits_zero, ← hbits]
    exact (List.append_nil _).symm
  · rw [if_neg hpos]
    have hzn : s.zaccn = 0 := by omega
    have hza : s.zacc = 0 := by rw [hzn] at ha; omega
    refine yields_of_ok rfl rfl ⟨s.zbuf, 0, congrArg₂ (withBits s s.zbuf) hza hzn, by omega, ?_⟩
    rw [streamBits_eq, hzn]
    simp [lsbBits]

theorem readSelected_inputIs {s : State} {data : List Byte} (h : s.inputIs data = true) :
    readSelected s.zsrc s.zlen.toNat s = .ok data s := by
  rw [← inputIs_length h]
  simp only [State.inputIs, Bool.and_eq_true, decide_eq_true_eq] at h
  obtain ⟨-, hread⟩ := h
  cases hz : s.zsrc with
  | fbuf =>
    simp only [hz, Bool.and_eq_true, decide_eq_true_eq] at hread
    obtain ⟨hle, htake⟩ := hread
    rw [readSelected, get_bind, require_bind, if_pos (decide_eq_true hle), htake]
    rfl
  | src =>
    simp only [hz, List.all_eq_true, List.mem_range, decide_eq_true_eq] at hread
    exact readRange_mapped data 0 fun k hk => by rw [Nat.zero_add]; exact hread k hk

/-- The code of the end of a block (R111). -/
theorem symbolBits_endOfBlock : symbolBits 256 = List.replicate 7 false := by decide

/-- The state after `ZEND`, where `zbuf` is the stream with its last byte full. -/
def streamEnded (s : State) (data zbuf : List Byte) : State :=
  { s with zbuf := zbuf ++ bigEndian (adler32 data), zacc := 0, zaccn := 0, adlreg := adler32 data, zph := .done }

theorem zendBody_yields {s : State} {data : List Byte} (hp : s.phase ≠ .failed) (hready : zendReady s = true)
    (hin : s.inputIs data = true) (hs : StreamPending s) :
    Yields zendBody s fun _ t => ∃ zbuf pad, t = streamEnded s data zbuf ∧ pad < 8 ∧
      byteBits zbuf = s.streamBits ++ List.replicate (7 + pad) false := by
  unfold Yields
  rw [zendBody, requireLive_bind hp, get_bind, require_bind, if_pos hready]
  refine yields_bind (emits_zHuff 256 s hs) ?_
  rintro _ _ ⟨zbuf, zacc, zaccn, rfl, hpend, hbits⟩
  refine yields_bind (padZbits_yields hpend) ?_
  rintro _ _ ⟨zbuf', pad, rfl, hpad, hbits'⟩
  have hread : readSelected s.zsrc s.zlen.toNat (withBits s zbuf' 0 0) = .ok data (withBits s zbuf' 0 0) :=
    readSelected_inputIs (s := withBits s zbuf' 0 0) hin
  refine yields_bind (yields_of_ok hread rfl (Q := fun d t => d = data ∧ t = withBits s zbuf' 0 0) ⟨rfl, rfl⟩) ?_
  rintro _ _ ⟨rfl, rfl⟩
  refine yields_modify_bind rfl (yields_bind (yields_forM_appendZbuf _ _) ?_)
  rintro _ _ rfl
  refine yields_of_ok rfl rfl ⟨zbuf', pad, rfl, hpad, ?_⟩
  rw [hbits', hbits, symbolBits_endOfBlock, List.append_assoc, List.replicate_append_replicate]

/-- Settles O53: the end of block and the padding are zero bits, and the checksum follows whole bytes. -/
theorem zendFinishes : Obligations.ZendFinishes := by
  intro s data hp hrun htok hend hin hacc hc
  have hready : zendReady s = true := by simp [zendReady, State.tokv, hrun, htok, hend]
  obtain ⟨_, t, hbody, zbuf, pad, rfl, hpad, hbits⟩ :=
    (zendBody_yields hp hready hin (streamPending_of_accumulatorInv hp hacc)).unlimited hc
  exact ⟨zbuf, pad, command_ok hp hbody, hpad, hbits⟩

end Sys2Proof.Proofs

/-! The compressor, 46_zlib_deflate.md. Part 4: `ZCOMP` (R248, R249), and its stream as a function of the input, the quality and the
hash (R250). -/

namespace Sys2Proof.Proofs

open Sys2Proof Sys2Proof.Machine Sys2Proof.Laws

/-! The stream as a function. -/

/-- The tokens of the decisions from position `i` on, at most `n` of them (R236, R248). -/
def tokensFrom (f : HashFunction) (q : Nat) (data : List Byte) : Nat → HashTable → Nat → List Token
  | 0, _, _ => []
  | n + 1, ht, i =>
    if i < data.length then
      (lzDecision f q data ht i).1.1 ::
        tokensFrom f q data n (lzDecision f q data ht i).2 (lzDecision f q data ht i).1.2
    else []

/-- The bits of a stream before its end: the two header bytes, the block header and the tokens (R232, R241, R248). -/
def compressedBits (f : HashFunction) (quality : Word) (data : List Byte) : List Bool :=
  byteBits [0x78, 0x5E] ++ lsbBits 3 3 ++
    (tokensFrom f (effectiveQuality quality).toNat data data.length [] 0).flatMap tokenBits

/-! The loop, R248. -/

/-- A stream between two rounds of the loop: it runs over the input, the matcher and the accumulator are in range, and no token
waits. -/
structure Compressing (s : State) (data : List Byte) : Prop where
  live : s.phase ≠ .failed
  run : s.zph = .run
  free : s.token = none
  input : s.inputIs data = true
  matcher : MatcherInv s
  pending : StreamPending s

/-- A state further on in the input: the bits, the table and the position written, no token waiting. -/
def advanced (s : State) (zbuf : List Byte) (zacc zaccn : Nat) (ht : HashTable) (zi : Word) : State :=
  { s with zbuf := zbuf, zacc := zacc, zaccn := zaccn, ht := ht, zi := zi, token := none }

@[simp] theorem streamBegun_phase (s : State) (a : ZSel) : (streamBegun s a).phase = s.phase := rfl

@[simp] theorem advanced_phase (s : State) (zbuf : List Byte) (zacc zaccn : Nat) (ht : HashTable) (zi : Word) :
    (advanced s zbuf zacc zaccn ht zi).phase = s.phase := rfl

/-- `t` is `s` further on in the input: `bits` appended, the table and the position written, no token waiting. -/
def CompressedTo (s : State) (bits : List Bool) (zi : Word) (t : State) : Prop :=
  ∃ zbuf zacc zaccn ht, t = advanced s zbuf zacc zaccn ht zi ∧ StreamPending t ∧
    t.streamBits = s.streamBits ++ bits

theorem CompressedTo.trans {s t u : State} {x y : List Bool} {z w : Word} (h : CompressedTo s x z t)
    (h' : CompressedTo t y w u) : CompressedTo s (x ++ y) w u := by
  obtain ⟨_, _, _, _, rfl, -, hx⟩ := h
  obtain ⟨zbuf, zacc, zaccn, ht, rfl, hpend, hy⟩ := h'
  exact ⟨zbuf, zacc, zaccn, ht, rfl, hpend, by rw [hy, hx, List.append_assoc]⟩

theorem CompressedTo.sameRegisters {s t : State} {bits : List Bool} {zi : Word} (h : CompressedTo s bits zi t) :
    t.hash3 = s.hash3 ∧ t.zq = s.zq ∧ t.zlen = s.zlen := by
  obtain ⟨_, _, _, _, rfl, -⟩ := h
  exact ⟨rfl, rfl, rfl⟩

/-- At the end of the input nothing is left to append. -/
theorem Compressing.atEnd {s : State} {data : List Byte} (h : Compressing s data) (hend : s.zi = s.zlen) :
    CompressedTo s [] s.zlen s :=
  ⟨s.zbuf, s.zacc, s.zaccn, s.ht, by rw [← hend, advanced, ← h.free], h.pending, (List.append_nil _).symm⟩

theorem Compressing.zi_le {s : State} {data : List Byte} (h : Compressing s data) : s.zi.toNat ≤ data.length := by
  obtain ⟨hle, -⟩ := h.matcher
  exact hle.trans_eq (inputIs_length h.input).symm

theorem Compressing.eq_zlen {s : State} {data : List Byte} (h : Compressing s data) (hend : ¬ s.zi.toNat < data.length) :
    s.zi = s.zlen := by
  have hle := h.zi_le
  have hlen := inputIs_length h.input
  exact BitVec.eq_of_toNat_eq (by omega)

/-- One round: a decision of R236 is taken and its token goes out, and the position advances (R324). -/
theorem compressRound_yields {s : State} {data : List Byte} (h : Compressing s data) (hlt : s.zi.toNat < data.length) :
    Yields (lzstepBody >>= fun _ => zemitBody) s fun _ t => Compressing t data ∧
      CompressedTo s (tokenBits (stateDecision s data).1.1) (BitVec.ofNat 32 (stateDecision s data).1.2) t ∧
      t.ht = (stateDecision s data).2 ∧ t.zi.toNat = (stateDecision s data).1.2 ∧ s.zi.toNat < t.zi.toNat := by
  have hlen := inputIs_length h.input
  have hready : lzReady s = true := (lzReady_iff s).mpr ⟨h.run, h.free, hlen ▸ hlt⟩
  have hstep := lzstepBody_spec h.live hready h.input h.matcher
  obtain ⟨hzi, hq, htable, hlegal⟩ := lzstepBody_matcherInv hstep fun _ => h.matcher
  obtain ⟨-, -, hbefore, -⟩ := h.matcher
  have hsound : Sound data s.zi.toNat (stateDecision s data).1.1 (stateDecision s data).1.2 :=
    lzDecision_sound s.hash3 s.zq.toNat fun p hp => ((hbefore _).2 p hp).1
  obtain ⟨-, hafter, hwithin⟩ := hsound.inRange hlt
  refine yields_bind (yields_of_ok hstep rfl (Q := fun _ t => t = decided s (stateDecision s data)) rfl) ?_
  rintro _ _ rfl
  have hz : (BitVec.ofNat 32 (stateDecision s data).1.2).toNat = (stateDecision s data).1.2 := toNat_ofNat_le (hlen ▸ hwithin)
  generalize stateDecision s data = d at *
  refine (zemitBody_yields (s := decided s d) h.live h.run rfl (hlegal _ rfl) h.pending).imp ?_
  rintro _ _ ⟨_, ⟨zbuf, zacc, zaccn, rfl, hpend, hbits⟩, rfl⟩
  exact ⟨⟨h.live, h.run, rfl, h.input, ⟨hzi, hq, htable, nofun⟩, hpend⟩,
    ⟨zbuf, zacc, zaccn, d.2, rfl, hpend, hbits⟩, rfl, hz, hafter.trans_eq hz.symm⟩

/-- The loop appends the tokens of all that is left of the input, when it may go round as often as bytes are left. -/
theorem compressLoop_yields {data : List Byte} (n : Nat) {s : State} (h : Compressing s data)
    (hn : data.length ≤ s.zi.toNat + n) :
    Yields (compressLoop n) s fun _ =>
      CompressedTo s ((tokensFrom s.hash3 s.zq.toNat data n s.ht s.zi.toNat).flatMap tokenBits) s.zlen := by
  have hlen := inputIs_length h.input
  induction n generalizing s with
  | zero => exact yields_of_ok rfl rfl (h.atEnd (h.eq_zlen (by omega)))
  | succ n ih =>
    refine yields_get_bind ?_
    rw [tokensFrom, ← hlen]
    by_cases hlt : s.zi.toNat < data.length
    · rw [if_pos hlt, if_pos hlt, List.flatMap_cons, ← bind_assoc]
      refine yields_bind (compressRound_yields h hlt) ?_
      rintro _ t ⟨hcomp, hto, hht, hzi, hafter⟩
      obtain ⟨hhash, hq, hzlen⟩ := hto.sameRegisters
      have hrest := ih hcomp (by omega) (inputIs_length hcomp.input)
      rw [hht, hzi, hhash, hq, hzlen] at hrest
      exact hrest.imp fun _ u hu => hto.trans hu
    · rw [if_neg hlt, if_neg hlt]
      exact yields_of_ok rfl rfl (h.atEnd (h.eq_zlen hlt))

/-! `ZCOMP`, R248. -/

/-- The length latched for an input of fewer than `2^32` bytes is its length. -/
theorem inputLength_selects {s : State} {a : ZSel} {data : List Byte} (h : s.selects a data = true) (hlt : data.length < 2 ^ 32) :
    inputLength s a = BitVec.ofNat 32 data.length := by
  cases a with
  | fbuf =>
    obtain rfl := of_decide_eq_true h
    exact if_pos hlt
  | src => rw [(selects_src_iff.mp h).1, BitVec.ofNat_toNat]; rfl

/-- The sequence of the selector is the input of the stream that starts. -/
theorem inputIs_streamBegun {s : State} {a : ZSel} {data : List Byte} (h : s.selects a data = true) (hlt : data.length < 2 ^ 32) :
    (streamBegun s a).inputIs data = true := by
  have hlen : data.length = (inputLength s a).toNat := by
    rw [inputLength_selects h hlt, BitVec.toNat_ofNat, Nat.mod_eq_of_lt hlt]
  refine (Bool.and_eq_true _ _).mpr ⟨decide_eq_true hlen, ?_⟩
  cases a with
  | fbuf =>
    obtain rfl := of_decide_eq_true h
    simp [streamBegun]
  | src =>
    obtain ⟨-, hread⟩ := selects_src_iff.mp h
    exact List.all_eq_true.mpr fun j hj => decide_eq_true (hread j (List.mem_range.mp hj))

theorem compressing_streamBegun {s : State} {a : ZSel} {data : List Byte} (hp : s.phase ≠ .failed) (h : s.selects a data = true)
    (hlt : data.length < 2 ^ 32) : Compressing (streamBegun s a) data :=
  ⟨hp, rfl, rfl, inputIs_streamBegun h hlt, matcherInv_startStream s a,
    show 3 ≤ 7 ∧ 3 < 2 ^ 3 by decide⟩

/-- The state after `ZCOMP a`, where `zbuf` is the stream with its last byte full and `ht` the table left. -/
def streamFinished (s : State) (a : ZSel) (data zbuf : List Byte) (ht : HashTable) : State :=
  { s with zsrc := a, zlen := inputLength s a, zq := effectiveQuality s.quality, ht := ht, zi := inputLength s a, token := none,
           zbuf := zbuf ++ bigEndian (adler32 data), zacc := 0, zaccn := 0, adlreg := adler32 data, zph := .done }

/-- `ZCOMP` writes a stream whose bits are those of the header and the tokens, the end of block and the padding. -/
theorem zcompBody_yields {s : State} {a : ZSel} {data : List Byte} (hp : s.phase ≠ .failed) (h : s.selects a data = true)
    (hlt : data.length < 2 ^ 32) : Yields (zcompBody a) s fun _ t => ∃ zbuf ht pad, t = streamFinished s a data zbuf ht ∧
      pad < 8 ∧ byteBits zbuf = compressedBits s.hash3 s.quality data ++ List.replicate (7 + pad) false := by
  have hcomp := compressing_streamBegun hp h hlt
  refine yields_bind (zbeginBody_yields a hp) ?_
  rintro _ _ rfl
  have hzlen : (streamBegun s a).zlen.toNat = data.length := (inputIs_length hcomp.input).symm
  refine yields_get_bind (yields_bind (compressLoop_yields _ hcomp (by rw [hzlen]; exact Nat.le_add_left _ _)) ?_)
  rw [hzlen]
  rintro _ _ ⟨zbuf, zacc, zaccn, ht, rfl, hpend, hbits⟩
  refine (zendBody_yields (s := advanced (streamBegun s a) zbuf zacc zaccn ht _) (by simpa using hp) ?_ hcomp.input hpend).imp ?_
  · simp [zendReady, State.tokv, streamBegun, advanced]
  · rintro _ _ ⟨zbuf', pad, rfl, hpad, hbits'⟩
    exact ⟨zbuf', ht, pad, rfl, hpad, hbits'.trans (congrArg (· ++ _) hbits)⟩

/-! What the bits of a stream say of its bytes. -/

theorem lsbBits_byte_injective {a b : Byte} (h : lsbBits 8 a.toNat = lsbBits 8 b.toNat) : a = b := by
  have hmsb : msbBits 8 a.toNat = msbBits 8 b.toNat := congrArg List.reverse h
  exact BitVec.eq_of_toNat_eq (by rw [← bitsValue_msbBits 8 _ a.isLt, hmsb, bitsValue_msbBits 8 _ b.isLt])

theorem prefix_of_byteBits_prefix {as bs : List Byte} (h : byteBits as <+: byteBits bs) : as <+: bs := by
  induction as generalizing bs with
  | nil => exact List.nil_prefix
  | cons a as ih =>
    cases bs with
    | nil =>
      have hle := h.length_le
      rw [byteBits_length, byteBits_length] at hle
      exact absurd hle (by simp)
    | cons b bs =>
      obtain ⟨rest, hrest⟩ := h
      simp only [byteBits, List.flatMap_cons, List.append_assoc] at hrest
      obtain ⟨hbyte, htail⟩ := List.append_inj hrest (by rw [lsbBits_length, lsbBits_length])
      rw [lsbBits_byte_injective hbyte]
      exact List.cons_prefix_cons.mpr ⟨rfl, ih ⟨rest, htail⟩⟩

theorem byteBits_injective {as bs : List Byte} (h : byteBits as = byteBits bs) : as = bs := by
  have hlen := congrArg List.length h
  rw [byteBits_length, byteBits_length] at hlen
  exact (prefix_of_byteBits_prefix (h ▸ List.prefix_rfl)).eq_of_length (by omega)

/-- Fewer than eight bits of padding make whole bytes in one way only. -/
theorem eq_of_padded {as bs : List Byte} {bits : List Bool} {p q : Nat} (hp : p < 8) (hq : q < 8)
    (ha : byteBits as = bits ++ List.replicate (7 + p) false) (hb : byteBits bs = bits ++ List.replicate (7 + q) false) :
    as = bs := by
  have hla := congrArg List.length ha
  have hlb := congrArg List.length hb
  rw [byteBits_length, List.length_append, List.length_replicate] at hla hlb
  obtain rfl : p = q := by omega
  exact byteBits_injective (ha.trans hb.symm)

/-- Settles O54: every round of the loop is sound and advances, so it reaches the end, and the two header bytes stay in front. -/
theorem zcompCompletes : Obligations.ZcompCompletes := by
  intro s a data hp hc hlt hsel
  obtain ⟨_, t, hbody, zbuf, ht, pad, rfl, -, hbits⟩ := (zcompBody_yields hp hsel hlt).unlimited hc
  have hexec : exec (.zcomp a) s = .next _ := command_ok hp hbody
  obtain ⟨body, hzbuf⟩ : [0x78, 0x5E] <+: zbuf := prefix_of_byteBits_prefix ⟨_, by
    rw [hbits, compressedBits, List.append_assoc, List.append_assoc]⟩
  have hlen := (inputIs_length (inputIs_streamBegun hsel hlt)).symm
  exact ⟨_, body, hexec, rfl, rfl, rfl, rfl, hlen, congrArg (· ++ bigEndian (adler32 data)) hzbuf.symm, rfl, rfl, rfl, rfl,
    exec_sameConfig (i := .zcomp a) (fun _ _ => nofun) nofun hexec, (operationsFrame _ _ _ hexec).2 rfl⟩

/-- Settles O55: the bits of the stream before its padding are one function of the input, the quality and the hash. -/
theorem streamDependsOnInputOnly : Obligations.StreamDependsOnInputOnly := by
  intro s₁ s₂ t₁ t₂ a₁ a₂ data hsel₁ hsel₂ hlt hquality hhash hexec₁ hexec₂ hs₁ hs₂ ht₁ ht₂
  obtain ⟨u₁, hbody₁, rfl⟩ := exec_ok rfl hexec₁ hs₁ ht₁
  obtain ⟨u₂, hbody₂, rfl⟩ := exec_ok rfl hexec₂ hs₂ ht₂
  obtain ⟨zbuf₁, _, _, rfl, hpad₁, hbits₁⟩ := (zcompBody_yields hs₁ hsel₁ hlt).of_ok hbody₁
  obtain ⟨zbuf₂, _, _, rfl, hpad₂, hbits₂⟩ := (zcompBody_yields hs₂ hsel₂ hlt).of_ok hbody₂
  rw [hquality, hhash] at hbits₁
  exact ⟨congrArg (· ++ bigEndian (adler32 data)) (eq_of_padded hpad₁ hpad₂ hbits₁ hbits₂), rfl⟩

end Sys2Proof.Proofs

/-! PNG chunks, 47_png_chunk.md. Part 1: the checksum (R260 to R262), and `PSIG` and `PCHUNK` from what one chunk appends (R263 to
R265). -/

namespace Sys2Proof.Proofs

open Sys2Proof Sys2Proof.Machine Sys2Proof.Laws

/-! `CRC32` and `CRCCHK`, R261 and R262. -/

theorem crcMessage_src {s : State} {data : List Byte} (h : s.selects .src data = true) : crcMessage .src s = .ok data s :=
  readWhole_selects h

theorem crc32Body_spec {s : State} {a : MsgSel} {m : List Byte} (hp : s.phase ≠ .failed) (h : crcMessage a s = .ok m s) :
    crc32Body a s = .ok () { s with crcreg := crc32 m } := by
  rw [crc32Body, requireLive_bind hp, bind_ok h]
  rfl

theorem crcchkBody_spec {s : State} (v : Word) (hp : s.phase ≠ .failed) :
    crcchkBody v s = .ok () { s with crcok := decide (s.crcreg = v) } := requireLive_bind hp _

/-- Settles O57: the message is known before `CRCREG` is written, and no other register is. -/
theorem crcComputesAndCompares : Obligations.CrcComputesAndCompares := by
  intro s hp
  have hcrc : ∀ a m, crcMessage a s = .ok m s → exec (.crc32 a) s = .next { s with crcreg := crc32 m, resp := 0 } :=
    fun _ _ h => command_ok hp (crc32Body_spec hp h)
  exact ⟨hcrc .tag _ rfl, hcrc .ihdr _ rfl, hcrc .zbuf _ rfl, fun data h => hcrc .src data (crcMessage_src h),
    fun v => command_ok hp (crcchkBody_spec v hp)⟩

/-! One chunk, R264. -/

/-- The state after a chunk. -/
def chunkWritten (s : State) (tag : Word) (p : List Byte) : State :=
  { s with out := s.out ++ chunkBytes tag p, crcreg := crc32 (bigEndian tag ++ p) }

/-- Without a capacity of OUT a chunk goes in whole. -/
theorem chunkBody_unlimited (tag : Word) (p : List Byte) {s : State} (hc : s.caps.out = none) :
    chunkBody tag p s = .ok () (chunkWritten s tag p) := by
  rw [chunkBody, bind_ok (outBytes_unlimited _ hc), bind_ok (outBytes_unlimited _ (by exact hc)),
    bind_ok (outBytes_unlimited _ (by exact hc)), modify_bind, outBytes_unlimited _ (by exact hc)]
  simp only [chunkWritten, chunkBytes, List.append_assoc]

theorem bigEndian_length (w : Word) : (bigEndian w).length = 4 := rfl

/-- Length, tag and CRC make 12 bytes around the payload. -/
theorem chunkBytes_length (tag : Word) (p : List Byte) : (chunkBytes tag p).length = 12 + p.length := by
  simp only [chunkBytes, List.length_append, bigEndian_length]
  omega

theorem ihdrPayload_length (s : State) : (ihdrPayload s).length = 13 := rfl

/-! `PSIG`, R263. -/

/-- The state `PSIG` leaves. -/
def pngStarted (s : State) : State :=
  { s with out := pngSignature ++ chunkBytes tagIhdr (ihdrPayload s), fbuf := [], row := 0,
           crcreg := crc32 (bigEndian tagIhdr ++ ihdrPayload s), phase := .pHdr }

theorem psigBody_spec {s : State} (hp : s.phase = .idle) (hc : checkFault s = none) (hf : s.filetype = filePng)
    (hcap : s.caps.out = none) : psigBody s = .ok () (pngStarted s) := by
  rw [psigBody, requirePhaseIs_bind, if_pos hp, checksBody_bind, hc]
  dsimp only
  rw [requireFiletype_bind, if_pos hf, modify_bind, bind_ok (outBytes_unlimited _ (by exact hcap)), get_bind,
    bind_ok (chunkBody_unlimited _ _ (by exact hcap))]
  rfl

/-- Settles O58: the signature has 8 bytes, and the chunk around the 13 of `IhdrPayload` 25. -/
theorem psigWrites : Obligations.PsigWrites := fun s hp hc hf hcap =>
  ⟨command_ok (by rw [hp]; decide) (psigBody_spec hp hc hf hcap),
    by rw [List.length_append, chunkBytes_length, ihdrPayload_length]; rfl⟩

/-! `PCHUNK`, R264. -/

/-- `PCHUNK a` in sequence: one chunk, and the phase after it. -/
theorem pchunkBody_apply {s : State} {a : PaySel} (hp : s.phase.allowsPng = true) (hcap : s.caps.out = none) :
    pchunkBody a s =
      if payloadReady s a then
        .ok () { chunkWritten s s.ctype (chunkPayload s a) with phase := if s.ctype = tagIend then .pDone else s.phase }
      else .error .seqFault s := by
  rw [pchunkBody, requirePhase_bind, if_pos hp, get_bind, require_bind, bind_ok (chunkBody_unlimited _ _ hcap)]
  congr 1
  split <;> rfl

theorem payloadReady_iff (s : State) (a : PaySel) : payloadReady s a = true ↔ (a = .zbuf → s.zph = .done) := by
  cases a <;> simp [payloadReady]

/-- Settles O59: the condition on the selector is the only one left, and it comes before any write. -/
theorem pchunkWrites : Obligations.PchunkWrites := by
  intro s a hp hcap
  refine ⟨fun h => ?_, fun ha hz => command_error (allowsPng_ne_failed hp) ?_⟩
  · have hbody := (pchunkBody_apply hp hcap).trans (if_pos ((payloadReady_iff s a).mpr h))
    cases a <;> exact command_ok (allowsPng_ne_failed hp) hbody
  · exact (pchunkBody_apply hp hcap).trans (if_neg fun h => hz ((payloadReady_iff s a).mp h ha))

end Sys2Proof.Proofs

/-! PNG chunks, 47_png_chunk.md. Part 2: `PENC` (R266, R267), its rows one after another and the two chunks after them. -/

namespace Sys2Proof.Proofs

open Sys2Proof Sys2Proof.Machine Sys2Proof.Laws

/-! The rows. -/

/-- The state after `PSIG` and `row` scanlines, where `fbuf` holds them filtered. -/
def pngAtRow (s : State) (row : Word) (fbuf : List Byte) (phase : Phase) : State :=
  { pngStarted s with fbuf := fbuf, row := row, phase := phase }

/-- `t` is the PNG of `s` with its first `r` scanlines of `n` bytes filtered. -/
def FilteredTo (s : State) (n r : Nat) (t : State) : Prop :=
  ∃ fbuf phase, t = pngAtRow s (BitVec.ofNat 32 r) fbuf phase ∧ phase.allowsPng = true ∧ fbuf.length = r * (1 + n)

theorem filteredTo_pngStarted (s : State) (n : Nat) : FilteredTo s n 0 (pngStarted s) :=
  ⟨[], .pHdr, rfl, rfl, (Nat.zero_mul _).symm⟩

/-- A `PFILT` leads to the next row. -/
theorem pngFiltered_pngAtRow (s : State) (row : Word) (fbuf : List Byte) (phase : Phase) (bpp : Nat) :
    pngFiltered (pngAtRow s row fbuf phase) bpp =
      pngAtRow s (row + 1) (fbuf ++ filteredLine (pngAtRow s row fbuf phase) bpp (s.width.toNat * bpp)) .pBody := rfl

section
variable {s : State} {bpp : Nat} (hb : bytesPerPixel s.pixfmt = some bpp) (hcap : s.caps.fbuf = none)
  (hm : ∀ r, r < s.height.toNat → rowMapped s r (s.width.toNat * bpp) = true)
include hb hcap hm

theorem pfiltBody_filteredTo {t : State} {r : Nat} (h : FilteredTo s (s.width.toNat * bpp) r t) (hr : r < s.height.toNat) :
    ∃ u, pfiltBody t = .ok () u ∧ FilteredTo s (s.width.toNat * bpp) (r + 1) u := by
  obtain ⟨fbuf, phase, rfl, hp, hlen⟩ := h
  have hrow : (BitVec.ofNat 32 r).toNat = r := toNat_ofNat_le hr.le
  have hnext : (BitVec.ofNat 32 r).toNat < s.height.toNat := hrow.symm ▸ hr
  have hmapped : RowsMapped (pngAtRow s (BitVec.ofNat 32 r) fbuf phase) (s.width.toNat * bpp) :=
    ⟨hm _ hnext, fun _ => hm _ ((Nat.sub_le _ _).trans_lt hnext)⟩
  refine ⟨_, pfiltBody_fits hp hnext hb hmapped (congrArg (fits · _) hcap), _, .pBody,
    word_succ r ▸ pngFiltered_pngAtRow s _ fbuf phase bpp, rfl, ?_⟩
  rw [List.length_append, filteredLine_length, hlen, Nat.succ_mul]

theorem repeat_pfiltBody_filteredTo (k : Nat) {t : State} {r : Nat} (h : FilteredTo s (s.width.toNat * bpp) r t)
    (hk : r + k ≤ s.height.toNat) :
    ∃ u, repeatBody k pfiltBody t = .ok () u ∧ FilteredTo s (s.width.toNat * bpp) (r + k) u := by
  induction k generalizing t r with
  | zero => exact ⟨t, rfl, h⟩
  | succ k ih =>
    obtain ⟨u, hbody, hu⟩ := pfiltBody_filteredTo hb hcap hm h (by omega)
    obtain ⟨v, hrest, hv⟩ := ih hu (by omega)
    exact ⟨v, (bind_ok hbody).trans hrest, by rwa [Nat.add_assoc, Nat.add_comm 1] at hv⟩

end

/-! `PENC`, R266. -/

/-- The fixed `IEND` chunk, R267. -/
theorem chunkBytes_iend : chunkBytes tagIend [] =
    [0x00, 0x00, 0x00, 0x00, 0x49, 0x45, 0x4E, 0x44, 0xAE, 0x42, 0x60, 0x82] := by decide

/-- The state after `PENC`, where `t` is the state after `ZCOMP`. -/
def pngFinished (t : State) : State :=
  { chunkWritten (chunkWritten t tagIdat t.zbuf) tagIend [] with phase := .pDone }

theorem pngFinished_out (t : State) : (pngFinished t).out = t.out ++ chunkBytes tagIdat t.zbuf ++
    [0x00, 0x00, 0x00, 0x00, 0x49, 0x45, 0x4E, 0x44, 0xAE, 0x42, 0x60, 0x82] := by
  rw [← chunkBytes_iend]
  rfl

/-- The rows of the image and the stream of the filtered rows, and the two chunks after them. -/
theorem pencBody_completes {s : State} {bpp : Nat} (hp : s.phase = .idle) (hc : checkFault s = none) (hf : s.filetype = filePng)
    (hb : bytesPerPixel s.pixfmt = some bpp) (hout : s.caps.out = none) (hfbuf : s.caps.fbuf = none)
    (hzbuf : s.caps.zbuf = none) (hlt : s.height.toNat * (1 + s.width.toNat * bpp) < 2 ^ 32)
    (hm : ∀ r, r < s.height.toNat → rowMapped s r (s.width.toNat * bpp) = true) :
    ∃ fbuf phase zbuf ht, fbuf.length = s.height.toNat * (1 + s.width.toNat * bpp) ∧ pencBody s =
      .ok () (pngFinished (streamFinished (pngAtRow s s.height fbuf phase) .fbuf fbuf zbuf ht)) := by
  obtain ⟨t, hrows, hend⟩ := repeat_pfiltBody_filteredTo hb hfbuf hm s.height.toNat (filteredTo_pngStarted s _) (by omega)
  rw [Nat.zero_add] at hend
  obtain ⟨fbuf, phase, rfl, hphase, hlen⟩ := hend
  rw [BitVec.ofNat_toNat, BitVec.setWidth_eq] at hrows
  have hselects : (pngAtRow s s.height fbuf phase).selects .fbuf fbuf = true := decide_eq_true rfl
  obtain ⟨_, u, hstream, zbuf, ht, -, rfl, -⟩ :=
    (zcompBody_yields (allowsPng_ne_failed hphase) hselects (hlen ▸ hlt)).unlimited hzbuf
  refine ⟨fbuf, phase, zbuf, ht, hlen, ?_⟩
  rw [pencBody, bind_ok (psigBody_spec hp hc hf hout), get_bind]
  refine (bind_ok hrows).trans ((bind_ok hstream).trans ?_)
  rw [get_bind, bind_ok (chunkBody_unlimited _ _ (by exact hout)), bind_ok (chunkBody_unlimited _ _ (by exact hout))]
  rfl

/-- Settles O60: the rows fill FBUF with fewer than `2^32` bytes, its stream is whole, and the two chunks follow the header. -/
theorem pencCompletes : Obligations.PencCompletes := by
  intro s bpp hp hc hf hb hout hfbuf hzbuf hlt hm
  obtain ⟨fbuf, phase, zbuf, ht, hlen, hbody⟩ := pencBody_completes hp hc hf hb hout hfbuf hzbuf hlt hm
  have hexec : exec .penc s = .next _ := command_ok (by rw [hp]; decide) hbody
  obtain ⟨hfail, -⟩ := Prod.mk.inj (keeps_ok (keeps_faultRegisters .penc) hbody)
  exact ⟨_, hexec, rfl, hfail, rfl, hlen, rfl, rfl, pngFinished_out _,
    exec_sameConfig (i := .penc) (fun _ _ => nofun) nofun hexec, (operationsFrame _ _ _ hexec).2 rfl⟩

end Sys2Proof.Proofs

/-! The step and the system operations, 48_system_ops.md and 60_exceptions.md. Part 1: the step (R284), the phase `FAILED` (R292), the
record of a fault (R302), and `WRREG`, `RDREG` and `VALIDATE` (R280 to R282). -/

namespace Sys2Proof.Proofs

open Sys2Proof Sys2Proof.Machine Sys2Proof.Laws

/-! The step, R284, R292. -/

theorem takeCommand_cons {s : State} {w : Command} {rest : List Command} (h : s.cmds = w :: rest) :
    s.takeCommand = { s with cmds := rest } := by
  rw [State.takeCommand, h, List.tail_cons]

/-- A word that decodes runs its instruction. -/
theorem step_decoded {s : State} {w : Command} {rest : List Command} (h : s.cmds = w :: rest) {i : Instr}
    (hd : decode w = .ok i) : step s = exec i { s with cmds := rest } := by
  rw [← takeCommand_cons h, step, h]
  simp only [hd]

/-- A word that decodes to nothing is refused. -/
theorem step_malformed {s : State} {w : Command} {rest : List Command} (h : s.cmds = w :: rest) {e : DecodeError}
    (hd : decode w = .error e) : step s = malformed (Command.op w) { s with cmds := rest } := by
  rw [← takeCommand_cons h, step, h]
  simp only [hd]

theorem malformed_apply (op : Byte) (s : State) :
    malformed op s = if s.phase = .failed then .next (s.respond 0) else .next (s.takeFault .illegalOp op) := rfl

/-- Settles O4: the oldest word is decoded, and a word that decodes to nothing is a command whose body raises `IllegalOp`. -/
theorem stepTakesCommand : Obligations.StepTakesCommand := fun _ _ _ h =>
  ⟨fun _ hd => step_decoded h hd, fun _ hd => (step_malformed h hd).trans (malformed_apply _ _)⟩

/-- In `FAILED` every command that is neither `RDREG` nor `SRESET` is ignored. -/
theorem exec_failed {i : Instr} {s : State} (hi : answersInFailed i = false) (hp : s.phase = .failed) :
    exec i s = .next (s.respond 0) := by
  rw [exec_eq_command hi, command_failed _ _ hp]

theorem answersInFailed_eq_false {i : Instr} (hr : ∀ r b, i ≠ .rdreg r b) (hs : i ≠ .sreset) : answersInFailed i = false := by
  cases i with
  | rdreg r b => exact absurd rfl (hr r b)
  | sreset => exact absurd rfl hs
  | _ => rfl

/-- Settles O5: a word that decodes is ignored as its command is, and one that does not is ignored too. -/
theorem failedIsAbsorbing : Obligations.FailedIsAbsorbing := by
  intro s w rest hp h hr hs
  cases hd : decode w with
  | ok i =>
    have hi : answersInFailed i = false :=
      answersInFailed_eq_false (fun r b hi => hr r b (hd.trans (congrArg _ hi))) fun hi => hs (hd.trans (congrArg _ hi))
    rw [step_decoded h hd]
    exact exec_failed hi hp
  | error e =>
    rw [step_malformed h hd, malformed_apply]
    exact if_pos hp

/-! The record of a fault, R302, R304. -/

/-- A command that ends in `FAILED` and did not begin there took a fault with its own opcode byte. -/
theorem exec_fails {i : Instr} {s t : State} (hs : s.phase ≠ .failed) (h : exec i s = .next t) (ht : t.phase = .failed) :
    ∃ c u, t = State.takeFault u c i.opcode.byte := by
  cases ha : answersInFailed i with
  | false =>
    rcases exec_cases ha h with ⟨hp, -⟩ | ⟨-, u, -, hu, rfl⟩ | ⟨-, c, u, -, rfl⟩
    · exact absurd hp hs
    · exact absurd ht hu
    · exact ⟨c, u, rfl⟩
  | true =>
    cases i <;> simp only [answersInFailed, Bool.false_eq_true] at ha
    case rdreg r b =>
      rcases exec_rdreg_cases h with ⟨v, rfl⟩ | ⟨-, c, rfl⟩
      · exact absurd ht hs
      · exact ⟨c, s, rfl⟩
    case sreset => cases h; cases ht

/-- Settles O6: the fault entry sets all that is said. -/
theorem faultRecord : Obligations.FaultRecord := by
  intro i s t hs h ht
  obtain ⟨c, u, rfl⟩ := exec_fails hs h ht
  exact ⟨(code_range c).1, (code_range c).2, rfl, rfl, rfl⟩

/-! `WRREG`, R280. -/

theorem exec_wrreg {s : State} {r : WReg} {v : Word} (hp : s.phase ≠ .failed) (hl : wregAnyPhase r = true ∨ s.phase = .idle)
    (hv : v.toNat < 2 ^ wregBits r) : exec (.wrreg r v) s = .next ((s.writeReg r v).respond 0) := by
  refine command_ok (u := ()) hp ?_
  rw [wrregBody, get_bind, require_bind, if_pos (by simpa using hl), require_bind, if_pos (decide_eq_true hv)]
  rfl

/-- A value that fits a register of `n` bits comes back from it. -/
theorem setWidth_setWidth_of_lt {n : Nat} {v : Word} (h : v.toNat < 2 ^ n) : (v.setWidth n).setWidth 32 = v := by
  apply BitVec.eq_of_toNat_eq
  rw [BitVec.toNat_setWidth, BitVec.toNat_setWidth, Nat.mod_eq_of_lt h, Nat.mod_eq_of_lt v.isLt]

theorem readRw_writeReg_same {s : State} {r : WReg} {v : Word} (h : v.toNat < 2 ^ wregBits r) : (s.writeReg r v).readRw r = v := by
  cases r with
  | pixfmt | filetype | yuvtype | srckind => exact setWidth_setWidth_of_lt h
  | _ => rfl

theorem readRw_writeReg_other {r r' : WReg} (h : r' ≠ r) (s : State) (v : Word) :
    (s.writeReg r v).readRw r' = s.readRw r' := by
  cases r <;> cases r' <;> first | rfl | exact absurd rfl h

theorem readRo_writeReg (s : State) (r : WReg) (v : Word) (o : ROReg) : (s.writeReg r v).readRo o = s.readRo o := by
  cases r <;> rfl

theorem readArr_writeReg (s : State) (r : WReg) (v : Word) (a : ArrReg) (n : Nat) :
    (s.writeReg r v).readArr a n = s.readArr a n := by
  cases r <;> rfl

theorem writeReg_frame (s : State) (r : WReg) (v : Word) : SameJpeg s (s.writeReg r v) ∧ SamePng s (s.writeReg r v) ∧
    (s.writeReg r v).out = s.out ∧ (s.writeReg r v).src = s.src := by
  cases r <;> simp [SameJpeg, SamePng, State.writeReg]

/-- Settles O21: the two conditions hold, the register takes the value, and a write touches no other register. -/
theorem wrregWrites : Obligations.WrregWrites := fun s r v hp hl hv =>
  ⟨exec_wrreg hp hl hv, readRw_writeReg_same hv, fun _ h => readRw_writeReg_other h s v, readRo_writeReg s r v,
    readArr_writeReg s r v, writeReg_frame s r v⟩

/-! `RDREG`, R281. -/

theorem exec_rdreg {r : RReg} {b : BitVec 16} (hb : r.indexOk b = true) (s : State) : exec (.rdreg r b) s =
    match s.readReg r b with
    | some v => .next (s.respond v)
    | none => if s.phase = .failed then .next (s.respond 0) else .next (s.takeFault .seqFault 0x02) := by
  show execRdreg r b s = _
  rw [execRdreg, hb]
  cases s.readReg r b <;> rfl

/-- Settles O22: the answer is the register read, and where there is none the phase decides. -/
theorem rdregReads : Obligations.RdregReads := by
  intro s r b hb
  rw [exec_rdreg hb]
  refine ⟨fun v hv => ?_, fun hn hp => ?_, fun hn hp => ?_⟩
  · rw [hv]; rfl
  · rw [hn]; exact if_neg hp
  · rw [hn]; exact if_pos hp

/-! `VALIDATE`, R282. -/

theorem checksBody_apply (s : State) : checksBody s = match checkFault s with
    | some c => .error c s
    | none => .ok () s := by
  rw [checksBody, get_bind]
  cases checkFault s <;> rfl

theorem exec_validate {s : State} (hp : s.phase = .idle) : exec .validate s = match checkFault s with
    | some c => .next (s.takeFault c 0x03)
    | none => .next (s.respond 0) := by
  have hlive : s.phase ≠ .failed := by rw [hp]; decide
  have hbody : validateBody s = checksBody s := by rw [validateBody, requirePhaseIs_bind, if_pos hp]
  have hchecks := hbody.trans (checksBody_apply s)
  cases hc : checkFault s with
  | some c => rw [hc] at hchecks; exact command_error hlive hchecks
  | none => rw [hc] at hchecks; exact command_ok hlive hchecks

theorem getElem_zero_iff (w : Word) : w[0] = true ↔ w.toNat % 2 = 1 := by
  simp [← BitVec.getLsbD_eq_getElem, BitVec.getLsbD, Nat.testBit_zero]

/-- The checks as R282 lists them. -/
theorem checkFault_eq (s : State) : checkFault s =
    if s.width = 0 ∨ s.height = 0 then some .paramZeroDim
    else if ¬ s.srckind ≠ 0 ∧ s.pixfmt ∉ [1, 2, 3, 4, 5] then some .paramPixFmt
    else if s.filetype = 7 then some .paramFileType
    else if s.srckind ≠ 0 ∧ (s.width.toNat % 2 = 1 ∨ s.height.toNat % 2 = 1) then some .paramOddDim
    else if s.srckind ≠ 0 ∧ s.yuvtype ≠ 1 then some .paramYuvType
    else if s.srckind = 3 ∨ s.filetype ∉ [4, 5] ∨ (s.srckind ≠ 0 ∧ s.filetype ≠ 5) ∨ (s.filetype = 4 ∧ s.pixfmt ∈ [2, 3]) ∨
        (s.filetype = 5 ∧ (65535 < s.width.toNat ∨ 65535 < s.height.toNat))
      then some .paramEngineUnsupported
    else none := by
  simp only [checkFault, Bool.and_eq_true, Bool.or_eq_true, Bool.not_eq_true', decide_eq_true_eq, decide_eq_false_iff_not]
  simp [pixGray8, pixBgr24, pixBgra32, pixRgb24, pixRgba32, filePng, fileJpeg, yuvTrect871, srcPixel, getElem_zero_iff, or_assoc]

/-- Settles O24: the checks are those of R282 in their order, and the first that fails is the fault. -/
theorem validateChecksInOrder : Obligations.ValidateChecksInOrder := by
  intro s hp
  dsimp only
  rw [exec_validate hp, checkFault_eq]
  split_ifs <;> rfl

end Sys2Proof.Proofs

/-! The step and the system operations, 48_system_ops.md and 60_exceptions.md. Part 2: the phase table of R290. Every body begins with
its condition on the phase, and what it leaves in `PHASE` is the last column. -/

namespace Sys2Proof.Proofs

open Sys2Proof Sys2Proof.Machine Sys2Proof.Laws

/-! The column "legal in". -/

theorem contains_kernelPhases (p : Phase) : [Phase.idle, .jInit, .jHdr, .jBody].contains p = p.allowsKernel := by cases p <;> rfl

theorem contains_scanPhases (p : Phase) : [Phase.jHdr, .jBody].contains p = p.allowsScan := by cases p <;> rfl

theorem contains_pngPhases (p : Phase) : [Phase.pHdr, .pBody].contains p = p.allowsPng := by cases p <;> rfl

section
variable {β : Type} {s : State}

theorem requirePhase_illegal {legal : Phase → Bool} (h : legal s.phase = false) (f : Unit → Body β) :
    (requirePhase legal >>= f) s = .error .seqFault s := by
  rw [requirePhase_bind, h]
  rfl

theorem requirePhaseIs_illegal {p : Phase} (h : decide (s.phase = p) = false) (f : Unit → Body β) :
    (requirePhaseIs p >>= f) s = .error .seqFault s := requirePhase_illegal (legal := fun q => decide (q = p)) h f

theorem conversionStart_illegal (h : s.phase.allowsKernel = false) (f : Quant → Body β) :
    (conversionStart >>= f) s = .error .seqFault s := bind_error (requirePhase_illegal h _)

end

/-- Out of its phases a body raises `SeqFault` before it writes anything; a composite does so in its first part. -/
theorem bodyOf_illegal {i : Instr} {s : State} (hwf : i.wf = true) (hp : s.phase ≠ .failed) (h : legalPhase i s.phase = false) :
    bodyOf i s = .error .seqFault s := by
  cases i <;> simp only [legalPhase, contains_kernelPhases, contains_scanPhases, contains_pngPhases] at h
  case wrreg r v =>
    have hillegal : (wregAnyPhase r || decide (s.phase = .idle)) = false := by
      cases hr : wregAnyPhase r <;> simp_all
    show wrregBody r v s = _
    rw [wrregBody, get_bind, hillegal]
    rfl
  case rdreg | sreset => cases h
  case validate | jqinit | jinit | psig => exact requirePhaseIs_illegal h _
  case jhdr | jfin => exact requirePhaseIs_illegal h _
  case jenc | penc => exact bind_error (requirePhaseIs_illegal h _)
  case rgb2yuv | gray2y | yuvload | csub => exact conversionStart_illegal h _
  case fdct | qzz | jhuf | jgrayuv => exact requirePhase_illegal h _
  case jpdu => exact bind_error (requirePhase_illegal h _)
  case bpush b v =>
    show bpushBody b v s = _
    rw [bpushBody, require_bind, if_pos (by exact hwf)]
    exact requirePhase_illegal h _
  case bflush | jwblk | jrow | pfilt | pchunk => exact requirePhase_illegal h _
  case zbegin | lzstep | zemit | zend | zcomp | adler | crc32 | crcchk =>
    exact absurd (of_decide_eq_false h) (not_not_intro hp)

/-- Settles O7: the condition on the phase stands first in every body, and taking the fault changes nothing else. -/
theorem phaseChecked : Obligations.PhaseChecked := by
  intro i s hwf hp h
  have hi : answersInFailed i = false :=
    answersInFailed_eq_false (fun r b hi => by subst hi; cases h) fun hi => by subst hi; cases h
  rw [exec_eq_command hi, command_error hp (bodyOf_illegal hwf hp h)]
  rfl

/-! The column "`PHASE` after". -/

theorem endsIn_repeat {Q : State → Prop} {b : Body Unit} (h : EndsIn Q b) (n : Nat) : EndsIn Q (repeatBody (n + 1) b) := by
  induction n with
  | zero =>
    intro s _ t ht
    obtain ⟨_, u, hu, hrest⟩ := bind_ok_inv ht
    cases hrest
    exact h s _ _ hu
  | succ n ih => exact endsIn_bind fun _ => ih

theorem jwblkBody_ends : EndsIn (fun t => t.phase = .jBody) jwblkBody :=
  endsIn_bind fun _ => endsIn_bind fun q => endsIn_bind fun _ => endsIn_bind fun _ => endsIn_bind fun _ => fun s _ t ht => by
    rw [modify_bind, get_bind] at ht
    have hnext : (s.nextMacroblock q).phase = .jBody := (nextMacroblock_rest s q).1
    split at ht
    · exact (keeps_ok (keeps_phase (i := .bflush) rfl) ht).trans hnext
    · cases ht; exact hnext

/-- A row band is not empty, where the tables are those of a configuration that passed the checks (R192). -/
theorem jrowBody_phase {s t : State} {u : Unit} (hs : JpegConfigInv s) (h : jrowBody s = .ok u t) : t.phase = .jBody := by
  obtain ⟨hp, h⟩ := requirePhase_bind_ok h
  obtain ⟨hc, hf, hq⟩ := hs (isJpeg_of_allowsScan hp)
  rw [bind_ok (show requireQuant s = .ok (quantOf s) s by rw [requireQuant, hq]), get_bind] at h
  obtain ⟨-, h⟩ := require_bind_ok h
  obtain ⟨n, hn⟩ := Nat.exists_eq_succ_of_ne_zero (blocksPerBand_pos hc hf).ne'
  rw [hn] at h
  exact endsIn_repeat jwblkBody_ends n _ _ _ h

theorem pchunkBody_phaseAfter {a : PaySel} {s t : State} {u : Unit} (h : pchunkBody a s = .ok u t) :
    t.phase = if s.ctype = tagIend then .pDone else s.phase := by
  obtain ⟨-, h⟩ := requirePhase_bind_ok h
  rw [get_bind] at h
  obtain ⟨-, h⟩ := require_bind_ok h
  obtain ⟨_, v, hv, h⟩ := bind_ok_inv h
  split at h
  · cases h
    rw [if_pos ‹_›]
  · cases h
    rw [if_neg ‹_›]
    exact keeps_ok (keeps_chunkBody (chains_observation State.phase) chunkWrites_phase _ _) hv

theorem phaseAfter_of_keepsPhase {i : Instr} (h : keepsPhase i = true) (s : State) : phaseAfter i s = s.phase := by
  cases i <;> first | rfl | cases h

/-- A body that ends well leaves the phase of R290. -/
theorem bodyOf_phaseAfter {i : Instr} {s t : State} {u : Unit} (hs : JpegConfigInv s) (hr : i ≠ .sreset)
    (h : bodyOf i s = .ok u t) : t.phase = phaseAfter i s := by
  cases hk : keepsPhase i with
  | true => rw [phaseAfter_of_keepsPhase hk, keeps_ok (keeps_phase hk) h]
  | false =>
    cases i <;> simp only [keepsPhase, Bool.true_eq_false] at hk
    case sreset => exact absurd rfl hr
    case jinit => obtain ⟨-, -, rfl⟩ := jinitBody_ok h; rfl
    case jhdr => exact jhdrBody_ends s u t h
    case jwblk => exact jwblkBody_ends s u t h
    case jrow => exact jrowBody_phase hs h
    case jfin => exact jfinBody_ends s u t h
    case jenc => exact jencBody_ends s u t h
    case pfilt => exact pfiltBody_ends s u t h
    case psig => exact psigBody_ends s u t h
    case pchunk a => exact pchunkBody_phaseAfter h
    case penc => exact pencBody_ends s u t h

/-- Settles O8: a command that raised no fault is its body, and the response is not the phase. -/
theorem phaseAfterCommand : Obligations.PhaseAfterCommand := by
  intro i s t hs h hp ht
  cases ha : answersInFailed i with
  | false =>
    obtain ⟨u, hbody, rfl⟩ := exec_ok ha h hp ht
    rw [respond_phase]
    exact bodyOf_phaseAfter hs (fun hi => by subst hi; cases ha) hbody
  | true =>
    cases i <;> simp only [answersInFailed, Bool.false_eq_true] at ha
    case rdreg r b =>
      rcases exec_rdreg_cases h with ⟨v, rfl⟩ | ⟨-, c, rfl⟩
      · rfl
      · exact absurd rfl ht
    case sreset => cases h; rfl

end Sys2Proof.Proofs

/-! The step and the system operations, 48_system_ops.md and 60_exceptions.md. Part 3: the conditions that trap in a legal phase
before anything is written (R303, R304), as one lemma per condition about a body that begins with it. -/

namespace Sys2Proof.Proofs

open Sys2Proof Sys2Proof.Machine Sys2Proof.Laws

/-! The conditions. -/

section
variable {β : Type} {s : State}

theorem requireQuant_none (h : s.quant = none) : requireQuant s = .error .seqFault s := by rw [requireQuant, h]

theorem requireQuant_some {q : Quant} (h : s.quant = some q) : requireQuant s = .ok q s := by rw [requireQuant, h]

/-- Without tables a body that asks for them after its phase traps. -/
theorem requireQuant_bind_none (h : s.quant = none) (f : Quant → Body β) : (requireQuant >>= f) s = .error .seqFault s :=
  bind_error (requireQuant_none h)

theorem requireQuant_bind_some {q : Quant} (h : s.quant = some q) (f : Quant → Body β) : (requireQuant >>= f) s = f q s :=
  bind_ok (requireQuant_some h)

theorem conversionStart_bind_none (h : s.quant = none) (f : Quant → Body β) : (conversionStart >>= f) s = .error .seqFault s := by
  refine bind_error ?_
  rw [conversionStart, requirePhase_bind, requireQuant_none h, ite_self]

theorem requireColour_trap (h : s.srckind ≠ 0 ∨ s.pixfmt ∉ [2, 3, 4, 5]) : requireColour s = .error .seqFault s := by
  have hformat : ∀ p : BitVec 3, p ∉ [2, 3, 4, 5] → channelOffsets p = none := by decide
  unfold requireColour
  rcases h with h | h
  · rw [decide_eq_false (by exact h)]
  · rw [hformat _ h]
    cases decide (s.srckind = srcPixel) <;> rfl

theorem requireToken_trap (h : s.zph ≠ .run ∨ s.token = none) : requireToken s = .error .seqFault s := by
  unfold requireToken
  rcases h with h | h
  · rw [decide_eq_false h]
  · rw [h]
    cases decide (s.zph = .run) <;> rfl

end

/-! The operations. -/

section
variable {s : State}

theorem rgb2yuvBody_trap (hp : s.phase.allowsKernel = true) (h : s.quant = none ∨ s.srckind ≠ 0 ∨ s.pixfmt ∉ [2, 3, 4, 5]) :
    rgb2yuvBody s = .error .seqFault s := by
  cases hq : s.quant with
  | none => exact conversionStart_bind_none hq _
  | some q =>
    rw [rgb2yuvBody, conversionStart_bind hp hq]
    exact bind_error (requireColour_trap (h.resolve_left (by simp [hq])))

theorem gray2yBody_trap (hp : s.phase.allowsKernel = true) (h : s.quant = none ∨ s.srckind ≠ 0 ∨ s.pixfmt ≠ 1) :
    gray2yBody s = .error .seqFault s := by
  cases hq : s.quant with
  | none => exact conversionStart_bind_none hq _
  | some q =>
    rw [gray2yBody, conversionStart_bind hp hq, get_bind, require_bind, if_neg]
    rw [Bool.and_eq_true, decide_eq_true_eq, decide_eq_true_eq]
    exact not_and_or.mpr (h.resolve_left (by simp [hq]))

theorem yuvloadBody_trap (hp : s.phase.allowsKernel = true) (h : s.quant = none ∨ (s.srckind ≠ 1 ∧ s.srckind ≠ 2)) :
    yuvloadBody s = .error .seqFault s := by
  cases hq : s.quant with
  | none => exact conversionStart_bind_none hq _
  | some q =>
    rw [yuvloadBody, conversionStart_bind hp hq, get_bind, require_bind, if_neg]
    rw [Bool.or_eq_true, decide_eq_true_eq, decide_eq_true_eq]
    exact not_or.mpr (h.resolve_left (by simp [hq]))

theorem csubBody_trap (hp : s.phase.allowsKernel = true)
    (h : s.quant = none ∨ ∃ q, s.quant = some q ∧ q.wbvar ≠ .subs) : csubBody s = .error .seqFault s := by
  rcases h with hq | ⟨q, hq, hv⟩
  · exact conversionStart_bind_none hq _
  · rw [csubBody, conversionStart_bind hp hq, require_bind, if_neg (by simpa using hv)]

theorem qzzBody_trap (a : QSel) (hp : s.phase.allowsKernel = true) (hq : s.quant = none) : qzzBody a s = .error .seqFault s := by
  rw [qzzBody, requirePhase_bind, if_pos hp, requireQuant_bind_none hq]

theorem jhdrBody_trap (hp : s.phase = .jInit) (hq : s.quant = none) : jhdrBody s = .error .seqFault s := by
  rw [jhdrBody, requirePhaseIs_bind, if_pos hp, requireQuant_bind_none hq]

theorem jwblkBody_trap (hp : s.phase.allowsScan = true)
    (h : s.quant = none ∨ ∃ q, s.quant = some q ∧ bandCount s q ≤ s.mby.toNat) : jwblkBody s = .error .seqFault s := by
  rw [jwblkBody, requirePhase_bind, if_pos hp]
  rcases h with hq | ⟨q, hq, hrow⟩
  · exact requireQuant_bind_none hq _
  · rw [requireQuant_bind_some hq, get_bind, require_bind, if_neg (by simpa using hrow)]

theorem jrowBody_trap (hp : s.phase.allowsScan = true)
    (h : s.quant = none ∨ s.mbx ≠ 0 ∨ ∃ q, s.quant = some q ∧ bandCount s q ≤ s.mby.toNat) :
    jrowBody s = .error .seqFault s := by
  rw [jrowBody, requirePhase_bind, if_pos hp]
  cases hq : s.quant with
  | none => exact requireQuant_bind_none hq _
  | some q =>
    rw [requireQuant_bind_some hq, get_bind, require_bind, if_neg]
    rw [Bool.and_eq_true, decide_eq_true_eq, decide_eq_true_eq]
    rintro ⟨hx, hlt⟩
    rcases h with h | h | ⟨q', hq', hrow⟩
    · cases hq.symm.trans h
    · exact h hx
    · cases hq.symm.trans hq'
      exact absurd hlt (Nat.not_lt.mpr hrow)

theorem psigBody_trap {c : FaultCode} (hp : s.phase = .idle)
    (h : checkFault s = some c ∨ checkFault s = none ∧ s.filetype ≠ 4 ∧ c = .paramEngineUnsupported) :
    psigBody s = .error c s := by
  rw [psigBody, requirePhaseIs_bind, if_pos hp, checksBody_bind]
  rcases h with hc | ⟨hc, hf, rfl⟩
  · rw [hc]
  · rw [hc]
    exact (requireFiletype_bind _ _ s).trans (if_neg hf)

theorem lzstepBody_trap (hp : s.phase ≠ .failed) (h : s.zph ≠ .run ∨ s.token ≠ none ∨ s.zlen.toNat ≤ s.zi.toNat) :
    lzstepBody s = .error .seqFault s := by
  rw [lzstepBody, requireLive_bind hp, get_bind, require_bind, if_neg]
  rw [lzReady_iff]
  rintro ⟨hrun, htok, hlt⟩
  rcases h with h | h | h
  · exact h hrun
  · exact h htok
  · exact absurd hlt (Nat.not_lt.mpr h)

theorem zemitBody_trap (hp : s.phase ≠ .failed) (h : s.zph ≠ .run ∨ s.token = none) : zemitBody s = .error .seqFault s := by
  rw [zemitBody, requireLive_bind hp]
  exact bind_error (requireToken_trap h)

theorem zendReady_iff (s : State) : zendReady s = true ↔ s.zph = .run ∧ s.token = none ∧ s.zi = s.zlen := by
  simp [zendReady, State.tokv, and_assoc]

theorem zendBody_trap (hp : s.phase ≠ .failed) (h : s.zph ≠ .run ∨ s.token ≠ none ∨ s.zi ≠ s.zlen) :
    zendBody s = .error .seqFault s := by
  rw [zendBody, requireLive_bind hp, get_bind, require_bind, if_neg]
  rw [zendReady_iff]
  rintro ⟨hrun, htok, hend⟩
  rcases h with h | h | h
  · exact h hrun
  · exact h htok
  · exact h hend

theorem wrregBody_trap {r : WReg} {v : Word} (hl : wregAnyPhase r = true ∨ s.phase = .idle) (hv : 2 ^ wregBits r ≤ v.toNat) :
    wrregBody r v s = .error .illegalOp s := by
  rw [wrregBody, get_bind, require_bind, if_pos (by simpa using hl), require_bind, if_neg (by simpa using hv)]

end

/-- Settles O9: each of these bodies raises its fault in the state it began in. -/
theorem trapsBeforeAnyWrite : Obligations.TrapsBeforeAnyWrite := by
  intro s
  refine ⟨fun r v hp hl hv => command_error hp (wrregBody_trap hl hv), fun hp => ?_, fun hp hq => ?_, fun hp => ?_, fun hp => ?_,
    fun hp => ?_⟩
  · have hlive := allowsKernel_ne_failed hp
    exact ⟨fun h => command_error hlive (rgb2yuvBody_trap hp h), fun h => command_error hlive (gray2yBody_trap hp h),
      fun h => command_error hlive (yuvloadBody_trap hp h), fun h => command_error hlive (csubBody_trap hp h),
      fun hq a => command_error hlive (qzzBody_trap a hp hq),
      fun hq a => command_error hlive (bind_error (qzzBody_trap (compTable a) hp hq))⟩
  · exact command_error (by rw [hp]; decide) (jhdrBody_trap hp hq)
  · have hlive := allowsScan_ne_failed hp
    exact ⟨fun h => command_error hlive (jwblkBody_trap hp h), fun h => command_error hlive (jrowBody_trap hp h)⟩
  · have hlive : s.phase ≠ .failed := by rw [hp]; decide
    exact ⟨fun c hc => command_error hlive (psigBody_trap hp (.inl hc)),
      fun hc hf => command_error hlive (psigBody_trap hp (.inr ⟨hc, hf, rfl⟩))⟩
  · exact ⟨fun h => command_error hp (lzstepBody_trap hp h), fun h => command_error hp (zemitBody_trap hp h),
      fun h => command_error hp (zendBody_trap hp h)⟩

end Sys2Proof.Proofs

/-! The composites, 48_system_ops.md R291. Part 1: no operation reads the response of the command before it (R284), so commands
issued one after another do what their bodies do in sequence. -/

namespace Sys2Proof.Proofs

open Sys2Proof Sys2Proof.Machine Sys2Proof.Laws

section
variable {α β : Type}

/-- What a body leaves, with `g` applied to the state. -/
def mapState (g : State → State) : EStateM.Result FaultCode State α → EStateM.Result FaultCode State α
  | .ok a t => .ok a (g t)
  | .error c t => .error c (g t)

/-- The body neither reads nor writes what `g` changes. -/
def Overlooks (g : State → State) (b : Body α) : Prop := ∀ s, b (g s) = mapState g (b s)

/-- The body overlooks the response that stands in the state. -/
def RespBlind (b : Body α) : Prop := ∀ v, Overlooks (fun s => s.respond v) b

/-! Sequences and loops. -/

theorem blind_pure (a : α) : RespBlind (pure a : Body α) := fun _ _ => rfl

theorem blind_raise (c : FaultCode) : RespBlind (raise c : Body α) := fun _ _ => rfl

theorem blind_require (ok : Bool) (c : FaultCode) : RespBlind (require ok c) := by cases ok <;> exact fun _ _ => rfl

theorem blind_modify {f : State → State} (h : ∀ s v, f (s.respond v) = (f s).respond v) : RespBlind (modify f : Body Unit) :=
  fun v s => congrArg (EStateM.Result.ok ()) (h s v)

theorem overlooks_bind {g : State → State} {x : Body α} {f : α → Body β} (hx : Overlooks g x) (hf : ∀ a, Overlooks g (f a)) :
    Overlooks g (x >>= f) := by
  intro s
  have hg := hx s
  cases hr : x s with
  | ok a t => rw [hr] at hg; rw [bind_ok hr, bind_ok hg, hf a t]
  | error c t => rw [hr] at hg; rw [bind_error hr, bind_error hg]; rfl

theorem blind_bind {x : Body α} {f : α → Body β} (hx : RespBlind x) (hf : ∀ a, RespBlind (f a)) : RespBlind (x >>= f) :=
  fun v => overlooks_bind (hx v) fun a => hf a v

/-- A body may read the state, if what it does with it does not depend on the response. -/
theorem blind_get_bind {f : State → Body β} (hf : ∀ s v, f (s.respond v) = f s) (h : ∀ s, RespBlind (f s)) :
    RespBlind ((get : Body State) >>= f) := fun v s => by
  rw [get_bind, get_bind, hf, h s v s]

theorem blind_ite {p : Prop} [Decidable p] {x y : Body α} (hx : RespBlind x) (hy : RespBlind y) :
    RespBlind (if p then x else y) := by
  split
  · exact hx
  · exact hy

theorem blind_forM {f : α → Body Unit} (h : ∀ a, RespBlind (f a)) (l : List α) : RespBlind (l.forM f) := by
  induction l with
  | nil => exact blind_pure ()
  | cons a l ih => exact blind_bind (h a) fun _ => ih

theorem blind_repeat {b : Body Unit} (h : RespBlind b) (n : Nat) : RespBlind (repeatBody n b) := by
  induction n with
  | zero => exact blind_pure ()
  | succ n ih => exact blind_bind h fun _ => ih

end

/-! Conditions, reads and appends. -/

theorem blind_requirePhase (legal : Phase → Bool) : RespBlind (requirePhase legal) :=
  blind_get_bind (fun _ _ => rfl) fun _ => blind_require _ _

theorem blind_requireQuant : RespBlind requireQuant := by
  intro v s
  unfold requireQuant
  rw [respond_quant]
  cases s.quant <;> rfl

theorem blind_requireColour : RespBlind requireColour := by
  intro v s
  unfold requireColour
  rw [respond_srckind, respond_pixfmt]
  cases decide (s.srckind = srcPixel) <;> cases channelOffsets s.pixfmt <;> rfl

theorem blind_requirePixel : RespBlind requirePixel := by
  intro v s
  unfold requirePixel
  rw [respond_pixfmt]
  cases bytesPerPixel s.pixfmt <;> rfl

theorem blind_requireToken : RespBlind requireToken := by
  intro v s
  unfold requireToken
  rw [respond_zph, respond_token]
  cases decide (s.zph = .run) <;> cases s.token <;> rfl

theorem blind_checksBody : RespBlind checksBody :=
  blind_get_bind (fun _ _ => rfl) fun s => by
    cases checkFault s with
    | none => exact blind_pure ()
    | some c => exact blind_raise c

theorem blind_requireFiletype (t : BitVec 3) : RespBlind (requireFiletype t) :=
  blind_get_bind (fun _ _ => rfl) fun _ => blind_require _ _

theorem blind_memRead (a : Word) : RespBlind (memRead a) := by
  intro v s
  unfold memRead
  rw [respond_src]
  cases s.src.read a.toNat <;> rfl

theorem blind_outBytes (bs : List Byte) : RespBlind (outBytes bs) := by
  intro v s
  unfold outBytes
  rw [respond_caps, respond_out]
  split <;> rfl

theorem blind_appendFbuf (b : Byte) : RespBlind (appendFbuf b) := by
  intro v s
  unfold appendFbuf
  rw [respond_caps, respond_fbuf]
  split <;> rfl

theorem blind_appendZbuf (b : Byte) : RespBlind (appendZbuf b) := by
  intro v s
  unfold appendZbuf
  rw [respond_caps, respond_zbuf]
  split <;> rfl

theorem blind_push (p : BitPair) : RespBlind (push p) := by
  intro v s
  unfold push
  rw [respond_bb]
  split <;> rfl

theorem blind_readRange (n j : Nat) : RespBlind (readRange j n) := by
  induction n generalizing j with
  | zero => exact blind_pure []
  | succ n ih =>
    exact blind_get_bind (fun _ _ => rfl) fun _ => blind_bind (blind_memRead _) fun _ => blind_bind (ih _) fun _ => blind_pure _

theorem blind_readSelected (z : ZSel) (n : Nat) : RespBlind (readSelected z n) := by
  cases z with
  | fbuf => exact blind_get_bind (fun _ _ => rfl) fun _ => blind_bind (blind_require _ _) fun _ => blind_pure _
  | src => exact blind_readRange n 0

theorem blind_readWhole (z : ZSel) : RespBlind (readWhole z) := by
  refine blind_get_bind (fun _ _ => by cases z <;> rfl) fun s => ?_
  cases z with
  | fbuf => exact blind_pure s.fbuf
  | src => exact blind_readRange s.clen.toNat 0

theorem blind_dataAt (j : Nat) : RespBlind (dataAt j) := by
  intro v s
  unfold dataAt
  rw [respond_zsrc]
  cases s.zsrc with
  | fbuf => rw [respond_fbuf]; cases s.fbuf[j]? <;> rfl
  | src => exact blind_memRead (rangeAddr s j) v s

/-! 40 to 42: tables, transform, coder. -/

theorem blind_jqinitBody : RespBlind jqinitBody := blind_bind (blind_requirePhase _) fun _ => blind_modify fun _ _ => rfl

theorem blind_fdctBody (a : BlockSel) : RespBlind (fdctBody a) := by
  refine blind_bind (blind_requirePhase _) fun _ v s => ?_
  have hsamples : blockSamples (s.respond v) a = blockSamples s a := rfl
  rw [get_bind, get_bind, hsamples]
  cases allWritten (blockSamples s a) <;> rfl

theorem blind_qzzBody (a : QSel) : RespBlind (qzzBody a) := by
  refine blind_bind (blind_requirePhase _) fun _ => blind_bind blind_requireQuant fun q v s => ?_
  rw [get_bind, get_bind, respond_cdu]
  cases allWritten s.cdu.toList <;> rfl

theorem blind_pushCodes (ps : List (Option BitPair)) : RespBlind (pushCodes ps) := by
  refine blind_forM (fun p => ?_) ps
  cases p with
  | none => exact blind_raise _
  | some p => exact blind_push p

theorem blind_jhufBody (a : Comp) : RespBlind (jhufBody a) := by
  refine blind_bind (blind_requirePhase _) fun _ => blind_bind blind_requireQuant fun _ =>
    blind_get_bind (fun _ _ => rfl) fun s => ?_
  cases allWritten s.du.toList with
  | none => exact blind_raise _
  | some du => exact blind_bind (blind_pushCodes _) fun _ => blind_modify fun _ _ => rfl

theorem blind_jpduBody (a : Comp) : RespBlind (jpduBody a) := blind_bind (blind_qzzBody _) fun _ => blind_jhufBody a

theorem blind_jgrayuvBody : RespBlind jgrayuvBody := blind_bind (blind_requirePhase _) fun _ => blind_pushCodes _

theorem blind_bpushBody (b v : BitVec 16) : RespBlind (bpushBody b v) :=
  blind_bind (blind_require _ _) fun _ => blind_bind (blind_requirePhase _) fun _ => blind_push _

theorem blind_flushBit (b : Bool) : RespBlind (flushBit b) :=
  blind_bind (blind_modify fun _ _ => rfl) fun _ => blind_get_bind (fun _ _ => rfl) fun _ =>
    blind_ite (blind_bind (blind_outBytes _) fun _ => blind_modify fun _ _ => rfl) (blind_pure ())

theorem blind_bflushBody : RespBlind bflushBody :=
  blind_bind (blind_requirePhase _) fun _ => blind_get_bind (fun _ _ => rfl) fun _ =>
    blind_bind (blind_forM blind_flushBit _) fun _ => blind_modify fun _ _ => rfl

/-! 43: conversion and macroblocks. -/

theorem blind_forGrid {f : Nat → Nat → Body Unit} (h : ∀ j i, RespBlind (f j i)) (rows cols : Nat) :
    RespBlind (forGrid rows cols f) :=
  blind_forM (fun j => blind_forM (h j) _) _

theorem blind_conversionStart : RespBlind conversionStart := blind_bind (blind_requirePhase _) fun _ => blind_requireQuant

theorem blind_pixelByte (side bpp k j i : Nat) : RespBlind (pixelByte side bpp k j i) :=
  blind_get_bind (fun _ _ => rfl) fun _ => blind_memRead _

theorem blind_colourSample (q : Quant) (bpp : Nat) (k : Nat × Nat × Nat) (j i : Nat) : RespBlind (colourSample q bpp k j i) :=
  blind_bind (blind_pixelByte _ _ _ _ _) fun _ => blind_bind (blind_pixelByte _ _ _ _ _) fun _ =>
    blind_bind (blind_pixelByte _ _ _ _ _) fun _ => blind_modify fun _ _ => by cases q.subsample <;> rfl

theorem blind_rgb2yuvBody : RespBlind rgb2yuvBody :=
  blind_bind blind_conversionStart fun q => blind_bind blind_requireColour fun k =>
    blind_get_bind (fun _ _ => rfl) fun _ => blind_forGrid (blind_colourSample q _ k) _ _

theorem blind_gray2yBody : RespBlind gray2yBody :=
  blind_bind blind_conversionStart fun _ => blind_get_bind (fun _ _ => rfl) fun _ => blind_bind (blind_require _ _) fun _ =>
    blind_forGrid (fun _ _ => blind_bind (blind_pixelByte _ _ _ _ _) fun _ => blind_modify fun _ _ => rfl) _ _

theorem blind_planarLuma (q : Quant) (j i : Nat) : RespBlind (planarLuma q j i) :=
  blind_get_bind (fun _ _ => rfl) fun _ => blind_bind (blind_memRead _) fun _ => blind_modify fun _ _ => rfl

theorem blind_planarChroma (j i : Nat) : RespBlind (planarChroma j i) :=
  blind_get_bind (fun _ _ => rfl) fun _ => blind_bind (blind_memRead _) fun _ => blind_bind (blind_modify fun _ _ => rfl) fun _ =>
    blind_bind (blind_memRead _) fun _ => blind_modify fun _ _ => rfl

theorem blind_yuvloadBody : RespBlind yuvloadBody :=
  blind_bind blind_conversionStart fun q => blind_get_bind (fun _ _ => rfl) fun _ => blind_bind (blind_require _ _) fun _ =>
    blind_bind (blind_forGrid (blind_planarLuma q) _ _) fun _ => blind_forGrid blind_planarChroma _ _

theorem blind_csubBody : RespBlind csubBody := by
  refine blind_bind blind_conversionStart fun _ => blind_bind (blind_require _ _) fun _ v s => ?_
  rw [get_bind, get_bind, respond_up, respond_vp]
  cases allWritten s.up.toList <;> cases allWritten s.vp.toList <;> rfl

theorem blind_codeBlock (a : BlockSel) (c : Comp) : RespBlind (codeBlock a c) :=
  blind_bind (blind_fdctBody a) fun _ => blind_jpduBody c

theorem blind_codeLuma16 : RespBlind codeLuma16 :=
  blind_bind (blind_codeBlock _ _) fun _ => blind_bind (blind_codeBlock _ _) fun _ => blind_bind (blind_codeBlock _ _) fun _ =>
    blind_codeBlock _ _

theorem blind_codeChroma : RespBlind codeChroma := blind_bind (blind_codeBlock _ _) fun _ => blind_codeBlock _ _

theorem blind_variantBody (v : WbVar) : RespBlind (variantBody v) := by
  have hplanar : RespBlind planarBody :=
    blind_bind blind_yuvloadBody fun _ => blind_bind blind_codeLuma16 fun _ => blind_codeChroma
  cases v with
  | subs =>
    exact blind_get_bind (fun _ _ => rfl) fun _ => blind_ite
      (blind_bind blind_gray2yBody fun _ => blind_bind blind_codeLuma16 fun _ => blind_jgrayuvBody)
      (blind_bind blind_rgb2yuvBody fun _ => blind_bind blind_csubBody fun _ => blind_bind blind_codeLuma16 fun _ =>
        blind_codeChroma)
  | full =>
    exact blind_get_bind (fun _ _ => rfl) fun _ => blind_ite
      (blind_bind blind_gray2yBody fun _ => blind_bind (blind_codeBlock _ _) fun _ => blind_jgrayuvBody)
      (blind_bind blind_rgb2yuvBody fun _ => blind_bind (blind_codeBlock _ _) fun _ => blind_codeChroma)
  | nv12 => exact hplanar
  | yuv420p => exact hplanar

theorem respond_nextMacroblock (q : Quant) (s : State) (v : Word) :
    (s.respond v).nextMacroblock q = (s.nextMacroblock q).respond v := by
  unfold State.nextMacroblock
  rw [respond_mbx]
  split <;> rfl

theorem blind_jwblkBody : RespBlind jwblkBody :=
  blind_bind (blind_requirePhase _) fun _ => blind_bind blind_requireQuant fun q => blind_get_bind (fun _ _ => rfl) fun _ =>
    blind_bind (blind_require _ _) fun _ => blind_bind (blind_variantBody _) fun _ =>
      blind_bind (blind_modify (respond_nextMacroblock q)) fun _ => blind_get_bind (fun _ _ => rfl) fun _ =>
        blind_ite blind_bflushBody (blind_pure ())

/-! 44: the JPEG stream. -/

theorem blind_jrowBody : RespBlind jrowBody :=
  blind_bind (blind_requirePhase _) fun _ => blind_bind blind_requireQuant fun _ => blind_get_bind (fun _ _ => rfl) fun _ =>
    blind_bind (blind_require _ _) fun _ => blind_repeat blind_jwblkBody _

theorem blind_jinitBody : RespBlind jinitBody :=
  blind_bind (blind_requirePhase _) fun _ => blind_bind blind_checksBody fun _ => blind_bind (blind_requireFiletype _) fun _ =>
    blind_bind (blind_modify fun _ _ => rfl) fun _ => blind_bind blind_jqinitBody fun _ => blind_modify fun _ _ => rfl

theorem blind_jhdrBody : RespBlind jhdrBody :=
  blind_bind (blind_requirePhase _) fun _ => blind_bind blind_requireQuant fun _ => blind_get_bind (fun _ _ => rfl) fun _ =>
    blind_bind (blind_outBytes _) fun _ => blind_modify fun _ _ => rfl

theorem blind_jfinBody : RespBlind jfinBody :=
  blind_bind (blind_requirePhase _) fun _ => blind_bind blind_requireQuant fun _ => blind_get_bind (fun _ _ => rfl) fun _ =>
    blind_bind (blind_require _ _) fun _ => blind_bind (blind_push _) fun _ => blind_bind blind_bflushBody fun _ =>
      blind_bind (blind_modify fun _ _ => rfl) fun _ => blind_bind (blind_outBytes _) fun _ => blind_modify fun _ _ => rfl

theorem blind_jencBody : RespBlind jencBody :=
  blind_bind blind_jinitBody fun _ => blind_bind blind_jhdrBody fun _ => blind_bind blind_requireQuant fun _ =>
    blind_get_bind (fun _ _ => rfl) fun _ => blind_bind (blind_repeat blind_jrowBody _) fun _ => blind_jfinBody

/-! 45: the PNG filter. -/

theorem blind_readRow (r n i : Nat) : RespBlind (readRow r i n) := by
  induction n generalizing i with
  | zero => exact blind_pure []
  | succ n ih =>
    exact blind_get_bind (fun _ _ => rfl) fun _ => blind_bind (blind_memRead _) fun _ => blind_bind (ih _) fun _ => blind_pure _

theorem blind_pfiltBody : RespBlind pfiltBody :=
  blind_bind (blind_requirePhase _) fun _ => blind_get_bind (fun _ _ => rfl) fun _ => blind_bind (blind_require _ _) fun _ =>
    blind_bind blind_requirePixel fun _ => blind_bind (blind_readRow _ _ _) fun _ =>
      blind_bind (blind_ite (blind_readRow _ _ _) (blind_pure _)) fun _ => blind_bind (blind_appendFbuf _) fun _ =>
        blind_bind (blind_forM blind_appendFbuf _) fun _ => blind_modify fun _ _ => rfl

/-! 46: the compressor. -/

theorem blind_drainByte : RespBlind drainByte :=
  blind_get_bind (fun _ _ => rfl) fun _ => blind_bind (blind_appendZbuf _) fun _ => blind_modify fun _ _ => rfl

theorem blind_zBits (v n : Nat) : RespBlind (zBits v n) :=
  blind_bind (blind_modify fun _ _ => rfl) fun _ => blind_get_bind (fun _ _ => rfl) fun _ => blind_repeat blind_drainByte _

theorem blind_zExtra (v n : Nat) : RespBlind (zExtra v n) := blind_ite (blind_zBits v n) (blind_pure ())

theorem blind_zbeginBody (a : ZSel) : RespBlind (zbeginBody a) :=
  blind_bind (blind_requirePhase _) fun _ => blind_bind (blind_modify fun _ _ => by cases a <;> rfl) fun _ =>
    blind_bind (blind_appendZbuf _) fun _ => blind_bind (blind_appendZbuf _) fun _ => blind_bind (blind_zBits _ _) fun _ =>
      blind_bind (blind_zBits _ _) fun _ => blind_modify fun _ _ => rfl

theorem blind_countEqual (n p q : Nat) : RespBlind (countEqual n p q) := by
  induction n generalizing p q with
  | zero => exact blind_pure 0
  | succ n ih =>
    exact blind_bind (blind_dataAt _) fun _ => blind_bind (blind_dataAt _) fun _ =>
      blind_ite (blind_bind (ih _ _) fun _ => blind_pure _) (blind_pure 0)

theorem blind_searchMatch (i len : Nat) (ps : List Nat) (best : Nat) (loc : Option Nat) :
    RespBlind (searchMatch i len ps best loc) := by
  induction ps generalizing best loc with
  | nil => exact blind_pure (best, loc)
  | cons p ps ih =>
    exact blind_ite (blind_bind (blind_countEqual _ _ _) fun _ => blind_ite (ih _ _) (ih _ _)) (ih _ _)

theorem blind_lazyBeaten (i len best : Nat) (ps : List Nat) : RespBlind (lazyBeaten i len best ps) := by
  induction ps with
  | nil => exact blind_pure false
  | cons p ps ih => exact blind_ite (blind_bind (blind_countEqual _ _ _) fun _ => blind_ite (blind_pure true) ih) ih

theorem blind_setToken (tok : Token) (zi : Nat) : RespBlind (setToken tok zi) := blind_modify fun _ _ => rfl

theorem blind_searchStep (i len : Nat) : RespBlind (searchStep i len) := by
  refine blind_bind (blind_dataAt _) fun _ => blind_bind (blind_dataAt _) fun _ => blind_bind (blind_dataAt _) fun _ =>
    blind_get_bind (fun _ _ => rfl) fun _ => blind_bind (blind_searchMatch _ _ _ _ _) fun found =>
      blind_bind (blind_modify fun _ _ => rfl) fun _ => ?_
  rcases found with ⟨best, _ | loc⟩
  · exact blind_setToken _ _
  · exact blind_bind (blind_dataAt _) fun _ => blind_get_bind (fun _ _ => rfl) fun _ =>
      blind_bind (blind_lazyBeaten _ _ _ _) fun _ => blind_ite (blind_setToken _ _) (blind_setToken _ _)

theorem blind_lzstepBody : RespBlind lzstepBody :=
  blind_bind (blind_requirePhase _) fun _ => blind_get_bind (fun _ _ => rfl) fun _ => blind_bind (blind_require _ _) fun _ =>
    blind_ite (blind_bind (blind_dataAt _) fun _ => blind_setToken _ _) (blind_searchStep _ _)

theorem blind_emitToken (tok : Token) : RespBlind (emitToken tok) := by
  cases tok with
  | lit b => exact blind_zBits _ _
  | copy len dist =>
    exact blind_bind (blind_require _ _) fun _ => blind_bind (blind_zBits _ _) fun _ => blind_bind (blind_zExtra _ _) fun _ =>
      blind_bind (blind_zBits _ _) fun _ => blind_zExtra _ _

theorem blind_zemitBody : RespBlind zemitBody :=
  blind_bind (blind_requirePhase _) fun _ => blind_bind blind_requireToken fun tok => blind_bind (blind_emitToken tok) fun _ =>
    blind_modify fun _ _ => rfl

theorem blind_zendBody : RespBlind zendBody :=
  blind_bind (blind_requirePhase _) fun _ => blind_get_bind (fun _ _ => rfl) fun _ => blind_bind (blind_require _ _) fun _ =>
    blind_bind (blind_zBits _ _) fun _ =>
      blind_bind (blind_get_bind (fun _ _ => rfl) fun _ => blind_ite (blind_zBits _ _) (blind_pure ())) fun _ =>
        blind_bind (blind_readSelected _ _) fun _ => blind_bind (blind_modify fun _ _ => rfl) fun _ =>
          blind_bind (blind_forM blind_appendZbuf _) fun _ => blind_modify fun _ _ => rfl

theorem blind_compressLoop (n : Nat) : RespBlind (compressLoop n) := by
  induction n with
  | zero => exact blind_pure ()
  | succ n ih =>
    exact blind_get_bind (fun _ _ => rfl) fun _ =>
      blind_ite (blind_bind blind_lzstepBody fun _ => blind_bind blind_zemitBody fun _ => ih) (blind_pure ())

theorem blind_zcompBody (a : ZSel) : RespBlind (zcompBody a) :=
  blind_bind (blind_zbeginBody a) fun _ => blind_get_bind (fun _ _ => rfl) fun _ => blind_bind (blind_compressLoop _) fun _ =>
    blind_zendBody

theorem blind_adlerBody (a : ZSel) : RespBlind (adlerBody a) :=
  blind_bind (blind_requirePhase _) fun _ => blind_bind (blind_readWhole a) fun _ => blind_modify fun _ _ => rfl

/-! 47: chunks. -/

theorem blind_crc32Body (a : MsgSel) : RespBlind (crc32Body a) := by
  refine blind_bind (blind_requirePhase _) fun _ => blind_bind ?_ fun _ => blind_modify fun _ _ => rfl
  refine blind_get_bind (fun _ _ => by cases a <;> rfl) fun s => ?_
  cases a with
  | src => exact blind_readRange _ 0
  | _ => exact blind_pure _

theorem blind_chunkBody (tag : Word) (p : List Byte) : RespBlind (chunkBody tag p) :=
  blind_bind (blind_outBytes _) fun _ => blind_bind (blind_outBytes _) fun _ => blind_bind (blind_outBytes _) fun _ =>
    blind_bind (blind_modify fun _ _ => rfl) fun _ => blind_outBytes _

theorem blind_psigBody : RespBlind psigBody :=
  blind_bind (blind_requirePhase _) fun _ => blind_bind blind_checksBody fun _ => blind_bind (blind_requireFiletype _) fun _ =>
    blind_bind (blind_modify fun _ _ => rfl) fun _ => blind_bind (blind_outBytes _) fun _ =>
      blind_get_bind (fun _ _ => rfl) fun _ => blind_bind (blind_chunkBody _ _) fun _ => blind_modify fun _ _ => rfl

theorem blind_pchunkBody (a : PaySel) : RespBlind (pchunkBody a) :=
  blind_bind (blind_requirePhase _) fun _ => blind_get_bind (fun _ _ => by cases a <;> rfl) fun _ =>
    blind_bind (blind_require _ _) fun _ => blind_bind (blind_chunkBody _ _) fun _ =>
      blind_ite (blind_modify fun _ _ => rfl) (blind_pure ())

theorem blind_pencBody : RespBlind pencBody :=
  blind_bind blind_psigBody fun _ => blind_get_bind (fun _ _ => rfl) fun _ => blind_bind (blind_repeat blind_pfiltBody _) fun _ =>
    blind_bind (blind_zcompBody _) fun _ => blind_get_bind (fun _ _ => rfl) fun _ => blind_bind (blind_chunkBody _ _) fun _ =>
      blind_bind (blind_chunkBody _ _) fun _ => blind_modify fun _ _ => rfl

/-! Every operation. -/

theorem blind_wrregBody (r : WReg) (imm : Word) : RespBlind (wrregBody r imm) := by
  intro v s
  rw [wrregBody, get_bind, get_bind, require_bind, require_bind, require_bind, require_bind, respond_phase]
  split
  · split
    · cases r <;> rfl
    · rfl
  · rfl

/-- No operation reads the response (R284). -/
theorem blind_bodyOf (i : Instr) : RespBlind (bodyOf i) := by
  cases i with
  | wrreg r imm => exact blind_wrregBody r imm
  | rdreg | sreset => exact blind_pure ()
  | validate => exact blind_bind (blind_requirePhase _) fun _ => blind_checksBody
  | jqinit => exact blind_jqinitBody
  | jinit => exact blind_jinitBody
  | jhdr => exact blind_jhdrBody
  | rgb2yuv => exact blind_rgb2yuvBody
  | gray2y => exact blind_gray2yBody
  | yuvload => exact blind_yuvloadBody
  | csub => exact blind_csubBody
  | fdct a => exact blind_fdctBody a
  | qzz a => exact blind_qzzBody a
  | jhuf a => exact blind_jhufBody a
  | jpdu a => exact blind_jpduBody a
  | jgrayuv => exact blind_jgrayuvBody
  | bpush b value => exact blind_bpushBody b value
  | bflush => exact blind_bflushBody
  | jwblk => exact blind_jwblkBody
  | jrow => exact blind_jrowBody
  | jfin => exact blind_jfinBody
  | jenc => exact blind_jencBody
  | pfilt => exact blind_pfiltBody
  | zbegin a => exact blind_zbeginBody a
  | lzstep => exact blind_lzstepBody
  | zemit => exact blind_zemitBody
  | zend => exact blind_zendBody
  | zcomp a => exact blind_zcompBody a
  | adler a => exact blind_adlerBody a
  | crc32 a => exact blind_crc32Body a
  | crcchk imm => exact blind_bind (blind_requirePhase _) fun _ => blind_modify fun _ _ => rfl
  | psig => exact blind_psigBody
  | pchunk a => exact blind_pchunkBody a
  | penc => exact blind_pencBody

end Sys2Proof.Proofs

/-! The composites, 48_system_ops.md R291. Part 2: what a run of commands that ends outside `FAILED` says of their bodies, and the
composites of the JPEG operations. -/

namespace Sys2Proof.Proofs

open Sys2Proof Sys2Proof.Machine Sys2Proof.Laws

/-! Commands one after another. -/

theorem execAll_cons {i : Instr} {is : List Instr} {s u : State} (h : execAll (i :: is) s = some u) :
    ∃ t, exec i s = .next t ∧ execAll is t = some u := by
  rw [execAll] at h
  split at h
  · exact ⟨_, ‹_›, h⟩
  · cases h
  · cases h

/-- A command that ends outside `FAILED` began outside it. -/
theorem exec_began_live {i : Instr} (hi : answersInFailed i = false) {s t : State} (h : exec i s = .next t)
    (ht : t.phase ≠ .failed) : s.phase ≠ .failed := by
  intro hs
  rw [exec_failed hi hs] at h
  cases h
  exact ht hs

/-- Commands that are ignored in `FAILED` do not lead out of it. -/
theorem execAll_failed {is : List Instr} (hi : ∀ i ∈ is, answersInFailed i = false) {s t : State}
    (h : execAll is s = some t) (hs : s.phase = .failed) : t.phase = .failed := by
  induction is generalizing s with
  | nil => cases h; exact hs
  | cons i is ih =>
    obtain ⟨u, hu, hrest⟩ := execAll_cons h
    rw [exec_failed (hi i List.mem_cons_self) hs] at hu
    cases hu
    exact ih (fun j hj => hi j (List.mem_cons_of_mem _ hj)) hrest hs

/-- What a body that overlooks the response does from a state with another one. -/
theorem RespBlind.ok {b : Body Unit} (hb : RespBlind b) {s t : State} {v : Word} (h : b (s.respond v) = .ok () t) :
    ∃ u, b s = .ok () u ∧ t = u.respond v := by
  rw [hb v s] at h
  cases hr : b s with
  | ok a u => rw [hr] at h; cases h; exact ⟨u, rfl, rfl⟩
  | error c u => rw [hr] at h; cases h

/-- A command that raised no fault is its body, whatever response stood there. -/
theorem exec_respond_ok {i : Instr} (hi : answersInFailed i = false) {s t : State} (h : exec i (s.respond 0) = .next t)
    (ht : t.phase ≠ .failed) : ∃ u, bodyOf i s = .ok () u ∧ t = u.respond 0 := by
  obtain ⟨u, hbody, rfl⟩ := exec_ok hi h (exec_began_live hi h ht) ht
  obtain ⟨w, hw, rfl⟩ := (blind_bodyOf i).ok hbody
  exact ⟨w, hw, rfl⟩

/-- Commands that end outside `FAILED` do what their bodies do in sequence, and the last of them answers 0. -/
theorem execAll_bodies {is : List Instr} (hi : ∀ i ∈ is, answersInFailed i = false) (hne : is ≠ []) {s t : State}
    (h : execAll is s = some t) (ht : t.phase ≠ .failed) : ∃ u, is.forM bodyOf s = .ok () u ∧ t = u.respond 0 := by
  induction is generalizing s with
  | nil => exact absurd rfl hne
  | cons i is ih =>
    have his : ∀ j ∈ is, answersInFailed j = false := fun j hj => hi j (List.mem_cons_of_mem _ hj)
    obtain ⟨s1, h1, hrest⟩ := execAll_cons h
    have hlive : s1.phase ≠ .failed := fun hp => ht (execAll_failed his hrest hp)
    have hhead := hi i List.mem_cons_self
    obtain ⟨u1, hbody, rfl⟩ := exec_ok hhead h1 (exec_began_live hhead h1 hlive) hlive
    rw [forM_cons_apply, bind_ok hbody]
    cases is with
    | nil => cases hrest; exact ⟨u1, rfl, rfl⟩
    | cons j js =>
      obtain ⟨u, hu, rfl⟩ := ih his (List.cons_ne_nil j js) hrest
      obtain ⟨w, hw, rfl⟩ := (blind_forM blind_bodyOf (j :: js)).ok hu
      exact ⟨w, hw, rfl⟩

/-- A composite whose body does what the bodies of its parts do in sequence does what its parts do as commands. -/
theorem exec_composite {i : Instr} {is : List Instr} (hi : ∀ j ∈ i :: is, answersInFailed j = false) (hne : is ≠ [])
    {s t : State} (hbody : ∀ u, is.forM bodyOf s = .ok () u → bodyOf i s = .ok () u) (h : execAll is s = some t)
    (ht : t.phase ≠ .failed) : exec i s = .next t := by
  have his : ∀ j ∈ is, answersInFailed j = false := fun j hj => hi j (List.mem_cons_of_mem _ hj)
  obtain ⟨u, hu, rfl⟩ := execAll_bodies his hne h ht
  have hs : s.phase ≠ .failed := fun hp => ht (execAll_failed his h hp)
  rw [exec_eq_command (hi i List.mem_cons_self)]
  exact command_ok hs (hbody u hu)

/-! The bodies of lists of commands. -/

theorem forM_append_bind {α : Type} (f : α → Body Unit) (l m : List α) :
    (l ++ m).forM f = (do l.forM f; m.forM f) := List.forM_append

theorem forM_singleton {α : Type} (f : α → Body Unit) (a : α) : [a].forM f = f a := by
  simp

theorem forM_replicate (i : Instr) (n : Nat) : (List.replicate n i).forM bodyOf = repeatBody n (bodyOf i) := by
  induction n with
  | zero => rfl
  | succ n ih =>
    funext s
    rw [List.replicate_succ, forM_cons_apply, ih, repeat_succ_apply]

/-! `JPDU`, R159. -/

theorem jpdu_parts (a : Comp) : [Instr.qzz (compTable a), .jhuf a].forM bodyOf = jpduBody a := by
  simp [jpduBody, bodyOf]

/-! `JWBLK`, R186 to R189. -/

/-- The commands of a macroblock are the body of its variant. -/
theorem macroblockParts_forM (s : State) (q : Quant) : (macroblockParts s q).forM bodyOf s = variantBody q.wbvar s := by
  unfold macroblockParts
  cases q.wbvar with
  | subs =>
    rw [variantBody, subsBody, get_bind]
    by_cases hgray : s.pixfmt = pixGray8 <;> simp [hgray, codeLuma16, codeChroma, codeBlock, bodyOf]
  | full =>
    rw [variantBody, fullBody, get_bind]
    by_cases hgray : s.pixfmt = pixGray8 <;> simp [hgray, codeChroma, codeBlock, bodyOf]
  | nv12 | yuv420p => simp [variantBody, planarBody, codeLuma16, codeChroma, codeBlock, bodyOf]

theorem macroblockParts_ne_nil (s : State) (q : Quant) : macroblockParts s q ≠ [] := by
  unfold macroblockParts
  cases q.wbvar with
  | subs | full => dsimp only; split <;> simp
  | nv12 | yuv420p => simp

theorem macroblockParts_commands (s : State) (q : Quant) : ∀ i ∈ macroblockParts s q, answersInFailed i = false := by
  unfold macroblockParts
  cases q.wbvar with
  | subs | full => dsimp only; split <;> decide
  | nv12 | yuv420p => dsimp only; decide

/-- The counters after a macroblock as a record update, with the response of the macroblock's last command. -/
theorem respond_nextMacroblock_eq {s t : State} (q : Quant) (hx : t.mbx = s.mbx) (hy : t.mby = s.mby) :
    (t.nextMacroblock q).respond 0 = { t.respond 0 with
      mbx := if (s.mbx + 1).toNat = q.awidth.toNat / q.block.side then 0 else s.mbx + 1,
      mby := if (s.mbx + 1).toNat = q.awidth.toNat / q.block.side then s.mby + 1 else s.mby, phase := .jBody } := by
  simp only [State.nextMacroblock, blocksPerBand, hx, hy]
  split
  · rfl
  · rw [← hy]
    rfl

/-- After its variant's body a macroblock steps the counters and flushes a full buffer. -/
theorem jwblkBody_apply {s t : State} {q : Quant} (hp : s.phase.allowsScan = true) (hq : s.quant = some q)
    (hrow : s.mby.toNat < bandCount s q) (hv : variantBody q.wbvar s = .ok () t) :
    jwblkBody s = if 1280 < t.bb.length then bflushBody (t.nextMacroblock q) else .ok () (t.nextMacroblock q) := by
  have hbb : (t.nextMacroblock q).bb = t.bb := (sameScan_nextMacroblock t q).1
  rw [jwblkBody, requirePhase_bind, if_pos hp, requireQuant_bind_some hq, get_bind, require_bind, if_pos (by simpa using hrow),
    bind_ok hv, modify_bind, get_bind, bbFull_eq, hbb]
  by_cases hfull : 1280 < t.bb.length <;> simp [hfull]

theorem jwblk_composite {s t : State} {q : Quant} (hq : s.quant = some q) (hp : s.phase.allowsScan = true)
    (hrow : s.mby.toNat < bandCount s q) (h : execAll (macroblockParts s q) s = some t) (ht : t.phase ≠ .failed) :
    let last := (s.mbx + 1).toNat = q.awidth.toNat / q.block.side
    let u : State := { t with
      mbx := if last then 0 else s.mbx + 1, mby := if last then s.mby + 1 else s.mby, phase := .jBody }
    (t.bb.length ≤ 1280 → exec .jwblk s = .next u) ∧
    (1280 < t.bb.length → ∀ v, exec .bflush u = .next v → v.phase ≠ .failed → exec .jwblk s = .next v) := by
  obtain ⟨w, hw, rfl⟩ := execAll_bodies (macroblockParts_commands s q) (macroblockParts_ne_nil s q) h ht
  rw [macroblockParts_forM] at hw
  obtain ⟨hx, hy, -⟩ := variantBody_samePosition hw
  dsimp only
  rw [← respond_nextMacroblock_eq q hx hy, respond_bb]
  have hbody := jwblkBody_apply hp hq hrow hw
  refine ⟨fun hroom => command_ok (allowsScan_ne_failed hp) (hbody.trans (if_neg (Nat.not_lt.mpr hroom))), fun hfull v hv hlive => ?_⟩
  obtain ⟨x, hflush, rfl⟩ := exec_respond_ok rfl hv hlive
  exact command_ok (allowsScan_ne_failed hp) ((hbody.trans (if_pos hfull)).trans hflush)

/-! `JROW`, R208. -/

theorem jrowBody_parts {s t : State} {q : Quant} {n : Nat} (hq : s.quant = some q) (hx : s.mbx = 0)
    (hn : n + 1 = blocksPerBand q) (h : repeatBody (n + 1) jwblkBody s = .ok () t) : jrowBody s = .ok () t := by
  obtain ⟨_, u, hfirst, -⟩ := bind_ok_inv h
  obtain ⟨hp, hfirst⟩ := requirePhase_bind_ok hfirst
  rw [requireQuant_bind_some hq, get_bind] at hfirst
  obtain ⟨hrow, -⟩ := require_bind_ok hfirst
  rw [jrowBody, requirePhase_bind, if_pos hp, requireQuant_bind_some hq, get_bind, require_bind,
    if_pos (by rw [hrow, hx]; rfl), ← hn, h]

/-! `JENC`, R210. -/

/-- After `JINIT` and `JHDR` the tables are those of the image, and the row bands are counted as before. -/
theorem jencBody_parts {s t : State}
    (h : (do jinitBody; jhdrBody; repeatBody (bandCount s (quantOf s)) jrowBody; jfinBody : Body Unit) s = .ok () t) :
    jencBody s = .ok () t := by
  obtain ⟨_, s1, h1, h⟩ := bind_ok_inv h
  obtain ⟨_, s2, h2, h⟩ := bind_ok_inv h
  rw [jencBody, bind_ok h1, bind_ok h2]
  have hq1 : s1.quant = some (quantOf s) := by
    obtain ⟨-, -, rfl⟩ := jinitBody_ok h1
    rfl
  obtain ⟨-, -, -, hq2⟩ : SameSetup s1 s2 := keeps_ok (keeps_sameSetup (i := .jhdr) (fun _ _ => nofun) nofun nofun nofun) h2
  have hcfg1 : SameConfig s s1 := keeps_ok (keeps_sameConfig (i := .jinit) fun _ _ => nofun) h1
  have hcfg2 : SameConfig s1 s2 := keeps_ok (keeps_sameConfig (i := .jhdr) fun _ _ => nofun) h2
  rw [requireQuant_bind_some (hq2.trans hq1), get_bind, bandCount_of_sameConfig _ (chains_sameConfig.trans _ _ _ hcfg1 hcfg2)]
  exact h

theorem jenc_parts (n : Nat) : ([Instr.jinit, .jhdr] ++ List.replicate n Instr.jrow ++ [Instr.jfin]).forM bodyOf =
    (do jinitBody; jhdrBody; repeatBody n jrowBody; jfinBody) := by
  rw [forM_append_bind, forM_append_bind, forM_replicate]
  simp [bodyOf]

end Sys2Proof.Proofs

/-! The composites, 48_system_ops.md R291. Part 3: `ZCOMP` (R248) and `PENC` (R266), and the statement. -/

namespace Sys2Proof.Proofs

open Sys2Proof Sys2Proof.Machine Sys2Proof.Laws

/-! `ZCOMP`, R248. -/

/-- One token: `LZSTEP` and then `ZEMIT`. -/
def tokenRound : Body Unit := do
  lzstepBody
  zemitBody

theorem flatten_replicate_forM (is : List Instr) (n : Nat) :
    (List.replicate n is).flatten.forM bodyOf = repeatBody n (is.forM bodyOf) := by
  induction n with
  | zero => rfl
  | succ n ih =>
    funext s
    rw [List.replicate_succ, List.flatten_cons, forM_append_bind, ih, repeat_succ_apply]

theorem zcomp_parts (a : ZSel) (n : Nat) :
    ([Instr.zbegin a] ++ (List.replicate n [Instr.lzstep, .zemit]).flatten ++ [Instr.zend]).forM bodyOf =
      (do zbeginBody a; repeatBody n tokenRound; zendBody) := by
  rw [forM_append_bind, forM_append_bind, flatten_replicate_forM]
  simp [bodyOf, tokenRound]

/-- `LZSTEP` advances the position within the input (R236, R324). -/
theorem lzstepBody_advances {s t : State} {u : Unit} (h : lzstepBody s = .ok u t) (hs : RunInv s) :
    s.zi.toNat < s.zlen.toNat ∧ s.zi.toNat < t.zi.toNat ∧ t.zlen = s.zlen := by
  obtain ⟨hready, hstep⟩ := lzstepBody_ok h
  obtain ⟨hrun, -, hlt⟩ := (lzReady_iff s).mp hready
  obtain ⟨-, -, htable, -⟩ := hs hrun
  refine ⟨hlt, ?_⟩
  rcases hstep with ⟨b, rfl⟩ | ⟨-, hsearch⟩
  · exact ⟨(Nat.lt_succ_self _).trans_eq (toNat_ofNat_le hlt).symm, rfl⟩
  · obtain ⟨g, tok, z, hchosen, rfl⟩ := searchStep_ok hsearch
    obtain ⟨-, hafter, hwithin⟩ := chosen_inRange hchosen (fun p hp => ((htable g).2 p hp).1) hlt
    exact ⟨hafter.trans_eq (toNat_ofNat_le hwithin).symm, rfl⟩

theorem zemitBody_samePosition : Keeps (fun s t => (t.zi, t.zlen) = (s.zi, s.zlen)) zemitBody :=
  keeps_zemitBody (chains_observation fun s => (s.zi, s.zlen)) (by constructor <;> intros <;> rfl) fun _ _ => rfl

/-- Rounds that lead to the end of the input are those of the loop, whatever rounds it has to spare. -/
theorem compressLoop_of_rounds (n : Nat) {k : Nat} {s t : State} (hs : RunInv s) (h : repeatBody n tokenRound s = .ok () t)
    (hend : t.zi = t.zlen) (hk : s.zlen.toNat ≤ s.zi.toNat + k) : compressLoop k s = .ok () t := by
  induction n generalizing s k with
  | zero =>
    cases h
    cases k with
    | zero => rfl
    | succ k => rw [compressLoop, get_bind, hend, if_neg (Nat.lt_irrefl _)]; rfl
  | succ n ih =>
    obtain ⟨_, s2, hround, hrest⟩ := bind_ok_inv h
    obtain ⟨_, s1, hstep, hemit⟩ := bind_ok_inv hround
    obtain ⟨hlt, hafter, hlen⟩ := lzstepBody_advances hstep hs
    obtain ⟨hzi, hzlen⟩ := Prod.mk.inj (keeps_ok zemitBody_samePosition hemit)
    have hs2 : RunInv s2 := (guards_zemitBody_run s1 ((guards_lzstepBody_run s hs).ok hstep)).ok hemit
    obtain ⟨k, rfl⟩ : ∃ j, k = j + 1 := Nat.exists_eq_succ_of_ne_zero (by omega)
    rw [compressLoop, get_bind, if_pos hlt, bind_ok hstep, bind_ok hemit]
    exact ih hs2 hrest (by rw [hzi, hzlen, hlen]; omega)

theorem zcompBody_parts {a : ZSel} {n : Nat} {s t : State}
    (h : (do zbeginBody a; repeatBody n tokenRound; zendBody : Body Unit) s = .ok () t) : zcompBody a s = .ok () t := by
  obtain ⟨_, s1, hbegin, h⟩ := bind_ok_inv h
  obtain ⟨_, s2, hrounds, hfinish⟩ := bind_ok_inv h
  have hend : s2.zi = s2.zlen := by
    obtain ⟨-, hready⟩ := requirePhase_bind_ok hfinish
    rw [get_bind] at hready
    exact ((zendReady_iff s2).mp (require_bind_ok hready).1).2.2
  have hloop := compressLoop_of_rounds n (fun _ => zbeginBody_ok hbegin) hrounds hend (Nat.le_add_left _ _)
  rw [zcompBody, bind_ok hbegin, get_bind, bind_ok hloop, hfinish]

/-! `PENC`, R266. -/

/-- A chunk neither reads nor writes `CTYPE`. -/
theorem chunkBody_overlooks_ctype (w tag : Word) (p : List Byte) :
    Overlooks (fun s => s.writeReg .ctype w) (chunkBody tag p) := by
  have hout : ∀ bs, Overlooks (fun s => s.writeReg .ctype w) (outBytes bs) := fun bs s => by
    show outBytes bs { s with ctype := w } = _
    unfold outBytes
    dsimp only
    split <;> rfl
  exact overlooks_bind (hout _) fun _ => overlooks_bind (hout _) fun _ => overlooks_bind (hout _) fun _ =>
    overlooks_bind (fun _ => rfl) fun _ => hout _

/-- A chunk written after `CTYPE` is the chunk written before it. -/
theorem chunkBody_writeReg_ok {w tag : Word} {p : List Byte} {s t : State} {u : Unit}
    (h : chunkBody tag p (s.writeReg .ctype w) = .ok u t) : ∃ v, chunkBody tag p s = .ok () v ∧ t = v.writeReg .ctype w := by
  rw [chunkBody_overlooks_ctype w tag p s] at h
  cases hr : chunkBody tag p s with
  | ok a v => rw [hr] at h; cases h; exact ⟨v, rfl, rfl⟩
  | error c v => rw [hr] at h; cases h

theorem pchunkBody_ok {a : PaySel} {s t : State} {u : Unit} (h : pchunkBody a s = .ok u t) :
    ∃ v, chunkBody s.ctype (chunkPayload s a) s = .ok () v ∧ t = if s.ctype = tagIend then { v with phase := .pDone } else v := by
  obtain ⟨-, h⟩ := requirePhase_bind_ok h
  rw [get_bind] at h
  obtain ⟨-, h⟩ := require_bind_ok h
  obtain ⟨_, v, hv, h⟩ := bind_ok_inv h
  refine ⟨v, hv, ?_⟩
  split at h <;> cases h
  · rw [if_pos ‹_›]
  · rw [if_neg ‹_›]

/-- The two chunks after the stream, as `PCHUNK` writes them. -/
def finishPng : Body Unit := do
  wrregBody .ctype 0x49444154
  pchunkBody .zbuf
  wrregBody .ctype 0x49454E44
  pchunkBody .empty

/-- The commands whose effect `PENC` has, for an image of `n` rows (R266). -/
def pencParts (n : Nat) : List Instr :=
  [Instr.psig] ++ List.replicate n Instr.pfilt ++
    [Instr.zcomp .fbuf, Instr.wrreg .ctype 0x49444154, Instr.pchunk .zbuf, Instr.wrreg .ctype 0x49454E44, Instr.pchunk .empty]

theorem pencParts_forM (n : Nat) :
    (pencParts n).forM bodyOf = (do psigBody; repeatBody n pfiltBody; zcompBody .fbuf; finishPng) := by
  rw [pencParts, forM_append_bind, forM_append_bind, forM_replicate]
  simp [bodyOf, finishPng]

theorem pencParts_commands (n : Nat) : ∀ i ∈ pencParts n, answersInFailed i = false := by
  simp [pencParts, or_imp, forall_and, answersInFailed]

/-- `PENC` writes the two chunks and leaves `CTYPE`. -/
theorem finishPng_ok {s t : State} (h : finishPng s = .ok () t) : ∃ v w, chunkBody tagIdat s.zbuf s = .ok () v ∧
    chunkBody tagIend [] v = .ok () w ∧ t = State.writeReg { w with phase := .pDone } .ctype tagIend := by
  obtain ⟨_, s1, h1, h⟩ := bind_ok_inv h
  obtain ⟨-, rfl⟩ := wrregBody_ok h1
  obtain ⟨_, s2, h2, h⟩ := bind_ok_inv h
  obtain ⟨v', hchunk, rfl⟩ := pchunkBody_ok h2
  obtain ⟨v, hv, rfl⟩ := chunkBody_writeReg_ok hchunk
  obtain ⟨_, s3, h3, h⟩ := bind_ok_inv h
  obtain ⟨-, rfl⟩ := wrregBody_ok h3
  obtain ⟨w', hchunk', rfl⟩ := pchunkBody_ok h
  have hiend : chunkBody tagIend [] (v.writeReg .ctype tagIend) = .ok () w' := hchunk'
  obtain ⟨w, hw, rfl⟩ := chunkBody_writeReg_ok hiend
  exact ⟨v, w, hv, hw, if_pos rfl⟩

/-- The body of `PENC` does what its parts do, but for `CTYPE`. -/
theorem pencBody_parts {s t : State}
    (h : (do psigBody; repeatBody s.height.toNat pfiltBody; zcompBody .fbuf; finishPng : Body Unit) s = .ok () t) :
    pencBody s = .ok () { t with ctype := s.ctype } := by
  obtain ⟨_, s1, hsig, h⟩ := bind_ok_inv h
  obtain ⟨_, s2, hrows, h⟩ := bind_ok_inv h
  obtain ⟨_, s3, hstream, h⟩ := bind_ok_inv h
  obtain ⟨v, w, hidat, hiend, rfl⟩ := finishPng_ok h
  have hheight : s1.height = s.height := by
    have hcfg : SameConfig s s1 := keeps_ok (keeps_sameConfig (i := .psig) fun _ _ => nofun) hsig
    simp only [SameConfig] at hcfg
    simp only [hcfg]
  have hbody : pencBody s = .ok () { w with phase := .pDone } := by
    rw [pencBody, bind_ok hsig, get_bind, hheight, bind_ok hrows, bind_ok hstream, get_bind, bind_ok hidat, bind_ok hiend]
    rfl
  have hctype : w.ctype = s.ctype := by
    have hcfg : SameConfig s { w with phase := .pDone } := keeps_ok (keeps_sameConfig (i := .penc) fun _ _ => nofun) hbody
    simp only [SameConfig] at hcfg
    simp only [hcfg]
  rw [hbody, ← hctype]
  rfl

theorem penc_composite {s t : State} (h : execAll (pencParts s.height.toNat) s = some t) (ht : t.phase ≠ .failed) :
    exec .penc s = .next { t with ctype := s.ctype } := by
  have hi := pencParts_commands s.height.toNat
  have hs : s.phase ≠ .failed := fun hp => ht (execAll_failed hi h hp)
  obtain ⟨u, hu, rfl⟩ := execAll_bodies hi (by simp [pencParts]) h ht
  rw [pencParts_forM] at hu
  exact command_ok hs (pencBody_parts hu)

/-- Settles O46: the parts' bodies in sequence are the composite's body. -/
theorem compositesAreTheirParts : Obligations.CompositesAreTheirParts := by
  intro s t ht
  refine ⟨fun a h => ?_, fun q hq hp hrow h => jwblk_composite hq hp hrow h ht, fun q n hq hx hn h => ?_, fun h => ?_,
    fun a n h => ?_, fun h => penc_composite h ht⟩
  · exact exec_composite (by simp [answersInFailed]) (by simp) (fun u hu => by rwa [jpdu_parts] at hu) h ht
  · exact exec_composite (by simp [answersInFailed]) (by simp)
      (fun u hu => jrowBody_parts hq hx hn (by rwa [forM_replicate] at hu)) h ht
  · exact exec_composite (by simp [answersInFailed, or_imp, forall_and]) (by simp)
      (fun u hu => jencBody_parts (by rwa [jenc_parts] at hu)) h ht
  · exact exec_composite (by simp [answersInFailed, or_imp, forall_and]) (by simp)
      (fun u hu => zcompBody_parts (by rwa [zcomp_parts] at hu)) h ht

end Sys2Proof.Proofs

/-! Faults of the body, 60_exceptions.md R303 step 6. Part 1: bodies that end well or raise one given fault, and the reads: an unmapped
address of SRC (R61) and an unwritten element (R40). -/

namespace Sys2Proof.Proofs

open Sys2Proof Sys2Proof.Machine Sys2Proof.Laws

/-! Bodies that can raise one fault only. -/

section
variable {α β : Type} {c : FaultCode}

/-- From `s` the body ends well, as `Q` says, or raises `c`. -/
def EndsOr (c : FaultCode) (b : Body α) (s : State) (Q : α → State → Prop) : Prop :=
  (∃ a t, b s = .ok a t ∧ Q a t) ∨ ∃ t, b s = .error c t

theorem endsOr_of_ok {b : Body α} {s t : State} {a : α} {Q : α → State → Prop} (h : b s = .ok a t) (hQ : Q a t) :
    EndsOr c b s Q := .inl ⟨a, t, h, hQ⟩

theorem endsOr_bind {x : Body α} {f : α → Body β} {s : State} {P : α → State → Prop} {Q : β → State → Prop}
    (hx : EndsOr c x s P) (hf : ∀ a t, P a t → EndsOr c (f a) t Q) : EndsOr c (x >>= f) s Q := by
  rcases hx with ⟨a, t, h, hP⟩ | ⟨t, h⟩
  · unfold EndsOr
    rw [bind_ok h]
    exact hf a t hP
  · exact .inr ⟨t, bind_error h⟩

theorem endsOr_get_bind {f : State → Body β} {s : State} {Q : β → State → Prop} (h : EndsOr c (f s) s Q) :
    EndsOr c ((get : Body State) >>= f) s Q := h

theorem endsOr_modify_bind {g : State → State} {f : Unit → Body β} {s : State} {Q : β → State → Prop}
    (h : EndsOr c (f ()) (g s) Q) : EndsOr c ((modify g : Body Unit) >>= f) s Q := h

theorem EndsOr.imp {b : Body α} {s : State} {P Q : α → State → Prop} (h : EndsOr c b s P) (hPQ : ∀ a t, P a t → Q a t) :
    EndsOr c b s Q := h.imp_left fun ⟨a, t, hb, hP⟩ => ⟨a, t, hb, hPQ a t hP⟩

/-- Where a good end cannot be, the fault is. -/
theorem EndsOr.fails {b : Body α} {s : State} {Q : α → State → Prop} (h : EndsOr c b s Q) (hQ : ∀ a t, ¬ Q a t) :
    ∃ t, b s = .error c t := h.resolve_left fun ⟨a, t, _, hq⟩ => hQ a t hq

/-- A loop whose rounds keep `I` and each establish their part of `P`. -/
theorem endsOr_forM {I : State → Prop} {P : α → Prop} {f : α → Body Unit}
    (h : ∀ a s, I s → EndsOr c (f a) s fun _ t => I t ∧ P a) (l : List α) {s : State} (hs : I s) :
    EndsOr c (l.forM f) s fun _ t => I t ∧ ∀ a ∈ l, P a := by
  induction l generalizing s with
  | nil => exact endsOr_of_ok rfl ⟨hs, nofun⟩
  | cons a l ih =>
    exact endsOr_bind (h a s hs) fun _ t ⟨ht, ha⟩ => (ih ht).imp fun _ u ⟨hu, hl⟩ =>
      ⟨hu, fun b hb => (List.mem_cons.mp hb).elim (fun e => e ▸ ha) (hl b)⟩

theorem endsOr_forGrid {I : State → Prop} {P : Nat → Nat → Bool} {f : Nat → Nat → Body Unit}
    (h : ∀ j i s, I s → EndsOr c (f j i) s fun _ t => I t ∧ P j i = true) (rows cols : Nat) {s : State} (hs : I s) :
    EndsOr c (forGrid rows cols f) s fun _ t => I t ∧ allGrid rows cols P = true :=
  (endsOr_forM (fun j _ hj => endsOr_forM (h j) (List.range cols) hj) (List.range rows) hs).imp fun _ _ ⟨ht, hall⟩ =>
    ⟨ht, allGrid_iff.mpr fun j i hj hi => hall j (List.mem_range.mpr hj) i (List.mem_range.mpr hi)⟩

end

/-- A command whose body raises a fault ends in `FAILED` with its code. -/
theorem raises_of_error (i : Instr) (c : FaultCode) {s : State} (hp : s.phase ≠ .failed) (h : ∃ t, bodyOf i s = .error c t)
    (hi : answersInFailed i = false := by rfl) : raises i s c.code := by
  obtain ⟨t, ht⟩ := h
  exact ⟨t.takeFault c i.opcode.byte, (exec_eq_command hi s).trans (command_error hp ht), rfl, rfl, rfl⟩

/-! Unmapped addresses in the conversion kernels. A loop keeps what the reads depend on, and ends well only if all are mapped. -/

theorem endsOr_memRead (a : Word) (s : State) : EndsOr .srcAccess (memRead a) s fun _ t => t = s ∧ s.srcMapped a = true := by
  cases hm : s.srcMapped a with
  | true => exact endsOr_of_ok (memRead_srcMapped hm) ⟨rfl, rfl⟩
  | false => exact .inr ⟨s, memRead_srcUnmapped hm⟩

/-- The reads of the kernels find in `t` what they find in `s`. -/
def SameSamples (s t : State) : Prop := sampleView t = sampleView s

section
variable {s t : State}

theorem sampleMapped_same (h : SameSamples s t) (side bpp : Nat) (k : Nat × Nat × Nat) (j i : Nat) :
    sampleMapped t side bpp k j i = sampleMapped s side bpp k j i := by
  show sampleMapped (sampleView t) side bpp k j i = _
  rw [h]
  rfl

theorem endsOr_pixelByte (h : SameSamples s t) (side bpp k j i : Nat) :
    EndsOr .srcAccess (pixelByte side bpp k j i) t fun _ u => u = t ∧ s.srcMapped (sampleAddr s side bpp k j i) = true := by
  have hsame : t.srcMapped (sampleAddr t side bpp k j i) = s.srcMapped (sampleAddr s side bpp k j i) := by
    show (sampleView t).srcMapped (sampleAddr (sampleView t) side bpp k j i) = _
    rw [h]
    rfl
  exact hsame ▸ endsOr_memRead (sampleAddr t side bpp k j i) t

theorem endsOr_graySample (q : Quant) (j i : Nat) (h : SameSamples s t) :
    EndsOr .srcAccess (graySample q j i) t fun _ u =>
      SameSamples s u ∧ s.srcMapped (sampleAddr s q.block.side 1 0 j i) = true :=
  endsOr_bind (endsOr_pixelByte h _ _ _ _ _) fun _ _ ⟨hu, hm⟩ => endsOr_of_ok rfl ⟨hu ▸ h, hm⟩

theorem gray2yBody_unmapped {q : Quant} (hp : s.phase.allowsKernel = true) (hq : s.quant = some q) (hk : s.srckind = srcPixel)
    (hf : s.pixfmt = pixGray8) (hm : grayMapped s q.block.side = false) : ∃ t, gray2yBody s = .error .srcAccess t := by
  rw [gray2yBody, conversionStart_bind hp hq, get_bind, require_bind, if_pos (by simp [hk, hf])]
  exact (endsOr_forGrid (fun j i _ => endsOr_graySample q j i) q.block.side q.block.side (rfl : SameSamples s s)).fails
    fun _ _ ⟨_, hall⟩ => Bool.false_ne_true (hm.symm.trans hall)

theorem endsOr_colourSample (q : Quant) (bpp : Nat) (k : Nat × Nat × Nat) (j i : Nat) (h : SameSamples s t) :
    EndsOr .srcAccess (colourSample q bpp k j i) t fun _ u =>
      SameSamples s u ∧ sampleMapped s q.block.side bpp k j i = true := by
  refine endsOr_bind (endsOr_pixelByte h _ _ _ _ _) ?_
  rintro _ _ ⟨rfl, hr⟩
  refine endsOr_bind (endsOr_pixelByte h _ _ _ _ _) ?_
  rintro _ _ ⟨rfl, hg⟩
  refine endsOr_bind (endsOr_pixelByte h _ _ _ _ _) ?_
  rintro _ _ ⟨rfl, hb⟩
  refine endsOr_of_ok rfl ⟨?_, by simp [sampleMapped, hr, hg, hb]⟩
  cases q.subsample <;> exact h

theorem rgb2yuvBody_unmapped {q : Quant} {bpp : Nat} {k : Nat × Nat × Nat} (hp : s.phase.allowsKernel = true)
    (hq : s.quant = some q) (hk : s.srckind = srcPixel) (hf : channelOffsets s.pixfmt = some k)
    (hb : bytesPerPixel s.pixfmt = some bpp) (hm : colourMapped s q.block.side bpp k = false) :
    ∃ t, rgb2yuvBody s = .error .srcAccess t := by
  rw [rgb2yuvBody, conversionStart_bind hp hq, requireColour_bind hk hf, get_bind, hb]
  exact (endsOr_forGrid (fun j i _ => endsOr_colourSample q bpp k j i) q.block.side q.block.side (rfl : SameSamples s s)).fails
    fun _ _ ⟨_, hall⟩ => Bool.false_ne_true (hm.symm.trans hall)

theorem endsOr_planarLuma (q : Quant) (j i : Nat) (h : SameSamples s t) :
    EndsOr .srcAccess (planarLuma q j i) t fun _ u =>
      SameSamples s u ∧ s.srcMapped (yAddr s (pixelX s q.block.side i) (pixelY s q.block.side j)) = true := by
  have hsame : t.srcMapped (yAddr t (pixelX t q.block.side i) (pixelY t q.block.side j)) =
      s.srcMapped (yAddr s (pixelX s q.block.side i) (pixelY s q.block.side j)) := by
    show (sampleView t).srcMapped (yAddr (sampleView t) (pixelX (sampleView t) _ i) (pixelY (sampleView t) _ j)) = _
    rw [h]
    rfl
  exact endsOr_get_bind (endsOr_bind (endsOr_memRead _ t) fun _ _ ⟨hu, hm⟩ => endsOr_of_ok rfl ⟨hu ▸ h, hsame ▸ hm⟩)

theorem planarMapped_same (h : SameSamples s t) (j i : Nat) :
    t.srcMapped (planarUAddr t j i) = s.srcMapped (planarUAddr s j i) ∧
    t.srcMapped (planarVAddr t j i) = s.srcMapped (planarVAddr s j i) := by
  show (sampleView t).srcMapped (planarUAddr (sampleView t) j i) = _ ∧
    (sampleView t).srcMapped (planarVAddr (sampleView t) j i) = _
  rw [h]
  exact ⟨rfl, rfl⟩

theorem endsOr_planarChroma (j i : Nat) (h : SameSamples s t) :
    EndsOr .srcAccess (planarChroma j i) t fun _ u =>
      SameSamples s u ∧ (s.srcMapped (planarUAddr s j i) && s.srcMapped (planarVAddr s j i)) = true := by
  obtain ⟨hu, hv⟩ := planarMapped_same h j i
  refine endsOr_get_bind (endsOr_bind (endsOr_memRead _ t) ?_)
  rintro ub _ ⟨rfl, hmu⟩
  refine endsOr_modify_bind (endsOr_bind (endsOr_memRead _ _) ?_)
  rintro vb _ ⟨rfl, hmv⟩
  refine endsOr_of_ok rfl ⟨h, ?_⟩
  rw [← hu, ← hv, hmu]
  exact hmv

theorem yuvloadBody_unmapped {q : Quant} (hp : s.phase.allowsKernel = true) (hq : s.quant = some q)
    (hk : s.srckind = srcNv12 ∨ s.srckind = srcYuv420p) (hm : planarMapped s q.block.side = false) :
    ∃ t, yuvloadBody s = .error .srcAccess t := by
  rw [yuvloadBody, conversionStart_bind hp hq, get_bind, require_bind, if_pos (by simpa using hk)]
  refine EndsOr.fails (Q := fun _ _ => planarMapped s q.block.side = true) ?_
    fun _ _ hall => Bool.false_ne_true (hm.symm.trans hall)
  refine endsOr_bind (endsOr_forGrid (fun j i _ => endsOr_planarLuma q j i) 16 16 (rfl : SameSamples s s)) ?_
  rintro _ t ⟨ht, hluma⟩
  refine (endsOr_forGrid (fun j i _ => endsOr_planarChroma j i) 8 8 ht).imp ?_
  rintro _ u ⟨-, hchroma⟩
  rw [planarMapped, hluma, hchroma]
  rfl

end

/-! Unwritten elements. -/

theorem allWritten_eq_none {α : Type} {xs : List (Option α)} (h : none ∈ xs) : allWritten xs = none := by
  induction xs with
  | nil => cases h
  | cons x xs ih =>
    cases x with
    | none => rfl
    | some x =>
      have htail : none ∈ xs := by simpa using h
      rw [allWritten, ih htail]

theorem allWritten_unwritten {α : Type} {m n : Nat} {v : Vector (Option α) m} (hn : n < m) (h : element v n = none) :
    allWritten v.toList = none := by
  refine allWritten_eq_none (Vector.mem_toList_iff.mpr ?_)
  have hget : v[n] = none := by simpa [element, hn] using h
  exact hget ▸ Vector.getElem_mem hn

section
variable {s : State}

theorem fdctBody_unwritten (a : BlockSel) (hp : s.phase.allowsKernel = true) {n : Nat} (hn : n < 64)
    (h : blockSample s a (n / 8) (n % 8) = none) : ∃ t, fdctBody a s = .error .seqFault t := by
  have hnone : allWritten (blockSamples s a) = none :=
    allWritten_eq_none (List.mem_map.mpr ⟨n, List.mem_range.mpr hn, h⟩)
  rw [fdctBody, requirePhase_bind, if_pos hp, get_bind, hnone]
  exact ⟨_, rfl⟩

theorem qzzBody_unwritten {q : Quant} (a : QSel) (hp : s.phase.allowsKernel = true) (hq : s.quant = some q) {n : Nat} (hn : n < 64)
    (h : element s.cdu n = none) : qzzBody a s = .error .seqFault s := by
  rw [qzzBody, requirePhase_bind, if_pos hp, requireQuant_bind_some hq, get_bind, allWritten_unwritten hn h]
  rfl

theorem jhufBody_unwritten {q : Quant} (a : Comp) (hp : s.phase.allowsKernel = true) (hq : s.quant = some q) {z : Nat} (hz : z < 64)
    (h : element s.du z = none) : jhufBody a s = .error .seqFault s := by
  rw [jhufBody, requirePhase_bind, if_pos hp, requireQuant_bind_some hq, get_bind, allWritten_unwritten hz h]
  rfl

/-- In another variant `CSUB` raises the same fault before it reads. -/
theorem csubBody_unwritten {q : Quant} (hp : s.phase.allowsKernel = true) (hq : s.quant = some q) {n : Nat} (hn : n < 256)
    (h : element s.up n = none ∨ element s.vp n = none) : csubBody s = .error .seqFault s := by
  rw [csubBody, conversionStart_bind hp hq, require_bind]
  split
  · rw [get_bind]
    rcases h with h | h
    · rw [allWritten_unwritten hn h]
      rfl
    · rw [allWritten_unwritten hn h]
      cases allWritten s.up.toList <;> rfl
  · rfl

/-! Unmapped addresses of the SRC range. -/

theorem crc32Body_unmapped {j : Nat} (hp : s.phase ≠ .failed) (hj : j < s.clen.toNat)
    (h : s.src.read (rangeAddr s j).toNat = none) : crc32Body .src s = .error .srcAccess s := by
  rw [crc32Body, requireLive_bind hp]
  exact bind_error (readRange_unmapped s.clen.toNat (Nat.zero_le j) (by omega) h)

theorem dataAt_src (hz : s.zsrc = .src) (j : Nat) : dataAt j s = memRead (rangeAddr s j) s := by rw [dataAt, hz]

/-- Reads of the input up to an unmapped byte raise the fault in the state they began in. -/
theorem dataAt_bind_unmapped {β : Type} {f : Byte → Body β} (hz : s.zsrc = .src) {k j : Nat}
    (h : s.src.read (rangeAddr s j).toNat = none) (hrest : k ≠ j → ∀ b, f b s = .error .srcAccess s) :
    (dataAt k >>= f) s = .error .srcAccess s := by
  have hk := dataAt_src hz k
  by_cases hkj : k = j
  · subst hkj
    exact bind_error (hk.trans (memRead_unmapped h))
  · rcases memRead_cases (rangeAddr s k) s with ⟨b, hb⟩ | herr
    · rw [bind_ok (hk.trans hb)]
      exact hrest hkj b
    · exact bind_error (hk.trans herr)

theorem searchStep_unmapped {i len j : Nat} (hz : s.zsrc = .src) (hi : i ≤ j) (hj : j < i + 3)
    (h : s.src.read (rangeAddr s j).toNat = none) : searchStep i len s = .error .srcAccess s :=
  dataAt_bind_unmapped hz h fun h0 _ => dataAt_bind_unmapped hz h fun h1 _ => dataAt_bind_unmapped hz h fun h2 _ => by omega

theorem lzstepBody_unmapped {j : Nat} (hp : s.phase ≠ .failed) (hrun : s.zph = .run) (htok : s.token = none) (hz : s.zsrc = .src)
    (hj : j < s.zlen.toNat) (h : s.src.read (rangeAddr s j).toNat = none)
    (hpos : j = s.zi.toNat ∨ (s.zi.toNat ≤ j ∧ j < s.zi.toNat + 3 ∧ s.zi.toNat + 3 < s.zlen.toNat)) :
    lzstepBody s = .error .srcAccess s := by
  have hready : lzReady s = true := (lzReady_iff s).mpr ⟨hrun, htok, by omega⟩
  rw [lzstepBody, requireLive_bind hp, get_bind, require_bind, if_pos hready]
  split
  · exact dataAt_bind_unmapped hz h fun hne => by omega
  · exact searchStep_unmapped hz (by omega) (by omega) h

end

/-! `ZEND` over an unmapped range. -/

theorem Yields.and_keeps {α : Type} {R : State → State → Prop} {b : Body α} {s : State} {Q : α → State → Prop} (h : Yields b s Q)
    (hb : Keeps R b) : Yields b s fun a t => Q a t ∧ R s t :=
  h.imp_left fun ⟨a, t, ht, hcaps, hQ⟩ => ⟨a, t, ht, hcaps, hQ, keeps_ok hb ht⟩

/-- An output of bits fails by the capacity of ZBUF only, whatever stands in the accumulator. -/
theorem yields_zBits (v n : Nat) (s : State) : Yields (zBits v n) s fun _ _ => True :=
  yields_modify_bind rfl (yields_get_bind ((yields_drainBytes _ _).imp fun _ _ _ => trivial))

/-- What a read of the SRC range depends on, and the capacities. -/
def SameRange (s t : State) : Prop := (t.src, t.cbase, t.caps) = (s.src, s.cbase, s.caps)

theorem bitWrites_sameRange : BitWrites SameRange := by
  constructor <;> intros <;> rfl

theorem chains_sameRange : Chains SameRange := chains_observation fun s => (s.src, s.cbase, s.caps)

theorem yields_zBits_sameRange (v n : Nat) (s : State) : Yields (zBits v n) s fun _ t => SameRange s t :=
  ((yields_zBits v n s).and_keeps (keeps_zBits chains_sameRange bitWrites_sameRange v n)).imp fun _ _ h => h.2

theorem yields_padZbits_sameRange (s : State) : Yields padZbits s fun _ t => SameRange s t := by
  refine yields_get_bind ?_
  split
  · exact yields_zBits_sameRange _ _ s
  · exact yields_of_ok rfl rfl rfl

theorem readRange_unmapped_same {s t : State} (hst : SameRange s t) {n j : Nat} (hj : j < n)
    (h : s.src.read (rangeAddr s j).toNat = none) : readRange 0 n t = .error .srcAccess t := by
  obtain ⟨hsrc, hbase, -⟩ := by simpa only [SameRange, Prod.mk.injEq] using hst
  refine readRange_unmapped n (Nat.zero_le j) (by omega) ?_
  rw [hsrc, rangeAddr, hbase]
  exact h

theorem zendBody_unmapped {s : State} {j : Nat} (hp : s.phase ≠ .failed) (hrun : s.zph = .run) (htok : s.token = none)
    (hz : s.zsrc = .src) (hend : s.zi = s.zlen) (hcap : s.caps.zbuf = none) (hj : j < s.zlen.toNat)
    (h : s.src.read (rangeAddr s j).toNat = none) : ∃ t, zendBody s = .error .srcAccess t := by
  rw [zendBody, requireLive_bind hp, get_bind, require_bind, if_pos ((zendReady_iff s).mpr ⟨hrun, htok, hend⟩)]
  have hbits : Yields (zHuff 256 >>= fun _ => padZbits) s fun _ t => SameRange s t :=
    yields_bind (yields_zBits_sameRange _ _ s) fun _ t ht => (yields_padZbits_sameRange t).imp fun _ _ hu =>
      chains_sameRange.trans _ _ _ ht hu
  obtain ⟨_, t, hok, ht⟩ := hbits.unlimited hcap
  obtain ⟨_, u, hu, hpad⟩ := bind_ok_inv hok
  rw [bind_ok hu, bind_ok hpad, hz]
  exact ⟨t, bind_error (readRange_unmapped_same ht hj h)⟩

end Sys2Proof.Proofs

/-! Faults of the body, 60_exceptions.md R303 step 6. Part 2: an append beyond the capacity of OUT (R63) or of ZBUF (R64). A body that
can only overflow, and that ended well within the capacity with too many bytes, is a contradiction. -/

namespace Sys2Proof.Proofs

open Sys2Proof Sys2Proof.Machine Sys2Proof.Laws

/-! OUT. -/

/-- OUT has the capacity `c` and is within it. -/
def OutWithin (c : Nat) (s : State) : Prop := s.caps.out = some c ∧ s.out.length ≤ c

section
variable {s : State} {c : Nat}

theorem fits_some_iff {n : Nat} : fits (some c) n = true ↔ n ≤ c := decide_eq_true_iff

theorem outBytes_overflow {bs : List Byte} (hc : s.caps.out = some c) (h : c < s.out.length + bs.length) :
    outBytes bs s = .error .outOverflow s := by
  rw [outBytes, hc, if_neg]
  exact fun hfit => absurd (fits_some_iff.mp hfit) (Nat.not_le.mpr h)

theorem endsOr_outBytes (bs : List Byte) (hc : s.caps.out = some c) : EndsOr .outOverflow (outBytes bs) s fun _ t =>
    t = { s with out := s.out ++ bs } ∧ OutWithin c t := by
  by_cases h : s.out.length + bs.length ≤ c
  · have hok : outBytes bs s = .ok () { s with out := s.out ++ bs } := by rw [outBytes, hc, if_pos (fits_some_iff.mpr h)]
    exact endsOr_of_ok hok ⟨rfl, hc, by simpa using h⟩
  · exact .inr ⟨s, outBytes_overflow hc (Nat.lt_of_not_le h)⟩

/-! `JHDR`, R202. -/

theorem jhdrBody_overflow {q : Quant} (hp : s.phase = .jInit) (hq : s.quant = some q) (hc : s.caps.out = some c)
    (h : c < s.out.length + 607) : jhdrBody s = .error .outOverflow s := by
  rw [jhdrBody, requirePhaseIs_bind, if_pos hp, requireQuant_bind_some hq, get_bind]
  exact bind_error (outBytes_overflow hc (by rwa [jpegHeader_length]))

/-! `PSIG` and `PCHUNK`, R263 and R264. -/

/-- A chunk that goes in goes in whole, within the capacity. -/
theorem endsOr_chunkBody (tag : Word) (p : List Byte) (hc : s.caps.out = some c) :
    EndsOr .outOverflow (chunkBody tag p) s fun _ t => t = chunkWritten s tag p ∧ OutWithin c t := by
  refine endsOr_bind (endsOr_outBytes _ hc) ?_
  rintro _ _ ⟨rfl, hc, -⟩
  refine endsOr_bind (endsOr_outBytes _ hc) ?_
  rintro _ _ ⟨rfl, hc, -⟩
  refine endsOr_bind (endsOr_outBytes _ hc) ?_
  rintro _ _ ⟨rfl, hc, -⟩
  refine endsOr_modify_bind ((endsOr_outBytes _ (by exact hc)).imp ?_)
  rintro _ t ⟨rfl, hwithin⟩
  exact ⟨by simp only [chunkWritten, chunkBytes, List.append_assoc], hwithin⟩

theorem psigBody_overflow (hp : s.phase = .idle) (hf : checkFault s = none) (ht : s.filetype = filePng)
    (hc : s.caps.out = some c) (h : c < 33) : ∃ t, psigBody s = .error .outOverflow t := by
  rw [psigBody, requirePhaseIs_bind, if_pos hp, checksBody_bind, hf]
  dsimp only
  rw [requireFiletype_bind, if_pos ht, modify_bind]
  refine EndsOr.fails (Q := fun _ _ => 33 ≤ c) ?_ fun _ _ => Nat.not_le.mpr h
  refine endsOr_bind (endsOr_outBytes pngSignature (by exact hc)) ?_
  rintro _ _ ⟨rfl, hc, -⟩
  refine endsOr_get_bind (endsOr_bind (endsOr_chunkBody _ _ hc) ?_)
  rintro _ _ ⟨rfl, -, hle⟩
  refine endsOr_of_ok rfl ?_
  rwa [chunkWritten, List.length_append, chunkBytes_length, ihdrPayload_length] at hle

theorem pchunkBody_overflow {a : PaySel} (hp : s.phase.allowsPng = true) (hready : payloadReady s a = true)
    (hc : s.caps.out = some c) (h : c < s.out.length + (12 + (chunkPayload s a).length)) :
    ∃ t, pchunkBody a s = .error .outOverflow t := by
  rw [pchunkBody, requirePhase_bind, if_pos hp, get_bind, require_bind, if_pos hready]
  obtain ⟨t, ht⟩ : ∃ t, chunkBody s.ctype (chunkPayload s a) s = .error .outOverflow t := by
    refine (endsOr_chunkBody _ _ hc).fails ?_
    rintro _ _ ⟨rfl, -, hle⟩
    rw [chunkWritten, List.length_append, chunkBytes_length] at hle
    exact absurd hle (Nat.not_le.mpr h)
  exact ⟨t, bind_error ht⟩

end

/-! `BFLUSH`, R163. A flush that ends well under a capacity ends as it would without one. -/

/-- The state with no capacity on OUT. -/
def outUncapped (s : State) : State := { s with caps := { s.caps with out := none } }

/-- `t` is within the capacity if `s` is, and the body does from `s` what it would do without one. -/
def FlushesAs (b : Body Unit) (c : Nat) (s t : State) : Prop :=
  b (outUncapped s) = .ok () (outUncapped t) ∧ OutWithin c t

theorem endsOr_flushBit (b : Bool) {c : Nat} {s : State} (hs : OutWithin c s) :
    EndsOr .outOverflow (flushBit b) s fun _ t => FlushesAs (flushBit b) c s t := by
  refine endsOr_modify_bind (endsOr_get_bind ?_)
  by_cases h8 : s.jaccn + 1 = 8
  · rw [if_pos (by exact h8)]
    refine endsOr_bind (endsOr_outBytes _ hs.1) ?_
    rintro _ _ ⟨rfl, hwithin⟩
    refine endsOr_of_ok rfl ⟨?_, hwithin⟩
    rw [flushBit, modify_bind, get_bind, if_pos (by exact h8), bind_ok (outBytes_unlimited _ rfl)]
    rfl
  · rw [if_neg (by exact h8)]
    refine endsOr_of_ok rfl ⟨?_, hs⟩
    rw [flushBit, modify_bind, get_bind, if_neg (by exact h8)]
    rfl

theorem endsOr_flushBits (bits : List Bool) {c : Nat} {s : State} (hs : OutWithin c s) :
    EndsOr .outOverflow (bits.forM flushBit) s fun _ t => FlushesAs (bits.forM flushBit) c s t := by
  induction bits generalizing s with
  | nil => exact endsOr_of_ok rfl ⟨rfl, hs⟩
  | cons b bits ih =>
    exact endsOr_bind (endsOr_flushBit b hs) fun _ t ⟨ht, hwithin⟩ => (ih hwithin).imp fun _ u ⟨hu, hwithin'⟩ =>
      ⟨(bind_ok ht).trans hu, hwithin'⟩

theorem scanBits_eq (s : State) : s.scanBits = msbBits s.jaccn s.jacc ++ s.bb.flatMap pairBits := by
  rw [State.scanBits, funext pairBits_eq]

theorem bflushBody_overflow {c : Nat} {s : State} (hp : s.phase.allowsScan = true) (hpend : ScanPending s) (hs : OutWithin c s)
    (h : c < s.out.length + (stuffed (fullBytes s.scanBits)).length) : ∃ t, bflushBody s = .error .outOverflow t := by
  rw [bflushBody, requirePhase_bind, if_pos hp, get_bind]
  suffices hbits : ∃ t, (s.bb.flatMap pairBits).forM flushBit s = .error .outOverflow t from hbits.imp fun _ => bind_error
  refine (endsOr_flushBits _ hs).fails ?_
  rintro _ t ⟨hflush, -, hle⟩
  obtain ⟨hn, ha⟩ := hpend
  have hfree := flushBits (s.bb.flatMap pairBits) (msbBits s.jaccn s.jacc) (outUncapped s) rfl (msbBits_length _ _).symm
    (bitsValue_msbBits _ _ ha).symm ((msbBits_length _ _).trans_lt (Nat.lt_succ_of_le hn))
  rw [hflush, ← scanBits_eq] at hfree
  have hout : t.out = s.out ++ stuffed (fullBytes s.scanBits) := congrArg State.out (EStateM.Result.ok.inj hfree).2
  rw [hout, List.length_append] at hle
  exact absurd h (Nat.not_lt.mpr hle)

/-! ZBUF. -/

/-- ZBUF is within its capacity. -/
def ZbufFits (s : State) : Prop := fits s.caps.zbuf s.zbuf.length = true

theorem appendZbuf_fits {b : Byte} {s t : State} {u : Unit} (h : appendZbuf b s = .ok u t) : ZbufFits t := by
  unfold appendZbuf at h
  split at h
  · rename_i hfit
    cases h
    simpa [ZbufFits] using hfit
  · cases h

theorem forM_appendZbuf_fits {bs : List Byte} (hne : bs ≠ []) {s t : State} (h : bs.forM appendZbuf s = .ok () t) : ZbufFits t := by
  induction bs generalizing s with
  | nil => exact absurd rfl hne
  | cons b bs ih =>
    obtain ⟨_, u, hu, hrest⟩ := bind_ok_inv h
    cases bs with
    | nil => cases hrest; exact appendZbuf_fits hu
    | cons b' bs => exact ih (List.cons_ne_nil b' bs) hrest

theorem guards_drainByte_fits : Guards (fun _ => True) ZbufFits drainByte :=
  guards_get_bind fun _ => guards_bind (fun _ _ => guardsAt_of_ok fun _ _ => appendZbuf_fits) fun _ => guards_modify fun _ h => h

theorem guards_zBits_fits (v n : Nat) : Guards (fun _ => True) ZbufFits (zBits v n) :=
  guards_bind (guards_modify fun _ h => h) fun _ => guards_get_bind fun _ => guards_repeat guards_drainByte_fits _

theorem guards_zExtra_fits (v n : Nat) : Guards (fun _ => True) ZbufFits (zExtra v n) := by
  unfold zExtra
  split
  · exact guards_zBits_fits v n
  · exact guards_pure ()

theorem guards_emitToken_fits (tok : Token) : Guards (fun _ => True) ZbufFits (emitToken tok) := by
  cases tok with
  | lit b => exact guards_zBits_fits _ _
  | copy len dist =>
    exact guards_bind (guards_require (fun _ _ => trivial) _ _) fun _ => guards_bind (guards_zBits_fits _ _) fun _ =>
      guards_bind (guards_zExtra_fits _ _) fun _ => guards_bind (guards_zBits_fits _ _) fun _ => guards_zExtra_fits _ _

theorem guards_zemitBody_fits : Guards (fun _ => True) ZbufFits zemitBody :=
  guards_bind (guards_requirePhase (fun _ _ => trivial) _) fun _ =>
    guards_bind (guards_of_keeps (fun _ _ => trivial) (fun s t (h : t = s) hs => h ▸ hs) (keeps_requireToken chains_same)) fun tok =>
      guards_bind (guards_emitToken_fits tok) fun _ => guards_modify fun _ h => h

/-- The checksum is the last to go in (R245). -/
theorem zendBody_fits {s t : State} {u : Unit} (h : zendBody s = .ok u t) : ZbufFits t := by
  obtain ⟨-, h⟩ := requirePhase_bind_ok h
  rw [get_bind] at h
  obtain ⟨-, h⟩ := require_bind_ok h
  obtain ⟨_, _, -, h⟩ := bind_ok_inv h
  obtain ⟨_, _, -, h⟩ := bind_ok_inv h
  obtain ⟨d, _, -, h⟩ := bind_ok_inv h
  rw [modify_bind] at h
  obtain ⟨_, v, hv, h⟩ := bind_ok_inv h
  cases h
  exact (forM_appendZbuf_fits (List.cons_ne_nil _ _) hv : ZbufFits v)

/-- A body that can only overflow ZBUF, and whose good end would be beyond the capacity, overflows. -/
theorem Yields.overflows {α : Type} {b : Body α} {s : State} {Q : α → State → Prop} (h : Yields b s Q)
    (hQ : ∀ a t, b s = .ok a t → t.caps = s.caps → ¬ Q a t) : ∃ t, b s = .error .outOverflow t := by
  rcases h with ⟨a, t, hok, hcaps, hq⟩ | ⟨-, herr⟩
  · exact absurd hq (hQ a t hok hcaps)
  · exact herr

theorem zbufFits_iff {s t : State} {c : Nat} (hcaps : t.caps = s.caps) (hc : s.caps.zbuf = some c) :
    ZbufFits t ↔ t.zbuf.length ≤ c := by
  rw [ZbufFits, hcaps, hc, fits_some_iff]

section
variable {s : State} {c : Nat}

theorem appendZbuf_overflow (b : Byte) (hc : s.caps.zbuf = some c) (h : c < s.zbuf.length + 1) :
    appendZbuf b s = .error .outOverflow s := by
  rw [appendZbuf, hc, if_neg]
  exact fun hfit => absurd (fits_some_iff.mp hfit) (Nat.not_le.mpr h)

theorem zbeginBody_overflow (a : ZSel) (hp : s.phase ≠ .failed) (hc : s.caps.zbuf = some c) (h : c < 2) :
    ∃ t, zbeginBody a s = .error .outOverflow t := by
  rw [zbeginBody, requireLive_bind hp, modify_bind]
  rcases yields_appendZbuf 0x78 (s.startStream a) with ⟨_, t, h1, -, rfl⟩ | ⟨-, t, h1⟩
  · rw [bind_ok h1]
    exact ⟨_, bind_error (appendZbuf_overflow 0x5E hc (by exact h))⟩
  · exact ⟨t, bind_error h1⟩

theorem zemitBody_overflow {tok : Token} (hp : s.phase ≠ .failed) (hrun : s.zph = .run) (htok : s.token = some tok)
    (hlegal : tok.legal) (hpend : StreamPending s) (hc : s.caps.zbuf = some c) (hle : s.zbuf.length ≤ c)
    (h : c < s.zbuf.length + (s.zaccn + (tokenBits tok).length) / 8) : ∃ t, zemitBody s = .error .outOverflow t := by
  refine (zemitBody_yields hp hrun htok hlegal hpend).overflows ?_
  rintro _ t hok hcaps ⟨u, ⟨zbuf, zacc, zaccn, rfl, ⟨hn, -⟩, hbits⟩, rfl⟩
  have hfits := (guards_zemitBody_fits s ((zbufFits_iff rfl hc).mpr hle)).ok hok
  have hend : zbuf.length ≤ c := (zbufFits_iff hcaps hc).mp hfits
  have hlen := congrArg List.length hbits
  rw [List.length_append, streamBits_length, streamBits_length] at hlen
  change zaccn ≤ 7 at hn
  change 8 * zbuf.length + zaccn = _ at hlen
  omega

theorem zendBody_overflow {data : List Byte} (hp : s.phase ≠ .failed) (hrun : s.zph = .run) (htok : s.token = none)
    (hend : s.zi = s.zlen) (hin : s.inputIs data = true) (hpend : StreamPending s) (hc : s.caps.zbuf = some c)
    (h : c < s.zbuf.length + (s.zaccn + 14) / 8 + 4) : ∃ t, zendBody s = .error .outOverflow t := by
  refine (zendBody_yields hp ((zendReady_iff s).mpr ⟨hrun, htok, hend⟩) hin hpend).overflows ?_
  rintro _ t hok hcaps ⟨zbuf, pad, rfl, hpad, hbits⟩
  have hle := (zbufFits_iff hcaps hc).mp (zendBody_fits hok)
  have hlen := congrArg List.length hbits
  rw [List.length_append, streamBits_length, byteBits_length, List.length_replicate] at hlen
  rw [streamEnded, List.length_append, bigEndian_length] at hle
  omega

end

/-- Settles O10: each body raises its fault from every state that meets the clause. -/
theorem bodyFaultsReported : Obligations.BodyFaultsReported := by
  intro s
  refine ⟨fun q hq hp => ?_, fun hp j hj => ?_, fun c hc => ?_, fun c hc hp => ?_⟩
  · have hlive := allowsKernel_ne_failed hp
    exact ⟨fun hk hf hm => raises_of_error .gray2y .srcAccess hlive (gray2yBody_unmapped hp hq hk hf hm),
      fun bpp k hk hf hb hm => raises_of_error .rgb2yuv .srcAccess hlive (rgb2yuvBody_unmapped hp hq hk hf hb hm),
      fun hk hm => raises_of_error .yuvload .srcAccess hlive (yuvloadBody_unmapped hp hq hk hm),
      fun a n hn h => raises_of_error (.fdct a) .seqFault hlive (fdctBody_unwritten a hp hn h),
      fun a n hn h => command_error hlive (qzzBody_unwritten a hp hq hn h),
      fun a z hz h => command_error hlive (jhufBody_unwritten a hp hq hz h),
      fun n hn h => command_error hlive (csubBody_unwritten hp hq hn h)⟩
  · refine ⟨fun hlt => command_error hp (crc32Body_unmapped hp hlt hj), fun hrun htok hz hlt => ⟨fun hpos => ?_, fun hend hcap => ?_⟩⟩
    · exact command_error hp (lzstepBody_unmapped hp hrun htok hz hlt hj hpos)
    · exact raises_of_error .zend .srcAccess hp (zendBody_unmapped hp hrun htok hz hend hcap hlt hj)
  · refine ⟨fun hp hq h => ?_, fun hp hacc hle h => ?_, fun hp hf ht h => ?_, fun a hp hready h => ?_⟩
    · obtain ⟨q, hq⟩ := Option.isSome_iff_exists.mp hq
      exact command_error (by rw [hp]; decide) (jhdrBody_overflow hp hq hc h)
    · have hlive := allowsScan_ne_failed hp
      exact raises_of_error .bflush .outOverflow hlive (bflushBody_overflow hp ((accumulatorInv_iff s).mp hacc hlive).1 ⟨hc, hle⟩ h)
    · exact raises_of_error .psig .outOverflow (by rw [hp]; decide) (psigBody_overflow hp hf ht hc h)
    · refine raises_of_error (.pchunk a) .outOverflow (allowsPng_ne_failed hp) (pchunkBody_overflow hp ((payloadReady_iff s a).mpr hready) hc ?_)
      rw [← Nat.add_assoc]
      cases a <;> exact h
  · refine ⟨fun a h => raises_of_error (.zbegin a) .outOverflow hp (zbeginBody_overflow a hp hc h), fun hrun hacc => ?_⟩
    have hpend := streamPending_of_accumulatorInv hp hacc
    exact ⟨fun tok htok hlegal hle h => raises_of_error .zemit .outOverflow hp (zemitBody_overflow hp hrun htok hlegal hpend hc hle h),
      fun data htok hend hin h => raises_of_error .zend .outOverflow hp (zendBody_overflow hp hrun htok hend hin hpend hc h)⟩

end Sys2Proof.Proofs
